-- ==== Sys2Proof/Word.lean ====
section
/-! DEFINITION. The word types of the block (00_scope.md R6, R7, R12) and the three fixed name sets that
operands range over: the engine (R2), the predictor variant (10_state.md R25), the storage unit width (R5). -/

namespace Sys2Proof

/-- A 64-bit register, operand or raw value; an i64 is its two's-complement pattern (R7). -/
abbrev W64 := BitVec 64

/-- A u32 register (`stored_leading_zeros`, `stored_trailing_zeros`, R21, R22). -/
abbrev W32 := BitVec 32

/-- One byte of a stream memory in the byte view of R63. -/
abbrev Byte := BitVec 8

/-- A flattened command word, 137 bits (R91). -/
abbrev CommandWord := BitVec 137

/-- The two engines (R2): `E` compresses, `D` decompresses. -/
inductive Engine where
  | E
  | D
deriving DecidableEq, Repr

/-- The predictor variants (R25): `LAST` is 0, `DFCM` is 1. -/
inductive PredKind where
  | last
  | dfcm
deriving DecidableEq, Repr

/-- The legal values of the OPEN parameter `UNIT_BITS` (R5): 8, 16, 32, 64. -/
inductive UnitWidth where
  | w8
  | w16
  | w32
  | w64
deriving DecidableEq, Repr

/-- `UNIT_BITS` as a number. -/
def UnitWidth.bits : UnitWidth → Nat
  | .w8 => 8
  | .w16 => 16
  | .w32 => 32
  | .w64 => 64

/-- Bytes in one unit (R63). -/
def UnitWidth.bytes : UnitWidth → Nat
  | .w8 => 1
  | .w16 => 2
  | .w32 => 4
  | .w64 => 8

end Sys2Proof
end

