-- ==== Sys2Proof/Config.lean ====
section
/-! DEFINITION. The parameters of 00_scope.md R5: the fixed ones as constants, the OPEN ones as a record that
a state carries, and the free values of the two stream memories after power-on (10_state.md R35, "unspecified"). -/

namespace Sys2Proof

/-- The OPEN parameters of one instance of the block (R5). `none` is "unbounded". `DFCM_MAX_SIZE` is a power
of two, so its base-2 logarithm is kept. No operation writes them (R33 (a)). -/
structure Params where
  /-- `UNIT_BITS`. -/
  unit : UnitWidth
  /-- `SINK_CAP_UNITS`. -/
  sinkCapUnits : Option Nat
  /-- log2 of `DFCM_MAX_SIZE`. -/
  dfcmMaxLog2 : Option Nat
deriving DecidableEq, Repr

namespace Config

/-- `FIRST_DELTA_BITS` (R5). -/
def firstDeltaBits : Nat := 27

/-- `FIRST_DELTA_EMPTY` = 2^27 - 1, the empty-block marker (R5, R105). -/
def firstDeltaEmpty : W64 := 0x7FFFFFF#64

/-- `TS_PREFIX_MAX` (R5). -/
def tsPrefixMax : Nat := 4

/-- `TS_SENTINEL`, the reserved 32-bit payload (R5, R105). -/
def tsSentinel : W64 := 0xFFFFFFFF#64

/-- `LEADING_FIELD_BITS` (R5). -/
def leadingFieldBits : Nat := 6

/-- `LENGTH_FIELD_BITS` (R5). -/
def lengthFieldBits : Nat := 6

/-- `VALUE_BITS` (R5). -/
def valueBits : Nat := 64

/-- `NO_WINDOW`, the "infinite" leading-zero count (R5). -/
def noWindow : W32 := 0xFFFFFFFF#32

/-- Content of byte `addr` of SM_E before this instance ever wrote it: a FREE VALUE (R35, U20; log 2). -/
opaque powerOnSinkByte (addr : Nat) : Byte

/-- Content of byte `addr` of SM_D before the host ever wrote it: a FREE VALUE (R35, U20; log 2). -/
opaque powerOnSourceByte (addr : Nat) : Byte

/-- The parameter values `State.reset` carries (DESIGN CHOICE, log 1): the canonical `UNIT_BITS` = 8 of R63 and
no bound on the sink or on the table. No statement but those about `State.reset` itself rests on them. -/
def params : Params := { unit := .w8, sinkCapUnits := none, dfcmMaxLog2 := none }

end Config
end Sys2Proof
end

