-- ==== Sys2Proof/Syntax.lean ====
section
/-! DEFINITION. The instructions: one constructor per row of spec/opcode_table.json. -/

namespace Sys2Proof

/-- Every row of the opcode table: five commands, eighteen micro-operations, fifteen stream code words. -/
inductive Instr where
  -- commands of engine E (30_encoding.md R92, R93)
  /-- C_INIT: `K`, `A` = block_timestamp, `B` = table_size_req (R222). -/
  | cInit (kind : PredKind) (blockTimestamp tableSizeReq : W64)
  /-- ADD_VALUE: `A` = timestamp, `B` = value (R223). -/
  | addValue (timestamp value : W64)
  /-- CLOSE (R224). -/
  | close
  -- commands of engine D
  /-- D_INIT: `K`, `A` = src_len_units, `B` = table_size_req (R225). -/
  | dInit (kind : PredKind) (srcLenUnits tableSizeReq : W64)
  /-- READ_PAIR (R226). -/
  | readPair
  -- BitSink micro-operations (40_bitsink.md)
  /-- WRITE_BIT (R121). -/
  | writeBit (bit : Bool)
  /-- SKIP_BIT (R122). -/
  | skipBit
  /-- WRITE_BITS: `n` is a u8, above 64 BAD_WIDTH (R123). -/
  | writeBits (value : W64) (n : Byte)
  /-- FLUSH (R124). -/
  | flush
  -- BitSource micro-operations (41_bitsource.md)
  /-- READ_BIT (R141). -/
  | readBit
  /-- READ_BITS: `n` is a u8, above 64 BAD_WIDTH (R142). -/
  | readBits (n : Byte)
  /-- READ_RUN_OF_ONES (R143). -/
  | readRunOfOnes (maxBits : Byte)
  -- predictor micro-operations of either engine (42_predictor.md)
  /-- PRED_INIT (R161). -/
  | predInit (x : Engine) (kind : PredKind) (sizeReq : W64)
  /-- PRED_UPDATE (R162, R164). -/
  | predUpdate (x : Engine) (value : W64)
  /-- PRED_PREDICT (R163, R165). -/
  | predPredict (x : Engine)
  -- value codec micro-operations (43_value_xor.md)
  /-- VAL_WRITE_FIRST (R181). -/
  | valWriteFirst (value : W64)
  /-- VAL_COMPRESS (R182). -/
  | valCompress (value : W64)
  /-- VAL_READ_FIRST (R183). -/
  | valReadFirst
  /-- VAL_DECOMPRESS (R184). -/
  | valDecompress
  -- timestamp codec micro-operations (44_timestamp_dod.md)
  /-- TS_WRITE_FIRST (R201). -/
  | tsWriteFirst (timestamp : W64)
  /-- TS_COMPRESS (R202). -/
  | tsCompress (timestamp : W64)
  /-- TS_READ_FIRST (R204). -/
  | tsReadFirst
  /-- TS_DECOMPRESS (R205). -/
  | tsDecompress
  -- stream code words (30_encoding.md R96 to R105)
  /-- HEADER: 64 bits (R97). -/
  | header (blockTimestamp : W64)
  /-- FIRST_DELTA: 27 bits, not all ones (R98). -/
  | firstDelta (d : BitVec 27)
  /-- EMPTY_MARKER: 27 ones where a first delta would stand (R105). -/
  | emptyMarker
  /-- FIRST_VALUE: 64 bits (R98). -/
  | firstValue (value : W64)
  /-- TS_ZERO: `0` (R99). -/
  | tsZero
  /-- TS_7: `10` and 7 payload bits (R99). -/
  | ts7 (p : BitVec 7)
  /-- TS_9: `110` and 9 payload bits (R99). -/
  | ts9 (p : BitVec 9)
  /-- TS_12: `1110` and 12 payload bits (R99). -/
  | ts12 (p : BitVec 12)
  /-- TS_32: `1111` and 32 payload bits, not all ones (R99). -/
  | ts32 (p : BitVec 32)
  /-- TS_SENTINEL: 36 ones at a timestamp position (R105). -/
  | tsSentinel
  /-- VAL_SAME: `0` (R101). -/
  | valSame
  /-- VAL_REUSE: `10` and a tail of `n` bits (R101); `n` is the width the decoder's window gives, 0 where the
  decoder has no window and reads no tail (R105). -/
  | valReuse (n : Nat) (bits : W64)
  /-- VAL_NEW: `11`, `leading`, `length_m1` and a tail of `length_m1 + 1` bits (R101, R102); no tail where
  `leading + length_m1 + 1 > 64` (R105). -/
  | valNew (leading lengthM1 : BitVec 6) (bits : W64)
  /-- TERMINATOR: `1111`, 32 ones, `0` (R103). -/
  | terminator
  /-- PADDING: `k` zero bits after the terminator (R104). -/
  | padding (k : Nat)
deriving DecidableEq, Repr

/-- The port a command is issued on (R92); `none` for what no host can issue (R11). -/
def Instr.port : Instr → Option Engine
  | .cInit _ _ _ => some .E
  | .addValue _ _ => some .E
  | .close => some .E
  | .dInit _ _ _ => some .D
  | .readPair => some .D
  | .writeBit _ => none
  | .skipBit => none
  | .writeBits _ _ => none
  | .flush => none
  | .readBit => none
  | .readBits _ => none
  | .readRunOfOnes _ => none
  | .predInit _ _ _ => none
  | .predUpdate _ _ => none
  | .predPredict _ => none
  | .valWriteFirst _ => none
  | .valCompress _ => none
  | .valReadFirst => none
  | .valDecompress => none
  | .tsWriteFirst _ => none
  | .tsCompress _ => none
  | .tsReadFirst => none
  | .tsDecompress => none
  | .header _ => none
  | .firstDelta _ => none
  | .emptyMarker => none
  | .firstValue _ => none
  | .tsZero => none
  | .ts7 _ => none
  | .ts9 _ => none
  | .ts12 _ => none
  | .ts32 _ => none
  | .tsSentinel => none
  | .valSame => none
  | .valReuse _ _ => none
  | .valNew _ _ _ => none
  | .terminator => none
  | .padding _ => none

/-- Where a bit string is read from: a command word, or a position of the compressed stream. What a stream
code word means depends on the position, not on its bits alone (R107). -/
inductive Space where
  /-- A 137-bit command word (R91). -/
  | word
  /-- Stream bits 0 to 63 (R97). -/
  | header
  /-- The first-delta position, `D.phase` = READY (R98, R105). -/
  | firstDelta
  /-- The first-value position (R98). -/
  | firstValue
  /-- A timestamp position of a later sample (R99). -/
  | timestamp
  /-- A value position of a later sample; the tail width a VAL_REUSE has there, 0 with no window (R101). -/
  | value (reuseWidth : Nat)
  /-- What only engine E writes, after the last sample (R103, R104). -/
  | trailer
deriving DecidableEq, Repr

/-- The space an instruction's bits are read in. -/
def Instr.space : Instr → Space
  | .cInit _ _ _ => .word
  | .addValue _ _ => .word
  | .close => .word
  | .dInit _ _ _ => .word
  | .readPair => .word
  | .writeBit _ => .word
  | .skipBit => .word
  | .writeBits _ _ => .word
  | .flush => .word
  | .readBit => .word
  | .readBits _ => .word
  | .readRunOfOnes _ => .word
  | .predInit _ _ _ => .word
  | .predUpdate _ _ => .word
  | .predPredict _ => .word
  | .valWriteFirst _ => .word
  | .valCompress _ => .word
  | .valReadFirst => .word
  | .valDecompress => .word
  | .tsWriteFirst _ => .word
  | .tsCompress _ => .word
  | .tsReadFirst => .word
  | .tsDecompress => .word
  | .header _ => .header
  | .firstDelta _ => .firstDelta
  | .emptyMarker => .firstDelta
  | .firstValue _ => .firstValue
  | .tsZero => .timestamp
  | .ts7 _ => .timestamp
  | .ts9 _ => .timestamp
  | .ts12 _ => .timestamp
  | .ts32 _ => .timestamp
  | .tsSentinel => .timestamp
  | .valSame => .value 0
  | .valReuse n _ => .value n
  | .valNew _ _ _ => .value 0
  | .terminator => .trailer
  | .padding _ => .trailer

/-- The assembler lines of R108 and the pseudo-instructions of R109. -/
inductive AsmLine where
  /-- `C_INIT ts=<i64> [pred=LAST | pred=DFCM size=<i64>]`. -/
  | cInit (ts : Int) (dfcmSize : Option Int)
  /-- `ADD ts=<i64> val=<u64>` and `ADD_U64`. -/
  | add (ts : Int) (val : Nat)
  /-- `ADD_I64 ts=<i64> val=<signed integer>`. -/
  | addI64 (ts val : Int)
  /-- `ADD_F64 ts=<i64> val=<double>`, the double given by its binary64 fields. -/
  | addF64 (ts : Int) (sign : Bool) (exponent : BitVec 11) (fraction : BitVec 52)
  /-- `CLOSE`. -/
  | close
  /-- `D_INIT len=<units> [pred=LAST | pred=DFCM size=<i64>]`. -/
  | dInit (len : Nat) (dfcmSize : Option Int)
  /-- `READ`. -/
  | read
deriving DecidableEq, Repr

end Sys2Proof
end

