-- ==== Sys2Proof/Machine/State.lean ====
section
/-! DEFINITION. The state of the block (10_state.md R20 to R29) as plain data, the events the host delivers, the
reasons a step stops, and the state after reset (R35, 70_reset_and_hazards.md R280). -/

namespace Sys2Proof
namespace Machine

/-- `E.phase` (R23). Codes 5 to 7 are reserved and never produced (U19). -/
inductive PhaseE where
  | idle
  | ready
  | afterFirst
  | streaming
  | closed
deriving DecidableEq, Repr

/-- `D.phase` (R23). -/
inductive PhaseD where
  | idle
  | ready
  | afterFirst
  | streaming
  | exhausted
deriving DecidableEq, Repr

/-- The contents of a `fault` register (R24, 60_exceptions.md R251). Codes 8 to 15 are never written. -/
inductive FaultCode where
  | none
  | capacity
  | sourceExhausted
  | config
  | firstDeltaRange
  | dodRange
  | malformed
  | badWidth
deriving DecidableEq, Repr

/-- The `status` field of a response (30_encoding.md R94). -/
inductive Status where
  | ok
  | absent
  | refusedPhase
  | refusedFaulted
  | refusedIllegalOp
  | fault
deriving DecidableEq, Repr

/-- The response record a command is answered with (R94). -/
structure Response where
  status : Status
  fault : FaultCode
  timestamp : W64
  value : W64
deriving DecidableEq, Repr

/-- A stream memory as bytes in stream order (20_memory.md R60, R63), addresses strictly rising. -/
abbrev Memory := List Host.Cell

/-- A DFCM table: the entries that are not 0, indices strictly rising; every other entry is 0 (R29, R161). -/
abbrev Table := List (Nat × W64)

/-- One predictor instance (R25, R29). -/
structure Pred where
  kind : PredKind
  size : Nat
  lastValue : W64
  hash : Nat
  table : Table
deriving DecidableEq, Repr

/-- The session registers each engine has its own copy of (R21, R22), with its predictor instance (R29). -/
structure Session where
  blockTimestamp : W64
  storedTimestamp : W64
  storedDelta : W64
  storedLeadingZeros : W32
  storedTrailingZeros : W32
  pred : Pred
deriving DecidableEq, Repr

/-- Engine E (R20, R21, R23, R24, R26). `acc` holds the `UNIT_BITS`-bit accumulator in its low bits. -/
structure EngineE where
  phase : PhaseE
  fault : FaultCode
  ses : Session
  smE : Memory
  wUnit : Nat
  acc : W64
  accFill : Nat
deriving DecidableEq, Repr

/-- Engine D (R20, R22, R23, R24, R28). -/
structure EngineD where
  phase : PhaseD
  fault : FaultCode
  ses : Session
  smD : Memory
  srcLenUnits : Nat
  rPos : Nat
deriving DecidableEq, Repr

/-- What a micro-operation or a code word run alone returned (the MODEL's own, log 6). -/
inductive Returned where
  | nothing
  /-- A bit, a u32 or a u64 result, zero-extended. -/
  | word (v : W64)
  /-- TS_READ_FIRST's (empty, timestamp) or TS_DECOMPRESS's (end, timestamp). -/
  | flagged (flag : Bool) (timestamp : W64)
deriving DecidableEq, Repr

/-- One event from outside the block (the MODEL's own, log 5, 6, 7). The first three are the host's. -/
inductive Request where
  /-- A command word on an engine's port (R91). -/
  | command (port : Engine) (w : CommandWord)
  /-- The host writes bytes of SM_D from byte address `addr` on (R60, R283). -/
  | hostWrite (addr : Nat) (bytes : List Byte)
  /-- Hardware reset (R280). -/
  | reset
  /-- The bench: one micro-operation word run alone (R11). -/
  | micro (w : CommandWord)
  /-- The bench: engine D decodes and runs the one code word at `D.r_pos`, in space `sp` (R107). -/
  | element (sp : Space)
  /-- The bench: engine E writes a code word that is only ever written (R103, R104). -/
  | emit (bits : List Bool)
deriving DecidableEq, Repr

/-- The state of the block (R20) and the model's own fields (log 1, 5, 6). -/
structure State where
  params : Params
  e : EngineE
  d : EngineD
  respE : Option Response
  respD : Option Response
  ret : Returned
  input : List Request
deriving DecidableEq, Repr

/-- Why the model's step stops with a fault. (The block's own faults are register values, `FaultCode`.) -/
inductive Fault where
  /-- Raised by FLUSH run alone when it would commit to a unit index at or above `SINK_CAP_UNITS`, an address
  that does not exist (R60, R125). No state that a run reaches is such a state. Safe: the model stops. -/
  | sinkUnitAbsent
deriving DecidableEq, Repr

/-- Why the model's step refuses. (The block's own refusals are answers on the port, `Status`.) -/
inductive Refusal where
  /-- Raised by no arm of this model: every instruction has its meaning. Safe: the model stops. -/
  | notModelled (mnemonic : String)
  /-- Raised by a host write to a unit of SM_D below `src_len_units` in a live session of engine D: the spec
  gives no meaning to such a session (R74, R292, U21; log 11). Safe: the model stops. -/
  | sourceChangedInSession
  /-- Raised by a bench word that names no micro-operation (log 6). Not an instruction. Safe: it stops. -/
  | notAMicroOperation
  /-- Raised by bench bits that are no code word of the space they are given in (log 7). Not an instruction.
  Safe: it stops. -/
  | notACodeWord
deriving DecidableEq, Repr

/-- The predictor registers after reset (R35). -/
def Pred.reset : Pred :=
  { kind := .last, size := 1, lastValue := 0#64, hash := 0, table := [] }

/-- The session registers after reset (R35). -/
def Session.reset : Session :=
  { blockTimestamp := 0#64, storedTimestamp := 0#64, storedDelta := 0#64,
    storedLeadingZeros := Config.noWindow, storedTrailingZeros := 0#32, pred := Pred.reset }

/-- Engine E after reset (R35). -/
def EngineE.reset : EngineE :=
  { phase := .idle, fault := .none, ses := Session.reset, smE := [], wUnit := 0, acc := 0#64, accFill := 0 }

/-- Engine D after reset (R35). -/
def EngineD.reset : EngineD :=
  { phase := .idle, fault := .none, ses := Session.reset, smD := [], srcLenUnits := 0, rPos := 0 }

/-- An instance with parameters `p` right after reset (R35, R280), nothing answered and nothing to deliver. -/
def State.resetWith (p : Params) : State :=
  { params := p, e := EngineE.reset, d := EngineD.reset, respE := none, respD := none, ret := .nothing,
    input := [] }

/-- The machine right after reset, with the parameter values of log 1. -/
def State.reset : State := State.resetWith Config.params

end Machine
end Sys2Proof
end

