-- ==== Sys2Proof/Machine/Flags.lean ====
section
/-! DEFINITION. The block has no condition flags (10_state.md R31); this file holds what stands in their place:
the numeric codes of the phase, fault, kind and status fields (R23, R25, 30_encoding.md R94, 60_exceptions.md
R251) and the phases each command is legal in (45_framing.md R227). -/

namespace Sys2Proof
namespace Machine

/-- The 3-bit code of `E.phase` (R23). -/
def PhaseE.code : PhaseE → BitVec 3
  | .idle => 0#3
  | .ready => 1#3
  | .afterFirst => 2#3
  | .streaming => 3#3
  | .closed => 4#3

/-- The 3-bit code of `D.phase` (R23). -/
def PhaseD.code : PhaseD → BitVec 3
  | .idle => 0#3
  | .ready => 1#3
  | .afterFirst => 2#3
  | .streaming => 3#3
  | .exhausted => 4#3

/-- The 4-bit fault code (R251). -/
def FaultCode.code : FaultCode → BitVec 4
  | .none => 0#4
  | .capacity => 1#4
  | .sourceExhausted => 2#4
  | .config => 3#4
  | .firstDeltaRange => 4#4
  | .dodRange => 5#4
  | .malformed => 6#4
  | .badWidth => 7#4

/-- The 3-bit status code (R94). -/
def Status.code : Status → BitVec 3
  | .ok => 0#3
  | .absent => 1#3
  | .refusedPhase => 2#3
  | .refusedFaulted => 3#3
  | .refusedIllegalOp => 4#3
  | .fault => 5#3

/-- The phases ADD_VALUE and CLOSE are legal in (R223, R224, R227). -/
def PhaseE.live : PhaseE → Bool
  | .idle => false
  | .ready => true
  | .afterFirst => true
  | .streaming => true
  | .closed => false

/-- The phases of a D session that still reads its source (R232). -/
def PhaseD.live : PhaseD → Bool
  | .idle => false
  | .ready => true
  | .afterFirst => true
  | .streaming => true
  | .exhausted => false

/-- The phases READ_PAIR is legal in (R226, R227). -/
def PhaseD.readable : PhaseD → Bool
  | .idle => false
  | .ready => true
  | .afterFirst => true
  | .streaming => true
  | .exhausted => true

end Machine
end Sys2Proof
end

