-- ==== Sys2Proof/Decode.lean ====
section
/-! DEFINITION. The decoder of command words (30_encoding.md R90 to R95) and of stream code words (R96 to R107),
total on any bits and rejecting by name; after it the encoder, written from the same tables; the assembler of R108,
R109; and the host's view of the opcode table. -/

namespace Sys2Proof

/-! Bit strings in stream order (R6, R62): the most significant bit of a field comes first. -/

/-- The low `n` bits of `v`, most significant first (R62). -/
def bitsOf {w : Nat} (v : BitVec w) : Nat → List Bool
  | 0 => []
  | n + 1 => v.getLsbD n :: bitsOf v n

/-- One bit as a value (R7, `zext`). -/
def bitVal (w : Nat) (b : Bool) : BitVec w := if b then 1#w else 0#w

/-- `v` followed by one more bit (R142: `(v << 1) OR bit`). -/
def pushBit {w : Nat} (v : BitVec w) (b : Bool) : BitVec w := (v <<< 1) ||| bitVal w b

/-- `v` followed by a bit string, first bit most significant (R142). -/
def ofBitsFrom {w : Nat} (v : BitVec w) : List Bool → BitVec w
  | [] => v
  | b :: bs => ofBitsFrom (pushBit v b) bs

/-- A bit string right-aligned as an unsigned number (R62, R142). -/
def ofBits (w : Nat) (bs : List Bool) : BitVec w := ofBitsFrom 0#w bs

/-! Command words. -/

/-- Why a bit string is rejected. -/
inductive Reject where
  /-- The `op` field names no operation of R92 (R95). -/
  | illegalOp (op : Byte)
  /-- Fewer than 137 bits are no command word (R91). -/
  | shortWord
  /-- The stream ends inside the part that tells the code words apart; `used` bits are there and consumed. -/
  | exhausted (used : Nat)
  /-- The stream ends inside the tail of the word `head` begins; `head` is it with a tail of zeros. -/
  | cutTail (head : Instr)
  /-- Neither a TERMINATOR nor a PADDING (R103, R104). -/
  | notTrailer
deriving DecidableEq, Repr

/-- The `K` bit as a predictor kind (R91, R93). -/
def kindOf (k : Bool) : PredKind := if k then .dfcm else .last

/-- `pred_kind` as the `K` bit (R25). -/
def PredKind.bit : PredKind → Bool
  | .last => false
  | .dfcm => true

/-- The engine a PRED_ word names in A[0] (the model's layout, log 6). -/
def engineOf (b : Bool) : Engine := if b then .D else .E

/-- The A[0] bit of a PRED_ word (the model's layout, log 6). -/
def Engine.bit : Engine → Bool
  | .E => false
  | .D => true

/-- The operation number table of R92 with the operands of R93; unused fields are ignored (R91, R95). A
micro-operation's operands lie where log 6 says: a value in B, a timestamp in A, a width in A[7:0]. -/
def decodeOp (op : Byte) (k : Bool) (a b : W64) : Except Reject Instr :=
  if op = 0x01#8 then .ok (.cInit (kindOf k) a b)
  else if op = 0x02#8 then .ok (.addValue a b)
  else if op = 0x03#8 then .ok .close
  else if op = 0x11#8 then .ok (.dInit (kindOf k) a b)
  else if op = 0x12#8 then .ok .readPair
  else if op = 0x20#8 then .ok (.writeBit (a.getLsbD 0))
  else if op = 0x21#8 then .ok .skipBit
  else if op = 0x22#8 then .ok (.writeBits b (a.setWidth 8))
  else if op = 0x23#8 then .ok .flush
  else if op = 0x30#8 then .ok .readBit
  else if op = 0x31#8 then .ok (.readBits (a.setWidth 8))
  else if op = 0x32#8 then .ok (.readRunOfOnes (a.setWidth 8))
  else if op = 0x40#8 then .ok (.predInit (engineOf (a.getLsbD 0)) (kindOf k) b)
  else if op = 0x41#8 then .ok (.predUpdate (engineOf (a.getLsbD 0)) b)
  else if op = 0x42#8 then .ok (.predPredict (engineOf (a.getLsbD 0)))
  else if op = 0x50#8 then .ok (.valWriteFirst b)
  else if op = 0x51#8 then .ok (.valCompress b)
  else if op = 0x52#8 then .ok .valReadFirst
  else if op = 0x53#8 then .ok .valDecompress
  else if op = 0x60#8 then .ok (.tsWriteFirst a)
  else if op = 0x61#8 then .ok (.tsCompress a)
  else if op = 0x62#8 then .ok .tsReadFirst
  else if op = 0x63#8 then .ok .tsDecompress
  else .error (.illegalOp op)

/-- A flattened command word (R91): `op` 136:129, `K` 128, `A` 127:64, `B` 63:0. -/
def decodeWord (w : CommandWord) : Except Reject Instr :=
  decodeOp (w.extractLsb' 129 8) (w.getLsbD 128) (w.extractLsb' 64 64) (w.extractLsb' 0 64)

/-! Stream code words. -/

/-- A field of `n` bits at the front of `r`, after `used` bits of the word; `k` builds the instruction. -/
def fieldAt (n used : Nat) (r : List Bool) (k : W64 → Instr) : Except Reject (Instr × Nat) :=
  if r.length < n then .error (.cutTail (k 0#64)) else .ok (k (ofBits 64 (r.take n)), used + n)

/-- The first-delta position (R98, R105): the all-ones value is tested first. -/
def firstDeltaWord (v : W64) : Instr :=
  if v = Config.firstDeltaEmpty then .emptyMarker else .firstDelta (v.setWidth 27)

/-- A `1111` timestamp code (R99, R105): the sentinel is tested first. -/
def ts32Word (v : W64) : Instr :=
  if v = Config.tsSentinel then .tsSentinel else .ts32 (v.setWidth 32)

/-- A timestamp code word (R99): a run of at most four ones, then the payload of its class. -/
def decodeTimestamp : List Bool → Except Reject (Instr × Nat)
  | [] => .error (.exhausted 0)
  | false :: _ => .ok (.tsZero, 1)
  | [true] => .error (.exhausted 1)
  | true :: false :: r => fieldAt 7 2 r (fun v => .ts7 (v.setWidth 7))
  | [true, true] => .error (.exhausted 2)
  | true :: true :: false :: r => fieldAt 9 3 r (fun v => .ts9 (v.setWidth 9))
  | [true, true, true] => .error (.exhausted 3)
  | true :: true :: true :: false :: r => fieldAt 12 4 r (fun v => .ts12 (v.setWidth 12))
  | true :: true :: true :: true :: r => fieldAt 32 4 r ts32Word

/-- The fields of a VAL_NEW after its two control bits (R101, R102); an impossible one has no tail (R105). -/
def decodeNew (r : List Bool) : Except Reject (Instr × Nat) :=
  if r.length < 6 then .error (.exhausted 2)
  else if r.length < 12 then .error (.exhausted 8)
  else
    let l := ofBits 6 (r.take 6)
    let m := ofBits 6 ((r.drop 6).take 6)
    if 64 < l.toNat + m.toNat + 1 then .ok (.valNew l m 0#64, 14)
    else fieldAt (m.toNat + 1) 14 (r.drop 12) (fun v => .valNew l m v)

/-- A value code word (R101) where a REUSE tail has `reuseWidth` bits. -/
def decodeValue (reuseWidth : Nat) : List Bool → Except Reject (Instr × Nat)
  | [] => .error (.exhausted 0)
  | false :: _ => .ok (.valSame, 1)
  | [true] => .error (.exhausted 1)
  | true :: false :: r => fieldAt reuseWidth 2 r (fun v => .valReuse reuseWidth v)
  | true :: true :: r => decodeNew r

/-- The 37 bits of the TERMINATOR (R103). -/
def terminatorBits : List Bool := List.replicate 36 true ++ [false]

/-- What engine E alone writes (R103, R104): the terminator, or a run of fewer than 64 zeros. -/
def decodeTrailer (bs : List Bool) : Except Reject (Instr × Nat) :=
  if bs = terminatorBits then .ok (.terminator, 37)
  else if bs.all (fun b => !b) && decide (bs.length < 64) then .ok (.padding bs.length, bs.length)
  else .error .notTrailer

/-- The decoder: the instruction at the front of `bs` in space `sp`, and how many bits it takes (R107). -/
def decode (sp : Space) (bs : List Bool) : Except Reject (Instr × Nat) :=
  match sp with
  | .word =>
    if bs.length < 137 then .error .shortWord
    else
      match decodeWord (ofBits 137 (bs.take 137)) with
      | .ok i => .ok (i, 137)
      | .error r => .error r
  | .header => if bs.length < 64 then .error (.exhausted 0) else .ok (.header (ofBits 64 (bs.take 64)), 64)
  | .firstDelta =>
    if bs.length < 27 then .error (.exhausted 0) else .ok (firstDeltaWord (ofBits 64 (bs.take 27)), 27)
  | .firstValue =>
    if bs.length < 64 then .error (.exhausted 0) else .ok (.firstValue (ofBits 64 (bs.take 64)), 64)
  | .timestamp => decodeTimestamp bs
  | .value n => decodeValue n bs
  | .trailer => decodeTrailer bs

/-! The encoder. -/

/-- A command word from its four fields (R91). -/
def packWord (op : Byte) (k : Bool) (a b : W64) : CommandWord :=
  op ++ (BitVec.ofBool k ++ (a ++ b))

/-- The A field of a PRED_ word (the model's layout, log 6). -/
def engineField (x : Engine) : W64 := bitVal 64 x.bit

/-- The command word of a command or a micro-operation (R92, R93; unused fields 0); `none` for a stream word. -/
def encodeWord : Instr → Option CommandWord
  | .cInit k t s => some (packWord 0x01#8 k.bit t s)
  | .addValue t v => some (packWord 0x02#8 false t v)
  | .close => some (packWord 0x03#8 false 0#64 0#64)
  | .dInit k n s => some (packWord 0x11#8 k.bit n s)
  | .readPair => some (packWord 0x12#8 false 0#64 0#64)
  | .writeBit b => some (packWord 0x20#8 false (bitVal 64 b) 0#64)
  | .skipBit => some (packWord 0x21#8 false 0#64 0#64)
  | .writeBits v n => some (packWord 0x22#8 false (n.setWidth 64) v)
  | .flush => some (packWord 0x23#8 false 0#64 0#64)
  | .readBit => some (packWord 0x30#8 false 0#64 0#64)
  | .readBits n => some (packWord 0x31#8 false (n.setWidth 64) 0#64)
  | .readRunOfOnes n => some (packWord 0x32#8 false (n.setWidth 64) 0#64)
  | .predInit x k s => some (packWord 0x40#8 k.bit (engineField x) s)
  | .predUpdate x v => some (packWord 0x41#8 false (engineField x) v)
  | .predPredict x => some (packWord 0x42#8 false (engineField x) 0#64)
  | .valWriteFirst v => some (packWord 0x50#8 false 0#64 v)
  | .valCompress v => some (packWord 0x51#8 false 0#64 v)
  | .valReadFirst => some (packWord 0x52#8 false 0#64 0#64)
  | .valDecompress => some (packWord 0x53#8 false 0#64 0#64)
  | .tsWriteFirst t => some (packWord 0x60#8 false t 0#64)
  | .tsCompress t => some (packWord 0x61#8 false t 0#64)
  | .tsReadFirst => some (packWord 0x62#8 false 0#64 0#64)
  | .tsDecompress => some (packWord 0x63#8 false 0#64 0#64)
  | .header _ => none
  | .firstDelta _ => none
  | .emptyMarker => none
  | .firstValue _ => none
  | .tsZero => none
  | .ts7 _ => none
  | .ts9 _ => none
  | .ts12 _ => none
  | .ts32 _ => none
  | .tsSentinel => none
  | .valSame => none
  | .valReuse _ _ => none
  | .valNew _ _ _ => none
  | .terminator => none
  | .padding _ => none

/-- The bits of a stream code word in stream order (R97 to R104); empty for a command or micro-operation. -/
def encodeStream : Instr → List Bool
  | .header t => bitsOf t 64
  | .firstDelta d => bitsOf d 27
  | .emptyMarker => List.replicate 27 true
  | .firstValue v => bitsOf v 64
  | .tsZero => [false]
  | .ts7 p => true :: false :: bitsOf p 7
  | .ts9 p => true :: true :: false :: bitsOf p 9
  | .ts12 p => true :: true :: true :: false :: bitsOf p 12
  | .ts32 p => true :: true :: true :: true :: bitsOf p 32
  | .tsSentinel => List.replicate 36 true
  | .valSame => [false]
  | .valReuse n b => true :: false :: bitsOf b n
  | .valNew l m b =>
    true :: true :: (bitsOf l 6 ++ (bitsOf m 6 ++
      (if l.toNat + m.toNat + 1 ≤ 64 then bitsOf b (m.toNat + 1) else [])))
  | .terminator => terminatorBits
  | .padding k => List.replicate k false
  | .cInit _ _ _ => []
  | .addValue _ _ => []
  | .close => []
  | .dInit _ _ _ => []
  | .readPair => []
  | .writeBit _ => []
  | .skipBit => []
  | .writeBits _ _ => []
  | .flush => []
  | .readBit => []
  | .readBits _ => []
  | .readRunOfOnes _ => []
  | .predInit _ _ _ => []
  | .predUpdate _ _ => []
  | .predPredict _ => []
  | .valWriteFirst _ => []
  | .valCompress _ => []
  | .valReadFirst => []
  | .valDecompress => []
  | .tsWriteFirst _ => []
  | .tsCompress _ => []
  | .tsReadFirst => []
  | .tsDecompress => []

/-- The bits of an instruction: the command word, most significant bit first, or the stream code word. -/
def encode (i : Instr) : List Bool :=
  match encodeWord i with
  | some w => bitsOf w 137
  | none => encodeStream i

/-! The assembler. -/

/-- The `K` and `B` operands of the optional predictor (R93, R108): none is LAST, all zero. -/
def asmPred : Option Int → PredKind × W64
  | none => (.last, 0#64)
  | some size => (.dfcm, BitVec.ofInt 64 size)

/-- The IEEE-754 binary64 pattern of R109: sign bit 63, exponent 62:52, fraction 51:0. -/
def f64Pattern (sign : Bool) (exponent : BitVec 11) (fraction : BitVec 52) : W64 :=
  BitVec.ofBool sign ++ (exponent ++ fraction)

/-- The command an assembler line stands for (R108) or a pseudo-instruction expands to (R109). -/
def assemble : AsmLine → Instr
  | .cInit ts p => .cInit (asmPred p).1 (BitVec.ofInt 64 ts) (asmPred p).2
  | .add ts val => .addValue (BitVec.ofInt 64 ts) (BitVec.ofNat 64 val)
  | .addI64 ts val => .addValue (BitVec.ofInt 64 ts) (BitVec.ofInt 64 val)
  | .addF64 ts s e f => .addValue (BitVec.ofInt 64 ts) (f64Pattern s e f)
  | .close => .close
  | .dInit len p => .dInit (asmPred p).1 (BitVec.ofNat 64 len) (asmPred p).2
  | .read => .readPair

/-! The opcode table's numbering, for the host's questions. -/

/-- The space and the bit string the number `w` stands for, as a table row of `nbits` bits in whole bytes: a
command word of 137 bits, or a stream code word written as a right-aligned number whose most significant bit is
its first stream bit. A row whose width is no whole number of bytes is told by the number's own length; what a
VAL_NEW has after its 14 table bits is zero. Rows with the same bits and the same width (HEADER and FIRST_VALUE;
TS_ZERO, VAL_SAME and PADDING) cannot be told apart by a number: the first is taken (log 15). -/
def tableBits (nbits w : Nat) : Option (Space × List Bool) :=
  let nb := (nbits + 7) / 8 * 8
  if nb = 144 then
    if w < 2 ^ 137 then some (.word, bitsOf (BitVec.ofNat 137 w) 137) else none
  else if nb = 64 then
    if w < 2 ^ 64 then some (.header, bitsOf (BitVec.ofNat 64 w) 64) else none
  else if nb = 40 then
    if w / 2 ^ 35 = 1 then some (.timestamp, bitsOf (BitVec.ofNat 64 w) 36)
    else if w / 2 ^ 36 = 1 then some (.trailer, bitsOf (BitVec.ofNat 64 w) 37)
    else none
  else if nb = 32 then
    if w < 2 ^ 27 then some (.firstDelta, bitsOf (BitVec.ofNat 64 w) 27) else none
  else if nb = 16 then
    if w / 2 ^ 15 = 1 then some (.timestamp, bitsOf (BitVec.ofNat 64 w) 16)
    else if w / 2 ^ 13 = 1 then some (.value 0, bitsOf (BitVec.ofNat 64 w) 14 ++ List.replicate 64 false)
    else if w / 2 ^ 11 = 1 then some (.timestamp, bitsOf (BitVec.ofNat 64 w) 12)
    else if w / 2 ^ 8 = 1 then some (.timestamp, bitsOf (BitVec.ofNat 64 w) 9)
    else none
  else if nb = 8 then
    if w = 0 then some (.timestamp, [false])
    else if w = 2 then some (.value 0, [true, false])
    else none
  else none

/-- The instruction the decoder reads from a table row's bits. -/
def decodeTableWord (nbits w : Nat) : Option Instr :=
  match tableBits nbits w with
  | none => none
  | some (sp, bs) =>
    match decode sp bs with
    | .ok (i, _) => some i
    | .error _ => none

end Sys2Proof
end

