-- ==== Sys2Proof/Machine/Operands.lean ====
section
/-! DEFINITION. The functions of operands the rules name: zero-run counts (00_scope.md R8), the zig-zag map (R9),
the class table of the timestamp code (30_encoding.md R99, 44_timestamp_dod.md R202, R203), `NextPow2`
(42_predictor.md R166), and the byte and bit order of a unit (20_memory.md R61, R63). -/

namespace Sys2Proof
namespace Machine

/-- `clz64` (R8): `63 - floor(log2 x)`, and 64 at 0. -/
def clz64 (x : W64) : Nat := if x = 0#64 then 64 else 63 - Nat.log2 x.toNat

/-- The first 1 bit of `x` at or above position `i`, looking at `fuel` positions. -/
def ctzFrom (x : W64) : Nat → Nat → Nat
  | 0, i => i
  | fuel + 1, i => if x.getLsbD i then i else ctzFrom x fuel (i + 1)

/-- `ctz64` (R8): the number of 0 bits from bit 0 up, and 64 at 0. -/
def ctz64 (x : W64) : Nat := ctzFrom x 64 0

/-- `zigzag64` (R9): the one arithmetic shift of the block (R7). -/
def zigzag64 (n : W64) : W64 := (n <<< 1) ^^^ (n.sshiftRight 63)

/-- `unzigzag64` (R9). -/
def unzigzag64 (z : W64) : W64 := (z >>> 1) ^^^ (0#64 - (z &&& 1#64))

/-- `TS_WIDTH[r]` (R5, R99). -/
def tsWidth (r : Nat) : Nat :=
  if r = 0 then 0 else if r = 1 then 7 else if r = 2 then 9 else if r = 3 then 12 else 32

/-- The run of ones in the prefix of the class TS_COMPRESS picks: the narrowest payload that holds
`bits_required` bits (R202). -/
def tsClass (bitsRequired : Nat) : Nat :=
  if bitsRequired ≤ 7 then 1 else if bitsRequired ≤ 9 then 2 else if bitsRequired ≤ 12 then 3 else 4

/-- The prefix literal of a class (R202): `10`, `110`, `1110`, `1111`. -/
def tsPrefixLiteral (r : Nat) : W64 :=
  if r = 1 then 0b10#64 else if r = 2 then 0b110#64 else if r = 3 then 0b1110#64 else 0b1111#64

/-- The width of that literal (R202): a run of `r` ones and its 0, but no 0 after four ones (C3). -/
def tsPrefixWidth (r : Nat) : Nat := if r < 4 then r + 1 else 4

/-- A first delta TS_WRITE_FIRST accepts: 0 to 2^27 - 2 as an i64 (R201, R255). -/
def firstDeltaInRange (delta0 : W64) : Bool :=
  decide (0 ≤ delta0.toInt) && decide (delta0.toInt ≤ 134217726)

/-- A delta-of-delta TS_COMPRESS accepts: -2^31 to 2^31 - 1 as an i64 (R202, R256). -/
def dodInRange (dod : W64) : Bool :=
  decide (-2147483648 ≤ dod.toInt) && decide (dod.toInt ≤ 2147483647)

/-- `NextPow2` (R166): the smallest power of two at or above `s`, for `s ≥ 1`. -/
def nextPow2 (s : Nat) : Nat := if s ≤ 1 then 1 else 2 ^ (Nat.log2 (s - 1) + 1)

/-- The DFCM hash after `delta` (R164): `((hash << 5) XOR (delta >> 50)) AND (size - 1)`. -/
def nextHash (hash size : Nat) (delta : W64) : Nat :=
  ((hash <<< 5) ^^^ (delta >>> 50).toNat) &&& (size - 1)

/-- The low `n` bits of `v`. -/
def lowBits (n : Nat) (v : W64) : W64 := v &&& BitVec.ofNat 64 (2 ^ n - 1)

/-- `v` with bit `i` set to `b` (R6; R121's `acc[i] <- bit`). -/
def assignBit (v : W64) (i : Nat) (b : Bool) : W64 :=
  (v &&& ~~~(1#64 <<< i)) ||| (bitVal 64 b <<< i)

/-- Byte `j` of a unit of `width` bits, big-endian: byte 0 is the most significant (R63). -/
def unitByte (width : Nat) (v : W64) (j : Nat) : Byte := (v >>> (width - 8 - 8 * j)).setWidth 8

/-- The bit a unit of `width` bits holds for stream bit `k`: position `UNIT_BITS - 1 - (k mod UNIT_BITS)` (R61). -/
def unitBit (width : Nat) (unit : W64) (k : Nat) : Bool := unit.getLsbD (width - 1 - k % width)

end Machine
end Sys2Proof
end

