-- ==== Sys2Proof/Machine/Ops.lean ====
section
/-! DEFINITION. The shared operations: the exception layer of 00_scope.md R10, the stream memories and tables, the
answers of a port, taking a fault (60_exceptions.md R261), and the frame every command and every micro-operation
runs in (45_framing.md R221). There is no return from a fault (R262). -/

namespace Sys2Proof

/-! The OPEN parameters (R5). -/

/-- `n` bits do not fit `SINK_CAP_UNITS * UNIT_BITS` (R69). -/
def Params.overCapacity (p : Params) (n : Nat) : Bool :=
  match p.sinkCapUnits with
  | none => false
  | some c => decide (c * p.unit.bits < n)

/-- `size > DFCM_MAX_SIZE` (R161). -/
def Params.overTable (p : Params) (size : Nat) : Bool :=
  match p.dfcmMaxLog2 with
  | none => false
  | some k => decide (2 ^ k < size)

namespace Machine

/-! The exception layer (R10): a `raise` keeps every write made before it. -/

/-- How a piece of pseudocode ends: with a result, or with a raise that keeps the state. -/
inductive Res (σ : Type) (α : Type) where
  | ok (a : α) (s : σ)
  | raised (f : FaultCode) (s : σ)
deriving DecidableEq, Repr

/-- The next line of the pseudocode; nothing after a raise happens (R10). -/
def Res.bind {σ α β : Type} (r : Res σ α) (k : α → σ → Res σ β) : Res σ β :=
  match r with
  | .ok a s => k a s
  | .raised f s => .raised f s

/-- Run on a part of a larger state: `put` writes the part back, after a raise too (R10). -/
def Res.within {σ τ α : Type} (r : Res σ α) (put : σ → τ) : Res τ α :=
  match r with
  | .ok a s => .ok a (put s)
  | .raised f s => .raised f (put s)

/-! Sparse cells: lists of (key, value) pairs with keys strictly rising. -/

/-- The value listed at `k`. -/
def cellGet {α : Type} (m : List (Nat × α)) (k : Nat) : Option α :=
  match m with
  | [] => none
  | (j, v) :: rest => if k = j then some v else cellGet rest k

/-- `m` with `v` listed at `k`, in rising order. -/
def cellPut {α : Type} (m : List (Nat × α)) (k : Nat) (v : α) : List (Nat × α) :=
  match m with
  | [] => [(k, v)]
  | (j, u) :: rest =>
    if k < j then (k, v) :: (j, u) :: rest
    else if k = j then (k, v) :: rest
    else (j, u) :: cellPut rest k v

/-- `m` with nothing listed at `k`. -/
def cellErase {α : Type} (m : List (Nat × α)) (k : Nat) : List (Nat × α) :=
  match m with
  | [] => []
  | (j, u) :: rest => if k = j then rest else (j, u) :: cellErase rest k

/-- Keys strictly rising: the canonical form of a sparse list. -/
abbrev cellsRise {α : Type} (m : List (Nat × α)) : Prop := m.Pairwise (fun a b => a.1 < b.1)

/-! Stream memories (20_memory.md R60 to R63). -/

/-- The canonical form of a stream memory: addresses strictly rising. An unlisted byte has no listed value at all,
so no entry can equal it (log 2). -/
abbrev Memory.wf (m : Memory) : Prop := cellsRise m

/-- The byte listed at `addr`; `none` where nothing was written (log 2). -/
def Memory.read (m : Memory) (addr : Nat) : Option Byte := cellGet m addr

/-- One byte written. -/
def Memory.write (m : Memory) (addr : Nat) (b : Byte) : Memory := cellPut m addr b

/-- Bytes written from `addr` on. -/
def Memory.writeBytes (m : Memory) (addr : Nat) (bs : List Byte) : Memory :=
  match bs with
  | [] => m
  | b :: rest => Memory.writeBytes (m.write addr b) (addr + 1) rest

/-- The bytes of a unit in address order (R63: the first is the most significant). -/
def unitBytes (u : UnitWidth) (v : W64) : List Byte := (List.range u.bytes).map (unitByte u.bits v)

/-- `MemWrite` (R10): unit `i` of a stream memory takes the `UNIT_BITS`-bit value `v`. -/
def Memory.writeUnit (u : UnitWidth) (m : Memory) (i : Nat) (v : W64) : Memory :=
  m.writeBytes (i * u.bytes) (unitBytes u v)

/-- A unit from its bytes, first byte most significant (R63). -/
def unitOfBytes (bs : List Byte) : W64 := bs.foldl (fun v b => (v <<< 8) ||| b.setWidth 64) 0#64

/-- Unit `i`, where `byteAt` gives the byte at an address. -/
def unitAt (u : UnitWidth) (byteAt : Nat → Byte) (i : Nat) : W64 :=
  unitOfBytes ((List.range u.bytes).map (fun j => byteAt (i * u.bytes + j)))

/-- The byte of SM_E at `addr`, a free value where nothing was committed (R35, U20). -/
def EngineE.byteAt (e : EngineE) (addr : Nat) : Byte := (e.smE.read addr).getD (Config.powerOnSinkByte addr)

/-- The byte of SM_D at `addr`, a free value where the host wrote nothing (R35, R291). -/
def EngineD.byteAt (d : EngineD) (addr : Nat) : Byte := (d.smD.read addr).getD (Config.powerOnSourceByte addr)

/-! DFCM tables (R29, R76). -/

/-- The canonical form of a table: indices strictly rising, no listed 0, every index below the size. -/
abbrev Table.wf (t : Table) (size : Nat) : Prop := cellsRise t ∧ ∀ p ∈ t, p.2 ≠ 0#64 ∧ p.1 < size

/-- Entry `i`; an unlisted entry is 0. -/
def Table.read (t : Table) (i : Nat) : W64 := (cellGet t i).getD 0#64

/-- Entry `i` written; a 0 is not listed. -/
def Table.write (t : Table) (i : Nat) (v : W64) : Table := if v = 0#64 then cellErase t i else cellPut t i v

/-! Answers (30_encoding.md R94) and faults (60_exceptions.md R261). -/

/-- An answer without a pair (R94: timestamp and value are 0). -/
def plainResponse (st : Status) (f : FaultCode) : Response :=
  { status := st, fault := f, timestamp := 0#64, value := 0#64 }

/-- The engine's `fault` register. -/
def State.faultOf (s : State) (x : Engine) : FaultCode :=
  match x with
  | .E => s.e.fault
  | .D => s.d.fault

/-- The port of engine `x` answers `r`. -/
def State.answer (s : State) (x : Engine) (r : Response) : State :=
  match x with
  | .E => { s with respE := some r }
  | .D => { s with respD := some r }

/-- A refusal (R259): the answer, and no change of state. -/
def State.refuse (s : State) (x : Engine) (st : Status) : State := s.answer x (plainResponse st (s.faultOf x))

/-- Taking fault `f` on engine `x` (R261): the register takes the code; every earlier write stays, the phase is
left, nothing is saved and control goes nowhere. -/
def State.enterFault (s : State) (x : Engine) (f : FaultCode) : State :=
  match x with
  | .E => { s with e := { s.e with fault := f } }
  | .D => { s with d := { s.d with fault := f } }

/-- Taking a fault in a command (R261): the fault is entered and the command answered `FAULT` with the code. -/
def State.faultCommand (s : State) (x : Engine) (f : FaultCode) : State :=
  (s.enterFault x f).answer x (plainResponse .fault f)

/-! The frame of a command (R221). -/

/-- One step's outcome. -/
abbrev Result := Host.Outcome State Fault Refusal

/-- The end of a command of engine E (R221 line 5, R261). -/
def finishE (r : Res EngineE Unit) (s : State) : Result :=
  match r with
  | .ok _ e => .next (({ s with e := e } : State).answer .E (plainResponse .ok e.fault))
  | .raised f e => .next (({ s with e := e } : State).faultCommand .E f)

/-- The response of a D command that returned `pair`: `OK` with it, or `ABSENT` (R94). -/
def pairResponse (f : FaultCode) (pair : Option (W64 × W64)) : Response :=
  match pair with
  | none => plainResponse .absent f
  | some (ts, v) => { status := .ok, fault := f, timestamp := ts, value := v }

/-- The end of READ_PAIR (R226, R261). -/
def finishRead (r : Res EngineD (Option (W64 × W64))) (s : State) : Result :=
  match r with
  | .ok pair d => .next (({ s with d := d } : State).answer .D (pairResponse d.fault pair))
  | .raised f d => .next (({ s with d := d } : State).faultCommand .D f)

/-- The end of D_INIT (R225, R261). -/
def finishD (r : Res EngineD Unit) (s : State) : Result :=
  match r with
  | .ok _ d => .next (({ s with d := d } : State).answer .D (plainResponse .ok d.fault))
  | .raised f d => .next (({ s with d := d } : State).faultCommand .D f)

/-- Lines 3 to 5 of R221 for a command of engine E that is legal in the live phases. -/
def acceptE (body : EngineE → Res EngineE Unit) (s : State) : Result :=
  if s.e.fault ≠ .none then .next (s.refuse .E .refusedFaulted)
  else if s.e.phase.live = false then .next (s.refuse .E .refusedPhase)
  else finishE (body s.e) s

/-- Lines 3 to 5 of R221 for READ_PAIR. -/
def acceptRead (body : EngineD → Res EngineD (Option (W64 × W64))) (s : State) : Result :=
  if s.d.fault ≠ .none then .next (s.refuse .D .refusedFaulted)
  else if s.d.phase.readable = false then .next (s.refuse .D .refusedPhase)
  else finishRead (body s.d) s

/-! The frame of a micro-operation or a code word run alone (R11, log 6). -/

/-- Run on engine E: the result goes to `ret`, a raise is entered as a fault (R261). -/
def aloneE (r : Res EngineE Returned) (s : State) : Result :=
  match r with
  | .ok v e => .next { s with e := e, ret := v }
  | .raised f e => .next (({ s with e := e, ret := .nothing } : State).enterFault .E f)

/-- Run on engine D. -/
def aloneD (r : Res EngineD Returned) (s : State) : Result :=
  match r with
  | .ok v d => .next { s with d := d, ret := v }
  | .raised f d => .next (({ s with d := d, ret := .nothing } : State).enterFault .D f)

/-- Write engine E's predictor instance back. -/
def EngineE.withPred (e : EngineE) (q : Pred) : EngineE := { e with ses := { e.ses with pred := q } }

/-- Write engine D's predictor instance back. -/
def EngineD.withPred (d : EngineD) (q : Pred) : EngineD := { d with ses := { d.ses with pred := q } }

/-- Run a predictor operation on the instance of engine `x`. -/
def alonePred (x : Engine) (op : Pred → Res Pred Returned) (s : State) : Result :=
  match x with
  | .E => aloneE ((op s.e.ses.pred).within s.e.withPred) s
  | .D => aloneD ((op s.d.ses.pred).within s.d.withPred) s

/-- A result that is not reported (an operation with no return value). -/
def Res.silent {σ : Type} (r : Res σ Unit) : Res σ Returned := r.bind fun _ s => .ok .nothing s

/-- A u64 result reported. -/
def Res.asWord {σ : Type} (r : Res σ W64) : Res σ Returned := r.bind fun v s => .ok (.word v) s

/-- A (bool, timestamp) result reported. -/
def Res.asFlagged {σ : Type} (r : Res σ (Bool × W64)) : Res σ Returned :=
  r.bind fun v s => .ok (.flagged v.1 v.2) s

end Machine
end Sys2Proof
end

