-- ==== Sys2Proof/Machine/BitSink.lean ====
section
/-! DEFINITION. The BitSink of engine E (40_bitsink.md R120 to R127): the pseudocode of each operation, then the
meaning of the four micro-operations run alone. -/

namespace Sys2Proof
namespace Machine

/-- The write cursor `E.w_pos` (R26). -/
def EngineE.wPos (p : Params) (e : EngineE) : Nat := e.wUnit * p.unit.bits + e.accFill

/-- `CommitUnit` (R125). -/
def commitUnit (p : Params) (e : EngineE) : EngineE :=
  { e with smE := e.smE.writeUnit p.unit e.wUnit e.acc, wUnit := e.wUnit + 1, acc := 0#64, accFill := 0 }

/-- The bit enters the accumulator, which is committed when full (R121 after its check). -/
def pushAcc (p : Params) (bit : Bool) (e : EngineE) : EngineE :=
  let e1 := { e with acc := assignBit e.acc (p.unit.bits - 1 - e.accFill) bit, accFill := e.accFill + 1 }
  if e1.accFill = p.unit.bits then commitUnit p e1 else e1

/-- WRITE_BIT (R121). -/
def writeBit (p : Params) (bit : Bool) (e : EngineE) : Res EngineE Unit :=
  if p.overCapacity (e.wPos p + 1) then .raised .capacity e else .ok () (pushAcc p bit e)

/-- SKIP_BIT (R122). -/
def skipBit (p : Params) (e : EngineE) : Res EngineE Unit := writeBit p false e

/-- The loop of WRITE_BITS: `value[n-1]` down to `value[0]` (R123). -/
def writeLoop (p : Params) (value : W64) : Nat → EngineE → Res EngineE Unit
  | 0, e => .ok () e
  | n + 1, e => (writeBit p (value.getLsbD n) e).bind fun _ e1 => writeLoop p value n e1

/-- WRITE_BITS (R123): all `n` bits or none. -/
def writeBits (p : Params) (value : W64) (n : Nat) (e : EngineE) : Res EngineE Unit :=
  if 64 < n then .raised .badWidth e
  else if p.overCapacity (e.wPos p + n) then .raised .capacity e
  else writeLoop p value n e

/-- FLUSH (R124). -/
def flush (p : Params) (e : EngineE) : Res EngineE Unit :=
  if 0 < e.accFill then .ok () (commitUnit p e) else .ok () e

/-- FLUSH would commit a unit that does not exist (R60, R125); false in every state a run reaches (log 12). -/
def flushOutside (p : Params) (e : EngineE) : Bool :=
  decide (0 < e.accFill) && p.overCapacity ((e.wUnit + 1) * p.unit.bits)

/-- WRITE_BIT run alone. -/
def execWriteBit (bit : Bool) (s : State) : Result := aloneE (writeBit s.params bit s.e).silent s

/-- SKIP_BIT run alone. -/
def execSkipBit (s : State) : Result := aloneE (skipBit s.params s.e).silent s

/-- WRITE_BITS run alone. -/
def execWriteBits (value : W64) (n : Byte) (s : State) : Result :=
  aloneE (writeBits s.params value n.toNat s.e).silent s

/-- FLUSH run alone. -/
def execFlush (s : State) : Result :=
  if flushOutside s.params s.e then .fault .sinkUnitAbsent else aloneE (flush s.params s.e).silent s

end Machine
end Sys2Proof
end

