-- ==== Sys2Proof/Machine/BitSource.lean ====
section
/-! DEFINITION. The BitSource of engine D (41_bitsource.md R140 to R146): the pseudocode of each operation, then
the meaning of the three micro-operations run alone. -/

namespace Sys2Proof
namespace Machine

/-- `SRC_LEN_BITS` (R28). -/
def EngineD.srcLenBits (p : Params) (d : EngineD) : Nat := d.srcLenUnits * p.unit.bits

/-- `StreamBit(D, k)` (R144). -/
def streamBit (p : Params) (d : EngineD) (k : Nat) : Bool :=
  unitBit p.unit.bits (unitAt p.unit d.byteAt (k / p.unit.bits)) k

/-- The `n` stream bits from bit address `k` on, in stream order. -/
def streamBits (p : Params) (d : EngineD) (k : Nat) : Nat → List Bool
  | 0 => []
  | n + 1 => streamBit p d k :: streamBits p d (k + 1) n

/-- READ_BIT (R141). -/
def readBit (p : Params) (d : EngineD) : Res EngineD Bool :=
  if d.srcLenBits p ≤ d.rPos then .raised .sourceExhausted d
  else .ok (streamBit p d d.rPos) { d with rPos := d.rPos + 1 }

/-- The loop of READ_BITS (R142): the value of the `n` bits from address `k` on after the bits in `v`. -/
def readLoop (p : Params) (d : EngineD) (k : Nat) (v : W64) : Nat → W64
  | 0 => v
  | n + 1 => readLoop p d (k + 1) (pushBit v (streamBit p d k)) n

/-- READ_BITS (R142): all `n` bits or none. -/
def readBits (p : Params) (n : Nat) (d : EngineD) : Res EngineD W64 :=
  if 64 < n then .raised .badWidth d
  else if d.srcLenBits p < d.rPos + n then .raised .sourceExhausted d
  else .ok (readLoop p d d.rPos 0#64 n) { d with rPos := d.rPos + n }

/-- READ_RUN_OF_ONES (R143) with `n` reads left and `count` ones seen. -/
def readRunFrom (p : Params) : Nat → Nat → EngineD → Res EngineD Nat
  | 0, count, d => .ok count d
  | n + 1, count, d =>
    (readBit p d).bind fun b d1 => if b then readRunFrom p n (count + 1) d1 else .ok count d1

/-- READ_RUN_OF_ONES (R143). -/
def readRunOfOnes (p : Params) (maxBits : Nat) (d : EngineD) : Res EngineD Nat := readRunFrom p maxBits 0 d

/-- READ_BIT run alone. -/
def execReadBit (s : State) : Result :=
  aloneD ((readBit s.params s.d).bind fun b d => .ok (.word (bitVal 64 b)) d) s

/-- READ_BITS run alone. -/
def execReadBits (n : Byte) (s : State) : Result := aloneD (readBits s.params n.toNat s.d).asWord s

/-- READ_RUN_OF_ONES run alone; the u32 result zero-extended. -/
def execReadRunOfOnes (maxBits : Byte) (s : State) : Result :=
  aloneD ((readRunOfOnes s.params maxBits.toNat s.d).bind fun c d => .ok (.word (BitVec.ofNat 64 c)) d) s

end Machine
end Sys2Proof
end

