-- ==== Sys2Proof/Machine/DeltaOfDelta.lean ====
section
/-! DEFINITION. The timestamp codec (44_timestamp_dod.md R200 to R208): the pseudocode of each operation, then the
meaning of the four micro-operations run alone. All arithmetic wraps modulo 2^64 (R200). -/

namespace Sys2Proof
namespace Machine

/-- The two registers every timestamp operation stores (R201, R202, R204, R205). -/
def Session.withTime (ses : Session) (delta timestamp : W64) : Session :=
  { ses with storedDelta := delta, storedTimestamp := timestamp }

/-- TS_WRITE_FIRST (R201). -/
def tsWriteFirst (p : Params) (timestamp : W64) (e : EngineE) : Res EngineE Unit :=
  let delta0 := timestamp - e.ses.blockTimestamp
  if firstDeltaInRange delta0 then
    (writeBits p delta0 Config.firstDeltaBits e).bind fun _ e1 =>
      .ok () { e1 with ses := e1.ses.withTime delta0 timestamp }
  else .raised .firstDeltaRange e

/-- The code of a delta-of-delta (R202): `0`, or the prefix and the payload of its class. -/
def writeDod (p : Params) (dod : W64) (e : EngineE) : Res EngineE Unit :=
  if dod = 0#64 then skipBit p e
  else if dodInRange dod then
    let payload := zigzag64 dod - 1#64
    let r := tsClass (64 - clz64 payload)
    (writeBits p (tsPrefixLiteral r) (tsPrefixWidth r) e).bind fun _ e1 => writeBits p payload (tsWidth r) e1
  else .raised .dodRange e

/-- TS_COMPRESS (R202). -/
def tsCompress (p : Params) (timestamp : W64) (e : EngineE) : Res EngineE Unit :=
  let newDelta := timestamp - e.ses.storedTimestamp
  (writeDod p (newDelta - e.ses.storedDelta) e).bind fun _ e1 =>
    .ok () { e1 with ses := e1.ses.withTime newDelta timestamp }

/-- TS_READ_FIRST once its 27 bits are read (R204): the empty marker, or the first timestamp. -/
def takeFirstDelta (v : W64) (d : EngineD) : Res EngineD (Bool × W64) :=
  if v = Config.firstDeltaEmpty then .ok (true, 0#64) d
  else
    let timestamp := d.ses.blockTimestamp + v
    .ok (false, timestamp) { d with ses := d.ses.withTime v timestamp }

/-- TS_READ_FIRST (R204). -/
def tsReadFirst (p : Params) (d : EngineD) : Res EngineD (Bool × W64) :=
  (readBits p Config.firstDeltaBits d).bind takeFirstDelta

/-- The last lines of TS_DECOMPRESS (R205): a decoded delta-of-delta moves the registers. -/
def takeDod (dod : W64) (d : EngineD) : Res EngineD (Bool × W64) :=
  let newDelta := d.ses.storedDelta + dod
  let timestamp := d.ses.storedTimestamp + newDelta
  .ok (false, timestamp) { d with ses := d.ses.withTime newDelta timestamp }

/-- TS_DECOMPRESS once a payload is read (R205): the sentinel of the 32-bit class, or a delta-of-delta. -/
def takePayload (r : Nat) (payload : W64) (d : EngineD) : Res EngineD (Bool × W64) :=
  if r = 4 ∧ payload = Config.tsSentinel then .ok (true, 0#64) d
  else takeDod (unzigzag64 (payload + 1#64)) d

/-- TS_DECOMPRESS (R205). -/
def tsDecompress (p : Params) (d : EngineD) : Res EngineD (Bool × W64) :=
  (readRunOfOnes p Config.tsPrefixMax d).bind fun r d1 =>
    if r = 0 then takeDod 0#64 d1
    else (readBits p (tsWidth r) d1).bind fun payload d2 => takePayload r payload d2

/-- TS_WRITE_FIRST run alone. -/
def execTsWriteFirst (timestamp : W64) (s : State) : Result := aloneE (tsWriteFirst s.params timestamp s.e).silent s

/-- TS_COMPRESS run alone. -/
def execTsCompress (timestamp : W64) (s : State) : Result := aloneE (tsCompress s.params timestamp s.e).silent s

/-- TS_READ_FIRST run alone. -/
def execTsReadFirst (s : State) : Result := aloneD (tsReadFirst s.params s.d).asFlagged s

/-- TS_DECOMPRESS run alone. -/
def execTsDecompress (s : State) : Result := aloneD (tsDecompress s.params s.d).asFlagged s

end Machine
end Sys2Proof
end

