-- ==== Sys2Proof/Machine/Predictor.lean ====
section
/-! DEFINITION. The predictor (42_predictor.md R160 to R168): the pseudocode of its three operations on one
instance, then their meaning run alone on either engine. -/

namespace Sys2Proof
namespace Machine

/-- PRED_INIT (R161). The table of the new instance has `size` entries, all 0: entries of an earlier session do
not survive (R36, R281; log 4). -/
def predInit (p : Params) (kind : PredKind) (sizeReq : W64) (q : Pred) : Res Pred Unit :=
  let q1 := { q with kind := kind, lastValue := 0#64, hash := 0 }
  match kind with
  | .dfcm =>
    if sizeReq.toInt ≤ 0 then .raised .config q1
    else if p.overTable (nextPow2 sizeReq.toNat) then .raised .config q1
    else .ok () { q1 with size := nextPow2 sizeReq.toNat, table := [] }
  | .last => .ok () { q1 with size := 1, table := [] }

/-- PRED_UPDATE, variant LAST (R162). -/
def updateLast (value : W64) (q : Pred) : Pred := { q with lastValue := value }

/-- PRED_UPDATE, variant DFCM (R164): the entry is written at the old hash. -/
def updateDfcm (value : W64) (q : Pred) : Pred :=
  let delta := value - q.lastValue
  { q with table := q.table.write q.hash delta, hash := nextHash q.hash q.size delta, lastValue := value }

/-- PRED_UPDATE (R160): dispatch on `pred_kind`. -/
def predUpdate (value : W64) (q : Pred) : Pred :=
  match q.kind with
  | .last => updateLast value q
  | .dfcm => updateDfcm value q

/-- PRED_PREDICT, variant LAST (R163). -/
def predictLast (q : Pred) : W64 := q.lastValue

/-- PRED_PREDICT, variant DFCM (R165). -/
def predictDfcm (q : Pred) : W64 := q.table.read q.hash + q.lastValue

/-- PRED_PREDICT (R160): dispatch on `pred_kind`. -/
def predPredict (q : Pred) : W64 :=
  match q.kind with
  | .last => predictLast q
  | .dfcm => predictDfcm q

/-- PRED_UPDATE on engine E's instance. -/
def EngineE.update (e : EngineE) (value : W64) : EngineE := e.withPred (predUpdate value e.ses.pred)

/-- PRED_UPDATE on engine D's instance. -/
def EngineD.update (d : EngineD) (value : W64) : EngineD := d.withPred (predUpdate value d.ses.pred)

/-- PRED_INIT run alone. -/
def execPredInit (x : Engine) (kind : PredKind) (sizeReq : W64) (s : State) : Result :=
  alonePred x (fun q => (predInit s.params kind sizeReq q).silent) s

/-- PRED_UPDATE run alone. -/
def execPredUpdate (x : Engine) (value : W64) (s : State) : Result :=
  alonePred x (fun q => .ok .nothing (predUpdate value q)) s

/-- PRED_PREDICT run alone. -/
def execPredPredict (x : Engine) (s : State) : Result :=
  alonePred x (fun q => .ok (.word (predPredict q)) q) s

end Machine
end Sys2Proof
end

