-- ==== Sys2Proof/Machine/ValueXor.lean ====
section
/-! DEFINITION. The value codec (43_value_xor.md R180 to R187): the pseudocode of each operation, then the meaning
of the four micro-operations run alone. -/

namespace Sys2Proof
namespace Machine

/-- VAL_WRITE_FIRST (R181). -/
def valWriteFirst (p : Params) (value : W64) (e : EngineE) : Res EngineE Unit :=
  writeBits p value 64 (e.update value)

/-- `64 - stored_leading_zeros - stored_trailing_zeros` on naturals (R182, R184, R185; log 13). -/
def Session.windowWidth (ses : Session) : Nat :=
  64 - ses.storedLeadingZeros.toNat - ses.storedTrailingZeros.toNat

/-- The window registers take a new window (R182, R184). -/
def Session.withWindow (ses : Session) (leading trailing : Nat) : Session :=
  { ses with storedLeadingZeros := BitVec.ofNat 32 leading, storedTrailingZeros := BitVec.ofNat 32 trailing }

/-- The residual's bits fit the stored window (R182; unsigned comparison on the u32 registers). -/
def Session.fits (ses : Session) (residual : W64) : Bool :=
  decide (ses.storedLeadingZeros.toNat ≤ clz64 residual) && decide (ses.storedTrailingZeros.toNat ≤ ctz64 residual)

/-- The REUSE code of VAL_COMPRESS after its first control bit (R182). -/
def compressReuse (p : Params) (residual : W64) (e : EngineE) : Res EngineE Unit :=
  (skipBit p e).bind fun _ e1 =>
    writeBits p (residual >>> e.ses.storedTrailingZeros.toNat) e.ses.windowWidth e1

/-- The NEW code of VAL_COMPRESS after its first control bit (R182): the window registers are written last. -/
def compressNew (p : Params) (residual : W64) (e : EngineE) : Res EngineE Unit :=
  let leading := clz64 residual
  let trailing := ctz64 residual
  let significantBits := 64 - leading - trailing
  (writeBit p true e).bind fun _ e1 =>
  (writeBits p (BitVec.ofNat 64 leading) Config.leadingFieldBits e1).bind fun _ e2 =>
  (writeBits p (BitVec.ofNat 64 (significantBits - 1)) Config.lengthFieldBits e2).bind fun _ e3 =>
  (writeBits p (residual >>> trailing) significantBits e3).bind fun _ e4 =>
    .ok () { e4 with ses := e4.ses.withWindow leading trailing }

/-- The code of a residual (R182, R186): SAME, REUSE or NEW. -/
def compressResidual (p : Params) (residual : W64) (e : EngineE) : Res EngineE Unit :=
  if residual = 0#64 then skipBit p e
  else
    (writeBit p true e).bind fun _ e1 =>
      if e1.ses.fits residual then compressReuse p residual e1 else compressNew p residual e1

/-- VAL_COMPRESS (R182): the predictor is updated before any bit is written (C9). -/
def valCompress (p : Params) (value : W64) (e : EngineE) : Res EngineE Unit :=
  compressResidual p (predPredict e.ses.pred ^^^ value) (e.update value)

/-- The last two lines of VAL_READ_FIRST and VAL_DECOMPRESS (R183, R184): record the value and return it. -/
def recordValue (value : W64) (d : EngineD) : Res EngineD W64 := .ok value (d.update value)

/-- VAL_READ_FIRST (R183). -/
def valReadFirst (p : Params) (d : EngineD) : Res EngineD W64 := (readBits p 64 d).bind recordValue

/-- The REUSE code of VAL_DECOMPRESS after its control bits (R184). -/
def decompressReuse (p : Params) (predicted : W64) (d : EngineD) : Res EngineD W64 :=
  if d.ses.storedLeadingZeros = Config.noWindow then .raised .malformed d
  else
    (readBits p d.ses.windowWidth d).bind fun v d1 =>
      recordValue ((v <<< d.ses.storedTrailingZeros.toNat) ^^^ predicted) d1

/-- The NEW code of VAL_DECOMPRESS after its control bits (R184): the window registers are written before the
tail is read. -/
def decompressNew (p : Params) (predicted : W64) (d : EngineD) : Res EngineD W64 :=
  (readBits p Config.leadingFieldBits d).bind fun l d1 =>
  (readBits p Config.lengthFieldBits d1).bind fun m d2 =>
    let leading := l.toNat
    let significantBits := m.toNat + 1
    if 64 < leading + significantBits then .raised .malformed d2
    else
      let trailing := 64 - significantBits - leading
      (readBits p significantBits { d2 with ses := d2.ses.withWindow leading trailing }).bind fun v d3 =>
        recordValue ((v <<< trailing) ^^^ predicted) d3

/-- VAL_DECOMPRESS (R184): the prediction is taken before any bit is read. -/
def valDecompress (p : Params) (d : EngineD) : Res EngineD W64 :=
  let predicted := predPredict d.ses.pred
  (readBit p d).bind fun b1 d1 =>
    if b1 then
      (readBit p d1).bind fun b2 d2 =>
        if b2 then decompressNew p predicted d2 else decompressReuse p predicted d2
    else recordValue predicted d1

/-- VAL_WRITE_FIRST run alone. -/
def execValWriteFirst (value : W64) (s : State) : Result := aloneE (valWriteFirst s.params value s.e).silent s

/-- VAL_COMPRESS run alone. -/
def execValCompress (value : W64) (s : State) : Result := aloneE (valCompress s.params value s.e).silent s

/-- VAL_READ_FIRST run alone. -/
def execValReadFirst (s : State) : Result := aloneD (valReadFirst s.params s.d).asWord s

/-- VAL_DECOMPRESS run alone. -/
def execValDecompress (s : State) : Result := aloneD (valDecompress s.params s.d).asWord s

end Machine
end Sys2Proof
end

