-- ==== Sys2Proof/Machine/Framing.lean ====
section
/-! DEFINITION. The façade (45_framing.md R220 to R232): the pseudocode of the five commands, then their meaning,
which is R221 from line 2 on. -/

namespace Sys2Proof
namespace Machine

/-- The session registers before PRED_INIT in C_INIT and D_INIT (R222, R225, R36); the predictor instance is still
the old one. -/
def Session.fresh (ses : Session) (blockTimestamp : W64) : Session :=
  { ses with
    blockTimestamp := blockTimestamp, storedTimestamp := 0#64, storedDelta := 0#64,
    storedLeadingZeros := Config.noWindow, storedTrailingZeros := 0#32 }

/-- C_INIT (R222): SM_E is left as it is (R293). -/
def cInit (p : Params) (kind : PredKind) (blockTimestamp tableSizeReq : W64) (e : EngineE) : Res EngineE Unit :=
  let e0 : EngineE :=
    { e with fault := .none, phase := .idle, wUnit := 0, acc := 0#64, accFill := 0,
             ses := e.ses.fresh blockTimestamp }
  ((predInit p kind tableSizeReq e0.ses.pred).within e0.withPred).bind fun _ e1 =>
  (writeBits p blockTimestamp 64 e1).bind fun _ e2 =>
    .ok () { e2 with phase := .ready }

/-- ADD_VALUE (R223): the timestamp half before the value half, the phase last. -/
def addValue (p : Params) (timestamp value : W64) (e : EngineE) : Res EngineE Unit :=
  if e.phase = .ready then
    (tsWriteFirst p timestamp e).bind fun _ e1 =>
    (valWriteFirst p value e1).bind fun _ e2 =>
      .ok () { e2 with phase := .afterFirst }
  else
    (tsCompress p timestamp e).bind fun _ e1 =>
    (valCompress p value e1).bind fun _ e2 =>
      .ok () { e2 with phase := .streaming }

/-- The terminator CLOSE writes (R224, R103): `1111`, the sentinel, one 0 bit. -/
def writeTerminator (p : Params) (e : EngineE) : Res EngineE Unit :=
  (writeBits p 0x0F#64 4 e).bind fun _ e1 =>
  (writeBits p Config.tsSentinel 32 e1).bind fun _ e2 => skipBit p e2

/-- CLOSE (R224). -/
def close (p : Params) (e : EngineE) : Res EngineE Unit :=
  (writeTerminator p e).bind fun _ e1 =>
  (flush p e1).bind fun _ e2 =>
    .ok () { e2 with phase := .closed }

/-- D_INIT (R225). -/
def dInit (p : Params) (kind : PredKind) (srcLenUnits tableSizeReq : W64) (d : EngineD) : Res EngineD Unit :=
  let d0 : EngineD :=
    { d with fault := .none, phase := .idle, srcLenUnits := srcLenUnits.toNat, rPos := 0,
             ses := d.ses.fresh 0#64 }
  ((predInit p kind tableSizeReq d0.ses.pred).within d0.withPred).bind fun _ d1 =>
  (readBits p 64 d1).bind fun v d2 =>
    .ok () { d2 with ses := { d2.ses with blockTimestamp := v }, phase := .ready }

/-- READ_PAIR (R226): `none` is ABSENT. -/
def readPair (p : Params) (d : EngineD) : Res EngineD (Option (W64 × W64)) :=
  if d.phase = .exhausted then .ok none d
  else if d.phase = .ready then
    (tsReadFirst p d).bind fun r d1 =>
      if r.1 then .ok none { d1 with phase := .exhausted }
      else
        (valReadFirst p d1).bind fun v d2 =>
          .ok (some (r.2, v)) { d2 with phase := .afterFirst }
  else
    (tsDecompress p d).bind fun r d1 =>
      if r.1 then .ok none { d1 with phase := .exhausted }
      else
        (valDecompress p d1).bind fun v d2 =>
          .ok (some (r.2, v)) { d2 with phase := .streaming }

/-- C_INIT: accepted in every phase, with or without a fault (R221 line 2, R222). -/
def execCInit (kind : PredKind) (blockTimestamp tableSizeReq : W64) (s : State) : Result :=
  finishE (cInit s.params kind blockTimestamp tableSizeReq s.e) s

/-- ADD_VALUE (R221, R223). -/
def execAddValue (timestamp value : W64) (s : State) : Result := acceptE (addValue s.params timestamp value) s

/-- CLOSE (R221, R224). -/
def execClose (s : State) : Result := acceptE (close s.params) s

/-- D_INIT: accepted in every phase, with or without a fault (R221 line 2, R225). -/
def execDInit (kind : PredKind) (srcLenUnits tableSizeReq : W64) (s : State) : Result :=
  finishD (dInit s.params kind srcLenUnits tableSizeReq s.d) s

/-- READ_PAIR (R221, R226). -/
def execReadPair (s : State) : Result := acceptRead (readPair s.params) s

end Machine
end Sys2Proof
end

