-- ==== Sys2Proof/Machine/CodeWords.lean ====
section
/-! DEFINITION. The stream code words as the code engine D interprets (20_memory.md R74, 30_encoding.md R96 to
R107): what engine D does with one whole code word at `D.r_pos`, part by part as READ_PAIR and D_INIT read it
(R204, R205, R183, R184, R225, R226). TERMINATOR and PADDING are never read (R103, R104): theirs is what engine E
writes in CLOSE (R224) and FLUSH (R124). See log 7 and log 8. -/

namespace Sys2Proof
namespace Machine

/-- `n` bits of a word consumed at once, as READ_BITS consumes them (R142). -/
def consume (p : Params) (n : Nat) (d : EngineD) : Res EngineD Unit :=
  if d.srcLenBits p < d.rPos + n then .raised .sourceExhausted d else .ok () { d with rPos := d.rPos + n }

/-- `n` bits of a word consumed one by one, as READ_BIT and READ_RUN_OF_ONES consume them (R141, R143): when the
source ends, the bits that were there stay consumed. -/
def consumeEach (p : Params) (n : Nat) (d : EngineD) : Res EngineD Unit :=
  if d.srcLenBits p < d.rPos + n then .raised .sourceExhausted { d with rPos := max d.rPos (d.srcLenBits p) }
  else .ok () { d with rPos := d.rPos + n }

/-- The end of the stream seen (R226): the phase becomes EXHAUSTED. -/
def markEnd (r : Bool × W64) (d : EngineD) : Res EngineD (Bool × W64) :=
  .ok r (if r.1 then { d with phase := .exhausted } else d)

/-- HEADER (R97, R225): the origin timestamp, and the session is READY. -/
def headerWord (p : Params) (blockTimestamp : W64) (d : EngineD) : Res EngineD Unit :=
  (consume p 64 d).bind fun _ d1 =>
    .ok () { d1 with ses := { d1.ses with blockTimestamp := blockTimestamp }, phase := .ready }

/-- 27 bits at the first-delta position (R98, R105, R204, R226). -/
def firstDeltaField (p : Params) (v : W64) (d : EngineD) : Res EngineD (Bool × W64) :=
  ((consume p Config.firstDeltaBits d).bind fun _ d1 => takeFirstDelta v d1).bind markEnd

/-- FIRST_VALUE (R98, R183, R226): the first sample is complete. -/
def firstValueWord (p : Params) (value : W64) (d : EngineD) : Res EngineD W64 :=
  (consume p 64 d).bind fun _ d1 =>
  (recordValue value d1).bind fun v d2 => .ok v { d2 with phase := .afterFirst }

/-- A timestamp code of class `r` ≥ 1 (R99, R100, R205, R226). -/
def timestampWord (p : Params) (r : Nat) (payload : W64) (d : EngineD) : Res EngineD (Bool × W64) :=
  ((consumeEach p (tsPrefixWidth r) d).bind fun _ d1 =>
    (consume p (tsWidth r) d1).bind fun _ d2 => takePayload r payload d2).bind markEnd

/-- TS_ZERO (R99, R205): the delta-of-delta is 0. -/
def timestampZero (p : Params) (d : EngineD) : Res EngineD (Bool × W64) :=
  (consumeEach p 1 d).bind fun _ d1 => takeDod 0#64 d1

/-- The end of a value word (R184, R226): the value is recorded and the sample complete. -/
def endSample (value : W64) (d : EngineD) : Res EngineD W64 :=
  (recordValue value d).bind fun v d1 => .ok v { d1 with phase := .streaming }

/-- VAL_SAME (R101, R184): the value equals the prediction (C10). -/
def sameWord (p : Params) (d : EngineD) : Res EngineD W64 :=
  (consumeEach p 1 d).bind fun _ d1 => endSample (predPredict d.ses.pred) d1

/-- VAL_REUSE (R101, R184): the tail has as many bits as the window leaves, whatever the term says (log 20). -/
def reuseWord (p : Params) (bits : W64) (d : EngineD) : Res EngineD W64 :=
  (consumeEach p 2 d).bind fun _ d1 =>
    if d1.ses.storedLeadingZeros = Config.noWindow then .raised .malformed d1
    else
      (consume p d1.ses.windowWidth d1).bind fun _ d2 =>
        endSample ((lowBits d.ses.windowWidth bits <<< d.ses.storedTrailingZeros.toNat)
          ^^^ predPredict d.ses.pred) d2

/-- VAL_NEW (R101, R102, R184): the window registers are written before the tail is read. -/
def newWord (p : Params) (leading lengthM1 : Nat) (bits : W64) (d : EngineD) : Res EngineD W64 :=
  (consumeEach p 2 d).bind fun _ d1 =>
  (consume p Config.leadingFieldBits d1).bind fun _ d2 =>
  (consume p Config.lengthFieldBits d2).bind fun _ d3 =>
    let significantBits := lengthM1 + 1
    if 64 < leading + significantBits then .raised .malformed d3
    else
      let trailing := 64 - significantBits - leading
      (consume p significantBits { d3 with ses := d3.ses.withWindow leading trailing }).bind fun _ d4 =>
        endSample ((lowBits significantBits bits <<< trailing) ^^^ predPredict d.ses.pred) d4

/-- `k` SKIP_BITs: the zero bits FLUSH adds to the stream (R104, R124). -/
def padZeros (p : Params) : Nat → EngineE → Res EngineE Unit
  | 0, e => .ok () e
  | k + 1, e => (skipBit p e).bind fun _ e1 => padZeros p k e1

/-- HEADER at `D.r_pos`. -/
def execHeader (blockTimestamp : W64) (s : State) : Result :=
  aloneD (headerWord s.params blockTimestamp s.d).silent s

/-- FIRST_DELTA at `D.r_pos`. -/
def execFirstDelta (delta : BitVec 27) (s : State) : Result :=
  aloneD (firstDeltaField s.params (delta.setWidth 64) s.d).asFlagged s

/-- EMPTY_MARKER at `D.r_pos`. -/
def execEmptyMarker (s : State) : Result :=
  aloneD (firstDeltaField s.params Config.firstDeltaEmpty s.d).asFlagged s

/-- FIRST_VALUE at `D.r_pos`. -/
def execFirstValue (value : W64) (s : State) : Result := aloneD (firstValueWord s.params value s.d).asWord s

/-- TS_ZERO at `D.r_pos`. -/
def execTsZero (s : State) : Result := aloneD (timestampZero s.params s.d).asFlagged s

/-- TS_7 at `D.r_pos`. -/
def execTs7 (payload : BitVec 7) (s : State) : Result :=
  aloneD (timestampWord s.params 1 (payload.setWidth 64) s.d).asFlagged s

/-- TS_9 at `D.r_pos`. -/
def execTs9 (payload : BitVec 9) (s : State) : Result :=
  aloneD (timestampWord s.params 2 (payload.setWidth 64) s.d).asFlagged s

/-- TS_12 at `D.r_pos`. -/
def execTs12 (payload : BitVec 12) (s : State) : Result :=
  aloneD (timestampWord s.params 3 (payload.setWidth 64) s.d).asFlagged s

/-- TS_32 at `D.r_pos`. -/
def execTs32 (payload : BitVec 32) (s : State) : Result :=
  aloneD (timestampWord s.params 4 (payload.setWidth 64) s.d).asFlagged s

/-- TS_SENTINEL at `D.r_pos`. -/
def execTsSentinel (s : State) : Result :=
  aloneD (timestampWord s.params 4 Config.tsSentinel s.d).asFlagged s

/-- VAL_SAME at `D.r_pos`. -/
def execValSame (s : State) : Result := aloneD (sameWord s.params s.d).asWord s

/-- VAL_REUSE at `D.r_pos`. -/
def execValReuse (bits : W64) (s : State) : Result := aloneD (reuseWord s.params bits s.d).asWord s

/-- VAL_NEW at `D.r_pos`. -/
def execValNew (leading lengthM1 : BitVec 6) (bits : W64) (s : State) : Result :=
  aloneD (newWord s.params leading.toNat lengthM1.toNat bits s.d).asWord s

/-- TERMINATOR: engine E appends its 37 bits, as CLOSE does (R103, R224). -/
def execTerminator (s : State) : Result := aloneE (writeTerminator s.params s.e).silent s

/-- PADDING: engine E appends `k` zero bits; up to the unit boundary this is what FLUSH does (R104, R124). -/
def execPadding (k : Nat) (s : State) : Result := aloneE (padZeros s.params k s.e).silent s

end Machine
end Sys2Proof
end

