-- ==== Sys2Proof/Machine/Fetch.lean ====
section
/-! DEFINITION. How an event from outside becomes an instruction to run: the first line of command acceptance
(45_framing.md R221), the host's own events (70_reset_and_hazards.md R280, R283), and the bench (log 6, 7); and how
a table row's bits are placed so that the next step fetches them. -/

namespace Sys2Proof
namespace Machine

/-- What an event turns into: an instruction to run, or an outcome that needs none. -/
inductive Fetched where
  | instr (i : Instr)
  | settled (r : Result)

/-- A command word on port `x` (R221 line 1, R95): an `op` that is no command of this engine is refused. -/
def fetchCommand (x : Engine) (w : CommandWord) (s : State) : Fetched :=
  match decodeWord w with
  | .ok i => if i.port = some x then .instr i else .settled (.next (s.refuse x .refusedIllegalOp))
  | .error _ => .settled (.next (s.refuse x .refusedIllegalOp))

/-- A micro-operation word on the bench (R11, log 6). -/
def fetchMicro (w : CommandWord) : Fetched :=
  match decodeWord w with
  | .ok i => if i.port = none then .instr i else .settled (.refused .notAMicroOperation)
  | .error _ => .settled (.refused .notAMicroOperation)

/-- The host's write falls into the source of a live session (R74, R292; log 11). -/
def hostWriteForbidden (addr : Nat) (bytes : List Byte) (s : State) : Bool :=
  s.d.phase.live && decide (s.d.fault = .none) && decide (bytes ≠ []) &&
    decide (addr < s.d.srcLenUnits * s.params.unit.bytes)

/-- The host writes SM_D (R60, R283). -/
def hostWrite (addr : Nat) (bytes : List Byte) (s : State) : Result :=
  if hostWriteForbidden addr bytes s then .refused .sourceChangedInSession
  else .next { s with d := { s.d with smD := s.d.smD.writeBytes addr bytes } }

/-- Hardware reset (R280): both engines as R35 lists them; what the host still has to deliver stays. -/
def hardwareReset (s : State) : State := { State.resetWith s.params with input := s.input }

/-- The most bits one code word has: a VAL_NEW of 78 (R110, C6). -/
def longestWord : Nat := 78

/-- The bits engine D can still read, as many as one code word may take. -/
def upcoming (p : Params) (d : EngineD) : List Bool :=
  streamBits p d d.rPos (min longestWord (d.srcLenBits p - d.rPos))

/-- A value position has the tail width of the decoder's window, 0 before any window (R107). -/
def spaceNow (sp : Space) (d : EngineD) : Space :=
  match sp with
  | .word => .word
  | .header => .header
  | .firstDelta => .firstDelta
  | .firstValue => .firstValue
  | .timestamp => .timestamp
  | .value _ => .value d.ses.windowWidth
  | .trailer => .trailer

/-- The spaces engine D reads code words in. -/
def Space.read : Space → Bool
  | .word => false
  | .header => true
  | .firstDelta => true
  | .firstValue => true
  | .timestamp => true
  | .value _ => true
  | .trailer => false

/-- The source ends `used` bits into a word (R141, R143): those bits stay consumed. -/
def exhaustedAfter (used : Nat) (s : State) : State :=
  ({ s with d := { s.d with rPos := s.d.rPos + used }, ret := .nothing } : State).enterFault .D .sourceExhausted

/-- The code word at `D.r_pos` (R107, log 7). A word whose tail is cut off runs all the same: its consumption of
the missing tail raises. -/
def fetchElement (sp : Space) (s : State) : Fetched :=
  if Space.read sp then
    match decode (spaceNow sp s.d) (upcoming s.params s.d) with
    | .ok (i, _) => .instr i
    | .error (.cutTail i) => .instr i
    | .error (.exhausted used) => .settled (.next (exhaustedAfter used s))
    | .error (.illegalOp _) => .settled (.refused .notACodeWord)
    | .error .shortWord => .settled (.refused .notACodeWord)
    | .error .notTrailer => .settled (.refused .notACodeWord)
  else .settled (.refused .notACodeWord)

/-- A code word that only engine E writes (R103, R104, log 7). -/
def fetchEmit (bits : List Bool) : Fetched :=
  match decode .trailer bits with
  | .ok (i, _) => .instr i
  | .error _ => .settled (.refused .notACodeWord)

/-- What one event turns into, in the state the event has been taken out of. -/
def fetch (r : Request) (s : State) : Fetched :=
  match r with
  | .command x w => fetchCommand x w s
  | .hostWrite addr bytes => .settled (hostWrite addr bytes s)
  | .reset => .settled (.next (hardwareReset s))
  | .micro w => fetchMicro w
  | .element sp => fetchElement sp s
  | .emit bits => fetchEmit bits

/-- `s` with event `r` to be delivered next. -/
def State.withRequest (s : State) (r : Request) : State := { s with input := r :: s.input }

/-- Bit `t` (0 first in stream order) of byte `addr` once `bits`, then zeros, stand from bit address `start` on. -/
def placedBit (d : EngineD) (start : Nat) (bits : List Bool) (addr t : Nat) : Bool :=
  if addr * 8 + t < start then (d.byteAt addr).getLsbD (7 - t) else bits.getD (addr * 8 + t - start) false

/-- Byte `addr` once `bits`, then zeros, stand from bit address `start` on. -/
def placedByte (d : EngineD) (start : Nat) (bits : List Bool) (addr : Nat) : Byte :=
  ofBits 8 ((List.range 8).map (placedBit d start bits addr))

/-- Engine D with `bits`, then zeros up to the longest code word, in SM_D from `D.r_pos` on, and a source long
enough to hold them. -/
def placeStream (p : Params) (bits : List Bool) (d : EngineD) : EngineD :=
  { d with
    smD := d.smD.writeBytes (d.rPos / 8)
      ((List.range 11).map (fun j => placedByte d d.rPos bits (d.rPos / 8 + j)))
    srcLenUnits := max d.srcLenUnits ((d.rPos + longestWord + (p.unit.bits - 1)) / p.unit.bits) }

/-- The event that delivers a word of the command-word space: on its port if it is a command, else on the bench. -/
def wordRequest (w : CommandWord) : Request :=
  match decodeWord w with
  | .ok i =>
    match i.port with
    | some x => .command x w
    | none => .micro w
  | .error _ => .command .E w

/-- `s` with the bits of one instruction placed so that the next step fetches and runs it (log 15). -/
def placeWord (sp : Space) (bits : List Bool) (s : State) : State :=
  if Space.read sp then
    ({ s with d := placeStream s.params bits s.d } : State).withRequest (.element sp)
  else
    match sp with
    | .trailer => s.withRequest (.emit bits)
    | _ => s.withRequest (wordRequest (ofBits 137 bits))

/-! What the host can read between commands (10_state.md R34). -/

/-- The registers R34 lists, with their codes (R23, R251). -/
structure HostStatus where
  phaseE : BitVec 3
  faultE : BitVec 4
  wUnit : Nat
  accFill : Nat
  phaseD : BitVec 3
  faultD : BitVec 4
  rPos : Nat
deriving DecidableEq, Repr

/-- A status read, without side effect (R34). -/
def State.hostStatus (s : State) : HostStatus :=
  { phaseE := s.e.phase.code, faultE := s.e.fault.code, wUnit := s.e.wUnit, accFill := s.e.accFill,
    phaseD := s.d.phase.code, faultD := s.d.fault.code, rPos := s.d.rPos }

/-- A committed unit of SM_E (R34, R72); `none` at or above `E.w_unit`. -/
def State.hostReadUnit (s : State) (u : Nat) : Option W64 :=
  if u < s.e.wUnit then some (unitAt s.params.unit s.e.byteAt u) else none

/-- The bytes of the committed units of SM_E in stream order: what `HOST copy SM_E -> SM_D` copies (R108). -/
def State.blockBytes (s : State) : List Byte :=
  (List.range (s.e.wUnit * s.params.unit.bytes)).map s.e.byteAt

/-- The 135 bits of a response record: `status` 3, `fault` 4, `timestamp` 64, `value` 64 (R94), in that order. -/
def Response.flat (r : Response) : BitVec 135 :=
  r.status.code ++ (r.fault.code ++ (r.timestamp ++ r.value))

end Machine
end Sys2Proof
end

