-- ==== Sys2Proof/Machine/Dispatch.lean ====
section
/-! DEFINITION. One arm per instruction, each one direct call of its meaning. -/

namespace Sys2Proof
namespace Machine

def exec (i : Instr) (s : State) : Host.Outcome State Fault Refusal :=
  match i with
  | .cInit kind blockTimestamp tableSizeReq => Sys2Proof.Machine.execCInit kind blockTimestamp tableSizeReq s
  | .addValue timestamp value => Sys2Proof.Machine.execAddValue timestamp value s
  | .close => Sys2Proof.Machine.execClose s
  | .dInit kind srcLenUnits tableSizeReq => Sys2Proof.Machine.execDInit kind srcLenUnits tableSizeReq s
  | .readPair => Sys2Proof.Machine.execReadPair s
  | .writeBit bit => Sys2Proof.Machine.execWriteBit bit s
  | .skipBit => Sys2Proof.Machine.execSkipBit s
  | .writeBits value n => Sys2Proof.Machine.execWriteBits value n s
  | .flush => Sys2Proof.Machine.execFlush s
  | .readBit => Sys2Proof.Machine.execReadBit s
  | .readBits n => Sys2Proof.Machine.execReadBits n s
  | .readRunOfOnes maxBits => Sys2Proof.Machine.execReadRunOfOnes maxBits s
  | .predInit x kind sizeReq => Sys2Proof.Machine.execPredInit x kind sizeReq s
  | .predUpdate x value => Sys2Proof.Machine.execPredUpdate x value s
  | .predPredict x => Sys2Proof.Machine.execPredPredict x s
  | .valWriteFirst value => Sys2Proof.Machine.execValWriteFirst value s
  | .valCompress value => Sys2Proof.Machine.execValCompress value s
  | .valReadFirst => Sys2Proof.Machine.execValReadFirst s
  | .valDecompress => Sys2Proof.Machine.execValDecompress s
  | .tsWriteFirst timestamp => Sys2Proof.Machine.execTsWriteFirst timestamp s
  | .tsCompress timestamp => Sys2Proof.Machine.execTsCompress timestamp s
  | .tsReadFirst => Sys2Proof.Machine.execTsReadFirst s
  | .tsDecompress => Sys2Proof.Machine.execTsDecompress s
  | .header blockTimestamp => Sys2Proof.Machine.execHeader blockTimestamp s
  | .firstDelta d => Sys2Proof.Machine.execFirstDelta d s
  | .emptyMarker => Sys2Proof.Machine.execEmptyMarker s
  | .firstValue value => Sys2Proof.Machine.execFirstValue value s
  | .tsZero => Sys2Proof.Machine.execTsZero s
  | .ts7 p => Sys2Proof.Machine.execTs7 p s
  | .ts9 p => Sys2Proof.Machine.execTs9 p s
  | .ts12 p => Sys2Proof.Machine.execTs12 p s
  | .ts32 p => Sys2Proof.Machine.execTs32 p s
  | .tsSentinel => Sys2Proof.Machine.execTsSentinel s
  | .valSame => Sys2Proof.Machine.execValSame s
  | .valReuse _ bits => Sys2Proof.Machine.execValReuse bits s
  | .valNew leading lengthM1 bits => Sys2Proof.Machine.execValNew leading lengthM1 bits s
  | .terminator => Sys2Proof.Machine.execTerminator s
  | .padding k => Sys2Proof.Machine.execPadding k s

end Machine
end Sys2Proof
end

