-- ==== Sys2Proof/Machine/Step.lean ====
section
/-! DEFINITION. One step: the next event from outside is taken, and what it turns into is run. A block that nothing
is asked of does nothing (60_exceptions.md R264: no interrupts; R266: no timers). -/

namespace Sys2Proof
namespace Machine

/-- One step of the machine: one event, whole (20_memory.md R66, R71). -/
def step (s : State) : Host.Outcome State Fault Refusal :=
  match s.input with
  | [] => .next s
  | r :: rest =>
    match fetch r { s with input := rest } with
    | .instr i => exec i { s with input := rest }
    | .settled o => o

/-- `s` with the instruction of a table row placed so that the very next step fetches and runs it. -/
def State.withFetchWord (s : State) (nbits w : Nat) : State :=
  match tableBits nbits w with
  | none => s
  | some (sp, bits) => placeWord sp bits s

end Machine
end Sys2Proof
end

