-- ==== Sys2Proof/WellFormed.lean ====
section
/-! DEFINITION. Which instruction terms stand for an encoding: each check names the rule that reserves or bounds
the field. A term that fails its check is one no word decodes to. -/

namespace Sys2Proof

/-- FIRST_DELTA is below 2^27 - 1: the all-ones value is the EMPTY_MARKER (R98, R105). -/
def wfFirstDelta (d : BitVec 27) : Bool := d != BitVec.allOnes 27

/-- TS_32 is not 0xFFFFFFFF: that payload is the TS_SENTINEL (R99, R105). -/
def wfTs32 (p : BitVec 32) : Bool := p != BitVec.allOnes 32

/-- A VAL_REUSE tail has 0 to 64 bits and its field fits them (R101, R102). -/
def wfValReuse (n : Nat) (bits : W64) : Bool := decide (n ≤ 64) && decide (bits.toNat < 2 ^ n)

/-- A VAL_NEW field fits its `length_m1 + 1` bits; a word with `leading + length_m1 + 1 > 64` has no tail
(R102, R105). -/
def wfValNew (leading lengthM1 : BitVec 6) (bits : W64) : Bool :=
  if leading.toNat + lengthM1.toNat + 1 ≤ 64 then decide (bits.toNat < 2 ^ (lengthM1.toNat + 1))
  else bits == 0#64

/-- PADDING is shorter than one unit, and a unit has at most 64 bits (R104, R5). -/
def wfPadding (k : Nat) : Bool := decide (k < 64)

/-- Well-formed instructions. Every operand of a command or a micro-operation is legal as an encoding: no field
of R93 is restricted, and a width above 64 is a run-time fault (R258), not a bad encoding. -/
def Instr.wf : Instr → Bool
  | .cInit _ _ _ => true
  | .addValue _ _ => true
  | .close => true
  | .dInit _ _ _ => true
  | .readPair => true
  | .writeBit _ => true
  | .skipBit => true
  | .writeBits _ _ => true
  | .flush => true
  | .readBit => true
  | .readBits _ => true
  | .readRunOfOnes _ => true
  | .predInit _ _ _ => true
  | .predUpdate _ _ => true
  | .predPredict _ => true
  | .valWriteFirst _ => true
  | .valCompress _ => true
  | .valReadFirst => true
  | .valDecompress => true
  | .tsWriteFirst _ => true
  | .tsCompress _ => true
  | .tsReadFirst => true
  | .tsDecompress => true
  | .header _ => true
  | .firstDelta d => wfFirstDelta d
  | .emptyMarker => true
  | .firstValue _ => true
  | .tsZero => true
  | .ts7 _ => true
  | .ts9 _ => true
  | .ts12 _ => true
  | .ts32 p => wfTs32 p
  | .tsSentinel => true
  | .valSame => true
  | .valReuse n b => wfValReuse n b
  | .valNew l m b => wfValNew l m b
  | .terminator => true
  | .padding k => wfPadding k

end Sys2Proof
end

