-- ==== Sys2Proof/Safety.lean ====
section
/-! DEFINITION. The terms the statements are written in: the bit-sequence view of the sink (10_state.md R27), what
"appended", "room" and "available" mean (40_bitsink.md R120, 20_memory.md R69), the code words an encoder picks
(44_timestamp_dod.md R203, 43_value_xor.md R186), the invariants of 10_state.md R37, and runs of commands. -/

namespace Sys2Proof

/-- A timestamp code word of a sample after the first (R99), the sentinel not among them. -/
def Instr.isTimestampCode : Instr → Bool
  | .tsZero => true
  | .ts7 _ => true
  | .ts9 _ => true
  | .ts12 _ => true
  | .ts32 _ => true
  | _ => false

/-- A value code word (R101). -/
def Instr.isValueCode : Instr → Bool
  | .valSame => true
  | .valReuse _ _ => true
  | .valNew _ _ _ => true
  | _ => false

namespace Machine

/-! Views of the two streams. -/

/-- Bit `k` of `B_E` (R27): in its unit of SM_E once that is committed, else in the accumulator. -/
def sinkBit (p : Params) (e : EngineE) (k : Nat) : Bool :=
  if k / p.unit.bits < e.wUnit then unitBit p.unit.bits (unitAt p.unit e.byteAt (k / p.unit.bits)) k
  else unitBit p.unit.bits e.acc k

/-- `B_E` (R27). -/
def EngineE.bits (p : Params) (e : EngineE) : List Bool := (List.range (e.wPos p)).map (sinkBit p e)

/-- `n` more bits fit the sink (R69, R252). -/
abbrev EngineE.room (p : Params) (n : Nat) (e : EngineE) : Prop := p.overCapacity (e.wPos p + n) = false

/-- `n` more bits stand in the source (R69, R253). -/
abbrev EngineD.available (p : Params) (n : Nat) (d : EngineD) : Prop := d.rPos + n ≤ d.srcLenBits p

/-- The next `n` bits engine D will read. -/
def EngineD.next (p : Params) (n : Nat) (d : EngineD) : List Bool := streamBits p d d.rPos n

/-- The accumulator is not full, as always between operations (R26, R37 item 1). -/
abbrev EngineE.accOpen (p : Params) (e : EngineE) : Prop := e.accFill < p.unit.bits

/-- `e1` is `e` with the bits `bs` appended to `B_E` (R120) and nothing else changed: every register of the engine
but the sink's is as before, the cursor has moved by the number of bits, and every byte of SM_E outside the units
that filled up, `E.w_unit` to `(E.w_pos + bs.length) / UNIT_BITS`, reads as before. -/
def Appended (p : Params) (bs : List Bool) (e e1 : EngineE) : Prop :=
  e1.bits p = e.bits p ++ bs ∧
  e1.phase = e.phase ∧ e1.fault = e.fault ∧ e1.ses = e.ses ∧
  e1.wUnit = (e.wPos p + bs.length) / p.unit.bits ∧
  e1.accFill = (e.wPos p + bs.length) % p.unit.bits ∧
  ∀ addr, (addr < e.wUnit * p.unit.bytes ∨
      (e.wPos p + bs.length) / p.unit.bits * p.unit.bytes ≤ addr) →
    e1.smE.read addr = e.smE.read addr

/-! The code words an encoder picks. -/

/-- The payload of a non-zero delta-of-delta, from R203: `2 dod - 1` for dod > 0, `-2 dod - 2` for dod < 0. -/
def dodPayload (dod : Int) : Nat := if 0 < dod then (2 * dod - 1).toNat else (-2 * dod - 2).toNat

/-- The timestamp code word of a delta-of-delta by the ranges of R99 and R203. -/
def dodWord (dod : Int) : Instr :=
  if dod = 0 then .tsZero
  else if -64 ≤ dod ∧ dod ≤ 64 then .ts7 (BitVec.ofNat 7 (dodPayload dod))
  else if -256 ≤ dod ∧ dod ≤ 256 then .ts9 (BitVec.ofNat 9 (dodPayload dod))
  else if -2048 ≤ dod ∧ dod ≤ 2048 then .ts12 (BitVec.ofNat 12 (dodPayload dod))
  else .ts32 (BitVec.ofNat 32 (dodPayload dod))

/-- The value code word of a residual under the stored window, by the table of R186. -/
def residualWord (ses : Session) (r : W64) : Instr :=
  if r = 0#64 then .valSame
  else if ses.storedLeadingZeros ≠ Config.noWindow ∧ ses.storedLeadingZeros.toNat ≤ clz64 r ∧
      ses.storedTrailingZeros.toNat ≤ ctz64 r then
    .valReuse ses.windowWidth (r >>> ses.storedTrailingZeros.toNat)
  else
    .valNew (BitVec.ofNat 6 (clz64 r)) (BitVec.ofNat 6 (64 - clz64 r - ctz64 r - 1)) (r >>> ctz64 r)

/-- The session registers after the residual's code word, by the table of R186: a NEW word announces its window. -/
def residualWindow (ses : Session) (r : W64) : Session :=
  match residualWord ses r with
  | .valNew _ _ _ => ses.withWindow (clz64 r) (ctz64 r)
  | _ => ses

/-- The bits of a sample after the first (R96). -/
def sampleBits (w : Instr × Instr) : List Bool := encodeStream w.1 ++ encodeStream w.2

/-- The grammar of R96 up to the terminator: header, then a first sample and later ones. -/
def blockBits (blockTimestamp : W64) (d : BitVec 27) (v : W64) (ws : List (Instr × Instr)) : List Bool :=
  encodeStream (.header blockTimestamp) ++
    (encodeStream (.firstDelta d) ++ (encodeStream (.firstValue v) ++ ws.flatMap sampleBits))

/-! What a code word says (R100 to R102), and the registers after it. -/

/-- The delta-of-delta a payload `p` stands for, R100 read backwards: `p = 2 dod - 1` or `p = -2 dod - 2`. -/
def payloadDod (p : Nat) : Int := if p % 2 = 1 then ((p + 1) / 2 : Nat) else -((p / 2 + 1 : Nat) : Int)

/-- The delta-of-delta a timestamp code word stands for, whatever its class (R100, R106). -/
def wordDod : Instr → Int
  | .ts7 p => payloadDod p.toNat
  | .ts9 p => payloadDod p.toNat
  | .ts12 p => payloadDod p.toNat
  | .ts32 p => payloadDod p.toNat
  | _ => 0

/-- The timestamp registers after a delta-of-delta (R205). -/
def Session.advance (ses : Session) (dod : Int) : Session :=
  ses.withTime (ses.storedDelta + BitVec.ofInt 64 dod)
    (ses.storedTimestamp + (ses.storedDelta + BitVec.ofInt 64 dod))

/-- The trailing count a VAL_NEW implies (R102). -/
def newTrailing (leading lengthM1 : BitVec 6) : Nat := 64 - (lengthM1.toNat + 1) - leading.toNat

/-- The residual a value code word stands for (R101, R102). -/
def wordResidual (ses : Session) : Instr → W64
  | .valReuse _ bits => bits <<< ses.storedTrailingZeros.toNat
  | .valNew leading lengthM1 bits => bits <<< newTrailing leading lengthM1
  | _ => 0#64

/-- The window after a value code word (R101). -/
def wordWindow (ses : Session) : Instr → Session
  | .valNew leading lengthM1 _ => ses.withWindow leading.toNat (newTrailing leading lengthM1)
  | _ => ses

/-- A value code word the decoder accepts in this session (R105), its tail as wide as the window says (R107). -/
def wordLegal (ses : Session) : Instr → Bool
  | .valSame => true
  | .valReuse n _ => decide (ses.storedLeadingZeros ≠ Config.noWindow) && decide (n = ses.windowWidth)
  | .valNew leading lengthM1 _ => decide (leading.toNat + lengthM1.toNat + 1 ≤ 64)
  | _ => false

/-- The well-formed later samples of R96 from a session's window on: a timestamp code word, then a value code word
that is legal in the window the samples before it left (R101, R105, R107). -/
def samplesWf (ses : Session) : List (Instr × Instr) → Prop
  | [] => True
  | w :: ws =>
    w.1.isTimestampCode = true ∧ w.1.wf = true ∧ w.2.isValueCode = true ∧ w.2.wf = true ∧
      wordLegal ses w.2 = true ∧ samplesWf (wordWindow ses w.2) ws

/-- The window the samples leave, from a session's window on (R101). -/
def samplesWindow (ses : Session) (ws : List (Instr × Instr)) : Session :=
  ws.foldl (fun acc w => wordWindow acc w.2) ses

/-- The two window registers are equal (R21, R22). -/
def Session.sameWindow (ses ses1 : Session) : Prop :=
  ses.storedLeadingZeros = ses1.storedLeadingZeros ∧ ses.storedTrailingZeros = ses1.storedTrailingZeros

/-! Code words as fields: what is left of one when a field does not fit, or is cut off by the end of the source. -/

/-- The widths of the writes an encoder makes for a code word, in order (R181, R182, R201, R202, R224; a PADDING is
one SKIP_BIT after the other, R104). A command or a micro-operation is no code word. -/
def writeWidths : Instr → List Nat
  | .header _ => [64]
  | .firstDelta _ => [27]
  | .emptyMarker => [27]
  | .firstValue _ => [64]
  | .tsZero => [1]
  | .ts7 _ => [2, 7]
  | .ts9 _ => [3, 9]
  | .ts12 _ => [4, 12]
  | .ts32 _ => [4, 32]
  | .tsSentinel => [4, 32]
  | .valSame => [1]
  | .valReuse n _ => [1, 1, n]
  | .valNew _ lengthM1 _ => [1, 1, 6, 6, lengthM1.toNat + 1]
  | .terminator => [4, 32, 1]
  | .padding k => List.replicate k 1
  | .cInit _ _ _ => []
  | .addValue _ _ => []
  | .close => []
  | .dInit _ _ _ => []
  | .readPair => []
  | .writeBit _ => []
  | .skipBit => []
  | .writeBits _ _ => []
  | .flush => []
  | .readBit => []
  | .readBits _ => []
  | .readRunOfOnes _ => []
  | .predInit _ _ _ => []
  | .predUpdate _ _ => []
  | .predPredict _ => []
  | .valWriteFirst _ => []
  | .valCompress _ => []
  | .valReadFirst => []
  | .valDecompress => []
  | .tsWriteFirst _ => []
  | .tsCompress _ => []
  | .tsReadFirst => []
  | .tsDecompress => []

/-- The widths of the reads a decoder makes for a code word, in order: a prefix or control bit at a time, then whole
fields (R141 to R143, R183, R184, R204, R205). A VAL_NEW that R105 calls impossible has no tail; TERMINATOR and PADDING are
never read. -/
def readWidths : Instr → List Nat
  | .header _ => [64]
  | .firstDelta _ => [27]
  | .emptyMarker => [27]
  | .firstValue _ => [64]
  | .tsZero => [1]
  | .ts7 _ => [1, 1, 7]
  | .ts9 _ => [1, 1, 1, 9]
  | .ts12 _ => [1, 1, 1, 1, 12]
  | .ts32 _ => [1, 1, 1, 1, 32]
  | .tsSentinel => [1, 1, 1, 1, 32]
  | .valSame => [1]
  | .valReuse n _ => [1, 1, n]
  | .valNew leading lengthM1 _ =>
    [1, 1, 6, 6] ++ if leading.toNat + lengthM1.toNat + 1 ≤ 64 then [lengthM1.toNat + 1] else []
  | .terminator => []
  | .padding _ => []
  | .cInit _ _ _ => []
  | .addValue _ _ => []
  | .close => []
  | .dInit _ _ _ => []
  | .readPair => []
  | .writeBit _ => []
  | .skipBit => []
  | .writeBits _ _ => []
  | .flush => []
  | .readBit => []
  | .readBits _ => []
  | .readRunOfOnes _ => []
  | .predInit _ _ _ => []
  | .predUpdate _ _ => []
  | .predPredict _ => []
  | .valWriteFirst _ => []
  | .valCompress _ => []
  | .valReadFirst => []
  | .valDecompress => []
  | .tsWriteFirst _ => []
  | .tsCompress _ => []
  | .tsReadFirst => []
  | .tsDecompress => []

/-- Of fields of these widths exactly the first `j` fit, where `fits n` says that `n` bits do. -/
def CutAfter (fits : Nat → Prop) (widths : List Nat) (j : Nat) : Prop :=
  j < widths.length ∧ fits (widths.take j).sum ∧ ¬ fits (widths.take (j + 1)).sum

/-- Engine E ran out of room inside the code word `w` (R252): `e1` is `e` with every field of `w` appended that was
written before the first one that does not fit (R66), nothing of that one, and nothing else changed. -/
def KeptFields (p : Params) (w : Instr) (e e1 : EngineE) : Prop :=
  ∃ j, CutAfter (fun n => e.room p n) (writeWidths w) j ∧
    Appended p ((encodeStream w).take ((writeWidths w).take j).sum) e e1

/-- Engine D ran out of bits inside the code word `w` (R253): `d1` is `d` with every field of `w` consumed that the
source still holds whole, nothing of the next one, and `SOURCE_EXHAUSTED` raised. A VAL_NEW writes its window once
its first 14 bits are read (R184); nothing else changes. -/
def CutRead (p : Params) (w : Instr) (d d1 : EngineD) : Prop :=
  ∃ j, CutAfter (fun n => d.available p n) (readWidths w) j ∧
    d1 = { d with rPos := d.rPos + ((readWidths w).take j).sum
                  ses := if d.available p 14 then wordWindow d.ses w else d.ses
                  fault := .sourceExhausted }

/-- A REUSE tail is as wide as the window says (R107); 0 before any window, where the word is its two control bits. -/
def tailFits (ses : Session) (w : Instr) : Prop := ∀ n bits, w = .valReuse n bits → n = ses.windowWidth

/-- What is left of the source is a proper front part of the code word `w`. -/
def EngineD.endsIn (p : Params) (w : Instr) (d : EngineD) : Prop :=
  ¬ d.available p (encodeStream w).length ∧
  d.next p (d.srcLenBits p - d.rPos) = (encodeStream w).take (d.srcLenBits p - d.rPos)

/-- Engine E faulted with `CAPACITY` in a command that had come to `e` (R261). -/
def State.fullAt (s : State) (e : EngineE) : State :=
  { s with e := { e with fault := .capacity },
           respE := some { status := .fault, fault := .capacity, timestamp := 0#64, value := 0#64 } }

/-- Engine D faulted with `SOURCE_EXHAUSTED` in a command that had come to `d` (R261). -/
def State.cutAt (s : State) (d : EngineD) : State :=
  { s with d := { d with fault := .sourceExhausted },
           respD := some { status := .fault, fault := .sourceExhausted, timestamp := 0#64, value := 0#64 } }

/-- Engine D with `n` more bits consumed, the session registers `ses`, and `v` recorded in the predictor. -/
def EngineD.afterValue (d : EngineD) (n : Nat) (ses : Session) (v : W64) : EngineD :=
  { d with rPos := d.rPos + n, ses := { ses with pred := predUpdate v d.ses.pred } }

/-- The predictor instance of engine `x` (R29). -/
def State.predOf (s : State) (x : Engine) : Pred :=
  match x with
  | .E => s.e.ses.pred
  | .D => s.d.ses.pred

/-- The state with another predictor instance on engine `x`. -/
def State.setPred (s : State) (x : Engine) (q : Pred) : State :=
  match x with
  | .E => { s with e := s.e.withPred q }
  | .D => { s with d := s.d.withPred q }

/-- Engine D but for its predictor instance. -/
def EngineD.erasePred (d : EngineD) : EngineD := d.withPred Pred.reset

/-- What one event does, run at once. -/
def runRequest (r : Request) (s : State) : Result :=
  match fetch r s with
  | .instr i => exec i s
  | .settled o => o

/-- The event comes from the host (R90, R280, R283), not from the model's bench. -/
def Request.isHost : Request → Bool
  | .command _ _ => true
  | .hostWrite _ _ => true
  | .reset => true
  | .micro _ => false
  | .element _ => false
  | .emit _ => false

/-! Invariants (R37). -/

/-- R37 item 1, with the bound on `E.w_pos` of R30 and the canonical form of SM_E: the accumulator is part full, its
unfilled bits are 0, the stream fits the sink, every committed byte is listed. -/
abbrev SinkInv (p : Params) (e : EngineE) : Prop :=
  e.accFill < p.unit.bits ∧
  (∀ i, i < p.unit.bits - e.accFill → e.acc.getLsbD i = false) ∧
  (∀ i, i < 64 → p.unit.bits ≤ i → e.acc.getLsbD i = false) ∧
  p.overCapacity (e.wPos p) = false ∧
  Memory.wf e.smE ∧
  (∀ a, a < e.wUnit * p.unit.bytes → (e.smE.read a).isSome = true)

/-- R37 item 2, with the canonical form of SM_D. -/
abbrev SourceInv (p : Params) (d : EngineD) : Prop := d.rPos ≤ d.srcLenBits p ∧ Memory.wf d.smD

/-- R37 item 3. -/
abbrev WindowInv (ses : Session) : Prop :=
  ses.storedLeadingZeros = Config.noWindow ∨
  (ses.storedLeadingZeros.toNat ≤ 63 ∧ ses.storedTrailingZeros.toNat ≤ 63 ∧
    ses.storedLeadingZeros.toNat + ses.storedTrailingZeros.toNat ≤ 63)

/-- R37 item 4, with the bound of R25 and the canonical form of the table. -/
abbrev PredInv (p : Params) (q : Pred) : Prop :=
  q.hash < q.size ∧ q.size = 2 ^ Nat.log2 q.size ∧ p.overTable q.size = false ∧ Table.wf q.table q.size

/-- R37 items 1 to 4 on both engines: what every step keeps, the bench's steps too. -/
abbrev Inv (s : State) : Prop :=
  SinkInv s.params s.e ∧ WindowInv s.e.ses ∧ PredInv s.params s.e.ses.pred ∧
  SourceInv s.params s.d ∧ WindowInv s.d.ses ∧ PredInv s.params s.d.ses.pred

/-- The fault codes of engine E that a command can raise (R251). -/
def FaultCode.ofE : FaultCode → Bool
  | .none => true
  | .capacity => true
  | .config => true
  | .firstDeltaRange => true
  | .dodRange => true
  | .sourceExhausted => false
  | .malformed => false
  | .badWidth => false

/-- The fault codes of engine D that a command can raise (R251). -/
def FaultCode.ofD : FaultCode → Bool
  | .none => true
  | .sourceExhausted => true
  | .config => true
  | .malformed => true
  | .capacity => false
  | .firstDeltaRange => false
  | .dodRange => false
  | .badWidth => false

/-- What the commands keep beyond R37 items 1 to 4: item 7, the engine column of R251, and that a closed or
exhausted session has no fault and, on E, an empty accumulator (items 5 and 6). -/
def PhaseInv (s : State) : Prop :=
  s.e.fault.ofE = true ∧ s.d.fault.ofD = true ∧
  (s.e.phase = .idle → s.e.fault = .none ∨ s.e.fault = .config ∨ s.e.fault = .capacity) ∧
  (s.d.phase = .idle → s.d.fault = .none ∨ s.d.fault = .config ∨ s.d.fault = .sourceExhausted) ∧
  (s.e.phase = .closed → s.e.fault = .none ∧ s.e.accFill = 0) ∧
  (s.d.phase = .exhausted → s.d.fault = .none)

/-- R37 items 5 and 6: with no fault, `B_E` is a header, then a first sample, then later samples, then, once
closed, the terminator and less than a unit of padding (R96). Every value code word is legal in the window the words
before it left, from no window on (R36, R101, R105), and in a live session the registers hold the window they left. -/
def GrammarInv (s : State) : Prop :=
  s.e.fault = .none →
    match s.e.phase with
    | .idle => True
    | .ready =>
      s.e.ses.sameWindow Session.reset ∧ s.e.bits s.params = encodeStream (.header s.e.ses.blockTimestamp)
    | .afterFirst =>
      s.e.ses.sameWindow Session.reset ∧
        ∃ d v, wfFirstDelta d = true ∧ s.e.bits s.params = blockBits s.e.ses.blockTimestamp d v []
    | .streaming =>
      ∃ d v ws, wfFirstDelta d = true ∧ ws ≠ [] ∧ samplesWf Session.reset ws ∧
        s.e.ses.sameWindow (samplesWindow Session.reset ws) ∧
        s.e.bits s.params = blockBits s.e.ses.blockTimestamp d v ws
    | .closed =>
      ∃ body pad, pad < s.params.unit.bits ∧
        s.e.bits s.params = body ++ (terminatorBits ++ List.replicate pad false) ∧
        (body = encodeStream (.header s.e.ses.blockTimestamp) ∨
          ∃ d v ws, wfFirstDelta d = true ∧ samplesWf Session.reset ws ∧
            body = blockBits s.e.ses.blockTimestamp d v ws)

/-! Operands and answers. -/

/-- The predictor operands PRED_INIT accepts (R161, R254). -/
def predAccepted (p : Params) (kind : PredKind) (sizeReq : W64) : Bool :=
  match kind with
  | .last => true
  | .dfcm => decide (0 < sizeReq.toInt) && !(p.overTable (nextPow2 sizeReq.toNat))

/-- The predictor instance PRED_INIT leaves (R161, R36). -/
def freshPred (kind : PredKind) (sizeReq : W64) : Pred :=
  match kind with
  | .last => { kind := .last, size := 1, lastValue := 0#64, hash := 0, table := [] }
  | .dfcm => { kind := .dfcm, size := nextPow2 sizeReq.toNat, lastValue := 0#64, hash := 0, table := [] }

/-- The session registers of R36 after a construction. -/
def freshSession (blockTimestamp : W64) (kind : PredKind) (sizeReq : W64) : Session :=
  { blockTimestamp := blockTimestamp, storedTimestamp := 0#64, storedDelta := 0#64,
    storedLeadingZeros := Config.noWindow, storedTrailingZeros := 0#32, pred := freshPred kind sizeReq }

/-- An `OK` answer without a pair (R94). -/
def okResponse : Response := plainResponse .ok .none

/-- An `OK` answer with a pair (R94). -/
def pairOk (timestamp value : W64) : Response :=
  { status := .ok, fault := .none, timestamp := timestamp, value := value }

/-- An `ABSENT` answer (R94). -/
def absentResponse : Response := plainResponse .absent .none

/-- The state an outcome goes on in. -/
def nextState (r : Result) : Option State :=
  match r with
  | .next s => some s
  | .fault _ => none
  | .refused _ => none

/-- Commands of engine E run one after the other; `none` once one is not answered `OK` (R229). -/
def runOk : List Instr → State → Option State
  | [], s => some s
  | i :: is, s =>
    match exec i s with
    | .next t => if t.respE = some okResponse then runOk is t else none
    | .fault _ => none
    | .refused _ => none

/-- The answers of `n` READ_PAIR commands, one after the other (R229). -/
def readAnswers : Nat → State → List (Option Response)
  | 0, _ => []
  | n + 1, s =>
    match exec .readPair s with
    | .next t => t.respD :: readAnswers n t
    | .fault _ => []
    | .refused _ => []

/-- The host copies the committed units of SM_E to SM_D from address 0 on (R108, R283). -/
def hostCopy (s : State) : State := { s with d := { s.d with smD := s.d.smD.writeBytes 0 s.blockBytes } }

end Machine
end Sys2Proof
end

