-- ==== Sys2Proof/Certificates/Slice0/Obligations.lean ====
section
/-! DEFINITION. The statements about this machine, from the numbered rules of spec/. Vocabulary (`Appended`, `room`,
`available`, the code words an encoder picks, the invariants) is in Sys2Proof/Safety.lean. Every statement holds for
all values of the OPEN parameters (log 1) and for every content of the stream memories (log 2). -/

open Sys2Proof Sys2Proof.Machine

/-! Encodings. -/

/-- 30_encoding.md R91 to R107: the bits of a well-formed instruction decode to it, every operand kept, and whatever
stands after them in the stream is left alone (a stream is a prefix code given the position, R107). A trailer word is
only ever written, so it stands alone. A VAL_SAME and a VAL_NEW decode so whatever window the decoder holds, that is,
in the space of every REUSE width. The operand layout of the micro-operations is the model's own (log 6). -/
def Obligations.DecodeEncodeAgree : Prop :=
  (∀ (i : Instr) (rest : List Bool), i.wf = true → (i.space = .trailer → rest = []) →
    decode i.space (encode i ++ rest) = .ok (i, (encode i).length)) ∧
  ∀ (n : Nat) (rest : List Bool),
    decode (.value n) (encode .valSame ++ rest) = .ok (.valSame, (encode .valSame).length) ∧
    ∀ leading lengthM1 bits, (Instr.valNew leading lengthM1 bits).wf = true →
      decode (.value n) (encode (.valNew leading lengthM1 bits) ++ rest) =
        .ok (.valNew leading lengthM1 bits, (encode (.valNew leading lengthM1 bits)).length)

/-- R96 to R107 the other way: what the decoder reads from stream bits is well-formed, and its encoding is exactly the
bits consumed, so no two bit strings at one position mean the same word. A REUSE tail has at most 64 bits (R101). -/
def Obligations.EncodeDecodeAgree : Prop :=
  ∀ (sp : Space) (bs : List Bool) (i : Instr) (n : Nat), sp ≠ .word → (∀ k, sp = .value k → k ≤ 64) →
    decode sp bs = .ok (i, n) → i.wf = true ∧ n ≤ bs.length ∧ encode i = bs.take n

/-- Words written out from R91 to R93 and R97 to R103 decode to the instructions they stand for. -/
def Obligations.WrittenWordsDecode : Prop :=
  decodeWord 0x0040000015d3ef7980a3ff0000000000000#137 = .ok (.addValue 1500000000010#64 0x3FF0000000000000#64) ∧
  decodeWord 0x0030000015d3ef798000000000000000004#137 = .ok (.cInit .dfcm 1500000000000#64 4#64) ∧
  decodeWord 0x00600000000000000000000000000000000#137 = .ok .close ∧
  decodeWord 0x02200000000000000180000000000000000#137 = .ok (.dInit .last 24#64 0#64) ∧
  decodeWord 0x02400000000000000000000000000000000#137 = .ok .readPair ∧
  decode .timestamp [true, false, true, false, true, true, true, true, true] = .ok (.ts7 95#7, 9) ∧
  decode .timestamp (List.replicate 36 true) = .ok (.tsSentinel, 36) ∧
  decode (.value 12) [true, false, false, false, false, false, false, false, false, false, false, true, true, true] =
    .ok (.valReuse 12 7#64, 14) ∧
  decode (.value 12) [true, true, false, false, true, true, false, true, false, false, false, false, false, false,
    true] = .ok (.valNew 13#6 0#6 1#64, 15)

/-- R93: each operand of a command is its field as it stands, an unused field and a `K` that is not used are ignored
(R91, R95), and `table_size_req` is read only when `K` = 1. -/
def Obligations.CommandOperandAssembly : Prop :=
  (∀ (k : Bool) (a b : W64),
    decodeWord (packWord 0x01#8 k a b) = .ok (.cInit (if k then .dfcm else .last) a b) ∧
    decodeWord (packWord 0x02#8 k a b) = .ok (.addValue a b) ∧
    decodeWord (packWord 0x03#8 k a b) = .ok .close ∧
    decodeWord (packWord 0x11#8 k a b) = .ok (.dInit (if k then .dfcm else .last) a b) ∧
    decodeWord (packWord 0x12#8 k a b) = .ok .readPair) ∧
  ∀ (s : State) (a b b' : W64),
    exec (.cInit .last a b) s = exec (.cInit .last a b') s ∧
    exec (.dInit .last a b) s = exec (.dInit .last a b') s

/-- R95: every other operation number on a port is refused with `REFUSED_ILLEGAL_OP`, changing nothing but the answer
on that port; and a `K` that the command does not use makes no difference. -/
def Obligations.IllegalOpRefused : Prop :=
  (∀ (s : State) (x : Engine) (w : CommandWord) (rest : List Request), s.input = .command x w :: rest →
    (match x with
      | .E => w.extractLsb' 129 8 ∉ [0x01#8, 0x02#8, 0x03#8]
      | .D => w.extractLsb' 129 8 ∉ [0x11#8, 0x12#8]) →
    step s = .next (({ s with input := rest } : State).answer x
      { status := .refusedIllegalOp, fault := s.faultOf x, timestamp := 0#64, value := 0#64 })) ∧
  ∀ (s : State) (x : Engine) (op : Byte) (a b : W64) (rest : List Request), op ≠ 0x01#8 → op ≠ 0x11#8 →
    step { s with input := .command x (packWord op true a b) :: rest } =
      step { s with input := .command x (packWord op false a b) :: rest }

/-- The codes of R23, R25, R94 and R251. -/
def Obligations.CodesAreAsListed : Prop :=
  [PhaseE.idle, .ready, .afterFirst, .streaming, .closed].map PhaseE.code = [0#3, 1#3, 2#3, 3#3, 4#3] ∧
  [PhaseD.idle, .ready, .afterFirst, .streaming, .exhausted].map PhaseD.code = [0#3, 1#3, 2#3, 3#3, 4#3] ∧
  [PredKind.last, .dfcm].map PredKind.bit = [false, true] ∧
  [Status.ok, .absent, .refusedPhase, .refusedFaulted, .refusedIllegalOp, .fault].map Status.code =
    [0#3, 1#3, 2#3, 3#3, 4#3, 5#3] ∧
  [FaultCode.none, .capacity, .sourceExhausted, .config, .firstDeltaRange, .dodRange, .malformed,
    .badWidth].map FaultCode.code = [0#4, 1#4, 2#4, 3#4, 4#4, 5#4, 6#4, 7#4]

/-! Steps. -/

/-- A step takes the next event, and where that event's bits decode to an instruction, the step is exactly that
instruction's meaning on the state without the event: a command word on its port (R91, R221 line 1), and on the
model's bench a micro-operation word (log 6), the code word at `D.r_pos` (R107, log 7) and a code word that engine E
only writes (log 7). -/
def Obligations.StepRunsTheDecodedInstruction : Prop :=
  ∀ (s : State) (rest : List Request),
    (∀ x w i, s.input = .command x w :: rest → decodeWord w = .ok i → i.port = some x →
      step s = exec i { s with input := rest }) ∧
    (∀ w i, s.input = .micro w :: rest → decodeWord w = .ok i → i.port = none →
      step s = exec i { s with input := rest }) ∧
    (∀ sp i n, s.input = .element sp :: rest → Space.read sp = true →
      decode (spaceNow sp s.d) (upcoming s.params s.d) = .ok (i, n) →
      step s = exec i { s with input := rest }) ∧
    (∀ bs i n, s.input = .emit bs :: rest → decode .trailer bs = .ok (i, n) →
      step s = exec i { s with input := rest })

/-- The host's other events, each in one step (the model's choice, log 5, 11, 17): nothing to deliver changes nothing;
reset gives the state after reset (R280); a write of SM_D puts its bytes there and nothing else (R60, R283), and one
into the source of a live session, to which R74 gives no meaning, is refused by name. -/
def Obligations.HostEventsAct : Prop :=
  ∀ (s : State) (rest : List Request),
    (s.input = [] → step s = .next s) ∧
    (s.input = .reset :: rest → step s = .next { State.resetWith s.params with input := rest }) ∧
    ∀ addr bytes, s.input = .hostWrite addr bytes :: rest →
      if (s.d.phase = .ready ∨ s.d.phase = .afterFirst ∨ s.d.phase = .streaming) ∧ s.d.fault = .none ∧
          bytes ≠ [] ∧ addr < s.d.srcLenUnits * s.params.unit.bytes then
        step s = .refused .sourceChangedInSession
      else
        ∃ m, step s = .next { s with input := rest, d := { s.d with smD := m } } ∧
          (Memory.wf s.d.smD → Memory.wf m) ∧
          ∀ a, m.read a =
            if addr ≤ a ∧ a < addr + bytes.length then bytes[a - addr]? else s.d.smD.read a

/-- No instruction is stopped: each answers a next state from every state, but for FLUSH run alone at a unit that does
not exist (R60), which no state with the invariant of R26 has (log 12). -/
def Obligations.EveryInstructionAnswersNext : Prop :=
  ∀ (i : Instr) (s : State), (i = .flush → SinkInv s.params s.e) → ∃ t, exec i s = .next t

/-! Reset and invariants. -/

/-- R280 with the table of R35, from any state and for all parameters: reset answers nothing, puts both engines in
`IDLE` with no fault and every other register at the value listed, and after it each engine accepts only its
construction command. -/
def Obligations.ResetGivesEveryRegister : Prop :=
  ∀ (s : State) (rest : List Request), s.input = .reset :: rest →
    ∃ t, step s = .next t ∧ t.params = s.params ∧ t.input = rest ∧ t.respE = none ∧ t.respD = none ∧
      t.e.phase = .idle ∧ t.d.phase = .idle ∧ t.e.fault = .none ∧ t.d.fault = .none ∧
      t.e.ses.blockTimestamp = 0#64 ∧ t.d.ses.blockTimestamp = 0#64 ∧
      t.e.ses.storedTimestamp = 0#64 ∧ t.d.ses.storedTimestamp = 0#64 ∧
      t.e.ses.storedDelta = 0#64 ∧ t.d.ses.storedDelta = 0#64 ∧
      t.e.ses.storedLeadingZeros = 0xFFFFFFFF#32 ∧ t.d.ses.storedLeadingZeros = 0xFFFFFFFF#32 ∧
      t.e.ses.storedTrailingZeros = 0#32 ∧ t.d.ses.storedTrailingZeros = 0#32 ∧
      t.e.ses.pred.kind = .last ∧ t.d.ses.pred.kind = .last ∧
      t.e.ses.pred.size = 1 ∧ t.d.ses.pred.size = 1 ∧
      t.e.ses.pred.lastValue = 0#64 ∧ t.d.ses.pred.lastValue = 0#64 ∧
      t.e.ses.pred.hash = 0 ∧ t.d.ses.pred.hash = 0 ∧
      t.e.wUnit = 0 ∧ t.e.accFill = 0 ∧ t.e.acc = 0#64 ∧ t.d.rPos = 0 ∧ t.d.srcLenUnits = 0 ∧
      (∀ a b, exec (.addValue a b) t = .next (t.refuse .E .refusedPhase)) ∧
      exec .close t = .next (t.refuse .E .refusedPhase) ∧
      exec .readPair t = .next (t.refuse .D .refusedPhase)

/-- The invariants of R37 hold right after reset, for all parameters. -/
def Obligations.InvariantsHoldAtReset : Prop :=
  (∀ p, Inv (State.resetWith p) ∧ PhaseInv (State.resetWith p) ∧ GrammarInv (State.resetWith p)) ∧
  Inv State.reset

/-- R37 items 1 to 4, with the bounds of R25, R26, R28 and the canonical form of memory and tables, are kept by every
step, the bench's steps too, from every state that has them. -/
def Obligations.StepKeepsInvariants : Prop :=
  ∀ s t : State, Inv s → step s = .next t → Inv t

/-- R37 items 5 to 7 are kept by everything the host can do: with no fault the sink holds a header, then a first
sample, then later samples (R96), each value word legal in the window the words before it left, which the registers
hold (R101, R105); once closed a whole block; the fault codes are those the engine's commands raise (R251), so
`BAD_WIDTH` is none of them (R258). -/
def Obligations.HostStepsKeepTheGrammar : Prop :=
  ∀ (s t : State) (r : Request) (rest : List Request), s.input = r :: rest → r.isHost = true →
    Inv s → PhaseInv s → GrammarInv s → step s = .next t → PhaseInv t ∧ GrammarInv t

/-! The BitSink (40_bitsink.md). -/

/-- R121, R122: with a bit of room, WRITE_BIT appends its bit and SKIP_BIT a 0 to `B_E`, and nothing else changes;
with none they raise `CAPACITY` and append nothing. (Run alone on the bench, result in `ret`, no fault or phase check:
log 6.) -/
def Obligations.WriteBitAppendsOneBit : Prop :=
  ∀ (s : State) (i : Instr) (b : Bool), i = .writeBit b ∨ (i = .skipBit ∧ b = false) → s.e.accOpen s.params →
    (s.e.room s.params 1 →
      ∃ e1, exec i s = .next { s with e := e1, ret := .nothing } ∧ Appended s.params [b] s.e e1) ∧
    (¬ s.e.room s.params 1 →
      exec i s = .next { s with e := { s.e with fault := .capacity }, ret := .nothing })

/-- R123: WRITE_BITS appends the low `n` bits of its value, most significant first, all or none: `BAD_WIDTH` is tested
first, then `CAPACITY`. (Run alone on the bench, result in `ret`, no fault or phase check: log 6.) -/
def Obligations.WriteBitsAppendsItsField : Prop :=
  ∀ (s : State) (v : W64) (n : Byte), s.e.accOpen s.params →
    (n.toNat ≤ 64 → s.e.room s.params n.toNat →
      ∃ e1, exec (.writeBits v n) s = .next { s with e := e1, ret := .nothing } ∧
        Appended s.params ((List.range n.toNat).map fun j => v.getLsbD (n.toNat - 1 - j)) s.e e1) ∧
    (n.toNat ≤ 64 → ¬ s.e.room s.params n.toNat →
      exec (.writeBits v n) s = .next { s with e := { s.e with fault := .capacity }, ret := .nothing }) ∧
    (64 < n.toNat →
      exec (.writeBits v n) s = .next { s with e := { s.e with fault := .badWidth }, ret := .nothing })

/-- R124: FLUSH appends 0 bits to the next unit boundary, leaves the accumulator empty, and does nothing a second
time. (Run alone on the bench, result in `ret`, no fault or phase check: log 6.) -/
def Obligations.FlushPadsToTheBoundary : Prop :=
  ∀ s : State, SinkInv s.params s.e →
    (∃ e1, exec .flush s = .next { s with e := e1, ret := .nothing } ∧ e1.accFill = 0 ∧
      Appended s.params
        (List.replicate ((s.params.unit.bits - s.e.accFill) % s.params.unit.bits) false) s.e e1) ∧
    ∀ t, exec .flush s = .next t → exec .flush t = .next t

/-- R103, R104: what engine E writes at the end of a block. TERMINATOR appends 36 ones and a 0, PADDING its zeros, and
as many zeros as are missing to the unit boundary are what FLUSH does (the words run alone are the model's, log 7). -/
def Obligations.TrailerWordsAppend : Prop :=
  ∀ s : State, s.e.accOpen s.params →
    (s.e.room s.params 37 →
      ∃ e1, exec .terminator s = .next { s with e := e1, ret := .nothing } ∧
        Appended s.params (List.replicate 36 true ++ [false]) s.e e1) ∧
    (∀ k, s.e.room s.params k →
      ∃ e1, exec (.padding k) s = .next { s with e := e1, ret := .nothing } ∧
        Appended s.params (List.replicate k false) s.e e1) ∧
    (SinkInv s.params s.e →
      exec (.padding ((s.params.unit.bits - s.e.accFill) % s.params.unit.bits)) s = exec .flush s)

/-- R252 with R10, R66, R261: an operation that runs out of room raises `CAPACITY`. Every field of its code word
written before the one that does not fit stays appended, nothing of that one is, and the registers written by then
stay: the predictor of VAL_WRITE_FIRST and VAL_COMPRESS is updated, no other session register is. ADD_VALUE and CLOSE
are answered `FAULT`, keep what their halves had done by then, and leave the phase: a timestamp half that is through
keeps its code word and its registers. (Operations run alone leave `ret` and are not checked: log 6; the words
TERMINATOR and PADDING run alone: log 7.) -/
def Obligations.CapacityKeepsWhatFitted : Prop :=
  ∀ s : State, s.e.accOpen s.params → s.e.room s.params 0 →
    let alone := fun e : EngineE => ({ s with e := { e with fault := .capacity }, ret := .nothing } : State)
    (∀ v, ¬ s.e.room s.params 64 → exec (.valWriteFirst v) s = .next (alone (s.e.update v))) ∧
    (∀ v, let w := residualWord s.e.ses (predPredict s.e.ses.pred ^^^ v)
      ¬ s.e.room s.params (encodeStream w).length →
      ∃ e1, KeptFields s.params w (s.e.update v) e1 ∧ exec (.valCompress v) s = .next (alone e1)) ∧
    (∀ t, firstDeltaInRange (t - s.e.ses.blockTimestamp) = true → ¬ s.e.room s.params 27 →
      exec (.tsWriteFirst t) s = .next (alone s.e)) ∧
    (∀ t, let dod := t - s.e.ses.storedTimestamp - s.e.ses.storedDelta
      let w := dodWord dod.toInt
      dodInRange dod = true → ¬ s.e.room s.params (encodeStream w).length →
      ∃ e1, KeptFields s.params w s.e e1 ∧ exec (.tsCompress t) s = .next (alone e1)) ∧
    (¬ s.e.room s.params 37 →
      ∃ e1, KeptFields s.params .terminator s.e e1 ∧ exec .terminator s = .next (alone e1)) ∧
    (∀ n, ¬ s.e.room s.params n →
      ∃ e1, KeptFields s.params (.padding n) s.e e1 ∧ exec (.padding n) s = .next (alone e1)) ∧
    (s.e.fault = .none →
      (s.e.phase = .ready → ∀ ts v,
        let delta0 := ts - s.e.ses.blockTimestamp
        firstDeltaInRange delta0 = true →
        (¬ s.e.room s.params 27 → exec (.addValue ts v) s = .next (s.fullAt s.e)) ∧
        (s.e.room s.params 27 → ¬ s.e.room s.params 91 →
          ∃ e1, Appended s.params (encodeStream (.firstDelta (delta0.setWidth 27)))
              { s.e with ses := { s.e.ses.withTime delta0 ts with pred := predUpdate v s.e.ses.pred } } e1 ∧
            exec (.addValue ts v) s = .next (s.fullAt e1))) ∧
      (s.e.phase = .afterFirst ∨ s.e.phase = .streaming → ∀ ts v,
        let newDelta := ts - s.e.ses.storedTimestamp
        let dod := newDelta - s.e.ses.storedDelta
        let wt := dodWord dod.toInt
        let wv := residualWord s.e.ses (predPredict s.e.ses.pred ^^^ v)
        dodInRange dod = true →
        (¬ s.e.room s.params (encodeStream wt).length →
          ∃ e1, KeptFields s.params wt s.e e1 ∧ exec (.addValue ts v) s = .next (s.fullAt e1)) ∧
        (s.e.room s.params (encodeStream wt).length → ¬ s.e.room s.params (sampleBits (wt, wv)).length →
          ∃ e1 e2, Appended s.params (encodeStream wt) { s.e with ses := s.e.ses.withTime newDelta ts } e1 ∧
            KeptFields s.params wv (e1.update v) e2 ∧ exec (.addValue ts v) s = .next (s.fullAt e2))) ∧
      (s.e.phase.live = true → ¬ s.e.room s.params 37 →
        ∃ e1, KeptFields s.params .terminator s.e e1 ∧ exec .close s = .next (s.fullAt e1)))

/-- R127, R72 (a): no operation but a new construction alters a bit of `B_E` already appended, at any cursor, across
unit boundaries too; no committed unit is left or changed. -/
def Obligations.AppendedBitsAreFinal : Prop :=
  ∀ (i : Instr) (s t : State), (∀ k a b, i ≠ .cInit k a b) → s.e.accOpen s.params → exec i s = .next t →
    s.e.bits s.params <+: t.e.bits s.params ∧ s.e.wUnit ≤ t.e.wUnit ∧
    ∀ a, a < s.e.wUnit * s.params.unit.bytes → t.e.smE.read a = s.e.smE.read a

/-- R61, R63: the byte that holds stream bits 8j to 8j+7 is byte j, most significant bit first, whatever the width of
a unit: in the source, in the committed part of the sink, and in the units the host reads there (R34). -/
def Obligations.UnitsAreBigEndianBytes : Prop :=
  ∀ s : State,
    (∀ k, streamBit s.params s.d k = (s.d.byteAt (k / 8)).getLsbD (7 - k % 8)) ∧
    (∀ k, k < s.e.wUnit * s.params.unit.bits →
      sinkBit s.params s.e k = (s.e.byteAt (k / 8)).getLsbD (7 - k % 8) ∧
      ∃ v, s.hostReadUnit (k / s.params.unit.bits) = some v ∧
        v.getLsbD (s.params.unit.bits - 1 - k % s.params.unit.bits) = sinkBit s.params s.e k) ∧
    ∀ u, s.e.wUnit ≤ u → s.hostReadUnit u = none

/-! The BitSource (41_bitsource.md). -/

/-- R141, R142: READ_BIT and READ_BITS return the next bits right-aligned and move the cursor past them, all or none,
and nothing else changes; past the end of the source they raise and consume nothing. (Run alone on the bench, result
in `ret`, no fault or phase check: log 6.) -/
def Obligations.ReadBitsReturnsTheNextBits : Prop :=
  ∀ s : State,
    (s.d.available s.params 1 →
      exec .readBit s = .next { s with d := { s.d with rPos := s.d.rPos + 1 },
                                       ret := .word (if streamBit s.params s.d s.d.rPos then 1#64 else 0#64) }) ∧
    (¬ s.d.available s.params 1 →
      exec .readBit s = .next { s with d := { s.d with fault := .sourceExhausted }, ret := .nothing }) ∧
    ∀ n : Byte,
      (n.toNat ≤ 64 → s.d.available s.params n.toNat →
        ∃ v, exec (.readBits n) s =
            .next { s with d := { s.d with rPos := s.d.rPos + n.toNat }, ret := .word v } ∧
          ∀ j, j < 64 → v.getLsbD j =
            (decide (j < n.toNat) && streamBit s.params s.d (s.d.rPos + (n.toNat - 1 - j)))) ∧
      (n.toNat ≤ 64 → ¬ s.d.available s.params n.toNat →
        exec (.readBits n) s = .next { s with d := { s.d with fault := .sourceExhausted }, ret := .nothing }) ∧
      (64 < n.toNat →
        exec (.readBits n) s = .next { s with d := { s.d with fault := .badWidth }, ret := .nothing })

/-- R143: READ_RUN_OF_ONES counts the ones before the first 0 among the next `max_bits` bits, consumes that 0 with
them, leaves the bit after a full run unread, and where the source ends inside the run keeps the ones consumed. (Run
alone on the bench, result in `ret`, no fault or phase check: log 6.) -/
def Obligations.ReadRunOfOnesScans : Prop :=
  ∀ (s : State) (m : Byte), s.d.rPos ≤ s.d.srcLenBits s.params →
    let k := min m.toNat (s.d.srcLenBits s.params - s.d.rPos)
    let c := ((s.d.next s.params k).takeWhile fun b => b).length
    (c < k → exec (.readRunOfOnes m) s =
      .next { s with d := { s.d with rPos := s.d.rPos + (c + 1) }, ret := .word (BitVec.ofNat 64 c) }) ∧
    (c = k → k = m.toNat → exec (.readRunOfOnes m) s =
      .next { s with d := { s.d with rPos := s.d.rPos + k }, ret := .word (BitVec.ofNat 64 k) }) ∧
    (c = k → k < m.toNat → exec (.readRunOfOnes m) s =
      .next { s with d := { s.d with rPos := s.d.srcLenBits s.params, fault := .sourceExhausted },
                     ret := .nothing })

/-- R145 (a), (c): READ_BITS of `a` and then of `b` bits gives the two halves of READ_BITS of `a + b`, and one bit more
is a READ_BIT more. -/
def Obligations.ReadBitsSplits : Prop :=
  ∀ (p : Params) (d : EngineD) (a b : Nat), a + b ≤ 64 → d.available p (a + b) →
    readBits p (a + b) d =
      ((readBits p a d).bind fun v d1 => (readBits p b d1).bind fun w d2 => .ok ((v <<< b) ||| w) d2) ∧
    (b = 1 → readBits p (a + 1) d =
      ((readBits p a d).bind fun v d1 => (readBit p d1).bind fun c d2 => .ok ((v <<< 1) ||| bitVal 64 c) d2))

/-- R140, R28, R30: no operation writes SM_D, none but D_INIT moves the read cursor back or changes the source's
length, and the cursor never passes the end of the source. -/
def Obligations.SourceIsReadOnce : Prop :=
  ∀ (i : Instr) (s t : State), exec i s = .next t →
    t.d.smD = s.d.smD ∧
    (s.d.rPos ≤ s.d.srcLenBits s.params → t.d.rPos ≤ t.d.srcLenBits s.params) ∧
    ((∀ k a b, i ≠ .dInit k a b) → s.d.rPos ≤ t.d.rPos ∧ t.d.srcLenUnits = s.d.srcLenUnits)

/-! The predictor (42_predictor.md). -/

/-- R161, R163, R165: PRED_INIT leaves a fresh instance with nothing of an earlier one, or raises `CONFIG` with the
kind, the last value and the hash already written; PRED_PREDICT returns the last value, plus the table entry at the
hash for DFCM, and writes nothing. The DFCM table cleared is R161's; that LAST too leaves every entry 0 is the model's
reading of R29, R36 and R281 (DEDUCED, log 4). (Run alone on the bench, result in `ret`, no fault or phase check: log
6.) -/
def Obligations.PredictorStartsAndPredicts : Prop :=
  ∀ (s : State) (x : Engine),
    (∀ k n, predAccepted s.params k n = true →
      exec (.predInit x k n) s = .next { s.setPred x (freshPred k n) with ret := .nothing }) ∧
    (∀ k n, predAccepted s.params k n = false →
      exec (.predInit x k n) s =
        .next (({ s.setPred x { s.predOf x with kind := .dfcm, lastValue := 0#64, hash := 0 } with
                  ret := .nothing } : State).enterFault x .config)) ∧
    ((s.predOf x).kind = .last →
      exec (.predPredict x) s = .next { s with ret := .word (s.predOf x).lastValue }) ∧
    ((s.predOf x).kind = .dfcm →
      exec (.predPredict x) s =
        .next { s with ret := .word ((s.predOf x).table.read (s.predOf x).hash + (s.predOf x).lastValue) })

/-- R162, R164: PRED_UPDATE records the value; for DFCM it also writes the wrapped difference at the old hash, leaves
every other entry, and advances the hash by `((hash << 5) XOR (delta >> 50)) AND (size - 1)`. (Run alone on the bench,
result in `ret`, no fault or phase check: log 6.) -/
def Obligations.PredictorRecords : Prop :=
  ∀ (s : State) (x : Engine) (v : W64), PredInv s.params (s.predOf x) →
    let q := s.predOf x
    ∃ q1, exec (.predUpdate x v) s = .next { s.setPred x q1 with ret := .nothing } ∧
      q1.kind = q.kind ∧ q1.size = q.size ∧ q1.lastValue = v ∧ Table.wf q1.table q1.size ∧
      (q.kind = .last → q1.hash = q.hash ∧ q1.table = q.table) ∧
      (q.kind = .dfcm →
        q1.hash = (q.hash * 32 ^^^ (v - q.lastValue).toNat / 2 ^ 50) % q.size ∧
        ∀ j, q1.table.read j = if j = q.hash then v - q.lastValue else q.table.read j)

/-- R166: `NextPow2(s)` is the smallest power of two at or above `s`. -/
def Obligations.NextPowerIsTheSmallest : Prop :=
  ∀ s : Nat, 1 ≤ s → (∃ k, nextPow2 s = 2 ^ k) ∧ s ≤ nextPow2 s ∧ ∀ k, s ≤ 2 ^ k → nextPow2 s ≤ 2 ^ k

/-! The timestamp codec (44_timestamp_dod.md). -/

/-- R9: the zig-zag map is 2n for n ≥ 0 and -2n - 1 for n < 0, and `unzigzag64` is its inverse both ways. -/
def Obligations.ZigzagMapsAndInverts : Prop :=
  ∀ n : W64, (0 ≤ n.toInt → ((zigzag64 n).toNat : Int) = 2 * n.toInt) ∧
    (n.toInt < 0 → ((zigzag64 n).toNat : Int) = -2 * n.toInt - 1) ∧
    unzigzag64 (zigzag64 n) = n ∧ zigzag64 (unzigzag64 n) = n

/-- R206, R203, R100: a codable non-zero delta-of-delta has the payload `2 dod - 1` or `-2 dod - 2`, at most
0xFFFFFFFE, whose decoding gives it back; 32-bit arithmetic gives the same payload; and the two values next to the
range give 0xFFFFFFFF and 2^32. -/
def Obligations.DodPayloadIsFaithful : Prop :=
  (∀ dod : W64, dodInRange dod = true → dod ≠ 0#64 →
    (zigzag64 dod - 1#64).toNat = dodPayload dod.toInt ∧ dodPayload dod.toInt ≤ 0xFFFFFFFE ∧
    unzigzag64 ((zigzag64 dod - 1#64) + 1#64) = dod ∧ payloadDod (dodPayload dod.toInt) = dod.toInt ∧
    (((dod.setWidth 32 <<< 1) ^^^ (dod.setWidth 32).sshiftRight 31) - 1#32).toNat = dodPayload dod.toInt) ∧
  zigzag64 0x80000000#64 - 1#64 = Config.tsSentinel ∧
  zigzag64 0xFFFFFFFF7FFFFFFF#64 - 1#64 = 0x100000000#64

/-- R201: TS_WRITE_FIRST appends the difference to the origin in 27 bits and stores it with the timestamp; outside 0
to 2^27 - 2 it raises `FIRST_DELTA_RANGE` before anything is written or stored. (Run alone on the bench, result in
`ret`, no fault or phase check: log 6.) -/
def Obligations.FirstTimestampIsWritten : Prop :=
  ∀ (s : State) (t : W64), s.e.accOpen s.params →
    let delta0 := t - s.e.ses.blockTimestamp
    (0 ≤ delta0.toInt ∧ delta0.toInt ≤ 134217726 → s.e.room s.params 27 →
      ∃ e1, exec (.tsWriteFirst t) s = .next { s with e := e1, ret := .nothing } ∧
        Appended s.params (encodeStream (.firstDelta (delta0.setWidth 27)))
          { s.e with ses := s.e.ses.withTime delta0 t } e1) ∧
    (¬ (0 ≤ delta0.toInt ∧ delta0.toInt ≤ 134217726) →
      exec (.tsWriteFirst t) s =
        .next { s with e := { s.e with fault := .firstDeltaRange }, ret := .nothing })

/-- R203 with R202: TS_COMPRESS appends the code word of the class table for its delta-of-delta and stores the new
delta and timestamp; outside the signed 32-bit range it raises `DOD_RANGE` before anything is written or stored. (Run
alone on the bench, result in `ret`, no fault or phase check: log 6.) -/
def Obligations.TimestampCodeByClass : Prop :=
  ∀ (s : State) (t : W64), s.e.accOpen s.params →
    let newDelta := t - s.e.ses.storedTimestamp
    let dod := (newDelta - s.e.ses.storedDelta).toInt
    (-2147483648 ≤ dod ∧ dod ≤ 2147483647 → s.e.room s.params (encodeStream (dodWord dod)).length →
      ∃ e1, exec (.tsCompress t) s = .next { s with e := e1, ret := .nothing } ∧
        Appended s.params (encodeStream (dodWord dod)) { s.e with ses := s.e.ses.withTime newDelta t } e1) ∧
    (¬ (-2147483648 ≤ dod ∧ dod ≤ 2147483647) →
      exec (.tsCompress t) s = .next { s with e := { s.e with fault := .dodRange }, ret := .nothing })

/-- R204: TS_READ_FIRST reads 27 bits; all ones is the empty-block marker and stores nothing, anything else is the
first delta. (Run alone on the bench, result in `ret`, no fault or phase check: log 6.) -/
def Obligations.FirstTimestampIsRead : Prop :=
  ∀ s : State,
    (s.d.available s.params 27 →
      let v := ofBits 64 (s.d.next s.params 27)
      let ts := s.d.ses.blockTimestamp + v
      exec .tsReadFirst s =
        if v = 134217727#64 then
          .next { s with d := { s.d with rPos := s.d.rPos + 27 }, ret := .flagged true 0#64 }
        else
          .next { s with d := { s.d with rPos := s.d.rPos + 27, ses := s.d.ses.withTime v ts },
                         ret := .flagged false ts }) ∧
    (¬ s.d.available s.params 27 →
      exec .tsReadFirst s = .next { s with d := { s.d with fault := .sourceExhausted }, ret := .nothing })

/-- R99, R100, R205: a timestamp code word at the cursor moves the delta by its delta-of-delta and the timestamp by the
new delta, whatever class its payload stands in (R106 (a)); the sentinel stores nothing and ends the stream. Words run
alone, and the phase they leave, are the model's (log 7, 8). -/
def Obligations.TimestampWordsAdvance : Prop :=
  (∀ (s : State) (w : Instr), w.isTimestampCode = true → w.wf = true →
    s.d.available s.params (encodeStream w).length →
    let ses1 := s.d.ses.advance (wordDod w)
    exec w s = .next { s with d := { s.d with rPos := s.d.rPos + (encodeStream w).length, ses := ses1 },
                              ret := .flagged false ses1.storedTimestamp }) ∧
  ∀ s : State, s.d.available s.params 36 →
    exec .tsSentinel s = .next { s with d := { s.d with rPos := s.d.rPos + 36, phase := .exhausted },
                                        ret := .flagged true 0#64 }

/-- R205: TS_DECOMPRESS on the bits of a timestamp code word returns its timestamp and consumes exactly those bits; on
the 36 ones of the sentinel it returns `end` and writes no register. (Run alone on the bench, result in `ret`, no
fault or phase check: log 6.) -/
def Obligations.TimestampIsDecoded : Prop :=
  (∀ (s : State) (w : Instr), w.isTimestampCode = true → w.wf = true →
    s.d.available s.params (encodeStream w).length →
    s.d.next s.params (encodeStream w).length = encodeStream w →
    let ses1 := s.d.ses.advance (wordDod w)
    exec .tsDecompress s =
      .next { s with d := { s.d with rPos := s.d.rPos + (encodeStream w).length, ses := ses1 },
                     ret := .flagged false ses1.storedTimestamp }) ∧
  ∀ s : State, s.d.available s.params 36 → s.d.next s.params 36 = List.replicate 36 true →
    exec .tsDecompress s =
      .next { s with d := { s.d with rPos := s.d.rPos + 36 }, ret := .flagged true 0#64 }

/-- R207: with equal timestamp registers on both engines, what TS_COMPRESS or TS_WRITE_FIRST appended without fault is
read back by TS_DECOMPRESS or TS_READ_FIRST as the same timestamp, `end` or `empty` 0, exactly those bits consumed,
and the registers equal again. (Run alone on the bench, result in `ret`, no fault or phase check: log 6.) -/
def Obligations.TimestampsRoundTrip : Prop :=
  ∀ (s t : State) (ts : W64) (enc dec : Instr) (bs : List Bool),
    (enc = .tsWriteFirst ts ∧ dec = .tsReadFirst) ∨ (enc = .tsCompress ts ∧ dec = .tsDecompress) →
    s.e.accOpen s.params → s.d.ses.blockTimestamp = s.e.ses.blockTimestamp →
    s.d.ses.storedTimestamp = s.e.ses.storedTimestamp → s.d.ses.storedDelta = s.e.ses.storedDelta →
    exec enc s = .next t → t.e.fault = .none → t.e.bits s.params = s.e.bits s.params ++ bs →
    s.d.available s.params bs.length → s.d.next s.params bs.length = bs →
    exec dec t = .next { t with d := { s.d with rPos := s.d.rPos + bs.length,
                                                ses := s.d.ses.withTime t.e.ses.storedDelta
                                                  t.e.ses.storedTimestamp },
                                ret := .flagged false ts } ∧
    t.e.ses.blockTimestamp = s.e.ses.blockTimestamp

/-! The value codec (43_value_xor.md). -/

/-- R181, R183: the first value is written and read as 64 raw bits and recorded in the predictor; no other register
changes. (Run alone on the bench, result in `ret`, no fault or phase check: log 6.) -/
def Obligations.FirstValueIsRaw : Prop :=
  ∀ s : State,
    (∀ v, s.e.accOpen s.params → s.e.room s.params 64 →
      ∃ e1, exec (.valWriteFirst v) s = .next { s with e := e1, ret := .nothing } ∧
        Appended s.params (encodeStream (.firstValue v)) (s.e.update v) e1) ∧
    (s.d.available s.params 64 →
      let v := ofBits 64 (s.d.next s.params 64)
      exec .valReadFirst s = .next { s with d := s.d.afterValue 64 s.d.ses v, ret := .word v }) ∧
    (¬ s.d.available s.params 64 →
      exec .valReadFirst s = .next { s with d := { s.d with fault := .sourceExhausted }, ret := .nothing })

/-- R186 with R182: VAL_COMPRESS picks SAME, REUSE or NEW by the residual and the stored window, appends that code
word, records the value, and only a NEW word changes the window. (Run alone on the bench, result in `ret`, no fault or
phase check: log 6.) -/
def Obligations.ValueCodeBySelection : Prop :=
  ∀ (s : State) (v : W64), s.e.accOpen s.params →
    let r := predPredict s.e.ses.pred ^^^ v
    let w := residualWord s.e.ses r
    s.e.room s.params (encodeStream w).length →
    (∃ e1, exec (.valCompress v) s = .next { s with e := e1, ret := .nothing } ∧
      Appended s.params (encodeStream w)
        { s.e with ses := { residualWindow s.e.ses r with pred := predUpdate v s.e.ses.pred } } e1) ∧
    w.wf = true

/-- R101, R102, R184: a legal value code word at the cursor gives the prediction XOR its residual, records it, and only
a NEW word changes the window; `bits` of 0 or with more zeros than announced are taken as they are (R106 (b) to (d)).
Words run alone, and the phase they leave, are the model's (log 7, 8). -/
def Obligations.ValueWordsRecord : Prop :=
  ∀ (s : State) (w : Instr), w.isValueCode = true → w.wf = true → wordLegal s.d.ses w = true →
    s.d.available s.params (encodeStream w).length →
    let v := predPredict s.d.ses.pred ^^^ wordResidual s.d.ses w
    exec w s =
      .next { s with d := { s.d.afterValue (encodeStream w).length (wordWindow s.d.ses w) v with
                            phase := .streaming },
                     ret := .word v }

/-- R184: VAL_DECOMPRESS on the bits of a legal value code word returns the prediction XOR its residual, records it
and consumes exactly those bits. (Run alone on the bench, result in `ret`, no fault or phase check: log 6.) -/
def Obligations.ValueIsDecoded : Prop :=
  ∀ (s : State) (w : Instr), w.isValueCode = true → w.wf = true → wordLegal s.d.ses w = true →
    s.d.available s.params (encodeStream w).length →
    s.d.next s.params (encodeStream w).length = encodeStream w →
    let v := predPredict s.d.ses.pred ^^^ wordResidual s.d.ses w
    exec .valDecompress s =
      .next { s with d := s.d.afterValue (encodeStream w).length (wordWindow s.d.ses w) v, ret := .word v }

/-- R257: with the longest code word's bits in the source, VAL_DECOMPRESS raises `MALFORMED` exactly on a REUSE code
with no window and on a NEW code whose `leading + significant_bits` exceeds 64, raises nothing else, and on either the
predictor and the window stay. (Run alone on the bench, result in `ret`, no fault or phase check: log 6.) -/
def Obligations.MalformedCodesExactly : Prop :=
  ∀ s : State, s.d.fault = .none → s.d.available s.params 78 →
    let b := fun k => streamBit s.params s.d (s.d.rPos + k)
    let leading := (ofBits 64 (streamBits s.params s.d (s.d.rPos + 2) 6)).toNat
    let significantBits := (ofBits 64 (streamBits s.params s.d (s.d.rPos + 8) 6)).toNat + 1
    let reuseNoWindow := b 0 = true ∧ b 1 = false ∧ s.d.ses.storedLeadingZeros = Config.noWindow
    let badNew := b 0 = true ∧ b 1 = true ∧ 64 < leading + significantBits
    (reuseNoWindow → exec .valDecompress s =
      .next { s with d := { s.d with rPos := s.d.rPos + 2, fault := .malformed }, ret := .nothing }) ∧
    (badNew → exec .valDecompress s =
      .next { s with d := { s.d with rPos := s.d.rPos + 14, fault := .malformed }, ret := .nothing }) ∧
    (¬ reuseNoWindow → ¬ badNew → ∃ t, exec .valDecompress s = .next t ∧ t.d.fault = .none)

/-- R105 on the words themselves: a VAL_REUSE before any window, and a VAL_NEW with a negative trailing count, raise
`MALFORMED` once their control bits and fields are consumed; the predictor and the window stay (log 7). -/
def Obligations.IllegalValueWordsAreMalformed : Prop :=
  ∀ s : State,
    (∀ n bits, s.d.ses.storedLeadingZeros = Config.noWindow → s.d.available s.params 2 →
      exec (.valReuse n bits) s =
        .next { s with d := { s.d with rPos := s.d.rPos + 2, fault := .malformed }, ret := .nothing }) ∧
    ∀ leading lengthM1 bits, 64 < leading.toNat + lengthM1.toNat + 1 → s.d.available s.params 14 →
      exec (.valNew leading lengthM1 bits) s =
        .next { s with d := { s.d with rPos := s.d.rPos + 14, fault := .malformed }, ret := .nothing }

/-- R253 with R141 to R143, R184, R205, R261: a code word whose bits are not all in the source raises
`SOURCE_EXHAUSTED`. Prefix and control bits that are there stay consumed, a field that is not there whole is not
consumed, and nothing else changes but the window of a VAL_NEW whose two fields were read. So for a code word run
alone (log 7, 8, 21, 22), for TS_DECOMPRESS and VAL_DECOMPRESS run alone (log 6) on a source that ends in such a word,
and for READ_PAIR, which is answered `FAULT`, leaves the phase, and keeps the timestamp registers of a timestamp half
that is through. -/
def Obligations.CutWordsRaiseSourceExhausted : Prop :=
  ∀ s : State, s.d.rPos ≤ s.d.srcLenBits s.params →
    (∀ w : Instr, Space.read w.space = true → w.wf = true → tailFits s.d.ses w →
      ¬ s.d.available s.params (encodeStream w).length →
      ∃ d1, CutRead s.params w s.d d1 ∧ exec w s = .next { s with d := d1, ret := .nothing }) ∧
    (∀ w : Instr, w.space = .timestamp → w.wf = true → s.d.endsIn s.params w →
      ∃ d1, CutRead s.params w s.d d1 ∧ exec .tsDecompress s = .next { s with d := d1, ret := .nothing }) ∧
    (∀ w : Instr, w.isValueCode = true → w.wf = true → tailFits s.d.ses w → s.d.endsIn s.params w →
      ∃ d1, CutRead s.params w s.d d1 ∧ exec .valDecompress s = .next { s with d := d1, ret := .nothing }) ∧
    (s.d.fault = .none → s.d.phase = .ready →
      (¬ s.d.available s.params 27 → exec .readPair s = .next (s.cutAt s.d)) ∧
      (s.d.available s.params 27 → ¬ s.d.available s.params 91 →
        let delta := ofBits 64 (s.d.next s.params 27)
        delta ≠ 134217727#64 →
        exec .readPair s =
          .next (s.cutAt { s.d with rPos := s.d.rPos + 27
                                    ses := s.d.ses.withTime delta (s.d.ses.blockTimestamp + delta) }))) ∧
    (s.d.fault = .none → s.d.phase = .afterFirst ∨ s.d.phase = .streaming →
      (∀ w : Instr, w.space = .timestamp → w.wf = true → s.d.endsIn s.params w →
        ∃ d1, CutRead s.params w s.d d1 ∧ exec .readPair s = .next (s.cutAt d1)) ∧
      ∀ wt wv : Instr, wt.isTimestampCode = true → wt.wf = true →
        s.d.available s.params (encodeStream wt).length →
        s.d.next s.params (encodeStream wt).length = encodeStream wt →
        let d2 : EngineD := { s.d with rPos := s.d.rPos + (encodeStream wt).length
                                       ses := s.d.ses.advance (wordDod wt) }
        wv.isValueCode = true → wv.wf = true → tailFits s.d.ses wv → d2.endsIn s.params wv →
        ∃ d1, CutRead s.params wv d2 d1 ∧ exec .readPair s = .next (s.cutAt d1))

/-- R187: with equal predictors and windows on both engines, what VAL_COMPRESS or VAL_WRITE_FIRST appended without
fault is read back by VAL_DECOMPRESS or VAL_READ_FIRST as the same value, exactly those bits consumed, nothing raised,
and predictor and window equal again. (Run alone on the bench, result in `ret`, no fault or phase check: log 6.) -/
def Obligations.ValuesRoundTrip : Prop :=
  ∀ (s t : State) (v : W64) (enc dec : Instr) (bs : List Bool),
    (enc = .valWriteFirst v ∧ dec = .valReadFirst) ∨ (enc = .valCompress v ∧ dec = .valDecompress) →
    s.e.accOpen s.params → s.d.ses.pred = s.e.ses.pred →
    s.d.ses.storedLeadingZeros = s.e.ses.storedLeadingZeros →
    s.d.ses.storedTrailingZeros = s.e.ses.storedTrailingZeros →
    exec enc s = .next t → t.e.fault = .none → t.e.bits s.params = s.e.bits s.params ++ bs →
    s.d.available s.params bs.length → s.d.next s.params bs.length = bs →
    exec dec t =
      .next { t with d := { s.d with rPos := s.d.rPos + bs.length,
                                     ses := { s.d.ses with
                                       storedLeadingZeros := t.e.ses.storedLeadingZeros
                                       storedTrailingZeros := t.e.ses.storedTrailingZeros
                                       pred := t.e.ses.pred } },
                     ret := .word v }

/-! The framing words (30_encoding.md R97, R98, R105). -/

/-- R97, R98, R105 with R204, R183, R225, R226: HEADER gives the origin, FIRST_DELTA the first timestamp, FIRST_VALUE
the first value, EMPTY_MARKER the end, each consuming its bits. Words run alone, and the phase they leave, are the
model's (log 7, 8). -/
def Obligations.FramingWordsAct : Prop :=
  ∀ s : State,
    (∀ t, s.d.available s.params 64 →
      exec (.header t) s =
        .next { s with d := { s.d with rPos := s.d.rPos + 64, phase := .ready,
                                       ses := { s.d.ses with blockTimestamp := t } },
                       ret := .nothing }) ∧
    (∀ d : BitVec 27, d ≠ BitVec.allOnes 27 → s.d.available s.params 27 →
      let ts := s.d.ses.blockTimestamp + d.setWidth 64
      exec (.firstDelta d) s =
        .next { s with d := { s.d with rPos := s.d.rPos + 27, ses := s.d.ses.withTime (d.setWidth 64) ts },
                       ret := .flagged false ts }) ∧
    (s.d.available s.params 27 →
      exec .emptyMarker s =
        .next { s with d := { s.d with rPos := s.d.rPos + 27, phase := .exhausted },
                       ret := .flagged true 0#64 }) ∧
    (∀ v, s.d.available s.params 64 →
      exec (.firstValue v) s =
        .next { s with d := { s.d.afterValue 64 s.d.ses v with phase := .afterFirst }, ret := .word v })

/-! The commands (45_framing.md). -/

/-- R222, R36, R254, R252: C_INIT from any state leaves the fresh session of R36 with the 64-bit header as the whole
stream; a refused predictor operand raises `CONFIG` before the header, a sink under 64 bits `CAPACITY`, and either
leaves `IDLE` with nothing in the sink. (That LAST too leaves every table entry 0: R36 with log 4.) -/
def Obligations.CInitStartsASession : Prop :=
  ∀ (s : State) (k : PredKind) (ts n : W64),
    let clean : EngineE := { s.e with wUnit := 0, acc := 0#64, accFill := 0 }
    (predAccepted s.params k n = true → s.params.overCapacity 64 = false →
      ∃ e1, exec (.cInit k ts n) s = .next (({ s with e := e1 } : State).answer .E okResponse) ∧
        e1.bits s.params = encodeStream (.header ts) ∧ e1.accFill = 0 ∧
        Appended s.params (encodeStream (.header ts))
          { clean with phase := .ready, fault := .none, ses := freshSession ts k n } e1) ∧
    (predAccepted s.params k n = true → s.params.overCapacity 64 = true →
      exec (.cInit k ts n) s =
        .next (({ s with e := { clean with phase := .idle, fault := .capacity, ses := freshSession ts k n } } :
          State).answer .E (plainResponse .fault .capacity))) ∧
    (predAccepted s.params k n = false →
      exec (.cInit k ts n) s =
        .next (({ s with e := { clean with
            phase := .idle, fault := .config,
            ses := { freshSession ts k n with
              pred := { s.e.ses.pred with kind := .dfcm, lastValue := 0#64, hash := 0 } } } } :
          State).answer .E (plainResponse .fault .config)))

/-- R223 in `READY`: the first sample is appended raw, 27 bits of delta and 64 of value, and the session is
`AFTER_FIRST`. -/
def Obligations.FirstSampleIsAppended : Prop :=
  ∀ (s : State) (ts v : W64), s.e.fault = .none → s.e.phase = .ready → s.e.accOpen s.params →
    let delta0 := ts - s.e.ses.blockTimestamp
    0 ≤ delta0.toInt → delta0.toInt ≤ 134217726 → s.e.room s.params 91 →
    ∃ e1, exec (.addValue ts v) s = .next (({ s with e := e1 } : State).answer .E okResponse) ∧
      Appended s.params (encodeStream (.firstDelta (delta0.setWidth 27)) ++ encodeStream (.firstValue v))
        { s.e with phase := .afterFirst,
                   ses := { s.e.ses.withTime delta0 ts with pred := predUpdate v s.e.ses.pred } } e1

/-- R223 after the first sample: the timestamp code word, then the value code word, and the session is `STREAMING`. -/
def Obligations.LaterSampleIsAppended : Prop :=
  ∀ (s : State) (ts v : W64), s.e.fault = .none → s.e.phase = .afterFirst ∨ s.e.phase = .streaming →
    s.e.accOpen s.params →
    let newDelta := ts - s.e.ses.storedTimestamp
    let dod := (newDelta - s.e.ses.storedDelta).toInt
    let r := predPredict s.e.ses.pred ^^^ v
    let bs := sampleBits (dodWord dod, residualWord s.e.ses r)
    dod ≤ 2147483647 → -2147483648 ≤ dod → s.e.room s.params bs.length →
    ∃ e1, exec (.addValue ts v) s = .next (({ s with e := e1 } : State).answer .E okResponse) ∧
      Appended s.params bs
        { s.e with phase := .streaming,
                   ses := { (residualWindow s.e.ses r).withTime newDelta ts with
                     pred := predUpdate v s.e.ses.pred } } e1

/-- R255, R256, R260: a sample out of range faults before any bit of it is written; nothing but the fault register and
the answer changes, whatever room is left. -/
def Obligations.RangeFaultsWriteNothing : Prop :=
  ∀ (s : State) (ts v : W64), s.e.fault = .none →
    (s.e.phase = .ready →
      ¬ (0 ≤ (ts - s.e.ses.blockTimestamp).toInt ∧ (ts - s.e.ses.blockTimestamp).toInt ≤ 134217726) →
      exec (.addValue ts v) s =
        .next (({ s with e := { s.e with fault := .firstDeltaRange } } : State).answer .E
          (plainResponse .fault .firstDeltaRange))) ∧
    (s.e.phase = .afterFirst ∨ s.e.phase = .streaming →
      ¬ (-2147483648 ≤ (ts - s.e.ses.storedTimestamp - s.e.ses.storedDelta).toInt ∧
          (ts - s.e.ses.storedTimestamp - s.e.ses.storedDelta).toInt ≤ 2147483647) →
      exec (.addValue ts v) s =
        .next (({ s with e := { s.e with fault := .dodRange } } : State).answer .E
          (plainResponse .fault .dodRange)))

/-- R230 on one sample: a sample at the constant interval whose value equals the prediction adds exactly the two bits
`0` `0`, and moves the timestamp. -/
def Obligations.ConstantSampleTakesTwoBits : Prop :=
  ∀ s : State, s.e.fault = .none → s.e.phase = .afterFirst ∨ s.e.phase = .streaming → s.e.accOpen s.params →
    s.e.room s.params 2 →
    let ts := s.e.ses.storedTimestamp + s.e.ses.storedDelta
    let v := predPredict s.e.ses.pred
    ∃ e1, exec (.addValue ts v) s = .next (({ s with e := e1 } : State).answer .E okResponse) ∧
      Appended s.params [false, false]
        { s.e with phase := .streaming,
                   ses := { s.e.ses.withTime s.e.ses.storedDelta ts with
                     pred := predUpdate v s.e.ses.pred } } e1

/-- R224, R103, R104: CLOSE appends the terminator and zeros to the unit boundary and the session is `CLOSED`, every
bit of the block committed. -/
def Obligations.CloseEndsTheBlock : Prop :=
  ∀ s : State, s.e.fault = .none → s.e.phase.live = true → SinkInv s.params s.e → s.e.room s.params 37 →
    let pad := (s.params.unit.bits - (s.e.wPos s.params + 37) % s.params.unit.bits) % s.params.unit.bits
    ∃ e1, exec .close s = .next (({ s with e := e1 } : State).answer .E okResponse) ∧ e1.accFill = 0 ∧
      Appended s.params (encodeStream .terminator ++ encodeStream (.padding pad))
        { s.e with phase := .closed } e1

/-- R225, R36, R254, R253: D_INIT from any state leaves the fresh session of R36 with the origin read from the first
64 bits; a refused predictor operand raises `CONFIG` before the header is read, a source under 64 bits
`SOURCE_EXHAUSTED`, and either leaves `IDLE` with nothing consumed. (That LAST too leaves every table entry 0: R36
with log 4.) -/
def Obligations.DInitReadsTheHeader : Prop :=
  ∀ (s : State) (k : PredKind) (len n : W64),
    let clean : EngineD := { s.d with srcLenUnits := len.toNat, rPos := 0 }
    (predAccepted s.params k n = true → 64 ≤ len.toNat * s.params.unit.bits →
      exec (.dInit k len n) s =
        .next (({ s with d := { clean with
            phase := .ready, fault := .none, rPos := 64,
            ses := freshSession (ofBits 64 (streamBits s.params s.d 0 64)) k n } } :
          State).answer .D okResponse)) ∧
    (predAccepted s.params k n = true → len.toNat * s.params.unit.bits < 64 →
      exec (.dInit k len n) s =
        .next (({ s with d := { clean with
            phase := .idle, fault := .sourceExhausted, ses := freshSession 0#64 k n } } :
          State).answer .D (plainResponse .fault .sourceExhausted))) ∧
    (predAccepted s.params k n = false →
      exec (.dInit k len n) s =
        .next (({ s with d := { clean with
            phase := .idle, fault := .config,
            ses := { freshSession 0#64 k n with
              pred := { s.d.ses.pred with kind := .dfcm, lastValue := 0#64, hash := 0 } } } } :
          State).answer .D (plainResponse .fault .config)))

/-- R226 in `READY` and in `EXHAUSTED`: the first sample, 27 bits of delta and 64 of value; or the empty-block marker,
answered `ABSENT`; and once exhausted `ABSENT` for ever, no bit read. -/
def Obligations.ReadPairFirstSample : Prop :=
  ∀ s : State, s.d.fault = .none →
    (s.d.phase = .ready → s.d.available s.params 91 →
      let delta := ofBits 64 (s.d.next s.params 27)
      let v := ofBits 64 (streamBits s.params s.d (s.d.rPos + 27) 64)
      let ts := s.d.ses.blockTimestamp + delta
      delta ≠ 134217727#64 →
      exec .readPair s =
        .next (({ s with d := { s.d.afterValue 91 (s.d.ses.withTime delta ts) v with phase := .afterFirst } } :
          State).answer .D (pairOk ts v))) ∧
    (s.d.phase = .ready → s.d.available s.params 27 → s.d.next s.params 27 = List.replicate 27 true →
      exec .readPair s =
        .next (({ s with d := { s.d with rPos := s.d.rPos + 27, phase := .exhausted } } :
          State).answer .D absentResponse)) ∧
    (s.d.phase = .exhausted → exec .readPair s = .next (s.answer .D absentResponse))

/-- R226 after the first sample: the bits of a timestamp code word and a legal value code word are one sample; the 36
ones of the sentinel end the stream, and the bit after them is not read. -/
def Obligations.ReadPairLaterSample : Prop :=
  ∀ s : State, s.d.fault = .none → s.d.phase = .afterFirst ∨ s.d.phase = .streaming →
    (∀ wt wv : Instr, wt.isTimestampCode = true → wt.wf = true → wv.isValueCode = true → wv.wf = true →
      wordLegal s.d.ses wv = true →
      let bs := sampleBits (wt, wv)
      let ses1 := (wordWindow s.d.ses wv).advance (wordDod wt)
      let v := predPredict s.d.ses.pred ^^^ wordResidual s.d.ses wv
      s.d.available s.params bs.length → s.d.next s.params bs.length = bs →
      exec .readPair s =
        .next (({ s with d := { s.d.afterValue bs.length ses1 v with phase := .streaming } } :
          State).answer .D (pairOk ses1.storedTimestamp v))) ∧
    (s.d.available s.params 36 → s.d.next s.params 36 = List.replicate 36 true →
      exec .readPair s =
        .next (({ s with d := { s.d with rPos := s.d.rPos + 36, phase := .exhausted } } :
          State).answer .D absentResponse))

/-- R107, R226, R74: READ_PAIR is the code words at the cursor, one after the other: it decodes and runs a timestamp
word, stops there at the end of the stream or at a fault, else decodes and runs a value word; engine D ends in exactly
the state the words leave, and the answer is what they return (the words run alone are the model's, log 7, with the
phase each leaves, log 8, a cut tail, log 21, and the cursor, log 22). -/
def Obligations.ReadPairRunsTheCodeWords : Prop :=
  ∀ s : State, s.d.fault = .none → s.d.phase.live = true → s.d.rPos ≤ s.d.srcLenBits s.params →
    let first := s.d.phase = .ready
    ∃ t1, runRequest (.element (if first then .firstDelta else .timestamp)) s = .next t1 ∧
      if t1.d.fault ≠ .none then
        exec .readPair s = .next (({ s with d := t1.d } : State).answer .D (plainResponse .fault t1.d.fault))
      else if t1.d.phase = .exhausted then
        exec .readPair s = .next (({ s with d := t1.d } : State).answer .D absentResponse)
      else
        ∃ t2, runRequest (.element (if first then .firstValue else .value 0)) t1 = .next t2 ∧
          if t2.d.fault ≠ .none then
            exec .readPair s = .next (({ s with d := t2.d } : State).answer .D (plainResponse .fault t2.d.fault))
          else
            ∃ ts v, t1.ret = .flagged false ts ∧ t2.ret = .word v ∧
              exec .readPair s = .next (({ s with d := t2.d } : State).answer .D (pairOk ts v))

/-- R227: the phase table, complete. A construction is accepted in every phase, with or without a fault; with no fault,
every other command is refused in the phases marked PH, ends `OK` or `ABSENT` in the phase listed, or raises and leaves
the phase as it was (for a construction: `IDLE`). -/
def Obligations.PhaseTable : Prop :=
  ∀ s t : State,
    (∀ k a b, exec (.cInit k a b) s = .next t →
      (t.respE = some okResponse ∧ t.e.phase = .ready ∧ t.e.fault = .none) ∨
      (t.respE = some (plainResponse .fault t.e.fault) ∧ t.e.phase = .idle ∧ t.e.fault ≠ .none)) ∧
    (∀ a b, s.e.fault = .none → exec (.addValue a b) s = .next t →
      if s.e.phase = .idle ∨ s.e.phase = .closed then t = s.refuse .E .refusedPhase
      else
        (t.respE = some okResponse ∧ t.e.fault = .none ∧
          t.e.phase = if s.e.phase = .ready then .afterFirst else .streaming) ∨
        (t.respE = some (plainResponse .fault t.e.fault) ∧ t.e.phase = s.e.phase ∧ t.e.fault ≠ .none)) ∧
    (s.e.fault = .none → exec .close s = .next t →
      if s.e.phase = .idle ∨ s.e.phase = .closed then t = s.refuse .E .refusedPhase
      else
        (t.respE = some okResponse ∧ t.e.fault = .none ∧ t.e.phase = .closed) ∨
        (t.respE = some (plainResponse .fault t.e.fault) ∧ t.e.phase = s.e.phase ∧ t.e.fault ≠ .none)) ∧
    (∀ k a b, exec (.dInit k a b) s = .next t →
      (t.respD = some okResponse ∧ t.d.phase = .ready ∧ t.d.fault = .none) ∨
      (t.respD = some (plainResponse .fault t.d.fault) ∧ t.d.phase = .idle ∧ t.d.fault ≠ .none)) ∧
    (s.d.fault = .none → exec .readPair s = .next t →
      if s.d.phase = .idle then t = s.refuse .D .refusedPhase
      else
        (∃ ts v, t.respD = some (pairOk ts v) ∧ t.d.fault = .none ∧ s.d.phase ≠ .exhausted ∧
          t.d.phase = if s.d.phase = .ready then .afterFirst else .streaming) ∨
        (t.respD = some absentResponse ∧ t.d.fault = .none ∧ t.d.phase = .exhausted) ∨
        (t.respD = some (plainResponse .fault t.d.fault) ∧ t.d.phase = s.d.phase ∧ t.d.fault ≠ .none))

/-- R259, R260, R221 lines 3 and 4: a faulted engine refuses every command but a construction before it looks at the
phase, then an illegal phase is refused; a refusal changes nothing but the answer and leaves the fault register. -/
def Obligations.RefusalsChangeNothing : Prop :=
  ∀ s : State,
    (∀ i : Instr, (i = .close ∨ ∃ a b, i = .addValue a b) →
      (s.e.fault ≠ .none → exec i s = .next (s.answer .E
        { status := .refusedFaulted, fault := s.e.fault, timestamp := 0#64, value := 0#64 })) ∧
      (s.e.fault = .none → s.e.phase = .idle ∨ s.e.phase = .closed → exec i s = .next (s.answer .E
        { status := .refusedPhase, fault := .none, timestamp := 0#64, value := 0#64 }))) ∧
    (s.d.fault ≠ .none → exec .readPair s = .next (s.answer .D
      { status := .refusedFaulted, fault := s.d.fault, timestamp := 0#64, value := 0#64 })) ∧
    (s.d.fault = .none → s.d.phase = .idle → exec .readPair s = .next (s.answer .D
      { status := .refusedPhase, fault := .none, timestamp := 0#64, value := 0#64 }))

/-- R261, R94: a command that ends with status `FAULT` has put its code in the engine's fault register and in the
answer, with timestamp and value 0; one that ends `OK` or `ABSENT` leaves the register 0; the other engine and its
answer are untouched. -/
def Obligations.FaultEntryAndAnswer : Prop :=
  ∀ (s t : State) (i : Instr) (x : Engine), i.port = some x → exec i s = .next t →
    ∃ r, (match x with | .E => t.respE | .D => t.respD) = some r ∧ r.fault = t.faultOf x ∧
      (r.status = .fault → r.fault ≠ .none) ∧
      (r.status = .ok ∨ r.status = .absent → r.fault = .none) ∧
      (r.status ≠ .ok ∨ x = .E → r.timestamp = 0#64 ∧ r.value = 0#64) ∧
      t.params = s.params ∧ t.ret = s.ret ∧ t.input = s.input ∧
      match x with
      | .E => t.d = s.d ∧ t.respD = s.respD
      | .D => t.e = s.e ∧ t.respE = s.respE

/-- R20, R71: no operation of one engine reads or writes a register of the other, so a command on E and one on D give
the same state in either order. -/
def Obligations.EnginesAreIndependent : Prop :=
  (∀ (s s' t : State) (i : Instr), i.port = some .E → s.params = s'.params → s.e = s'.e →
    exec i s = .next t → ∃ t', exec i s' = .next t' ∧ t'.e = t.e ∧ t'.respE = t.respE) ∧
  (∀ (s s' t : State) (i : Instr), i.port = some .D → s.params = s'.params → s.d = s'.d →
    exec i s = .next t → ∃ t', exec i s' = .next t' ∧ t'.d = t.d ∧ t'.respD = t.respD) ∧
  ∀ (s t u : State) (i j : Instr), i.port = some .E → j.port = some .D →
    exec i s = .next t → exec j t = .next u → ∃ t', exec j s = .next t' ∧ exec i t' = .next u

/-- R167, R286: a decoder with another predictor consumes the same bits and moves to the same registers, phase, fault,
status and timestamp; only the value returned and the predictor itself may differ. -/
def Obligations.PredictorTouchesValuesOnly : Prop :=
  ∀ s s' t : State, s.params = s'.params → s.d.erasePred = s'.d.erasePred → exec .readPair s = .next t →
    ∃ t' r r', exec .readPair s' = .next t' ∧ t.respD = some r ∧ t'.respD = some r' ∧
      t.d.erasePred = t'.d.erasePred ∧ r.status = r'.status ∧ r.fault = r'.fault ∧
      r.timestamp = r'.timestamp

/-- R229: what a host compresses with every command answered `OK` and copies to SM_D decodes to the same samples in
order, then `ABSENT` for ever, with no fault, whatever stands in the units after the block. (`E.w_unit` must fit the
u64 operand of D_INIT, R93.) -/
def Obligations.BlockRoundTrips : Prop :=
  ∀ (s t : State) (k : PredKind) (origin n len : W64) (samples : List (W64 × W64)),
    runOk (.cInit k origin n :: (samples.map (fun x => Instr.addValue x.1 x.2) ++ [.close])) s = some t →
    t.e.wUnit ≤ len.toNat →
    ∃ u, exec (.dInit k len n) (hostCopy t) = .next u ∧ u.respD = some okResponse ∧
      ∀ m, readAnswers (samples.length + (m + 1)) u =
        samples.map (fun x => some (pairOk x.1 x.2)) ++ List.replicate (m + 1) (some absentResponse)
end

