-- ==== Sys2Proof/Laws/Cells.lean ====
section
/-! SUPPORT. Sparse cells: what reading after a write gives, and that the canonical form is kept; then the DFCM
tables (10_state.md R29) as cells. -/

namespace Sys2Proof
namespace Machine

section Cells
variable {α : Type} (m : List (Nat × α)) (k j : Nat) (v : α)

theorem cellGet_cons (p : Nat × α) : cellGet (p :: m) k = if k = p.1 then some p.2 else cellGet m k := rfl

/-- Every listed key is above `k`: nothing is listed at `k`. -/
theorem cellGet_of_lt (h : ∀ p ∈ m, k < p.1) : cellGet m k = none := by
  induction m with
  | nil => rfl
  | cons p m ih =>
    have hp := h p (by simp)
    rw [cellGet_cons, if_neg (by omega), ih fun q hq => h q (by simp [hq])]

@[simp] theorem cellGet_cellPut_same : cellGet (cellPut m k v) k = some v := by
  induction m with
  | nil => simp [cellPut, cellGet]
  | cons p m ih =>
    simp only [cellPut]
    split
    · simp [cellGet]
    · split <;> simp_all [cellGet]

theorem cellGet_cellPut_ne (h : j ≠ k) : cellGet (cellPut m k v) j = cellGet m j := by
  induction m with
  | nil => simp [cellPut, cellGet, h]
  | cons p m ih =>
    simp only [cellPut]
    split
    · simp [cellGet, h]
    · split
      · next hk => subst hk; simp [cellGet, h]
      · simp only [cellGet, ih]

theorem mem_cellPut {p : Nat × α} (h : p ∈ cellPut m k v) : p = (k, v) ∨ p ∈ m := by
  induction m with
  | nil => simpa [cellPut] using h
  | cons q m ih =>
    simp only [cellPut] at h
    split at h
    · simpa using h
    · split at h
      · rcases List.mem_cons.1 h with h | h <;> simp [h]
      · rcases List.mem_cons.1 h with h | h
        · simp [h]
        · rcases ih h with h | h <;> simp [h]

theorem cellsRise_cellPut (h : cellsRise m) : cellsRise (cellPut m k v) := by
  induction m with
  | nil => simp [cellPut, cellsRise]
  | cons q m ih =>
    obtain ⟨hq, hm⟩ := List.pairwise_cons.1 h
    simp only [cellPut]
    split
    · next hk =>
      refine List.pairwise_cons.2 ⟨fun p hp => ?_, h⟩
      rcases List.mem_cons.1 hp with rfl | hp
      · exact hk
      · exact Nat.lt_trans hk (hq p hp)
    · split
      · next hk => exact List.pairwise_cons.2 ⟨fun p hp => by simpa [hk] using hq p hp, hm⟩
      · refine List.pairwise_cons.2 ⟨fun p hp => ?_, ih hm⟩
        rcases mem_cellPut m k v hp with rfl | hp
        · simp only; omega
        · exact hq p hp

theorem mem_of_mem_cellErase {p : Nat × α} (h : p ∈ cellErase m k) : p ∈ m := by
  induction m with
  | nil => simp [cellErase] at h
  | cons q m ih =>
    simp only [cellErase] at h
    split at h
    · simp [h]
    · rcases List.mem_cons.1 h with h | h
      · simp [h]
      · simp [ih h]

theorem cellsRise_cellErase (h : cellsRise m) : cellsRise (cellErase m k) := by
  induction m with
  | nil => simp [cellErase, cellsRise]
  | cons q m ih =>
    obtain ⟨hq, hm⟩ := List.pairwise_cons.1 h
    simp only [cellErase]
    split
    · exact hm
    · exact List.pairwise_cons.2 ⟨fun p hp => hq p (mem_of_mem_cellErase m k hp), ih hm⟩

theorem cellGet_cellErase_same (h : cellsRise m) : cellGet (cellErase m k) k = none := by
  induction m with
  | nil => rfl
  | cons q m ih =>
    obtain ⟨hq, hm⟩ := List.pairwise_cons.1 h
    simp only [cellErase]
    split
    · next hk => exact cellGet_of_lt m k fun p hp => by have := hq p hp; omega
    · next hk => rw [cellGet_cons, if_neg hk, ih hm]

theorem cellGet_cellErase_ne (h : j ≠ k) : cellGet (cellErase m k) j = cellGet m j := by
  induction m with
  | nil => rfl
  | cons q m ih =>
    simp only [cellErase]
    split
    · next hk => subst hk; simp [cellGet, h]
    · simp only [cellGet, ih]

end Cells

/-! DFCM tables. -/

section Tables
variable (t : Table) (i j size : Nat) (v : W64)

@[simp] theorem Table.read_empty : Table.read [] i = 0#64 := rfl

/-- A write is read back; a 0 is an entry that is not listed. -/
theorem Table.read_write_same (h : cellsRise t) : (t.write i v).read i = v := by
  unfold Table.write Table.read
  split
  · next hv => simp [cellGet_cellErase_same t i h, hv]
  · simp

theorem Table.read_write_ne (h : j ≠ i) : (t.write i v).read j = t.read j := by
  unfold Table.write Table.read
  split
  · rw [cellGet_cellErase_ne t i j h]
  · rw [cellGet_cellPut_ne t i j v h]

/-- A write below the size keeps a table canonical. -/
theorem Table.wf_write (h : Table.wf t size) (hi : i < size) : Table.wf (t.write i v) size := by
  obtain ⟨hr, hm⟩ := h
  unfold Table.write
  split
  · exact ⟨cellsRise_cellErase t i hr, fun p hp => hm p (mem_of_mem_cellErase t i hp)⟩
  · next hv =>
    refine ⟨cellsRise_cellPut t i v hr, fun p hp => ?_⟩
    rcases mem_cellPut t i v hp with rfl | hp
    · exact ⟨hv, hi⟩
    · exact hm p hp

theorem Table.wf_empty : Table.wf [] size := ⟨List.Pairwise.nil, by simp⟩

end Tables

end Machine
end Sys2Proof
end

