-- ==== Sys2Proof/Laws/State.lean ====
section
/-! SUPPORT. What each update of the state does to each field: one lemma per field per update. -/

namespace Sys2Proof
namespace Machine

/-! Answers, refusals and faults. -/

variable (s : State) (x : Engine) (r : Response) (st : Status) (f : FaultCode)

@[simp] theorem State.answer_params : (s.answer x r).params = s.params := by cases x <;> rfl
@[simp] theorem State.answer_e : (s.answer x r).e = s.e := by cases x <;> rfl
@[simp] theorem State.answer_d : (s.answer x r).d = s.d := by cases x <;> rfl
@[simp] theorem State.answer_ret : (s.answer x r).ret = s.ret := by cases x <;> rfl
@[simp] theorem State.answer_input : (s.answer x r).input = s.input := by cases x <;> rfl
@[simp] theorem State.answer_E_respE : (s.answer .E r).respE = some r := rfl
@[simp] theorem State.answer_E_respD : (s.answer .E r).respD = s.respD := rfl
@[simp] theorem State.answer_D_respE : (s.answer .D r).respE = s.respE := rfl
@[simp] theorem State.answer_D_respD : (s.answer .D r).respD = some r := rfl

@[simp] theorem State.faultOf_E : s.faultOf .E = s.e.fault := rfl
@[simp] theorem State.faultOf_D : s.faultOf .D = s.d.fault := rfl

@[simp] theorem State.refuse_params : (s.refuse x st).params = s.params := by cases x <;> rfl
@[simp] theorem State.refuse_e : (s.refuse x st).e = s.e := by cases x <;> rfl
@[simp] theorem State.refuse_d : (s.refuse x st).d = s.d := by cases x <;> rfl
@[simp] theorem State.refuse_ret : (s.refuse x st).ret = s.ret := by cases x <;> rfl
@[simp] theorem State.refuse_input : (s.refuse x st).input = s.input := by cases x <;> rfl
@[simp] theorem State.refuse_E_respE : (s.refuse .E st).respE = some (plainResponse st s.e.fault) := rfl
@[simp] theorem State.refuse_E_respD : (s.refuse .E st).respD = s.respD := rfl
@[simp] theorem State.refuse_D_respE : (s.refuse .D st).respE = s.respE := rfl
@[simp] theorem State.refuse_D_respD : (s.refuse .D st).respD = some (plainResponse st s.d.fault) := rfl

@[simp] theorem State.enterFault_params : (s.enterFault x f).params = s.params := by cases x <;> rfl
@[simp] theorem State.enterFault_respE : (s.enterFault x f).respE = s.respE := by cases x <;> rfl
@[simp] theorem State.enterFault_respD : (s.enterFault x f).respD = s.respD := by cases x <;> rfl
@[simp] theorem State.enterFault_ret : (s.enterFault x f).ret = s.ret := by cases x <;> rfl
@[simp] theorem State.enterFault_input : (s.enterFault x f).input = s.input := by cases x <;> rfl
@[simp] theorem State.enterFault_E_e : (s.enterFault .E f).e = { s.e with fault := f } := rfl
@[simp] theorem State.enterFault_E_d : (s.enterFault .E f).d = s.d := rfl
@[simp] theorem State.enterFault_D_e : (s.enterFault .D f).e = s.e := rfl
@[simp] theorem State.enterFault_D_d : (s.enterFault .D f).d = { s.d with fault := f } := rfl

@[simp] theorem State.faultCommand_params : (s.faultCommand x f).params = s.params := by cases x <;> rfl
@[simp] theorem State.faultCommand_ret : (s.faultCommand x f).ret = s.ret := by cases x <;> rfl
@[simp] theorem State.faultCommand_input : (s.faultCommand x f).input = s.input := by cases x <;> rfl
@[simp] theorem State.faultCommand_E_e : (s.faultCommand .E f).e = { s.e with fault := f } := rfl
@[simp] theorem State.faultCommand_E_d : (s.faultCommand .E f).d = s.d := rfl
@[simp] theorem State.faultCommand_D_e : (s.faultCommand .D f).e = s.e := rfl
@[simp] theorem State.faultCommand_D_d : (s.faultCommand .D f).d = { s.d with fault := f } := rfl
@[simp] theorem State.faultCommand_E_respE :
    (s.faultCommand .E f).respE = some (plainResponse .fault f) := rfl
@[simp] theorem State.faultCommand_E_respD : (s.faultCommand .E f).respD = s.respD := rfl
@[simp] theorem State.faultCommand_D_respE : (s.faultCommand .D f).respE = s.respE := rfl
@[simp] theorem State.faultCommand_D_respD :
    (s.faultCommand .D f).respD = some (plainResponse .fault f) := rfl

@[simp] theorem State.withRequest_params (q : Request) : (s.withRequest q).params = s.params := rfl
@[simp] theorem State.withRequest_e (q : Request) : (s.withRequest q).e = s.e := rfl
@[simp] theorem State.withRequest_d (q : Request) : (s.withRequest q).d = s.d := rfl
@[simp] theorem State.withRequest_input (q : Request) : (s.withRequest q).input = q :: s.input := rfl

@[simp] theorem hardwareReset_params : (hardwareReset s).params = s.params := rfl
@[simp] theorem hardwareReset_e : (hardwareReset s).e = EngineE.reset := rfl
@[simp] theorem hardwareReset_d : (hardwareReset s).d = EngineD.reset := rfl
@[simp] theorem hardwareReset_input : (hardwareReset s).input = s.input := rfl

@[simp] theorem plainResponse_status : (plainResponse st f).status = st := rfl
@[simp] theorem plainResponse_fault : (plainResponse st f).fault = f := rfl
@[simp] theorem plainResponse_timestamp : (plainResponse st f).timestamp = 0#64 := rfl
@[simp] theorem plainResponse_value : (plainResponse st f).value = 0#64 := rfl

/-! The session registers. -/

section Session
variable (ses : Session) (l t : Nat) (a b : W64)

@[simp] theorem Session.withWindow_block : (ses.withWindow l t).blockTimestamp = ses.blockTimestamp := rfl
@[simp] theorem Session.withWindow_timestamp :
    (ses.withWindow l t).storedTimestamp = ses.storedTimestamp := rfl
@[simp] theorem Session.withWindow_delta : (ses.withWindow l t).storedDelta = ses.storedDelta := rfl
@[simp] theorem Session.withWindow_leading :
    (ses.withWindow l t).storedLeadingZeros = BitVec.ofNat 32 l := rfl
@[simp] theorem Session.withWindow_trailing :
    (ses.withWindow l t).storedTrailingZeros = BitVec.ofNat 32 t := rfl
@[simp] theorem Session.withWindow_pred : (ses.withWindow l t).pred = ses.pred := rfl

@[simp] theorem Session.withTime_block : (ses.withTime a b).blockTimestamp = ses.blockTimestamp := rfl
@[simp] theorem Session.withTime_timestamp : (ses.withTime a b).storedTimestamp = b := rfl
@[simp] theorem Session.withTime_delta : (ses.withTime a b).storedDelta = a := rfl
@[simp] theorem Session.withTime_leading :
    (ses.withTime a b).storedLeadingZeros = ses.storedLeadingZeros := rfl
@[simp] theorem Session.withTime_trailing :
    (ses.withTime a b).storedTrailingZeros = ses.storedTrailingZeros := rfl
@[simp] theorem Session.withTime_pred : (ses.withTime a b).pred = ses.pred := rfl

@[simp] theorem Session.fresh_block : (ses.fresh a).blockTimestamp = a := rfl
@[simp] theorem Session.fresh_timestamp : (ses.fresh a).storedTimestamp = 0#64 := rfl
@[simp] theorem Session.fresh_delta : (ses.fresh a).storedDelta = 0#64 := rfl
@[simp] theorem Session.fresh_leading : (ses.fresh a).storedLeadingZeros = Config.noWindow := rfl
@[simp] theorem Session.fresh_trailing : (ses.fresh a).storedTrailingZeros = 0#32 := rfl
@[simp] theorem Session.fresh_pred : (ses.fresh a).pred = ses.pred := rfl

end Session

/-! The engines. -/

section Engines
variable (e : EngineE) (d : EngineD) (q : Pred) (p : Params) (v : W64)

@[simp] theorem EngineE.withPred_phase : (e.withPred q).phase = e.phase := rfl
@[simp] theorem EngineE.withPred_fault : (e.withPred q).fault = e.fault := rfl
@[simp] theorem EngineE.withPred_ses : (e.withPred q).ses = { e.ses with pred := q } := rfl
@[simp] theorem EngineE.withPred_smE : (e.withPred q).smE = e.smE := rfl
@[simp] theorem EngineE.withPred_wUnit : (e.withPred q).wUnit = e.wUnit := rfl
@[simp] theorem EngineE.withPred_acc : (e.withPred q).acc = e.acc := rfl
@[simp] theorem EngineE.withPred_accFill : (e.withPred q).accFill = e.accFill := rfl

@[simp] theorem EngineD.withPred_phase : (d.withPred q).phase = d.phase := rfl
@[simp] theorem EngineD.withPred_fault : (d.withPred q).fault = d.fault := rfl
@[simp] theorem EngineD.withPred_ses : (d.withPred q).ses = { d.ses with pred := q } := rfl
@[simp] theorem EngineD.withPred_smD : (d.withPred q).smD = d.smD := rfl
@[simp] theorem EngineD.withPred_srcLenUnits : (d.withPred q).srcLenUnits = d.srcLenUnits := rfl
@[simp] theorem EngineD.withPred_rPos : (d.withPred q).rPos = d.rPos := rfl

@[simp] theorem EngineE.update_phase : (e.update v).phase = e.phase := rfl
@[simp] theorem EngineE.update_fault : (e.update v).fault = e.fault := rfl
@[simp] theorem EngineE.update_ses : (e.update v).ses = { e.ses with pred := predUpdate v e.ses.pred } := rfl
@[simp] theorem EngineE.update_smE : (e.update v).smE = e.smE := rfl
@[simp] theorem EngineE.update_wUnit : (e.update v).wUnit = e.wUnit := rfl
@[simp] theorem EngineE.update_acc : (e.update v).acc = e.acc := rfl
@[simp] theorem EngineE.update_accFill : (e.update v).accFill = e.accFill := rfl
@[simp] theorem EngineE.update_wPos : (e.update v).wPos p = e.wPos p := rfl

@[simp] theorem EngineD.update_phase : (d.update v).phase = d.phase := rfl
@[simp] theorem EngineD.update_fault : (d.update v).fault = d.fault := rfl
@[simp] theorem EngineD.update_ses : (d.update v).ses = { d.ses with pred := predUpdate v d.ses.pred } := rfl
@[simp] theorem EngineD.update_smD : (d.update v).smD = d.smD := rfl
@[simp] theorem EngineD.update_srcLenUnits : (d.update v).srcLenUnits = d.srcLenUnits := rfl
@[simp] theorem EngineD.update_rPos : (d.update v).rPos = d.rPos := rfl
@[simp] theorem EngineD.update_srcLenBits : (d.update v).srcLenBits p = d.srcLenBits p := rfl

@[simp] theorem commitUnit_phase : (commitUnit p e).phase = e.phase := rfl
@[simp] theorem commitUnit_fault : (commitUnit p e).fault = e.fault := rfl
@[simp] theorem commitUnit_ses : (commitUnit p e).ses = e.ses := rfl
@[simp] theorem commitUnit_smE : (commitUnit p e).smE = e.smE.writeUnit p.unit e.wUnit e.acc := rfl
@[simp] theorem commitUnit_wUnit : (commitUnit p e).wUnit = e.wUnit + 1 := rfl
@[simp] theorem commitUnit_acc : (commitUnit p e).acc = 0#64 := rfl
@[simp] theorem commitUnit_accFill : (commitUnit p e).accFill = 0 := rfl

end Engines

/-! The exception layer (00_scope.md R10). -/

section Res
variable {σ τ α β : Type}

@[simp] theorem Res.bind_ok (a : α) (t : σ) (k : α → σ → Res σ β) : (Res.ok a t).bind k = k a t := rfl
@[simp] theorem Res.bind_raised (g : FaultCode) (t : σ) (k : α → σ → Res σ β) :
    (Res.raised g t : Res σ α).bind k = .raised g t := rfl
@[simp] theorem Res.within_ok (a : α) (t : σ) (put : σ → τ) :
    (Res.ok a t).within put = .ok a (put t) := rfl
@[simp] theorem Res.within_raised (g : FaultCode) (t : σ) (put : σ → τ) :
    (Res.raised g t : Res σ α).within put = .raised g (put t) := rfl
@[simp] theorem Res.silent_ok (t : σ) : (Res.ok () t).silent = .ok .nothing t := rfl
@[simp] theorem Res.silent_raised (g : FaultCode) (t : σ) :
    (Res.raised g t : Res σ Unit).silent = .raised g t := rfl
@[simp] theorem Res.asWord_ok (a : W64) (t : σ) : (Res.ok a t).asWord = .ok (.word a) t := rfl
@[simp] theorem Res.asWord_raised (g : FaultCode) (t : σ) :
    (Res.raised g t : Res σ W64).asWord = .raised g t := rfl
@[simp] theorem Res.asFlagged_ok (a : Bool × W64) (t : σ) :
    (Res.ok a t).asFlagged = .ok (.flagged a.1 a.2) t := rfl
@[simp] theorem Res.asFlagged_raised (g : FaultCode) (t : σ) :
    (Res.raised g t : Res σ (Bool × W64)).asFlagged = .raised g t := rfl

/-- A sequence ends normally exactly when both its parts do. -/
theorem Res.bind_eq_ok {r : Res σ α} {k : α → σ → Res σ β} {b : β} {u : σ} :
    r.bind k = .ok b u ↔ ∃ a t, r = .ok a t ∧ k a t = .ok b u := by
  cases r <;> simp [Res.bind]

/-- A sequence raises where its first part does, else where its second does. -/
theorem Res.bind_eq_raised {r : Res σ α} {k : α → σ → Res σ β} {g : FaultCode} {u : σ} :
    r.bind k = .raised g u ↔
      r = .raised g u ∨ ∃ a t, r = .ok a t ∧ k a t = .raised g u := by
  cases r <;> simp [Res.bind]

end Res

end Machine
end Sys2Proof
end

