-- ==== Sys2Proof/Laws/Frame.lean ====
section
/-! SUPPORT. What the frames of a command and of an operation run alone can answer: one inversion lemma each
(45_framing.md R221, 60_exceptions.md R261). -/

namespace Sys2Proof
namespace Machine

variable {s t : State}

/-- A command of engine E ends `OK` or `FAULT`, and nothing else happens outside engine E. -/
theorem finishE_cases {r : Res EngineE Unit} (h : finishE r s = .next t) :
    (∃ e, r = .ok () e ∧ t = ({ s with e := e } : State).answer .E (plainResponse .ok e.fault)) ∨
    (∃ f e, r = .raised f e ∧ t = ({ s with e := e } : State).faultCommand .E f) := by
  cases r with
  | ok u e => cases h; exact .inl ⟨e, rfl, rfl⟩
  | raised f e => cases h; exact .inr ⟨f, e, rfl, rfl⟩

/-- D_INIT ends `OK` or `FAULT`, and nothing else happens outside engine D. -/
theorem finishD_cases {r : Res EngineD Unit} (h : finishD r s = .next t) :
    (∃ d, r = .ok () d ∧ t = ({ s with d := d } : State).answer .D (plainResponse .ok d.fault)) ∨
    (∃ f d, r = .raised f d ∧ t = ({ s with d := d } : State).faultCommand .D f) := by
  cases r with
  | ok u d => cases h; exact .inl ⟨d, rfl, rfl⟩
  | raised f d => cases h; exact .inr ⟨f, d, rfl, rfl⟩

/-- READ_PAIR ends `OK`, `ABSENT` or `FAULT`, and nothing else happens outside engine D. -/
theorem finishRead_cases {r : Res EngineD (Option (W64 × W64))} (h : finishRead r s = .next t) :
    (∃ pair d, r = .ok pair d ∧ t = ({ s with d := d } : State).answer .D (pairResponse d.fault pair)) ∨
    (∃ f d, r = .raised f d ∧ t = ({ s with d := d } : State).faultCommand .D f) := by
  cases r with
  | ok pair d => cases h; exact .inl ⟨pair, d, rfl, rfl⟩
  | raised f d => cases h; exact .inr ⟨f, d, rfl, rfl⟩

/-- A command of engine E that has a session is refused or run (R221 lines 3 to 5). -/
theorem acceptE_cases {body : EngineE → Res EngineE Unit} (h : acceptE body s = .next t) :
    (s.e.fault ≠ .none ∧ t = s.refuse .E .refusedFaulted) ∨
    (s.e.fault = .none ∧ s.e.phase.live = false ∧ t = s.refuse .E .refusedPhase) ∨
    (s.e.fault = .none ∧ s.e.phase.live = true ∧ finishE (body s.e) s = .next t) := by
  unfold acceptE at h
  split at h
  · next hf => cases h; exact .inl ⟨hf, rfl⟩
  · next hf =>
    split at h
    · next hp => cases h; exact .inr (.inl ⟨by simpa using hf, hp, rfl⟩)
    · next hp => exact .inr (.inr ⟨by simpa using hf, by simpa using hp, h⟩)

/-- READ_PAIR is refused or run (R221 lines 3 to 5). -/
theorem acceptRead_cases {body : EngineD → Res EngineD (Option (W64 × W64))}
    (h : acceptRead body s = .next t) :
    (s.d.fault ≠ .none ∧ t = s.refuse .D .refusedFaulted) ∨
    (s.d.fault = .none ∧ s.d.phase.readable = false ∧ t = s.refuse .D .refusedPhase) ∨
    (s.d.fault = .none ∧ s.d.phase.readable = true ∧ finishRead (body s.d) s = .next t) := by
  unfold acceptRead at h
  split at h
  · next hf => cases h; exact .inl ⟨hf, rfl⟩
  · next hf =>
    split at h
    · next hp => cases h; exact .inr (.inl ⟨by simpa using hf, hp, rfl⟩)
    · next hp => exact .inr (.inr ⟨by simpa using hf, by simpa using hp, h⟩)

/-- An operation of engine E run alone reports a result or enters a fault (R261). -/
theorem aloneE_cases {r : Res EngineE Returned} (h : aloneE r s = .next t) :
    (∃ v e, r = .ok v e ∧ t = { s with e := e, ret := v }) ∨
    (∃ f e, r = .raised f e ∧ t = { s with e := { e with fault := f }, ret := .nothing }) := by
  cases r with
  | ok v e => cases h; exact .inl ⟨v, e, rfl, rfl⟩
  | raised f e => cases h; exact .inr ⟨f, e, rfl, rfl⟩

/-- An operation of engine D run alone reports a result or enters a fault (R261). -/
theorem aloneD_cases {r : Res EngineD Returned} (h : aloneD r s = .next t) :
    (∃ v d, r = .ok v d ∧ t = { s with d := d, ret := v }) ∨
    (∃ f d, r = .raised f d ∧ t = { s with d := { d with fault := f }, ret := .nothing }) := by
  cases r with
  | ok v d => cases h; exact .inl ⟨v, d, rfl, rfl⟩
  | raised f d => cases h; exact .inr ⟨f, d, rfl, rfl⟩

/-- What one event turns into is all a step does. -/
theorem step_cons {q : Request} {rest : List Request} (h : s.input = q :: rest) :
    step s = match fetch q { s with input := rest } with
      | .instr i => exec i { s with input := rest }
      | .settled o => o := by
  rw [step, h] <;> rfl

theorem step_idle (h : s.input = []) : step s = .next s := by
  rw [step, h]

end Machine
end Sys2Proof
end

