-- ==== Sys2Proof/Laws/Memory.lean ====
section
/-! SUPPORT. The stream memories (20_memory.md R60 to R63): reading after a write, the canonical form kept by every
memory operation, and the bits of a unit in its bytes. -/

namespace Sys2Proof

theorem UnitWidth.bits_eq (u : UnitWidth) : u.bits = 8 * u.bytes := by cases u <;> rfl

theorem UnitWidth.bytes_pos (u : UnitWidth) : 0 < u.bytes := by cases u <;> decide

theorem UnitWidth.bits_pos (u : UnitWidth) : 0 < u.bits := by cases u <;> decide

theorem UnitWidth.bits_le (u : UnitWidth) : u.bits ≤ 64 := by cases u <;> decide

theorem UnitWidth.bytes_le (u : UnitWidth) : u.bytes ≤ 8 := by cases u <;> decide

namespace Machine

section Memory
variable (m : Memory) (a addr : Nat) (b : Byte) (bs : List Byte) (u : UnitWidth) (i : Nat) (v : W64)

@[simp] theorem Memory.read_write_same : (m.write addr b).read addr = some b :=
  cellGet_cellPut_same m addr b

theorem Memory.read_write_ne (h : a ≠ addr) : (m.write addr b).read a = m.read a :=
  cellGet_cellPut_ne m addr a b h

theorem Memory.wf_write (h : m.wf) : (m.write addr b).wf := cellsRise_cellPut m addr b h

theorem Memory.wf_empty : Memory.wf [] := List.Pairwise.nil

theorem Memory.wf_writeBytes (h : m.wf) : (m.writeBytes addr bs).wf := by
  induction bs generalizing m addr with
  | nil => exact h
  | cons b bs ih => exact ih _ _ (m.wf_write addr b h)

/-- What a run of written bytes leaves at every address: the bytes written, and elsewhere what was there. -/
theorem Memory.read_writeBytes :
    (m.writeBytes addr bs).read a =
      if addr ≤ a ∧ a < addr + bs.length then bs[a - addr]? else m.read a := by
  induction bs generalizing m addr with
  | nil => simp [Memory.writeBytes]
  | cons b bs ih =>
    simp only [Memory.writeBytes, ih, List.length_cons]
    rcases Nat.lt_trichotomy a addr with h | h | h
    · rw [if_neg (by omega), if_neg (by omega), m.read_write_ne a addr b (by omega)]
    · subst h; simp
    · by_cases hin : a < addr + (bs.length + 1)
      · rw [if_pos (by omega), if_pos (by omega), show a - addr = (a - (addr + 1)) + 1 by omega]
        simp
      · rw [if_neg (by omega), if_neg (by omega), m.read_write_ne a addr b (by omega)]

@[simp] theorem unitBytes_length : (unitBytes u v).length = u.bytes := by simp [unitBytes]

/-- What a written unit leaves at every address. -/
theorem Memory.read_writeUnit :
    (m.writeUnit u i v).read a =
      if i * u.bytes ≤ a ∧ a < i * u.bytes + u.bytes then some (unitByte u.bits v (a - i * u.bytes))
      else m.read a := by
  rw [Memory.writeUnit, Memory.read_writeBytes, unitBytes_length]
  split
  · next h => simp [unitBytes, show a - i * u.bytes < u.bytes by omega]
  · rfl

theorem Memory.wf_writeUnit (h : m.wf) : (m.writeUnit u i v).wf := m.wf_writeBytes _ _ h

end Memory

/-! Units and bytes (R61, R63). -/

/-- A bit of a value that has one more byte behind it. -/
theorem getLsbD_push_byte (v : W64) (b : Byte) (n : Nat) (hn : n < 64) :
    ((v <<< 8) ||| b.setWidth 64).getLsbD n = if n < 8 then b.getLsbD n else v.getLsbD (n - 8) := by
  simp only [BitVec.getLsbD_or, BitVec.getLsbD_shiftLeft, BitVec.getLsbD_setWidth, hn, decide_true,
    Bool.true_and]
  split
  · next h => simp [h]
  · next h =>
    have : b.getLsbD n = false := BitVec.getLsbD_of_ge _ _ (by omega)
    simp [h, this]

/-- Bit `n` of a unit read from at most eight bytes is bit `n mod 8` of the byte `n / 8` places from the last. -/
theorem getLsbD_unitOfBytes (bs : List Byte) (h : bs.length ≤ 8) (n : Nat) (hn : n < 8 * bs.length) :
    (unitOfBytes bs).getLsbD n = (bs.getD (bs.length - 1 - n / 8) 0#8).getLsbD (n % 8) := by
  suffices H : ∀ (r : List Byte), r.length ≤ 8 → ∀ n, n < 8 * r.length →
      (r.foldr (fun (b : Byte) (v : W64) => (v <<< 8) ||| b.setWidth 64) 0#64).getLsbD n =
        (r.getD (n / 8) 0#8).getLsbD (n % 8) by
    have hr := H bs.reverse (by simpa using h) n (by simpa using hn)
    rw [List.foldr_reverse] at hr
    rw [unitOfBytes, hr]
    have hlt : n / 8 < bs.length := by omega
    simp only [List.getD_eq_getElem?_getD]
    rw [List.getElem?_reverse hlt]
  intro r hr n hn
  induction r generalizing n with
  | nil => simp at hn
  | cons b r ih =>
    simp only [List.length_cons] at hr hn
    rw [List.foldr_cons, getLsbD_push_byte _ _ _ (by omega)]
    split
    · next h8 => simp [Nat.div_eq_of_lt h8, Nat.mod_eq_of_lt h8]
    · next h8 =>
      rw [ih (by omega) (n - 8) (by omega), show n / 8 = (n - 8) / 8 + 1 by omega,
        show n % 8 = (n - 8) % 8 by omega]
      simp

/-- Bit `k` of a stream of units, by its byte: the byte order does not depend on the unit's width (R63). -/
theorem unitBit_unitAt (u : UnitWidth) (byteAt : Nat → Byte) (k : Nat) :
    unitBit u.bits (unitAt u byteAt (k / u.bits)) k = (byteAt (k / 8)).getLsbD (7 - k % 8) := by
  have hb := u.bits_eq
  have hp := u.bytes_pos
  have hle := u.bytes_le
  have hmod : k % u.bits < u.bits := Nat.mod_lt _ u.bits_pos
  have hdiv : k = u.bits * (k / u.bits) + k % u.bits := (Nat.div_add_mod _ _).symm
  generalize hi : k / u.bits = i at hdiv
  generalize hr : k % u.bits = r at hdiv hmod
  rw [unitBit, unitAt, getLsbD_unitOfBytes _ (by simpa using hle) _ (by simp; omega), hr]
  simp only [List.length_map, List.length_range, List.getD_eq_getElem?_getD]
  have hk : k = 8 * (i * u.bytes) + r := by rw [hdiv, hb]; ring
  have h1 : u.bytes - 1 - (u.bits - 1 - r) / 8 = r / 8 := by omega
  have h2 : (u.bits - 1 - r) % 8 = 7 - r % 8 := by omega
  rw [h1, h2, List.getElem?_map, List.getElem?_range (by omega)]
  simp only [Option.map_some, Option.getD_some]
  rw [show k / 8 = i * u.bytes + r / 8 by omega, show k % 8 = r % 8 by omega]

/-- Bit `t` (0 first) of byte `j` of a unit is the unit's bit at that distance from the top (R61, R63). -/
theorem getLsbD_unitByte (u : UnitWidth) (v : W64) (j t : Nat) (hj : j < u.bytes) (ht : t < 8) :
    (unitByte u.bits v j).getLsbD (7 - t) = v.getLsbD (u.bits - 1 - (8 * j + t)) := by
  have hb := u.bits_eq
  have hle := u.bytes_le
  rw [unitByte, BitVec.getLsbD_setWidth, BitVec.getLsbD_ushiftRight]
  simp only [show 7 - t < 8 by omega, decide_true, Bool.true_and]
  congr 1
  omega

end Machine
end Sys2Proof
end

