-- ==== Sys2Proof/Laws/Sink.lean ====
section
/-! SUPPORT. The BitSink (40_bitsink.md): what `Appended` composes to, and what each operation appends. -/

namespace Sys2Proof

/-- Fewer bits fit where more do (20_memory.md R69). -/
theorem Params.overCapacity_mono {p : Params} {m n : Nat} (hmn : m ≤ n) (h : p.overCapacity n = false) :
    p.overCapacity m = false := by
  unfold Params.overCapacity at *
  cases hc : p.sinkCapUnits with
  | none => rfl
  | some c => simp only [hc, decide_eq_false_iff_not] at h ⊢; omega

@[simp] theorem length_bitsOf {w : Nat} (v : BitVec w) (n : Nat) : (bitsOf v n).length = n := by
  induction n with
  | zero => rfl
  | succ n ih => simp [bitsOf, ih]

namespace Machine

/-- One bit of an accumulator assigned (R121). -/
theorem getLsbD_assignBit (v : W64) (i j : Nat) (b : Bool) (hi : i < 64) :
    (assignBit v i b).getLsbD j = if j = i then b else v.getLsbD j := by
  by_cases hj : j < 64
  · have h1 : ∀ k, (1#64 : W64).getLsbD k = decide (k = 0) := by intro k; simp
    have hb : ∀ k, (bitVal 64 b).getLsbD k = (decide (k = 0) && b) := by
      intro k; cases b <;> simp [bitVal]
    simp only [assignBit, BitVec.getLsbD_or, BitVec.getLsbD_and, BitVec.getLsbD_not,
      BitVec.getLsbD_shiftLeft, h1, hb, hj, decide_true, Bool.true_and]
    rcases Nat.lt_trichotomy j i with h | h | h
    · simp [h, Nat.ne_of_lt h]
    · subst h; simp
    · simp [Nat.not_lt.2 (Nat.le_of_lt h), show j - i ≠ 0 by omega, Nat.ne_of_gt h]
  · rw [BitVec.getLsbD_of_ge _ _ (by omega), BitVec.getLsbD_of_ge _ _ (by omega), if_neg (by omega)]

section Bits
variable {p : Params} {e : EngineE}

theorem sinkBit_committed {k : Nat} (h : k / p.unit.bits < e.wUnit) :
    sinkBit p e k = (e.byteAt (k / 8)).getLsbD (7 - k % 8) := by
  rw [sinkBit, if_pos h, unitBit_unitAt]

theorem sinkBit_pending {k : Nat} (h : ¬ k / p.unit.bits < e.wUnit) :
    sinkBit p e k = e.acc.getLsbD (p.unit.bits - 1 - k % p.unit.bits) := by
  rw [sinkBit, if_neg h]; rfl

/-- The cursor in whole units and the rest. -/
theorem wPos_div (h : e.accOpen p) : e.wPos p / p.unit.bits = e.wUnit := by
  have := p.unit.bits_pos
  rw [EngineE.wPos, Nat.mul_comm, Nat.mul_add_div this, Nat.div_eq_of_lt h, Nat.add_zero]

theorem wPos_mod (h : e.accOpen p) : e.wPos p % p.unit.bits = e.accFill := by
  rw [EngineE.wPos, Nat.mul_comm, Nat.mul_add_mod, Nat.mod_eq_of_lt h]

/-- The bits before the cursor stay when the committed bytes and the pending bits stay. -/
theorem sinkBit_congr {e1 : EngineE} {k : Nat} (hu : e1.wUnit = e.wUnit)
    (hm : ∀ addr, addr < e.wUnit * p.unit.bytes → e1.smE.read addr = e.smE.read addr)
    (ha : ¬ k / p.unit.bits < e.wUnit →
      e1.acc.getLsbD (p.unit.bits - 1 - k % p.unit.bits) =
        e.acc.getLsbD (p.unit.bits - 1 - k % p.unit.bits)) :
    sinkBit p e1 k = sinkBit p e k := by
  by_cases h : k / p.unit.bits < e.wUnit
  · rw [sinkBit_committed (by rw [hu]; exact h), sinkBit_committed h]
    have hb := p.unit.bits_eq
    have hlt : k / 8 < e.wUnit * p.unit.bytes := by
      rw [hb] at h
      have h' := (Nat.div_lt_iff_lt_mul (by have := p.unit.bytes_pos; omega)).1 h
      rw [Nat.div_lt_iff_lt_mul (by decide)]
      calc k < e.wUnit * (8 * p.unit.bytes) := h'
        _ = e.wUnit * p.unit.bytes * 8 := by ring
    rw [EngineE.byteAt, EngineE.byteAt, hm _ hlt]
  · rw [sinkBit_pending (by rw [hu]; exact h), sinkBit_pending h, ha h]

/-- The bits of a unit just committed are the accumulator's (R125). -/
theorem sinkBit_commitUnit {k : Nat} (h : k / p.unit.bits = e.wUnit) :
    sinkBit p (commitUnit p e) k = e.acc.getLsbD (p.unit.bits - 1 - k % p.unit.bits) := by
  have hb := p.unit.bits_eq
  have hpos := p.unit.bytes_pos
  have hbpos := p.unit.bits_pos
  rw [sinkBit_committed (by simp; omega), EngineE.byteAt, commitUnit_smE, Memory.read_writeUnit]
  have hk : k = p.unit.bits * e.wUnit + k % p.unit.bits := by rw [← h]; exact (Nat.div_add_mod _ _).symm
  have hmod : k % p.unit.bits < p.unit.bits := Nat.mod_lt _ hbpos
  generalize k % p.unit.bits = r at hk hmod
  have hk8 : k = 8 * (e.wUnit * p.unit.bytes) + r := by rw [hk, hb]; ring
  rw [if_pos (by omega)]
  simp only [Option.getD_some]
  rw [getLsbD_unitByte _ _ _ _ (by omega) (by omega)]
  congr 1
  omega

/-- Bits of earlier units stay when a unit is committed (R126). -/
theorem sinkBit_commitUnit_lt {k : Nat} (h : k / p.unit.bits < e.wUnit) :
    sinkBit p (commitUnit p e) k = sinkBit p e k := by
  rw [sinkBit_committed (by simp; omega), sinkBit_committed h, EngineE.byteAt, EngineE.byteAt,
    commitUnit_smE, Memory.read_writeUnit, if_neg]
  have hb := p.unit.bits_eq
  rw [hb] at h
  have h' := (Nat.div_lt_iff_lt_mul (by have := p.unit.bytes_pos; omega)).1 h
  have : e.wUnit * (8 * p.unit.bytes) = 8 * (e.wUnit * p.unit.bytes) := by ring
  omega

/-- A unit committed: the cursor is at the boundary and the accumulator's bits up to it are the stream's. -/
theorem commitUnit_bits (h : e.accOpen p) :
    (commitUnit p e).bits p = e.bits p ++
      (List.range (p.unit.bits - e.accFill)).map
        (fun j => e.acc.getLsbD (p.unit.bits - 1 - (e.accFill + j))) := by
  have hbpos := p.unit.bits_pos
  have hw : (commitUnit p e).wPos p = e.wPos p + (p.unit.bits - e.accFill) := by
    simp only [EngineE.wPos, commitUnit_wUnit, commitUnit_accFill, Nat.add_mul]
    have : e.accFill < p.unit.bits := h
    omega
  rw [EngineE.bits, EngineE.bits, hw, List.range_add, List.map_append, List.map_map]
  congr 1
  · refine List.map_congr_left fun k hk => ?_
    have hk : k < e.wPos p := List.mem_range.1 hk
    rcases Nat.lt_or_ge (k / p.unit.bits) e.wUnit with hlt | hge
    · exact sinkBit_commitUnit_lt hlt
    · have : k / p.unit.bits ≤ e.wUnit := by rw [← wPos_div h]; exact Nat.div_le_div_right hk.le
      rw [sinkBit_commitUnit (by omega), sinkBit_pending (by omega)]
  · refine List.map_congr_left fun j hj => ?_
    have hj : j < p.unit.bits - e.accFill := List.mem_range.1 hj
    have hk : e.wPos p + j = p.unit.bits * e.wUnit + (e.accFill + j) := by rw [EngineE.wPos]; ring
    simp only [Function.comp_apply]
    rw [sinkBit_commitUnit, hk, Nat.mul_add_mod, Nat.mod_eq_of_lt (by omega)]
    rw [hk, Nat.mul_add_div hbpos, Nat.div_eq_of_lt (by omega), Nat.add_zero]

end Bits

/-! `Appended`. -/

section Appended
variable {p : Params} {e e1 e2 : EngineE} {bs cs : List Bool}

theorem Appended.refl (h : e.accOpen p) : Appended p [] e e := by
  refine ⟨by simp, rfl, rfl, rfl, ?_, ?_, fun _ _ => rfl⟩
  · rw [List.length_nil, Nat.add_zero, wPos_div h]
  · rw [List.length_nil, Nat.add_zero, wPos_mod h]

/-- The cursor has moved by the number of bits (R126). -/
theorem Appended.wPos (h : Appended p bs e e1) : e1.wPos p = e.wPos p + bs.length := by
  obtain ⟨-, -, -, -, hu, hf, -⟩ := h
  rw [EngineE.wPos, hu, hf]
  exact Nat.div_add_mod' _ _

theorem Appended.accOpen (h : Appended p bs e e1) : e1.accOpen p := by
  obtain ⟨-, -, -, -, -, hf, -⟩ := h
  rw [EngineE.accOpen, hf]
  exact Nat.mod_lt _ p.unit.bits_pos

theorem Appended.ses (h : Appended p bs e e1) : e1.ses = e.ses := h.2.2.2.1

theorem Appended.phase (h : Appended p bs e e1) : e1.phase = e.phase := h.2.1

theorem Appended.fault (h : Appended p bs e e1) : e1.fault = e.fault := h.2.2.1

/-- One append after another appends both. -/
theorem Appended.trans (ho : e.accOpen p) (h1 : Appended p bs e e1) (h2 : Appended p cs e1 e2) :
    Appended p (bs ++ cs) e e2 := by
  have hw := h1.wPos
  obtain ⟨hb1, hp1, hf1, hs1, hu1, -, hm1⟩ := h1
  obtain ⟨hb2, hp2, hf2, hs2, hu2, hl2, hm2⟩ := h2
  have hlen : e1.wPos p + cs.length = e.wPos p + (bs ++ cs).length := by
    rw [hw, List.length_append, Nat.add_assoc]
  have hmono : ∀ {m n : Nat}, m ≤ n → m / p.unit.bits * p.unit.bytes ≤ n / p.unit.bits * p.unit.bytes :=
    fun hmn => Nat.mul_le_mul_right _ (Nat.div_le_div_right hmn)
  refine ⟨by rw [hb2, hb1, List.append_assoc], hp2.trans hp1, hf2.trans hf1, hs2.trans hs1,
    by rw [hu2, hlen], by rw [hl2, hlen], fun addr ha => ?_⟩
  rcases ha with ha | ha
  · rw [hm2 addr (.inl ?_), hm1 addr (.inl ha)]
    rw [hu1]
    refine Nat.lt_of_lt_of_le ha (Nat.le_trans ?_ (hmono (Nat.le_add_right (e.wPos p) bs.length)))
    rw [wPos_div ho]
  · rw [← hlen] at ha
    rw [hm2 addr (.inr ha), hm1 addr (.inr ?_)]
    rw [← hw]
    exact Nat.le_trans (hmono (Nat.le_add_right _ _)) ha

/-- What the sink holds does not depend on the session registers. -/
theorem Appended.withSes (h : Appended p bs e e1) (x : Session) :
    Appended p bs { e with ses := x } { e1 with ses := x } := by
  obtain ⟨hb, hp, hf, -, hu, hl, hm⟩ := h
  exact ⟨hb, hp, hf, rfl, hu, hl, hm⟩

/-- Nor on the phase. -/
theorem Appended.withPhase (h : Appended p bs e e1) (x : PhaseE) :
    Appended p bs { e with phase := x } { e1 with phase := x } := by
  obtain ⟨hb, -, hf, hs, hu, hl, hm⟩ := h
  exact ⟨hb, rfl, hf, hs, hu, hl, hm⟩

/-- Nor on the fault register. -/
theorem Appended.withFault (h : Appended p bs e e1) (x : FaultCode) :
    Appended p bs { e with fault := x } { e1 with fault := x } := by
  obtain ⟨hb, hp, -, hs, hu, hl, hm⟩ := h
  exact ⟨hb, hp, rfl, hs, hu, hl, hm⟩

/-- The room left for more bits. -/
theorem Appended.room {n : Nat} (h : Appended p bs e e1) (hr : e.room p (bs.length + n)) : e1.room p n := by
  rw [EngineE.room, h.wPos, Nat.add_assoc]
  exact hr

end Appended

/-! The operations. -/

section Operations
variable {p : Params} {e : EngineE}

theorem EngineE.room_mono {m n : Nat} (hmn : m ≤ n) (h : e.room p n) : e.room p m :=
  Params.overCapacity_mono (Nat.add_le_add_left hmn _) h

/-- What one bit pushed into the accumulator appends (R121). -/
theorem appended_pushAcc (b : Bool) (ho : e.accOpen p) : Appended p [b] e (pushAcc p b e) := by
  have hbpos := p.unit.bits_pos
  have hle := p.unit.bits_le
  have ho' : e.accFill < p.unit.bits := ho
  have hassign : ∀ j, (assignBit e.acc (p.unit.bits - 1 - e.accFill) b).getLsbD j =
      if j = p.unit.bits - 1 - e.accFill then b else e.acc.getLsbD j :=
    fun j => getLsbD_assignBit _ _ _ _ (by omega)
  -- the accumulator with the bit, before any commit
  let f : EngineE :=
    { e with acc := assignBit e.acc (p.unit.bits - 1 - e.accFill) b, accFill := e.accFill + 1 }
  have hold : ∀ k, k < e.wPos p → sinkBit p f k = sinkBit p e k := by
    intro k hk
    refine sinkBit_congr rfl (fun _ _ => rfl) fun hn => ?_
    have hk' : k < p.unit.bits * e.wUnit + e.accFill := by rw [Nat.mul_comm]; exact hk
    have hdm := Nat.div_add_mod k p.unit.bits
    have hdiv : k / p.unit.bits = e.wUnit := by
      have h1 : k / p.unit.bits ≤ e.wUnit := by rw [← wPos_div ho]; exact Nat.div_le_div_right hk.le
      omega
    rw [hdiv] at hdm
    have hmod : k % p.unit.bits < e.accFill := by omega
    change (assignBit e.acc _ b).getLsbD _ = _
    rw [hassign, if_neg (by omega)]
  have hnew : sinkBit p f (e.wPos p) = b := by
    rw [sinkBit_pending (by rw [wPos_div ho]; exact Nat.lt_irrefl _), wPos_mod ho]
    change (assignBit e.acc _ b).getLsbD _ = _
    rw [hassign, if_pos rfl]
  have hfpos : f.wPos p = e.wPos p + 1 := rfl
  have hfbits : f.bits p = e.bits p ++ [b] := by
    rw [EngineE.bits, EngineE.bits, hfpos, List.range_succ, List.map_append]
    congr 1
    · exact List.map_congr_left fun k hk => hold k (List.mem_range.1 hk)
    · simp [hnew]
  by_cases hfull : e.accFill + 1 = p.unit.bits
  · have hpush : pushAcc p b e = commitUnit p f := by
      rw [pushAcc]; exact if_pos hfull
    have hwp : e.wPos p + 1 = p.unit.bits * (e.wUnit + 1) := by
      rw [EngineE.wPos, Nat.mul_add, Nat.mul_comm]; omega
    have hbits : (commitUnit p f).bits p = f.bits p := by
      have hcp : (commitUnit p f).wPos p = f.wPos p := by
        rw [hfpos, hwp, EngineE.wPos, commitUnit_wUnit, commitUnit_accFill]
        exact Nat.mul_comm _ _
      rw [EngineE.bits, EngineE.bits, hcp]
      refine List.map_congr_left fun k hk => ?_
      have hk : k < p.unit.bits * (e.wUnit + 1) := by
        rw [← hwp, ← hfpos]; exact List.mem_range.1 hk
      have hdiv : k / p.unit.bits < e.wUnit + 1 := Nat.div_lt_of_lt_mul hk
      rcases Nat.lt_or_ge (k / p.unit.bits) e.wUnit with hlt | hge
      · exact sinkBit_commitUnit_lt (e := f) hlt
      · have heq : k / p.unit.bits = f.wUnit := Nat.le_antisymm (Nat.lt_succ_iff.1 hdiv) hge
        rw [sinkBit_commitUnit heq, sinkBit_pending (by omega)]
    rw [hpush]
    refine ⟨by rw [hbits, hfbits], rfl, rfl, rfl, ?_, ?_, fun addr ha => ?_⟩
    · rw [List.length_singleton, hwp, Nat.mul_div_cancel_left _ hbpos]; rfl
    · rw [List.length_singleton, hwp, Nat.mul_mod_right]; rfl
    · rw [List.length_singleton, hwp, Nat.mul_div_cancel_left _ hbpos] at ha
      rw [commitUnit_smE, Memory.read_writeUnit, if_neg]
      have : (e.wUnit + 1) * p.unit.bytes = e.wUnit * p.unit.bytes + p.unit.bytes := by ring
      change ¬ (e.wUnit * _ ≤ _ ∧ _ < e.wUnit * _ + _)
      omega
  · have hpush : pushAcc p b e = f := by
      rw [pushAcc]; exact if_neg hfull
    have hof : f.accOpen p := by change e.accFill + 1 < _; omega
    rw [hpush]
    refine ⟨hfbits, rfl, rfl, rfl, ?_, ?_, fun addr _ => rfl⟩
    · rw [List.length_singleton, ← hfpos, wPos_div hof]
    · rw [List.length_singleton, ← hfpos, wPos_mod hof]

/-- WRITE_BIT with room appends its bit (R121). -/
theorem writeBit_appends (b : Bool) (ho : e.accOpen p) (hr : e.room p 1) :
    ∃ e1, writeBit p b e = .ok () e1 ∧ Appended p [b] e e1 :=
  ⟨pushAcc p b e, by rw [writeBit, hr]; rfl, appended_pushAcc b ho⟩

/-- WRITE_BIT without room raises and appends nothing (R121, 60_exceptions.md R252). -/
theorem writeBit_full (b : Bool) (hr : ¬ e.room p 1) : writeBit p b e = .raised .capacity e := by
  rw [writeBit, if_pos]
  simpa [EngineE.room] using hr

/-- The loop of WRITE_BITS with room appends its bits (R123). -/
theorem writeLoop_appends (v : W64) (n : Nat) (ho : e.accOpen p) (hr : e.room p n) :
    ∃ e1, writeLoop p v n e = .ok () e1 ∧ Appended p (bitsOf v n) e e1 := by
  induction n generalizing e with
  | zero => exact ⟨e, rfl, Appended.refl ho⟩
  | succ n ih =>
    obtain ⟨e1, hw, ha⟩ := writeBit_appends (v.getLsbD n) ho (EngineE.room_mono (by omega) hr)
    obtain ⟨e2, hw2, ha2⟩ := ih ha.accOpen (ha.room (by rw [List.length_singleton, Nat.add_comm]; exact hr))
    exact ⟨e2, by rw [writeLoop, hw]; exact hw2, ha.trans ho ha2⟩

/-- WRITE_BITS with room appends the low `n` bits, most significant first (R123). -/
theorem writeBits_appends (v : W64) {n : Nat} (hn : n ≤ 64) (ho : e.accOpen p) (hr : e.room p n) :
    ∃ e1, writeBits p v n e = .ok () e1 ∧ Appended p (bitsOf v n) e e1 := by
  obtain ⟨e1, hw, ha⟩ := writeLoop_appends v n ho hr
  refine ⟨e1, ?_, ha⟩
  rw [writeBits, if_neg (by omega), hr]
  exact hw

/-- WRITE_BITS without room for all its bits appends none (R66, R123, R252). -/
theorem writeBits_full (v : W64) {n : Nat} (hn : n ≤ 64) (hr : ¬ e.room p n) :
    writeBits p v n e = .raised .capacity e := by
  rw [writeBits, if_neg (by omega), if_pos]
  simpa [EngineE.room] using hr

/-- A width above 64 is tested first (R123, R258, R260). -/
theorem writeBits_wide (v : W64) {n : Nat} (hn : 64 < n) : writeBits p v n e = .raised .badWidth e := by
  rw [writeBits, if_pos hn]

/-- WRITE_BITS ends in one of three ways: all bits, or a raise that leaves the engine as it was. -/
theorem writeBits_cases (v : W64) (n : Nat) (ho : e.accOpen p) :
    (∃ e1, writeBits p v n e = .ok () e1 ∧ Appended p (bitsOf v n) e e1 ∧ n ≤ 64 ∧ e.room p n) ∨
    (writeBits p v n e = .raised .capacity e ∧ n ≤ 64 ∧ ¬ e.room p n) ∨
    (writeBits p v n e = .raised .badWidth e ∧ 64 < n) := by
  by_cases hn : n ≤ 64
  · by_cases hr : e.room p n
    · obtain ⟨e1, hw, ha⟩ := writeBits_appends v hn ho hr
      exact .inl ⟨e1, hw, ha, hn, hr⟩
    · exact .inr (.inl ⟨writeBits_full v hn hr, hn, hr⟩)
  · exact .inr (.inr ⟨writeBits_wide v (by omega), by omega⟩)

/-- A run of SKIP_BITs with room appends zeros (R122). -/
theorem padZeros_appends (k : Nat) (ho : e.accOpen p) (hr : e.room p k) :
    ∃ e1, padZeros p k e = .ok () e1 ∧ Appended p (List.replicate k false) e e1 := by
  induction k generalizing e with
  | zero => exact ⟨e, rfl, Appended.refl ho⟩
  | succ k ih =>
    obtain ⟨e1, hw, ha⟩ := writeBit_appends false ho (EngineE.room_mono (by omega) hr)
    obtain ⟨e2, hw2, ha2⟩ := ih ha.accOpen (ha.room (by rw [List.length_singleton, Nat.add_comm]; exact hr))
    exact ⟨e2, by rw [padZeros, skipBit, hw]; exact hw2, ha.trans ho ha2⟩

/-- FLUSH of a part-filled accumulator with zeros below appends zeros up to the boundary (R124). -/
theorem flush_appends (ho : e.accOpen p)
    (hz : ∀ i, i < p.unit.bits - e.accFill → e.acc.getLsbD i = false) :
    ∃ e1, flush p e = .ok () e1 ∧
      Appended p (List.replicate ((p.unit.bits - e.accFill) % p.unit.bits) false) e e1 := by
  have ho' : e.accFill < p.unit.bits := ho
  have hbpos := p.unit.bits_pos
  by_cases hf : 0 < e.accFill
  · refine ⟨commitUnit p e, by rw [flush, if_pos hf], ?_⟩
    have hlen : (p.unit.bits - e.accFill) % p.unit.bits = p.unit.bits - e.accFill :=
      Nat.mod_eq_of_lt (by omega)
    have hwp : e.wPos p + (p.unit.bits - e.accFill) = p.unit.bits * (e.wUnit + 1) := by
      rw [EngineE.wPos, Nat.mul_add, Nat.mul_comm]; omega
    rw [hlen]
    refine ⟨?_, rfl, rfl, rfl, ?_, ?_, fun addr ha => ?_⟩
    · rw [commitUnit_bits ho]
      congr 1
      rw [List.eq_replicate_iff]
      refine ⟨by simp, fun b hb => ?_⟩
      obtain ⟨j, hj, rfl⟩ := List.mem_map.1 hb
      have := List.mem_range.1 hj
      exact hz _ (by omega)
    · rw [List.length_replicate, hwp, Nat.mul_div_cancel_left _ hbpos]; rfl
    · rw [List.length_replicate, hwp, Nat.mul_mod_right]; rfl
    · rw [List.length_replicate, hwp, Nat.mul_div_cancel_left _ hbpos] at ha
      rw [commitUnit_smE, Memory.read_writeUnit, if_neg]
      have : (e.wUnit + 1) * p.unit.bytes = e.wUnit * p.unit.bytes + p.unit.bytes := by ring
      omega
  · have h0 : e.accFill = 0 := by omega
    refine ⟨e, by rw [flush, if_neg hf], ?_⟩
    rw [h0, Nat.sub_zero, Nat.mod_self]
    exact Appended.refl ho

end Operations

/-! The canonical form of SM_E (20_memory.md R60). -/

section Canonical
variable {p : Params} {e : EngineE}

theorem wf_commitUnit (h : Memory.wf e.smE) : Memory.wf (commitUnit p e).smE :=
  Memory.wf_writeUnit _ _ _ _ h

theorem wf_pushAcc (b : Bool) (h : Memory.wf e.smE) : Memory.wf (pushAcc p b e).smE := by
  unfold pushAcc
  simp only
  split
  · exact wf_commitUnit h
  · exact h

/-- SM_E right after reset is canonical. -/
theorem wf_reset_sink : Memory.wf State.reset.e.smE := Memory.wf_empty

/-- SM_D right after reset is canonical. -/
theorem wf_reset_source : Memory.wf State.reset.d.smD := Memory.wf_empty

/-- The host's write keeps SM_D canonical (R283). -/
theorem wf_hostWrite {addr : Nat} {bytes : List Byte} {s t : State} (h : Memory.wf s.d.smD)
    (ht : hostWrite addr bytes s = .next t) : Memory.wf t.d.smD := by
  unfold hostWrite at ht
  split at ht
  · cases ht
  · cases ht; exact Memory.wf_writeBytes _ _ _ h

end Canonical

end Machine
end Sys2Proof
end

