-- ==== Sys2Proof/Laws/PerInstr.lean ====
section
/-! SUPPORT. Facts about every instruction as syntax, one lemma per constructor: the family `CodeLength` says how many
bits an instruction's encoding has (30_encoding.md R91, R97 to R104, R110). -/

namespace Sys2Proof
namespace Laws

/-- The total bits of each row: 137 for a command word (R91), the table widths for a code word (R97 to R104). -/
def rowWidth : Instr → Nat
  | .cInit _ _ _ => 137
  | .addValue _ _ => 137
  | .close => 137
  | .dInit _ _ _ => 137
  | .readPair => 137
  | .writeBit _ => 137
  | .skipBit => 137
  | .writeBits _ _ => 137
  | .flush => 137
  | .readBit => 137
  | .readBits _ => 137
  | .readRunOfOnes _ => 137
  | .predInit _ _ _ => 137
  | .predUpdate _ _ => 137
  | .predPredict _ => 137
  | .valWriteFirst _ => 137
  | .valCompress _ => 137
  | .valReadFirst => 137
  | .valDecompress => 137
  | .tsWriteFirst _ => 137
  | .tsCompress _ => 137
  | .tsReadFirst => 137
  | .tsDecompress => 137
  | .header _ => 64
  | .firstDelta _ => 27
  | .emptyMarker => 27
  | .firstValue _ => 64
  | .tsZero => 1
  | .ts7 _ => 9
  | .ts9 _ => 12
  | .ts12 _ => 16
  | .ts32 _ => 36
  | .tsSentinel => 36
  | .valSame => 1
  | .valReuse n _ => 2 + n
  | .valNew l m _ => if l.toNat + m.toNat + 1 ≤ 64 then 14 + (m.toNat + 1) else 14
  | .terminator => 37
  | .padding k => k

/-- The encoding of an instruction has its row's width. -/
def CodeLength.Statement (i : Instr) : Prop := (encode i).length = rowWidth i

/-- A word of the command space has 137 bits. -/
theorem length_encode_word {i : Instr} {w : CommandWord} (h : encodeWord i = some w) :
    (encode i).length = 137 := by
  rw [encode, h]
  exact length_bitsOf w 137

theorem CodeLength.cInit (k : PredKind) (t n : W64) : CodeLength.Statement (.cInit k t n) :=
  length_encode_word rfl

theorem CodeLength.addValue (t v : W64) : CodeLength.Statement (.addValue t v) :=
  length_encode_word rfl

theorem CodeLength.close : CodeLength.Statement (.close) :=
  length_encode_word rfl

theorem CodeLength.dInit (k : PredKind) (t n : W64) : CodeLength.Statement (.dInit k t n) :=
  length_encode_word rfl

theorem CodeLength.readPair : CodeLength.Statement (.readPair) :=
  length_encode_word rfl

theorem CodeLength.writeBit (b : Bool) : CodeLength.Statement (.writeBit b) :=
  length_encode_word rfl

theorem CodeLength.skipBit : CodeLength.Statement (.skipBit) :=
  length_encode_word rfl

theorem CodeLength.writeBits (v : W64) (n : Byte) : CodeLength.Statement (.writeBits v n) :=
  length_encode_word rfl

theorem CodeLength.flush : CodeLength.Statement (.flush) :=
  length_encode_word rfl

theorem CodeLength.readBit : CodeLength.Statement (.readBit) :=
  length_encode_word rfl

theorem CodeLength.readBits (n : Byte) : CodeLength.Statement (.readBits n) :=
  length_encode_word rfl

theorem CodeLength.readRunOfOnes (n : Byte) : CodeLength.Statement (.readRunOfOnes n) :=
  length_encode_word rfl

theorem CodeLength.predInit (x : Engine) (k : PredKind) (n : W64) : CodeLength.Statement (.predInit x k n) :=
  length_encode_word rfl

theorem CodeLength.predUpdate (x : Engine) (v : W64) : CodeLength.Statement (.predUpdate x v) :=
  length_encode_word rfl

theorem CodeLength.predPredict (x : Engine) : CodeLength.Statement (.predPredict x) :=
  length_encode_word rfl

theorem CodeLength.valWriteFirst (v : W64) : CodeLength.Statement (.valWriteFirst v) :=
  length_encode_word rfl

theorem CodeLength.valCompress (v : W64) : CodeLength.Statement (.valCompress v) :=
  length_encode_word rfl

theorem CodeLength.valReadFirst : CodeLength.Statement (.valReadFirst) :=
  length_encode_word rfl

theorem CodeLength.valDecompress : CodeLength.Statement (.valDecompress) :=
  length_encode_word rfl

theorem CodeLength.tsWriteFirst (t : W64) : CodeLength.Statement (.tsWriteFirst t) :=
  length_encode_word rfl

theorem CodeLength.tsCompress (t : W64) : CodeLength.Statement (.tsCompress t) :=
  length_encode_word rfl

theorem CodeLength.tsReadFirst : CodeLength.Statement (.tsReadFirst) :=
  length_encode_word rfl

theorem CodeLength.tsDecompress : CodeLength.Statement (.tsDecompress) :=
  length_encode_word rfl

theorem CodeLength.header (t : W64) : CodeLength.Statement (.header t) := by
  simp [CodeLength.Statement, encode, encodeWord, encodeStream, rowWidth]

theorem CodeLength.firstDelta (d : BitVec 27) : CodeLength.Statement (.firstDelta d) := by
  simp [CodeLength.Statement, encode, encodeWord, encodeStream, rowWidth]

theorem CodeLength.emptyMarker : CodeLength.Statement (.emptyMarker) := by
  simp [CodeLength.Statement, encode, encodeWord, encodeStream, rowWidth]

theorem CodeLength.firstValue (v : W64) : CodeLength.Statement (.firstValue v) := by
  simp [CodeLength.Statement, encode, encodeWord, encodeStream, rowWidth]

theorem CodeLength.tsZero : CodeLength.Statement (.tsZero) := by
  simp [CodeLength.Statement, encode, encodeWord, encodeStream, rowWidth]

theorem CodeLength.ts7 (p : BitVec 7) : CodeLength.Statement (.ts7 p) := by
  simp [CodeLength.Statement, encode, encodeWord, encodeStream, rowWidth]

theorem CodeLength.ts9 (p : BitVec 9) : CodeLength.Statement (.ts9 p) := by
  simp [CodeLength.Statement, encode, encodeWord, encodeStream, rowWidth]

theorem CodeLength.ts12 (p : BitVec 12) : CodeLength.Statement (.ts12 p) := by
  simp [CodeLength.Statement, encode, encodeWord, encodeStream, rowWidth]

theorem CodeLength.ts32 (p : BitVec 32) : CodeLength.Statement (.ts32 p) := by
  simp [CodeLength.Statement, encode, encodeWord, encodeStream, rowWidth]

theorem CodeLength.tsSentinel : CodeLength.Statement (.tsSentinel) := by
  simp [CodeLength.Statement, encode, encodeWord, encodeStream, rowWidth]

theorem CodeLength.valSame : CodeLength.Statement (.valSame) := by
  simp [CodeLength.Statement, encode, encodeWord, encodeStream, rowWidth]

theorem CodeLength.valReuse (n : Nat) (b : W64) : CodeLength.Statement (.valReuse n b) := by
  simp only [CodeLength.Statement, encode, encodeWord, encodeStream, rowWidth, List.length_cons, length_bitsOf]
  omega

theorem CodeLength.valNew (l m : BitVec 6) (b : W64) : CodeLength.Statement (.valNew l m b) := by
  simp only [CodeLength.Statement, encode, encodeWord, encodeStream, rowWidth, List.length_cons, List.length_append, length_bitsOf]
  split
  · simp only [length_bitsOf]; omega
  · simp

theorem CodeLength.terminator : CodeLength.Statement (.terminator) := by
  simp [CodeLength.Statement, encode, encodeWord, encodeStream, rowWidth, terminatorBits]

theorem CodeLength.padding (k : Nat) : CodeLength.Statement (.padding k) := by
  simp [CodeLength.Statement, encode, encodeWord, encodeStream, rowWidth]

end Laws
end Sys2Proof
end

