-- ==== Sys2Proof/Laws/Predictor.lean ====
section
/-! SUPPORT. The predictor (42_predictor.md): how PRED_INIT ends, what PRED_UPDATE changes, and the invariant of one
instance (10_state.md R37 item 4) under both. -/

namespace Sys2Proof
namespace Machine

section Predictor
variable {p : Params} {q : Pred} (k : PredKind) (sizeReq value : W64)

/-- PRED_INIT leaves a fresh instance, or raises CONFIG with the kind, the last value and the hash written (R161). -/
theorem predInit_cases :
    (predInit p k sizeReq q = .ok () (freshPred k sizeReq) ∧ predAccepted p k sizeReq = true) ∨
    (predInit p k sizeReq q = .raised .config { q with kind := .dfcm, lastValue := 0#64, hash := 0 } ∧
      k = .dfcm ∧ predAccepted p k sizeReq = false) := by
  cases k with
  | last => exact .inl ⟨rfl, rfl⟩
  | dfcm =>
    by_cases h0 : sizeReq.toInt ≤ 0
    · exact .inr ⟨by simp [predInit, h0], rfl, by simp [predAccepted]; omega⟩
    · by_cases h1 : p.overTable (nextPow2 sizeReq.toNat) = true
      · exact .inr ⟨by simp [predInit, h0, h1], rfl, by simp [predAccepted, h1]⟩
      · exact .inl ⟨by simp [predInit, h0, h1, freshPred], by simp [predAccepted, h1]; omega⟩

@[simp] theorem predUpdate_kind : (predUpdate value q).kind = q.kind := by
  unfold predUpdate; split <;> rfl

@[simp] theorem predUpdate_size : (predUpdate value q).size = q.size := by
  unfold predUpdate; split <;> rfl

@[simp] theorem predUpdate_lastValue : (predUpdate value q).lastValue = value := by
  unfold predUpdate; split <;> rfl

/-- The masked hash is an index of the table (R164, R29). -/
theorem nextHash_lt (hash size : Nat) (delta : W64) (h : 0 < size) : nextHash hash size delta < size := by
  have := Nat.and_le_right (n := (hash <<< 5) ^^^ (delta >>> 50).toNat) (m := size - 1)
  unfold nextHash
  omega

/-- PRED_UPDATE keeps the invariant of an instance. -/
theorem predInv_predUpdate (h : PredInv p q) : PredInv p (predUpdate value q) := by
  obtain ⟨hh, hs, ho, ht⟩ := h
  unfold predUpdate
  split
  · exact ⟨hh, hs, ho, ht⟩
  · exact ⟨nextHash_lt _ _ _ (by omega), hs, ho, Table.wf_write _ _ _ _ ht hh⟩

end Predictor

end Machine
end Sys2Proof
end

