-- ==== Sys2Proof/Laws/Source.lean ====
section
/-! SUPPORT. The BitSource (41_bitsource.md): what each operation returns and consumes; bit strings as numbers
(20_memory.md R62); and the same for the code words that are consumed whole. -/

namespace Sys2Proof

/-! Fields and bit strings (R62). -/

theorem ofBitsFrom_append {w : Nat} (v : BitVec w) (bs cs : List Bool) :
    ofBitsFrom v (bs ++ cs) = ofBitsFrom (ofBitsFrom v bs) cs := by
  induction bs generalizing v with
  | nil => rfl
  | cons b bs ih => exact ih _

/-- Bit `i` of a value after one more bit. -/
theorem getLsbD_pushBit {w : Nat} (v : BitVec w) (b : Bool) (i : Nat) (hi : i < w) :
    (pushBit v b).getLsbD i = if i = 0 then b else v.getLsbD (i - 1) := by
  have hb : (bitVal w b).getLsbD i = (decide (i = 0) && b) := by
    cases b with
    | false => simp [bitVal]
    | true => by_cases h : i = 0 <;> simp [bitVal, h]; omega
  rw [pushBit, BitVec.getLsbD_or, BitVec.getLsbD_shiftLeft, hb]
  by_cases h : i = 0
  · simp [h]
  · simp [h, hi, show ¬ i < 1 by omega]

/-- A field's bits after a value: the value moves up, the field comes in below. -/
theorem getLsbD_ofBitsFrom_bitsOf {w : Nat} (u v : BitVec w) (n i : Nat) (hi : i < w) :
    (ofBitsFrom u (bitsOf v n)).getLsbD i = if i < n then v.getLsbD i else u.getLsbD (i - n) := by
  induction n generalizing u i with
  | zero => simp [bitsOf, ofBitsFrom]
  | succ n ih =>
    simp only [bitsOf, ofBitsFrom]
    rw [ih _ _ hi]
    by_cases h : i < n
    · rw [if_pos h, if_pos (by omega)]
    · rw [if_neg h, getLsbD_pushBit _ _ _ (by omega)]
      by_cases h' : i = n
      · subst h'; simp
      · rw [if_neg (by omega), if_neg (by omega)]
        rw [show i - n - 1 = i - (n + 1) by omega]

/-- Writing the low `n` bits and reading them back gives the low `n` bits. -/
theorem getLsbD_ofBits_bitsOf {w : Nat} (v : BitVec w) (n i : Nat) (hi : i < w) :
    (ofBits w (bitsOf v n)).getLsbD i = (decide (i < n) && v.getLsbD i) := by
  rw [ofBits, getLsbD_ofBitsFrom_bitsOf _ _ _ _ hi]
  by_cases h : i < n <;> simp [h]

/-- A field that fits its width is read back whole. -/
theorem ofBits_bitsOf {w : Nat} (v : BitVec w) (n : Nat) (h : v.toNat < 2 ^ n) : ofBits w (bitsOf v n) = v := by
  refine BitVec.eq_of_getLsbD_eq fun i hi => ?_
  rw [getLsbD_ofBits_bitsOf _ _ _ hi]
  by_cases hn : i < n
  · simp [hn]
  · have : v.getLsbD i = false :=
      Nat.testBit_lt_two_pow (Nat.lt_of_lt_of_le h (Nat.pow_le_pow_right (by decide) (by omega)))
    simp [this]

namespace Machine

section Reading
variable {p : Params} {d : EngineD}

@[simp] theorem length_streamBits (k n : Nat) : (streamBits p d k n).length = n := by
  induction n generalizing k with
  | zero => rfl
  | succ n ih => simp [streamBits, ih]

theorem streamBits_add (k m n : Nat) :
    streamBits p d k (m + n) = streamBits p d k m ++ streamBits p d (k + m) n := by
  induction m generalizing k with
  | zero => simp [streamBits]
  | succ m ih =>
    rw [show m + 1 + n = (m + n) + 1 by omega, streamBits, ih, streamBits, List.cons_append,
      show k + 1 + m = k + (m + 1) by omega]

/-- Stream bit `k` by its byte (R61, R63, R144). -/
theorem streamBit_byte (k : Nat) : streamBit p d k = (d.byteAt (k / 8)).getLsbD (7 - k % 8) :=
  unitBit_unitAt _ _ _

/-- Stream bits depend on the source only. -/
theorem streamBit_congr {d1 : EngineD} (h : d1.smD = d.smD) (k : Nat) : streamBit p d1 k = streamBit p d k := by
  rw [streamBit_byte, streamBit_byte, EngineD.byteAt, EngineD.byteAt, h]

theorem streamBits_congr {d1 : EngineD} (h : d1.smD = d.smD) (k n : Nat) :
    streamBits p d1 k n = streamBits p d k n := by
  induction n generalizing k with
  | zero => rfl
  | succ n ih => rw [streamBits, streamBits, ih, streamBit_congr h]

theorem readLoop_eq (k : Nat) (v : W64) (n : Nat) :
    readLoop p d k v n = ofBitsFrom v (streamBits p d k n) := by
  induction n generalizing k v with
  | zero => rfl
  | succ n ih => rw [readLoop, ih, streamBits, ofBitsFrom]

/-- READ_BIT with a bit left (R141). -/
theorem readBit_reads (h : d.available p 1) :
    readBit p d = .ok (streamBit p d d.rPos) { d with rPos := d.rPos + 1 } := by
  rw [readBit, if_neg]
  exact Nat.not_le.2 h

/-- READ_BIT at the end of the source raises and consumes nothing (R141). -/
theorem readBit_exhausted (h : ¬ d.available p 1) : readBit p d = .raised .sourceExhausted d := by
  rw [readBit, if_pos]
  exact Nat.not_lt.1 h

/-- READ_BITS with its bits left: they come right-aligned (R142). -/
theorem readBits_reads {n : Nat} (hn : n ≤ 64) (h : d.available p n) :
    readBits p n d = .ok (ofBits 64 (d.next p n)) { d with rPos := d.rPos + n } := by
  rw [readBits, if_neg (by omega), if_neg (Nat.not_lt.2 h), readLoop_eq]
  rfl

/-- READ_BITS short of bits consumes none (R66, R142). -/
theorem readBits_exhausted {n : Nat} (hn : n ≤ 64) (h : ¬ d.available p n) :
    readBits p n d = .raised .sourceExhausted d := by
  rw [readBits, if_neg (by omega), if_pos]
  exact Nat.not_le.1 h

/-- A width above 64 is tested first (R142, R258, R260). -/
theorem readBits_wide {n : Nat} (hn : 64 < n) : readBits p n d = .raised .badWidth d := by
  rw [readBits, if_pos hn]

/-- READ_BITS ends in one of three ways. -/
theorem readBits_cases (n : Nat) :
    (readBits p n d = .ok (ofBits 64 (d.next p n)) { d with rPos := d.rPos + n } ∧ n ≤ 64 ∧ d.available p n) ∨
    (readBits p n d = .raised .sourceExhausted d ∧ n ≤ 64 ∧ ¬ d.available p n) ∨
    (readBits p n d = .raised .badWidth d ∧ 64 < n) := by
  by_cases hn : n ≤ 64
  · by_cases h : d.available p n
    · exact .inl ⟨readBits_reads hn h, hn, h⟩
    · exact .inr (.inl ⟨readBits_exhausted hn h, hn, h⟩)
  · exact .inr (.inr ⟨readBits_wide (by omega), by omega⟩)

/-- READ_RUN_OF_ONES reads bit by bit (R143, R145 (b)): one more read, then the rest of the scan. -/
theorem readRunFrom_succ (n count : Nat) :
    readRunFrom p (n + 1) count d =
      if d.available p 1 then
        if streamBit p d d.rPos then readRunFrom p n (count + 1) { d with rPos := d.rPos + 1 }
        else .ok count { d with rPos := d.rPos + 1 }
      else .raised .sourceExhausted d := by
  rw [readRunFrom]
  by_cases h : d.available p 1
  · rw [readBit_reads h, if_pos h]; rfl
  · rw [readBit_exhausted h, if_neg h]; rfl

/-- A whole field consumed (R142). -/
theorem consume_cases (n : Nat) :
    (consume p n d = .ok () { d with rPos := d.rPos + n } ∧ d.available p n) ∨
    (consume p n d = .raised .sourceExhausted d ∧ ¬ d.available p n) := by
  by_cases h : d.available p n
  · exact .inl ⟨by rw [consume, if_neg (Nat.not_lt.2 h)], h⟩
  · exact .inr ⟨by rw [consume, if_pos (Nat.not_le.1 h)], h⟩

/-- Control bits consumed one by one (R141, R143). -/
theorem consumeEach_cases (n : Nat) :
    (consumeEach p n d = .ok () { d with rPos := d.rPos + n } ∧ d.available p n) ∨
    (consumeEach p n d = .raised .sourceExhausted { d with rPos := max d.rPos (d.srcLenBits p) } ∧
      ¬ d.available p n) := by
  by_cases h : d.available p n
  · exact .inl ⟨by rw [consumeEach, if_neg (Nat.not_lt.2 h)], h⟩
  · exact .inr ⟨by rw [consumeEach, if_pos (Nat.not_le.1 h)], h⟩

end Reading

end Machine
end Sys2Proof
end

