-- ==== Sys2Proof/Laws/Words.lean ====
section
/-! SUPPORT. Code words as fields and as samples: the widths of the writes and of the reads add up to the word's
length, a sequence that does not fit has exactly one last field that does, and samples are appended one at a time. -/

namespace Sys2Proof.Machine

/-- The reads of a code word take all its bits (30_encoding.md R97 to R105). -/
theorem readWidths_sum {w : Instr} (hr : w.space ≠ .trailer) : (readWidths w).sum = (encodeStream w).length := by
  cases w
  case valNew leading lengthM1 bits =>
    by_cases h : leading.toNat + lengthM1.toNat + 1 ≤ 64
    · simp only [readWidths, encodeStream, h, if_true, List.sum_append, List.sum_cons, List.sum_nil,
        List.length_cons, List.length_append, length_bitsOf]
      omega
    · simp [readWidths, encodeStream, h]
  case valReuse n bits =>
    simp only [readWidths, encodeStream, List.sum_cons, List.sum_nil, List.length_cons, length_bitsOf]
    omega
  case terminator => exact absurd rfl hr
  case padding => exact absurd rfl hr
  all_goals simp [readWidths, encodeStream]

/-- The writes of a code word give all its bits; an encoder never writes a VAL_NEW that R105 calls impossible. -/
theorem writeWidths_sum (w : Instr)
    (h : ∀ l m bits, w = .valNew l m bits → l.toNat + m.toNat + 1 ≤ 64) :
    (writeWidths w).sum = (encodeStream w).length := by
  cases w
  case valNew leading lengthM1 bits =>
    simp only [writeWidths, encodeStream, h _ _ _ rfl, if_true, List.sum_cons, List.sum_nil,
      List.length_cons, List.length_append, length_bitsOf]
    omega
  case valReuse n bits =>
    simp only [writeWidths, encodeStream, List.sum_cons, List.sum_nil, List.length_cons, length_bitsOf]
    omega
  case padding k =>
    simp only [writeWidths, encodeStream, List.sum_replicate, List.length_replicate, smul_eq_mul, mul_one]
  all_goals simp [writeWidths, encodeStream, terminatorBits]

/-- Fields that do not all fit stop after some field, where none at all would fit. -/
theorem CutAfter.exists {fits : Nat → Prop} (widths : List Nat) (h0 : fits 0) (hn : ¬ fits widths.sum) :
    ∃ j, CutAfter fits widths j := by
  by_contra hc
  have hall : ∀ j, j ≤ widths.length → fits (widths.take j).sum := by
    intro j
    induction j with
    | zero => intro _; simpa using h0
    | succ j ih =>
      intro hj
      by_contra hf
      exact hc ⟨j, by omega, ih (by omega), hf⟩
  exact hn (by simpa using hall widths.length (Nat.le_refl _))

/-- One more field does not reach back (widths are not negative). -/
theorem sum_take_le (widths : List Nat) {i j : Nat} (h : i ≤ j) : (widths.take i).sum ≤ (widths.take j).sum := by
  rw [show j = i + (j - i) by omega, List.take_add, List.sum_append]
  omega

/-- Where less fits than what fits, the last field that fits is the only one. -/
theorem CutAfter.unique {fits : Nat → Prop} (mono : ∀ m n, m ≤ n → fits n → fits m) {widths : List Nat} {i j : Nat}
    (hi : CutAfter fits widths i) (hj : CutAfter fits widths j) : i = j := by
  rcases Nat.lt_trichotomy i j with h | h | h
  · exact absurd (mono _ _ (sum_take_le widths h) hj.2.1) hi.2.2
  · exact h
  · exact absurd (mono _ _ (sum_take_le widths h) hi.2.1) hj.2.2

@[simp] theorem samplesWindow_nil (ses : Session) : samplesWindow ses [] = ses := rfl

@[simp] theorem samplesWindow_append (ses : Session) (ws us : List (Instr × Instr)) :
    samplesWindow ses (ws ++ us) = samplesWindow (samplesWindow ses ws) us := List.foldl_append

/-- A sample appended is judged in the window the samples before it left (R101). -/
theorem samplesWf_append (ses : Session) (ws us : List (Instr × Instr)) :
    samplesWf ses (ws ++ us) ↔ samplesWf ses ws ∧ samplesWf (samplesWindow ses ws) us := by
  induction ws generalizing ses with
  | nil => simp [samplesWf]
  | cons w ws ih => simp only [List.cons_append, samplesWf, ih, samplesWindow, List.foldl_cons]; tauto

/-- The same window leaves a REUSE tail the same width (R182, R184). -/
theorem windowWidth_congr {ses ses1 : Session} (h : ses.sameWindow ses1) : ses.windowWidth = ses1.windowWidth := by
  rw [Session.windowWidth, Session.windowWidth, h.1, h.2]

/-- Only the two window registers tell which value code words are legal (R105, R107). -/
theorem wordLegal_congr {ses ses1 : Session} (h : ses.sameWindow ses1) (w : Instr) :
    wordLegal ses w = wordLegal ses1 w := by
  cases w with
  | valReuse n bits => simp [wordLegal, h.1, windowWidth_congr h]
  | _ => rfl

/-- The same window before a word leaves the same window after it (R101). -/
theorem sameWindow_wordWindow {ses ses1 : Session} (h : ses.sameWindow ses1) (w : Instr) :
    (wordWindow ses w).sameWindow (wordWindow ses1 w) := by
  cases w <;> first | exact h | exact ⟨rfl, rfl⟩

end Sys2Proof.Machine
end

