-- ==== Sys2Proof/Tests/Slice0.lean ====
section
/-! SUPPORT. Tests: ill-formed terms refused, words written out from the encoding rules decoded, one-step tests whose
expected results are the vectors of spec/95_test_vectors.md (named in each comment), and for every statement with
hypotheses a concrete state that meets them. -/

-- Each test is one kernel evaluation; run in order, they need one thread instead of one thread each.
set_option Elab.async false

namespace Sys2Proof
namespace Tests

open Machine

/-! Builders. -/

/-- A bit string from the digits 0 and 1 of a decimal-free literal: the `n` low bits of `v`, first bit first. -/
def bits (n v : Nat) : List Bool := (List.range n).map fun j => v.testBit (n - 1 - j)

/-- `n` bytes of a number, most significant first. -/
def bytes (n v : Nat) : List Byte := (List.range n).map fun j => BitVec.ofNat 8 (v >>> (8 * (n - 1 - j)))

/-- Units of 8 bits with a sink of `n` units. -/
def capped (n : Nat) : Params := { unit := .w8, sinkCapUnits := some n, dfcmMaxLog2 := some 10 }

/-- Units of 8 bits, nothing bounded. -/
def unbounded : Params := { unit := .w8, sinkCapUnits := none, dfcmMaxLog2 := none }

/-- An empty engine E with these bits appended. -/
def sinkOf (p : Params) (bs : List Bool) : EngineE := bs.foldl (fun e b => pushAcc p b e) EngineE.reset

/-- An engine D whose source is these bits, zero-filled to whole bytes. -/
def sourceOf (bs : List Bool) : EngineD :=
  { EngineD.reset with
    smD := Memory.writeBytes [] 0 ((List.range ((bs.length + 7) / 8)).map fun j =>
      ofBits 8 ((List.range 8).map fun t => bs.getD (8 * j + t) false))
    srcLenUnits := (bs.length + 7) / 8 }

/-- A state right after reset but for engine E. -/
def atE (p : Params) (e : EngineE) : State := { State.resetWith p with e := e }

/-- A state right after reset but for engine D. -/
def atD (p : Params) (d : EngineD) : State := { State.resetWith p with d := d }

/-- A session with the origin `T` of the vectors, 1500000000000, and the last-value predictor. -/
def sesT : Session := freshSession 1500000000000#64 .last 0#64

/-- `sesT` with timestamp registers, window and last value. -/
def sesOf (timestamp delta : W64) (leading trailing : Nat) (last : W64) : Session :=
  { (sesT.withTime delta timestamp).withWindow leading trailing with
    pred := { freshPred .last 0#64 with lastValue := last } }

/-- The same before any window (`NO_WINDOW`). -/
def sesNW (timestamp delta last : W64) : Session :=
  { sesT.withTime delta timestamp with pred := { freshPred .last 0#64 with lastValue := last } }

/-- Engine E's observation of a step: cursor, pending bits, fault. -/
def seenE (i : Instr) (s : State) : Option (Nat × W64 × Nat × FaultCode) :=
  (nextState (exec i s)).map fun t => (t.e.wUnit, t.e.acc, t.e.accFill, t.e.fault)

/-- The bits a step left in the sink. -/
def bitsE (i : Instr) (s : State) : Option (List Bool) := (nextState (exec i s)).map fun t => t.e.bits t.params

/-- Engine D's observation of a step: what was returned, cursor, fault. -/
def seenD (i : Instr) (s : State) : Option (Returned × Nat × FaultCode) :=
  (nextState (exec i s)).map fun t => (t.ret, t.d.rPos, t.d.fault)

/-! Ill-formed terms are refused. -/

/-- The all-ones first delta is the empty marker (R105). -/
theorem test_wf_refuses_firstDelta : (Instr.firstDelta (BitVec.allOnes 27)).wf = false := by decide +kernel
/-- The all-ones 32-bit payload is the sentinel (R105). -/
theorem test_wf_refuses_ts32 : (Instr.ts32 0xFFFFFFFF#32).wf = false := by decide +kernel
/-- A REUSE field wider than it says, and a REUSE width above 64 (R101, R102). -/
theorem test_wf_refuses_valReuse :
    (Instr.valReuse 4 16#64).wf = false ∧ (Instr.valReuse 65 0#64).wf = false := by decide +kernel
/-- A NEW field wider than it says (R102), and a tail on an impossible NEW word (R105). -/
theorem test_wf_refuses_valNew :
    (Instr.valNew 0#6 3#6 16#64).wf = false ∧ (Instr.valNew 32#6 63#6 1#64).wf = false := by decide +kernel
/-- Padding is shorter than a unit (R104). -/
theorem test_wf_refuses_padding : (Instr.padding 64).wf = false := by decide +kernel

/-! Decoding: command words, as spec/95_test_vectors.md prints them. -/

/-- Program P1. -/
theorem test_decode_cInit_last : decodeWord 0x0020000015d3ef798000000000000000000#137 = .ok (.cInit .last 1500000000000#64 0#64) := by decide +kernel
/-- Program P4. -/
theorem test_decode_cInit : decodeWord 0x0030000015d3ef798000000000000000004#137 = .ok (.cInit .dfcm 1500000000000#64 4#64) := by decide +kernel
/-- Program P3. -/
theorem test_decode_addValue : decodeWord 0x0040000015d3ef79814c000000000000000#137 = .ok (.addValue 1500000000020#64 0xC000000000000000#64) := by decide +kernel
/-- Program P1. -/
theorem test_decode_close : decodeWord 0x00600000000000000000000000000000000#137 = .ok (.close) := by decide +kernel
/-- Program P4. -/
theorem test_decode_dInit : decodeWord 0x02300000000000000210000000000000004#137 = .ok (.dInit .dfcm 33#64 4#64) := by decide +kernel
/-- Program P1. -/
theorem test_decode_readPair : decodeWord 0x02400000000000000000000000000000000#137 = .ok (.readPair) := by decide +kernel
/-- R95: no operation has number 0x00 or 0xFF. -/
theorem test_decode_illegal :
    decodeWord 0#137 = .error (.illegalOp 0x00#8) ∧
    decodeWord 0x1fe00000000000000000000000000000000#137 = .error (.illegalOp 0xFF#8) := by decide +kernel

/-! Micro-operation words: the op number of R92 in bits 136:129, operands laid out as log 6 says. -/

theorem test_decode_writeBit : decodeWord 0x04000000000000000010000000000000000#137 = .ok (.writeBit true) := by decide +kernel
theorem test_decode_skipBit : decodeWord 0x04200000000000000000000000000000000#137 = .ok (.skipBit) := by decide +kernel
theorem test_decode_writeBits : decodeWord 0x0440000000000000007000000000000002b#137 = .ok (.writeBits 0x2B#64 7#8) := by decide +kernel
theorem test_decode_flush : decodeWord 0x04600000000000000000000000000000000#137 = .ok (.flush) := by decide +kernel
theorem test_decode_readBit : decodeWord 0x06000000000000000000000000000000000#137 = .ok (.readBit) := by decide +kernel
theorem test_decode_readBits : decodeWord 0x06200000000000000400000000000000000#137 = .ok (.readBits 64#8) := by decide +kernel
theorem test_decode_readRunOfOnes : decodeWord 0x06400000000000000040000000000000000#137 = .ok (.readRunOfOnes 4#8) := by decide +kernel
theorem test_decode_predInit : decodeWord 0x081000000000000000100000000000003e8#137 = .ok (.predInit .D .dfcm 1000#64) := by decide +kernel
theorem test_decode_predUpdate : decodeWord 0x08200000000000000003ff0000000000000#137 = .ok (.predUpdate .E 0x3FF0000000000000#64) := by decide +kernel
theorem test_decode_predPredict : decodeWord 0x08400000000000000010000000000000000#137 = .ok (.predPredict .D) := by decide +kernel
theorem test_decode_valWriteFirst : decodeWord 0x0a000000000000000003ff0000000000000#137 = .ok (.valWriteFirst 0x3FF0000000000000#64) := by decide +kernel
theorem test_decode_valCompress : decodeWord 0x0a20000000000000000c000000000000000#137 = .ok (.valCompress 0xC000000000000000#64) := by decide +kernel
theorem test_decode_valReadFirst : decodeWord 0x0a400000000000000000000000000000000#137 = .ok (.valReadFirst) := by decide +kernel
theorem test_decode_valDecompress : decodeWord 0x0a600000000000000000000000000000000#137 = .ok (.valDecompress) := by decide +kernel
theorem test_decode_tsWriteFirst : decodeWord 0x0c00000015d3ef7980a0000000000000000#137 = .ok (.tsWriteFirst 1500000000010#64) := by decide +kernel
theorem test_decode_tsCompress : decodeWord 0x0c20000015d3ef798140000000000000000#137 = .ok (.tsCompress 1500000000020#64) := by decide +kernel
theorem test_decode_tsReadFirst : decodeWord 0x0c400000000000000000000000000000000#137 = .ok (.tsReadFirst) := by decide +kernel
theorem test_decode_tsDecompress : decodeWord 0x0c600000000000000000000000000000000#137 = .ok (.tsDecompress) := by decide +kernel

/-! Stream code words, bit by bit. -/

/-- R97: the header of program P1, 00 00 01 5D 3E F7 98 00. -/
theorem test_decode_header :
    decode .header (bits 64 0x0000015D3EF79800) = .ok (.header 1500000000000#64, 64) := by decide +kernel
/-- R98: the delta 10 of program P2. -/
theorem test_decode_firstDelta :
    decode .firstDelta (bits 27 0b000000000000000000000001010 ++ [true]) = .ok (.firstDelta 10#27, 27) := by
  decide +kernel
/-- R105: 27 ones. -/
theorem test_decode_emptyMarker :
    decode .firstDelta (List.replicate 36 true) = .ok (.emptyMarker, 27) := by decide +kernel
/-- R98: the value 1.0 of program P2. -/
theorem test_decode_firstValue :
    decode .firstValue (bits 64 0x3FF0000000000000) = .ok (.firstValue 0x3FF0000000000000#64, 64) := by
  decide +kernel
/-- R99: `0`. -/
theorem test_decode_tsZero : decode .timestamp [false, true] = .ok (.tsZero, 1) := by decide +kernel
/-- V-TS-1: dod 48 is `10` `1011111`. -/
theorem test_decode_ts7 : decode .timestamp (bits 9 0b101011111) = .ok (.ts7 95#7, 9) := by decide +kernel
/-- V-TS-1: dod -256 is `110` `111111110`. -/
theorem test_decode_ts9 : decode .timestamp (bits 12 0b110111111110) = .ok (.ts9 510#9, 12) := by decide +kernel
/-- V-TS-1: dod 257 is `1110` `001000000001`. -/
theorem test_decode_ts12 : decode .timestamp (bits 16 0b1110001000000001) = .ok (.ts12 513#12, 16) := by
  decide +kernel
/-- V-TS-1: dod -2049 is `1111` and 4096 in 32 bits. -/
theorem test_decode_ts32 : decode .timestamp (bits 36 0xF00001000) = .ok (.ts32 4096#32, 36) := by
  decide +kernel
/-- R105: `1111` and 32 ones. -/
theorem test_decode_tsSentinel : decode .timestamp (bits 37 0x1FFFFFFFFE) = .ok (.tsSentinel, 36) := by
  decide +kernel
/-- R101: `0`. -/
theorem test_decode_valSame : decode (.value 8) [false] = .ok (.valSame, 1) := by decide +kernel
/-- V-VAL-14: `10` `00001111` under a window of 8 bits. -/
theorem test_decode_valReuse : decode (.value 8) (bits 10 0b1000001111) = .ok (.valReuse 8 15#64, 10) := by
  decide +kernel
/-- V-VAL-13: `11` `001000` `000111` `11111111`. -/
theorem test_decode_valNew :
    decode (.value 0) (bits 22 0b1100100000011111111111) = .ok (.valNew 8#6 7#6 255#64, 22) := by decide +kernel
/-- V-VAL-19: `11` `100000` `111111` is an impossible NEW word, with no tail. -/
theorem test_decode_valNew_impossible :
    decode (.value 0) (bits 16 0b1110000011111101) = .ok (.valNew 32#6 63#6 0#64, 14) := by decide +kernel
/-- R103: 36 ones and a 0. -/
theorem test_decode_terminator : decode .trailer (bits 37 0x1FFFFFFFFE) = .ok (.terminator, 37) := by
  decide +kernel
/-- R104: zeros. -/
theorem test_decode_padding : decode .trailer (List.replicate 3 false) = .ok (.padding 3, 3) := by decide +kernel

/-- R109: -2.0 is 0xC000000000000000 (P3), -1 is all ones. -/
theorem test_assemble_values :
    assemble (.addF64 20 true 1024#11 0#52) = .addValue 20#64 0xC000000000000000#64 ∧
    assemble (.addI64 20 (-1)) = .addValue 20#64 0xFFFFFFFFFFFFFFFF#64 := by decide +kernel

/-! One step each. -/

/-- V-SINK-1. -/
theorem test_writeBit : seenE (.writeBit true) (atE unbounded (sinkOf unbounded [])) = some (0, 0x80#64, 1, .none) := by
  decide +kernel
/-- V-SINK-10, second write. -/
theorem test_writeBit_full :
    seenE (.writeBit true) (atE (capped 1) (sinkOf (capped 1) (bits 8 0x95))) = some (1, 0#64, 0, .capacity) := by
  decide +kernel
/-- V-SINK-2. -/
theorem test_skipBit : seenE .skipBit (atE unbounded (sinkOf unbounded [true])) = some (0, 0x80#64, 2, .none) := by
  decide +kernel
/-- V-SINK-3. -/
theorem test_writeBits :
    seenE (.writeBits 0x2B#64 7#8) (atE unbounded (sinkOf unbounded [true, false])) = some (1, 0x80#64, 1, .none) ∧
    bitsE (.writeBits 0x2B#64 7#8) (atE unbounded (sinkOf unbounded [true, false])) = some (bits 9 0b100101011) := by
  decide +kernel
/-- V-SINK-9. -/
theorem test_writeBits_full :
    seenE (.writeBits 3#64 2#8) (atE (capped 1) (sinkOf (capped 1) (bits 7 0b1001010))) =
      some (0, 0x94#64, 7, .capacity) := by decide +kernel
/-- V-SINK-4. -/
theorem test_flush :
    bitsE .flush (atE unbounded (sinkOf unbounded (bits 9 0b100101011))) = some (bits 16 0b1001010110000000) := by
  decide +kernel
/-- V-SINK-5: the second FLUSH. -/
theorem test_flush_again :
    seenE .flush (atE unbounded (sinkOf unbounded (bits 16 0x9580))) = some (2, 0#64, 0, .none) := by decide +kernel
/-- V-SRC-1. -/
theorem test_readBit : seenD .readBit (atD unbounded (sourceOf (bits 16 0x9580))) = some (.word 1#64, 1, .none) := by
  decide +kernel
/-- V-SRC-7. -/
theorem test_readBit_exhausted :
    seenD .readBit (atD unbounded { sourceOf (bits 16 0x9580) with rPos := 16 }) =
      some (.nothing, 16, .sourceExhausted) := by decide +kernel
/-- V-SRC-3. -/
theorem test_readBits :
    seenD (.readBits 7#8) (atD unbounded { sourceOf (bits 16 0x9580) with rPos := 2 }) =
      some (.word 0x2B#64, 9, .none) := by decide +kernel
/-- V-SRC-5. -/
theorem test_readBits_exhausted :
    seenD (.readBits 8#8) (atD unbounded { sourceOf (bits 16 0x9580) with rPos := 9 }) =
      some (.nothing, 9, .sourceExhausted) := by decide +kernel
/-- V-SRC-9, third scan. -/
theorem test_readRunOfOnes :
    seenD (.readRunOfOnes 4#8) (atD unbounded { sourceOf (bits 16 0xFB80) with rPos := 6 }) =
      some (.word 3#64, 10, .none) := by decide +kernel
/-- V-SRC-11. -/
theorem test_readRunOfOnes_exhausted :
    seenD (.readRunOfOnes 4#8) (atD unbounded { sourceOf (bits 8 0xFF) with rPos := 5 }) =
      some (.nothing, 8, .sourceExhausted) := by decide +kernel
/-- V-PRED-6: 1000 entries become 1024. -/
theorem test_predInit :
    (nextState (exec (.predInit .D .dfcm 1000#64) (State.resetWith (capped 1)))).map (fun t => t.d.ses.pred.size) =
      some 1024 := by decide +kernel
/-- V-PRED-7: 1025 entries do not fit 1024. -/
theorem test_predInit_config :
    (nextState (exec (.predInit .E .dfcm 1025#64) (State.resetWith (capped 1)))).map (fun t => t.e.fault) =
      some .config := by decide +kernel
/-- V-PRED-11. -/
theorem test_predUpdate :
    (nextState (exec (.predUpdate .E 0x60#64) ((State.resetWith unbounded).setPred .E
      { freshPred .dfcm 4#64 with lastValue := 0x64#64 }))).map
        (fun t => (t.e.ses.pred.table.read 0, t.e.ses.pred.hash, t.e.ses.pred.lastValue)) =
      some (0xFFFFFFFFFFFFFFFC#64, 3, 0x60#64) := by decide +kernel
/-- R168, step 2. -/
theorem test_predPredict :
    seenD (.predPredict .D) ((State.resetWith unbounded).setPred .D
      (predUpdate 0x3FF0000000000000#64 (freshPred .dfcm 4#64))) =
      some (.word 0x7FE0000000000000#64, 0, .none) := by decide +kernel
/-- R181. -/
theorem test_valWriteFirst :
    bitsE (.valWriteFirst 0x3FF0000000000000#64) (atE unbounded (sinkOf unbounded [])) =
      some (bits 64 0x3FF0000000000000) := by decide +kernel
/-- V-VAL-14, REUSE. -/
theorem test_valCompress_reuse :
    bitsE (.valCompress 0x00F0000000000000#64) (atE unbounded { sinkOf unbounded [] with
      ses := sesOf 0#64 0#64 8 48 0x00FF000000000000#64 }) = some (bits 10 0b1000001111) := by decide +kernel
/-- V-VAL-10, NEW because it fits on one side only. -/
theorem test_valCompress_new :
    bitsE (.valCompress 0x3FF0000000000002#64) (atE unbounded { sinkOf unbounded [] with
      ses := sesOf 0#64 0#64 62 1 0x3FF0000000000003#64 }) = some (bits 15 0b111111110000001) := by decide +kernel
/-- R183. -/
theorem test_valReadFirst :
    seenD .valReadFirst (atD unbounded (sourceOf (bits 64 0x3FF0000000000000))) =
      some (.word 0x3FF0000000000000#64, 64, .none) := by decide +kernel
/-- V-VAL-20: the widest legal window edge. -/
theorem test_valDecompress_new :
    seenD .valDecompress (atD unbounded { sourceOf (bits 46 0b1110000001111110000000000000000000000000000001) with
      ses := sesNW 0#64 0#64 0x3FF0000000000000#64 }) = some (.word 0x3FF0000080000001#64, 46, .none) := by
  decide +kernel
/-- V-VAL-18: REUSE before any window. -/
theorem test_valDecompress_malformed :
    seenD .valDecompress (atD unbounded { sourceOf (bits 8 0x80) with ses := sesNW 0#64 0#64 0#64 }) =
      some (.nothing, 2, .malformed) := by decide +kernel
/-- V-TS-2: the largest legal first delta. -/
theorem test_tsWriteFirst :
    bitsE (.tsWriteFirst 1500134217726#64) (atE unbounded { sinkOf unbounded [] with ses := sesT }) =
      some (bits 27 0b111111111111111111111111110) := by decide +kernel
/-- V-TS-2: the marker's value. -/
theorem test_tsWriteFirst_range :
    seenE (.tsWriteFirst 1500134217727#64) (atE unbounded { sinkOf unbounded [] with ses := sesT }) =
      some (0, 0#64, 0, .firstDeltaRange) := by decide +kernel
/-- V-TS-1: dod -257. -/
theorem test_tsCompress :
    bitsE (.tsCompress (BitVec.ofInt 64 (-257))) (atE unbounded (sinkOf unbounded [])) =
      some (bits 16 0b1110001000000000) := by decide +kernel
/-- V-TS-1: dod 2^31. -/
theorem test_tsCompress_range :
    seenE (.tsCompress 2147483648#64) (atE unbounded (sinkOf unbounded [])) = some (0, 0#64, 0, .dodRange) := by
  decide +kernel
/-- R204. -/
theorem test_tsReadFirst :
    seenD .tsReadFirst (atD unbounded { sourceOf (bits 27 0b1010) with ses := sesT }) =
      some (.flagged false 1500000000010#64, 27, .none) := by decide +kernel
/-- V-TS-2: the empty marker. -/
theorem test_tsReadFirst_empty :
    seenD .tsReadFirst (atD unbounded { sourceOf (bits 27 0x7FFFFFF) with ses := sesT }) =
      some (.flagged true 0#64, 27, .none) := by decide +kernel
/-- V-TS-4 (b): a payload in a class it does not need. -/
theorem test_tsDecompress :
    seenD .tsDecompress (atD unbounded (sourceOf (bits 12 0b110000000101))) =
      some (.flagged false 3#64, 12, .none) := by decide +kernel
/-- V-TS-4 (e): the source ends after the prefix. -/
theorem test_tsDecompress_exhausted :
    seenD .tsDecompress (atD unbounded (sourceOf (bits 32 0xF0000000))) =
      some (.nothing, 4, .sourceExhausted) := by decide +kernel
/-- R222. -/
theorem test_cInit :
    (nextState (exec (.cInit .last 1500000000000#64 0#64) State.reset)).map
      (fun t => (t.e.smE.map Prod.snd, t.e.wUnit, t.e.accFill, t.e.phase, t.respE)) =
      some (bytes 8 0x0000015D3EF79800, 8, 0, .ready, some okResponse) := by decide +kernel
/-- V-FAULT-3. -/
theorem test_cInit_config :
    (nextState (exec (.cInit .dfcm 1500000000000#64 0#64) State.reset)).map
      (fun t => (t.e.wPos t.params, t.e.phase, t.respE)) =
      some (0, .idle, some (plainResponse .fault .config)) := by decide +kernel
/-- R223. -/
theorem test_addValue :
    (nextState (exec (.addValue 1500000000010#64 0x3FF0000000000000#64)
      (atE unbounded { sinkOf unbounded (bits 64 1500000000000) with ses := sesT, phase := .ready }))).map
      (fun t => (t.e.wPos t.params, t.e.phase, t.e.ses.storedTimestamp, t.e.ses.pred.lastValue)) =
      some (155, .afterFirst, 1500000000010#64, 0x3FF0000000000000#64) := by decide +kernel
/-- P3, sample 3: `10` `0000010`, then `11` `001101` `000000` `1`. -/
theorem test_addValue_later :
    bitsE (.addValue 1500000000028#64 0xC004000000000000#64) (atE unbounded { sinkOf unbounded [] with
      phase := .streaming, ses := sesOf 1500000000020#64 10#64 0 52 0xC000000000000000#64 }) =
      some (bits 24 0b100000010110011010000001) := by decide +kernel
/-- P1: the empty block. -/
theorem test_close :
    (nextState (exec .close (atE unbounded { sinkOf unbounded (bits 64 1500000000000) with
      ses := sesT, phase := .ready }))).map (fun t => (t.e.smE.map Prod.snd, t.e.wUnit, t.e.phase)) =
      some (bytes 13 0x0000015d3ef79800fffffffff0, 13, .closed) := by decide +kernel
/-- V-FAULT-1: the sink ends inside the terminator. -/
theorem test_close_full :
    (nextState (exec .close (atE (capped 24) { sinkOf (capped 24) (List.replicate 157 false) with
      phase := .streaming }))).map (fun t => (t.e.wUnit, t.e.acc, t.e.accFill, t.e.fault, t.e.phase)) =
      some (20, 0x80#64, 1, .capacity, .streaming) := by decide +kernel
/-- R225. -/
theorem test_dInit :
    (nextState (exec (.dInit .last 24#64 0#64) (atD unbounded
      (sourceOf (bits 192 0x0000015d3ef7980000000147fe0000000000001ffffffffe))))).map
      (fun t => (t.d.ses.blockTimestamp, t.d.rPos, t.d.phase)) = some (1500000000000#64, 64, .ready) := by
  decide +kernel
/-- V-FAULT-5, 7 units. -/
theorem test_dInit_exhausted :
    (nextState (exec (.dInit .last 7#64 0#64) (atD unbounded (sourceOf (bits 64 0x0000015d3ef79800))))).map
      (fun t => (t.d.rPos, t.d.phase, t.respD)) =
      some (0, .idle, some (plainResponse .fault .sourceExhausted)) := by decide +kernel
/-- P2, the first READ. -/
theorem test_readPair :
    (nextState (exec .readPair (atD unbounded
      { sourceOf (bits 192 0x0000015d3ef7980000000147fe0000000000001ffffffffe) with
        rPos := 64, phase := .ready, ses := sesT }))).map (fun t => (t.respD, t.d.rPos, t.d.phase)) =
      some (some (pairOk 1500000000010#64 0x3FF0000000000000#64), 155, .afterFirst) := by decide +kernel
/-- V-FAULT-6 (a): the timestamp half is done, the value half is malformed. -/
theorem test_readPair_malformed :
    (nextState (exec .readPair (atD unbounded { sourceOf (bits 8 0b01000000) with
      phase := .afterFirst, ses := sesNW 1500000000010#64 10#64 0x3FF0000000000000#64 }))).map
      (fun t => (t.respD, t.d.rPos, t.d.ses.storedTimestamp, t.d.phase)) =
      some (some (plainResponse .fault .malformed), 3, 1500000000020#64, .afterFirst) := by decide +kernel

/-- P1: the origin. -/
theorem test_header :
    (nextState (exec (.header 1500000000000#64) (atD unbounded (sourceOf (bits 64 1500000000000))))).map
      (fun t => (t.d.ses.blockTimestamp, t.d.rPos, t.d.phase)) = some (1500000000000#64, 64, .ready) := by
  decide +kernel
/-- R204's example. -/
theorem test_firstDelta :
    seenD (.firstDelta 10#27) (atD unbounded { sourceOf (bits 27 10) with ses := sesT }) =
      some (.flagged false 1500000000010#64, 27, .none) := by decide +kernel
/-- P1: the marker ends the block. -/
theorem test_emptyMarker :
    (nextState (exec .emptyMarker (atD unbounded (sourceOf (bits 27 0x7FFFFFF))))).map
      (fun t => (t.d.rPos, t.d.phase)) = some (27, .exhausted) := by decide +kernel
/-- P2. -/
theorem test_firstValue :
    seenD (.firstValue 0x3FF0000000000000#64) (atD unbounded (sourceOf (bits 64 0x3FF0000000000000))) =
      some (.word 0x3FF0000000000000#64, 64, .none) := by decide +kernel
/-- P3, sample 2. -/
theorem test_tsZero :
    seenD .tsZero (atD unbounded { sourceOf [false] with ses := sesNW 1500000000010#64 10#64 0#64 }) =
      some (.flagged false 1500000000020#64, 1, .none) := by decide +kernel
/-- V-TS-4 (a): an all-ones payload outside the 32-bit class is a value, dod 64. -/
theorem test_ts7 :
    seenD (.ts7 127#7) (atD unbounded (sourceOf (bits 9 0b101111111))) = some (.flagged false 64#64, 9, .none) := by
  decide +kernel
/-- V-TS-1: dod -256. -/
theorem test_ts9 :
    seenD (.ts9 510#9) (atD unbounded (sourceOf (bits 12 0b110111111110))) =
      some (.flagged false (BitVec.ofInt 64 (-256)), 12, .none) := by decide +kernel
/-- V-TS-1: dod 2048. -/
theorem test_ts12 :
    seenD (.ts12 4095#12) (atD unbounded (sourceOf (bits 16 0b1110111111111111))) =
      some (.flagged false 2048#64, 16, .none) := by decide +kernel
/-- V-TS-4 (d): dod -2^31. -/
theorem test_ts32 :
    seenD (.ts32 0xFFFFFFFE#32) (atD unbounded (sourceOf (bits 36 0xFFFFFFFFE))) =
      some (.flagged false (BitVec.ofInt 64 (-2147483648)), 36, .none) := by decide +kernel
/-- V-TS-4 (c). -/
theorem test_tsSentinel :
    seenD .tsSentinel (atD unbounded (sourceOf (bits 36 0xFFFFFFFFF))) = some (.flagged true 0#64, 36, .none) := by
  decide +kernel
/-- V-VAL-23. -/
theorem test_valSame :
    seenD .valSame (atD unbounded { sourceOf [false] with ses := sesNW 0#64 0#64 0x3FF0000000000000#64 }) =
      some (.word 0x3FF0000000000000#64, 1, .none) := by decide +kernel
/-- V-VAL-21: a residual of 0 by REUSE. -/
theorem test_valReuse :
    seenD (.valReuse 4 0#64) (atD unbounded { sourceOf (bits 6 0b100000) with
      ses := sesOf 0#64 0#64 12 48 0x3FF0000000000000#64 }) = some (.word 0x3FF0000000000000#64, 6, .none) := by
  decide +kernel
/-- V-VAL-22. -/
theorem test_valNew :
    seenD (.valNew 12#6 3#6 9#64) (atD unbounded { sourceOf (bits 18 0b110011000000111001) with
      ses := sesNW 0#64 0#64 0x3FF0000000000000#64 }) = some (.word 0x3FF9000000000000#64, 18, .none) := by
  decide +kernel
/-- L1-3: the terminator's bits. -/
theorem test_terminator :
    bitsE .terminator (atE unbounded (sinkOf unbounded [])) = some (bits 37 0x1FFFFFFFFE) := by decide +kernel
/-- P1: three zeros bring 101 bits to 104, as FLUSH does. -/
theorem test_padding :
    seenE (.padding 3) (atE unbounded (sinkOf unbounded (bits 5 0b11110))) = some (1, 0#64, 0, .none) := by
  decide +kernel

/-! Every statement with hypotheses is about something: concrete states and operands that meet them, one for each
clause, at the boundary where there is one. -/

/-- Engine E with 155 zero bits in a sink of 24 units, in the middle of a session. -/
def mid : EngineE :=
  { sinkOf (capped 24) (List.replicate 155 false) with
    phase := .streaming, ses := sesOf 1500000000020#64 10#64 0 52 0xC000000000000000#64 }

/-- Engine D before the 47 ones and the rest of a source of 16 bytes, in the middle of a session. -/
def ones : EngineD :=
  { sourceOf (List.replicate 127 true) with
    phase := .streaming, ses := sesOf 1500000000020#64 10#64 0 52 0xC000000000000000#64 }

theorem witness_DecodeEncodeAgree :
    (Instr.valNew 32#6 31#6 0x80000001#64).wf = true ∧ (Instr.valNew 32#6 31#6 0x80000001#64).space ≠ .trailer ∧
    (Instr.padding 63).wf = true ∧ (Instr.valNew 63#6 63#6 0#64).wf = true := by decide +kernel

theorem witness_EncodeDecodeAgree :
    decode (.value 64) (true :: false :: List.replicate 64 true) =
      .ok (.valReuse 64 0xFFFFFFFFFFFFFFFF#64, 66) ∧ 64 ≤ 64 := by decide +kernel

theorem witness_IllegalOpRefused :
    (packWord 0x22#8 false 0#64 0#64).extractLsb' 129 8 ∉ [0x01#8, 0x02#8, 0x03#8] ∧
    (packWord 0x01#8 false 0#64 0#64).extractLsb' 129 8 ∉ [0x11#8, 0x12#8] ∧
    (0x02#8 : Byte) ≠ 0x01#8 ∧ (0x02#8 : Byte) ≠ 0x11#8 := by decide +kernel

theorem witness_StepRunsTheDecodedInstruction :
    (decodeWord (packWord 0x02#8 false 5#64 7#64) = .ok (.addValue 5#64 7#64) ∧
      (Instr.addValue 5#64 7#64).port = some .E) ∧
    (decodeWord (packWord 0x30#8 false 0#64 0#64) = .ok .readBit ∧ Instr.readBit.port = none) ∧
    decode (spaceNow .timestamp ones) (upcoming unbounded ones) = .ok (.tsSentinel, 36) ∧
    decode .trailer terminatorBits = .ok (.terminator, 37) := by decide +kernel

theorem witness_HostEventsAct :
    (let s := atD unbounded ones
     s.d.phase = .streaming ∧ s.d.fault = .none ∧ [0#8] ≠ ([] : List Byte) ∧
      15 < s.d.srcLenUnits * s.params.unit.bytes ∧ ¬ 16 < s.d.srcLenUnits * s.params.unit.bytes) ∧
    (State.resetWith unbounded).input = [] := by decide +kernel

theorem witness_EveryInstructionAnswersNext : SinkInv (capped 24) mid ∧ 0 < mid.accFill := by decide +kernel

theorem witness_ResetGivesEveryRegister :
    ((atE (capped 24) mid).withRequest .reset).input = [.reset] := by decide +kernel

theorem witness_StepKeepsInvariants :
    Inv ((atE (capped 24) mid).withRequest (.micro (packWord 0x23#8 false 0#64 0#64))) ∧
    (nextState (step ((atE (capped 24) mid).withRequest (.micro (packWord 0x23#8 false 0#64 0#64))))).isSome =
      true := by decide +kernel

/-- A READY session of engine E about to run ADD_VALUE. -/
def readyToAdd : State :=
  (atE unbounded { sinkOf unbounded (bits 64 1500000000000) with ses := sesT, phase := .ready }).withRequest
    (.command .E (packWord 0x02#8 false 1500000000010#64 7#64))

/-- Two later samples: a NEW word that announces the window (0, 52), then a REUSE word of 12 bits in it. -/
def twoSamples : List (Instr × Instr) := [(.tsZero, .valNew 0#6 11#6 0xFFF#64), (.ts7 2#7, .valReuse 12 8#64)]

/-- A STREAMING session of engine E after a first sample and `twoSamples`, about to run CLOSE. -/
def readyToClose : State :=
  (atE unbounded
    { sinkOf unbounded (blockBits 1500000000000#64 10#27 0x3FF0000000000000#64 twoSamples) with
      ses := sesOf 1500000000028#64 8#64 0 52 0xC080000000000000#64, phase := .streaming }).withRequest
    (.command .E (packWord 0x03#8 false 0#64 0#64))

theorem witness_HostStepsKeepTheGrammar :
    (Inv readyToAdd ∧ PhaseInv readyToAdd ∧ GrammarInv readyToAdd ∧
      (nextState (step readyToAdd)).isSome = true) ∧
    Inv readyToClose ∧ PhaseInv readyToClose ∧ GrammarInv readyToClose ∧
      (nextState (step readyToClose)).isSome = true := by
  refine ⟨⟨by decide +kernel, by unfold PhaseInv; decide +kernel, fun _ => ?_, by decide +kernel⟩,
    by decide +kernel, by unfold PhaseInv; decide +kernel, fun _ => ?_, by decide +kernel⟩
  · show _ ∧ readyToAdd.e.bits readyToAdd.params = encodeStream (.header readyToAdd.e.ses.blockTimestamp)
    exact ⟨⟨rfl, rfl⟩, by decide +kernel⟩
  · refine ⟨10#27, 0x3FF0000000000000#64, twoSamples, by decide, by decide, ?_, ⟨rfl, rfl⟩, by decide +kernel⟩
    simp only [samplesWf, twoSamples]
    decide +kernel

/-- A sink whose last unit lacks one bit, and one that is full. -/
theorem witness_WriteBitAppendsOneBit :
    (let e := sinkOf (capped 1) (List.replicate 7 true)
     e.accOpen (capped 1) ∧ e.room (capped 1) 1) ∧
    (let e := sinkOf (capped 1) (List.replicate 8 true)
     e.accOpen (capped 1) ∧ ¬ e.room (capped 1) 1) := by decide +kernel

theorem witness_WriteBitsAppendsItsField :
    mid.accOpen (capped 24) ∧ mid.room (capped 24) (37#8 : Byte).toNat ∧ ¬ mid.room (capped 24) (38#8 : Byte).toNat ∧
    64 < (65#8 : Byte).toNat := by decide +kernel

theorem witness_FlushPadsToTheBoundary :
    SinkInv (capped 24) mid ∧ (nextState (exec .flush (atE (capped 24) mid))).isSome = true := by decide +kernel

theorem witness_TrailerWordsAppend :
    mid.accOpen (capped 24) ∧ mid.room (capped 24) 37 ∧ SinkInv (capped 24) mid := by decide +kernel

/-- V-FAULT-1 (the terminator cut after its first field) and V-FAULT-2 (the first value) among them. -/
theorem witness_CapacityKeepsWhatFitted :
    (mid.accOpen (capped 24) ∧ mid.room (capped 24) 0 ∧ ¬ mid.room (capped 24) 64 ∧ mid.fault = .none ∧
      mid.phase = .streaming ∧
      dodInRange (1500000000030#64 - mid.ses.storedTimestamp - mid.ses.storedDelta) = true ∧
      mid.room (capped 24) (encodeStream (dodWord 0)).length ∧
      ¬ mid.room (capped 24) (sampleBits (dodWord 0,
        residualWord mid.ses (predPredict mid.ses.pred ^^^ 0x3FF0000000000001#64))).length) ∧
    ¬ mid.room (capped 24)
      (encodeStream (residualWord mid.ses (predPredict mid.ses.pred ^^^ 0x3FF0000000000001#64))).length ∧
    (let e := { sinkOf (capped 24) (List.replicate 157 false) with phase := .streaming }
     e.accOpen (capped 24) ∧ e.room (capped 24) 0 ∧ ¬ e.room (capped 24) 37 ∧ e.fault = .none ∧
       e.phase.live = true ∧ e.room (capped 24) 4 ∧ ¬ e.room (capped 24) 36) ∧
    (let e := { sinkOf (capped 24) (List.replicate 160 false) with phase := .streaming }
     ¬ e.room (capped 24) 33 ∧
       dodInRange (2147483647#64 - e.ses.storedTimestamp - e.ses.storedDelta) = true ∧
       ¬ e.room (capped 24) (encodeStream (dodWord 2147483647)).length) ∧
    (let e := { sinkOf (capped 19) (List.replicate 64 false) with phase := .ready }
     firstDeltaInRange (134217726#64 - e.ses.blockTimestamp) = true ∧ e.accOpen (capped 19) ∧ e.room (capped 19) 0 ∧
       e.fault = .none ∧ e.room (capped 19) 27 ∧ ¬ e.room (capped 19) 91) ∧
    (let e := { sinkOf (capped 24) (List.replicate 166 false) with phase := .ready }
     e.accOpen (capped 24) ∧ e.room (capped 24) 0 ∧ ¬ e.room (capped 24) 27) := by decide +kernel

theorem witness_AppendedBitsAreFinal :
    mid.accOpen (capped 24) ∧ (nextState (exec (.valCompress 5#64) (atE (capped 24) mid))).isSome = true := by
  decide +kernel

theorem witness_UnitsAreBigEndianBytes : 151 < mid.wUnit * (capped 24).unit.bits ∧ mid.wUnit ≤ 19 := by
  decide +kernel

theorem witness_ReadBitsReturnsTheNextBits :
    ones.available unbounded 1 ∧ ¬ ({ ones with rPos := 128 } : EngineD).available unbounded 1 ∧
    ones.available unbounded (64#8 : Byte).toNat ∧
    ¬ ({ ones with rPos := 65 } : EngineD).available unbounded (64#8 : Byte).toNat := by decide +kernel

theorem witness_ReadRunOfOnesScans :
    (let c := fun (d : EngineD) (m : Nat) =>
       (((d.next unbounded (min m (d.srcLenBits unbounded - d.rPos))).takeWhile fun b => b).length,
         min m (d.srcLenBits unbounded - d.rPos))
     c { ones with rPos := 124 } 4 = (3, 4) ∧ c { ones with rPos := 123 } 4 = (4, 4) ∧
     c { sourceOf (bits 8 0xFF) with rPos := 5 } 4 = (3, 3)) ∧
    ({ ones with rPos := 128 } : EngineD).rPos ≤ ones.srcLenBits unbounded := by decide +kernel

theorem witness_ReadBitsSplits : 63 + 1 ≤ 64 ∧ ({ ones with rPos := 64 } : EngineD).available unbounded (63 + 1) := by
  decide +kernel

theorem witness_SourceIsReadOnce :
    (nextState (exec .valDecompress (atD unbounded ones))).isSome = true ∧ ones.rPos ≤ ones.srcLenBits unbounded := by
  decide +kernel

theorem witness_PredictorStartsAndPredicts :
    predAccepted (capped 1) .dfcm 1024#64 = true ∧ predAccepted (capped 1) .dfcm 1025#64 = false ∧
    predAccepted (capped 1) .dfcm 0#64 = false ∧
    ((State.resetWith (capped 1)).predOf .E).kind = .last ∧
    (((State.resetWith (capped 1)).setPred .D (freshPred .dfcm 4#64)).predOf .D).kind = .dfcm := by decide +kernel

theorem witness_PredictorRecords :
    PredInv (capped 1) (((State.resetWith (capped 1)).setPred .D (freshPred .dfcm 4#64)).predOf .D) ∧
    PredInv (capped 1) ((State.resetWith (capped 1)).predOf .E) := by decide +kernel

theorem witness_NextPowerIsTheSmallest : 1 ≤ 1025 ∧ 1025 ≤ 2 ^ 11 := by decide +kernel

theorem witness_ZigzagMapsAndInverts :
    0 ≤ (0x7FFFFFFFFFFFFFFF#64 : W64).toInt ∧ (0x8000000000000000#64 : W64).toInt < 0 := by decide +kernel

theorem witness_DodPayloadIsFaithful :
    dodInRange (BitVec.ofInt 64 (-2147483648)) = true ∧ dodInRange 2147483647#64 = true ∧
    (2147483647#64 : W64) ≠ 0#64 := by decide +kernel

theorem witness_FirstTimestampIsWritten :
    (let e := { sinkOf (capped 24) (List.replicate 165 false) with ses := sesT }
     e.accOpen (capped 24) ∧ (1500134217726#64 - e.ses.blockTimestamp).toInt = 134217726 ∧ e.room (capped 24) 27 ∧
       (1500134217727#64 - e.ses.blockTimestamp).toInt = 134217727 ∧
       (1499999999999#64 - e.ses.blockTimestamp).toInt = -1) := by decide +kernel

theorem witness_TimestampCodeByClass :
    (let e := sinkOf (capped 24) (List.replicate 156 false)
     e.accOpen (capped 24) ∧ (2147483647#64 - e.ses.storedTimestamp - e.ses.storedDelta).toInt = 2147483647 ∧
       e.room (capped 24) (encodeStream (dodWord 2147483647)).length ∧
       (2147483648#64 - e.ses.storedTimestamp - e.ses.storedDelta).toInt = 2147483648) := by decide +kernel

theorem witness_FirstTimestampIsRead :
    ({ ones with rPos := 101 } : EngineD).available unbounded 27 ∧
    ¬ ({ ones with rPos := 102 } : EngineD).available unbounded 27 := by decide +kernel

theorem witness_TimestampWordsAdvance :
    (Instr.ts32 0xFFFFFFFE#32).isTimestampCode = true ∧ (Instr.ts32 0xFFFFFFFE#32).wf = true ∧
    ({ ones with rPos := 92 } : EngineD).available unbounded (encodeStream (.ts32 0xFFFFFFFE#32)).length ∧
    ones.available unbounded 36 := by decide +kernel

theorem witness_TimestampIsDecoded :
    (let w := Instr.ts9 5#9
     let d := sourceOf (bits 12 0b110000000101)
     w.isTimestampCode = true ∧ w.wf = true ∧ d.available unbounded (encodeStream w).length ∧
       d.next unbounded (encodeStream w).length = encodeStream w) ∧
    ones.available unbounded 36 ∧ ones.next unbounded 36 = List.replicate 36 true := by decide +kernel

/-- Both engines with the registers of the vectors' third sample, the sink empty, and a source for engine D. -/
def both (ses : Session) (source : List Bool) : State :=
  { State.resetWith unbounded with e := { EngineE.reset with ses := ses }, d := { sourceOf source with ses := ses } }

/-- P3, sample 3: dod -2 is `10` `0000010`. -/
theorem witness_TimestampsRoundTrip :
    (let s := both (sesOf 1500000000020#64 10#64 0 52 0xC000000000000000#64) (bits 9 0b100000010)
     (nextState (exec (.tsCompress 1500000000028#64) s)).map (fun t => (t.e.fault, t.e.bits unbounded)) =
       some (.none, s.e.bits unbounded ++ bits 9 0b100000010) ∧ s.e.accOpen unbounded ∧
       s.d.available unbounded 9 ∧ s.d.next unbounded 9 = bits 9 0b100000010) ∧
    (let s := both sesT (bits 27 10)
     (nextState (exec (.tsWriteFirst 1500000000010#64) s)).map (fun t => (t.e.fault, t.e.bits unbounded)) =
       some (.none, s.e.bits unbounded ++ bits 27 10) ∧ s.e.accOpen unbounded ∧
       s.d.available unbounded 27 ∧ s.d.next unbounded 27 = bits 27 10) := by decide +kernel

theorem witness_FirstValueIsRaw :
    (let e := sinkOf (capped 24) (List.replicate 128 false)
     e.accOpen (capped 24) ∧ e.room (capped 24) 64) ∧
    ({ ones with rPos := 64 } : EngineD).available unbounded 64 ∧
    ¬ ({ ones with rPos := 65 } : EngineD).available unbounded 64 := by decide +kernel

theorem witness_ValueCodeBySelection :
    mid.accOpen (capped 24) ∧
    mid.room (capped 24)
      (encodeStream (residualWord mid.ses (predPredict mid.ses.pred ^^^ 0xC004000000000000#64))).length := by
  decide +kernel

theorem witness_ValueWordsRecord :
    (Instr.valSame.isValueCode = true ∧ Instr.valSame.wf = true ∧ wordLegal ones.ses .valSame = true) ∧
    (let w := Instr.valReuse 12 0xFFF#64
     w.isValueCode = true ∧ w.wf = true ∧ wordLegal ones.ses w = true) ∧
    (let w := Instr.valNew 32#6 31#6 0x80000001#64
     w.isValueCode = true ∧ w.wf = true ∧ wordLegal ones.ses w = true ∧
       ones.available unbounded (encodeStream w).length) := by decide +kernel

theorem witness_ValueIsDecoded :
    (let w := Instr.valReuse 12 0xFFF#64
     let d := { sourceOf (bits 14 0b10111111111111) with ses := ones.ses }
     wordLegal d.ses w = true ∧ w.wf = true ∧ w.isValueCode = true ∧
       d.available unbounded (encodeStream w).length ∧
       d.next unbounded (encodeStream w).length = encodeStream w) := by decide +kernel

theorem witness_MalformedCodesExactly :
    (let d := { sourceOf (bits 80 0x80000000000000000000) with ses := sesT }
     d.fault = .none ∧ d.available unbounded 78 ∧ streamBit unbounded d 0 = true ∧ streamBit unbounded d 1 = false ∧
       d.ses.storedLeadingZeros = Config.noWindow) ∧
    (let d := { sourceOf (bits 80 0xE0FC0000000000000000) with ses := sesT }
     d.available unbounded 78 ∧ streamBit unbounded d 0 = true ∧ streamBit unbounded d 1 = true ∧
       (ofBits 64 (streamBits unbounded d 2 6)).toNat = 32 ∧
       (ofBits 64 (streamBits unbounded d 8 6)).toNat + 1 = 64) ∧
    (let d := { sourceOf (bits 80 0xE07C0000000000000000) with ses := sesT }
     d.available unbounded 78 ∧ (ofBits 64 (streamBits unbounded d 2 6)).toNat = 32 ∧
       (ofBits 64 (streamBits unbounded d 8 6)).toNat + 1 = 32) := by decide +kernel

theorem witness_IllegalValueWordsAreMalformed :
    (let d := { sourceOf (bits 8 0x80) with ses := sesT }
     d.ses.storedLeadingZeros = Config.noWindow ∧ d.available unbounded 2) ∧
    64 < (32#6 : BitVec 6).toNat + (32#6 : BitVec 6).toNat + 1 ∧ ones.available unbounded 14 := by decide +kernel

/-- V-TS-4 (e) and V-FAULT-5 (`len` = 8, 19, 23) among them: what is left is a front part of a word. -/
theorem witness_CutWordsRaiseSourceExhausted :
    (let d := { ones with rPos := 127 }
     Space.read (Instr.ts7 5#7).space = true ∧ (Instr.ts7 5#7).wf = true ∧ d.rPos ≤ d.srcLenBits unbounded ∧
       ¬ d.available unbounded (encodeStream (.ts7 5#7)).length) ∧
    (let d := { ones with rPos := 114 }
     let w := Instr.valNew 63#6 63#6 0#64
     w.isValueCode = true ∧ w.wf = true ∧ d.available unbounded 14 ∧
       ¬ (d.rPos + 1) + (encodeStream w).length ≤ d.srcLenBits unbounded) ∧
    (let d := { sourceOf (List.replicate 128 true) with phase := .streaming, rPos := 99 }
     Instr.tsSentinel.space = .timestamp ∧ ¬ d.available unbounded (encodeStream .tsSentinel).length ∧
       d.next unbounded (d.srcLenBits unbounded - d.rPos) =
         (encodeStream .tsSentinel).take (d.srcLenBits unbounded - d.rPos) ∧
       d.available unbounded 4 ∧ ¬ d.available unbounded 36) ∧
    (let d := { sourceOf (List.replicate 128 true) with rPos := 115 }
     let w := Instr.valNew 63#6 63#6 0#64
     ¬ d.available unbounded (encodeStream w).length ∧
       d.next unbounded (d.srcLenBits unbounded - d.rPos) =
         (encodeStream w).take (d.srcLenBits unbounded - d.rPos)) ∧
    (let d := { sourceOf (List.replicate 152 false) with phase := .ready, rPos := 64 }
     d.fault = .none ∧ d.available unbounded 27 ∧ ¬ d.available unbounded 91 ∧
       ofBits 64 (d.next unbounded 27) ≠ 134217727#64 ∧ ¬ { d with rPos := 126 }.available unbounded 27) ∧
    (let d := { sourceOf (bits 16 0b0110000000010110) with phase := .streaming }
     let w := Instr.valNew 0#6 11#6 0#64
     d.fault = .none ∧ d.available unbounded 1 ∧ d.next unbounded 1 = encodeStream .tsZero ∧ w.wf = true ∧
       d.next unbounded 16 = (encodeStream .tsZero ++ encodeStream w).take 16 ∧
       ¬ { d with rPos := 1 }.available unbounded (encodeStream w).length) := by decide +kernel

/-- V-VAL-14 and R181: the code words of VAL_COMPRESS and VAL_WRITE_FIRST stand in engine D's source. -/
theorem witness_ValuesRoundTrip :
    (let s := both (sesOf 0#64 0#64 8 48 0x00FF000000000000#64) (bits 10 0b1000001111)
     (nextState (exec (.valCompress 0x00F0000000000000#64) s)).map (fun t => (t.e.fault, t.e.bits unbounded)) =
       some (.none, s.e.bits unbounded ++ bits 10 0b1000001111) ∧ s.e.accOpen unbounded ∧
       s.d.available unbounded 10 ∧ s.d.next unbounded 10 = bits 10 0b1000001111) ∧
    (let s := both sesT (bits 64 0x3FF0000000000000)
     (nextState (exec (.valWriteFirst 0x3FF0000000000000#64) s)).map (fun t => (t.e.fault, t.e.bits unbounded)) =
       some (.none, s.e.bits unbounded ++ bits 64 0x3FF0000000000000) ∧ s.e.accOpen unbounded ∧
       s.d.available unbounded 64 ∧ s.d.next unbounded 64 = bits 64 0x3FF0000000000000) := by decide +kernel

theorem witness_FramingWordsAct :
    ({ ones with rPos := 64 } : EngineD).available unbounded 64 ∧
    ({ ones with rPos := 101 } : EngineD).available unbounded 27 ∧ (134217726#27 : BitVec 27) ≠ BitVec.allOnes 27 := by
  decide +kernel

theorem witness_CInitStartsASession :
    (predAccepted (capped 8) .dfcm 1024#64 = true ∧ (capped 8).overCapacity 64 = false) ∧
    (predAccepted (capped 7) .last 0#64 = true ∧ (capped 7).overCapacity 64 = true) ∧
    predAccepted (capped 8) .dfcm 0#64 = false := by decide +kernel

theorem witness_FirstSampleIsAppended :
    (let e := { sinkOf (capped 20) (List.replicate 64 false) with ses := sesT, phase := .ready }
     e.fault = .none ∧ e.phase = .ready ∧ e.accOpen (capped 20) ∧
       (1500134217726#64 - e.ses.blockTimestamp).toInt = 134217726 ∧ e.room (capped 20) 91) := by decide +kernel

theorem witness_LaterSampleIsAppended :
    mid.fault = .none ∧ mid.phase = .streaming ∧ mid.accOpen (capped 24) ∧
    (let dod := (1500000000028#64 - mid.ses.storedTimestamp - mid.ses.storedDelta).toInt
     dod = -2 ∧ mid.room (capped 24) (sampleBits (dodWord dod,
       residualWord mid.ses (predPredict mid.ses.pred ^^^ 0xC004000000000000#64))).length) := by decide +kernel

theorem witness_RangeFaultsWriteNothing :
    (let e := { sinkOf (capped 24) (List.replicate 64 false) with ses := sesT, phase := .ready }
     e.fault = .none ∧ e.phase = .ready ∧ (1499999999999#64 - e.ses.blockTimestamp).toInt = -1) ∧
    mid.fault = .none ∧ mid.phase = .streaming ∧
    (1502147483678#64 - mid.ses.storedTimestamp - mid.ses.storedDelta).toInt = 2147483648 := by decide +kernel

theorem witness_ConstantSampleTakesTwoBits :
    mid.fault = .none ∧ mid.phase = .streaming ∧ mid.accOpen (capped 24) ∧ mid.room (capped 24) 2 := by decide +kernel

theorem witness_CloseEndsTheBlock :
    mid.fault = .none ∧ mid.phase.live = true ∧ SinkInv (capped 24) mid ∧ mid.room (capped 24) 37 := by decide +kernel

theorem witness_DInitReadsTheHeader :
    (predAccepted (capped 1) .dfcm 1024#64 = true ∧ 64 ≤ (8#64 : W64).toNat * (capped 1).unit.bits) ∧
    (7#64 : W64).toNat * (capped 1).unit.bits < 64 ∧
    predAccepted (capped 1) .dfcm (BitVec.ofInt 64 (-5)) = false := by decide +kernel

theorem witness_ReadPairFirstSample :
    (let d := { sourceOf (bits 92 (10 * 2 ^ 65)) with ses := sesT, phase := .ready }
     d.fault = .none ∧ d.phase = .ready ∧ d.available unbounded 91 ∧
       ofBits 64 (d.next unbounded 27) = 10#64) ∧
    (let d := { sourceOf (List.replicate 27 true) with ses := sesT, phase := .ready }
     d.fault = .none ∧ d.phase = .ready ∧ d.available unbounded 27 ∧
       d.next unbounded 27 = List.replicate 27 true) := by decide +kernel

theorem witness_ReadPairLaterSample :
    (let d := { sourceOf (bits 24 0b100000010110011010000001) with phase := .afterFirst, ses := ones.ses }
     let bs := sampleBits (.ts7 2#7, .valNew 13#6 0#6 1#64)
     d.fault = .none ∧ d.phase = .afterFirst ∧ (Instr.ts7 2#7).wf = true ∧
       (Instr.valNew 13#6 0#6 1#64).wf = true ∧ wordLegal d.ses (.valNew 13#6 0#6 1#64) = true ∧
       d.available unbounded bs.length ∧ d.next unbounded bs.length = bs) ∧
    ones.fault = .none ∧ ones.phase = .streaming ∧ ones.available unbounded 36 ∧
    ones.next unbounded 36 = List.replicate 36 true := by decide +kernel

theorem witness_ReadPairRunsTheCodeWords :
    ones.fault = .none ∧ ones.phase.live = true ∧ ones.rPos ≤ ones.srcLenBits unbounded := by decide +kernel

theorem witness_PhaseTable :
    mid.fault = .none ∧ (nextState (exec (.addValue 1500000000028#64 5#64) (atE (capped 24) mid))).isSome = true ∧
    (nextState (exec (.cInit .last 0#64 0#64) (atE (capped 24) mid))).isSome = true ∧
    (nextState (exec .close (atE (capped 24) mid))).isSome = true ∧ ones.fault = .none ∧
    (nextState (exec (.dInit .last 8#64 0#64) (atD unbounded ones))).isSome = true ∧
    (nextState (exec .readPair (atD unbounded ones))).isSome = true := by decide +kernel

theorem witness_RefusalsChangeNothing :
    ({ mid with fault := .capacity } : EngineE).fault ≠ .none ∧ EngineE.reset.fault = .none ∧
    EngineE.reset.phase = .idle ∧ ({ ones with fault := .malformed } : EngineD).fault ≠ .none ∧
    EngineD.reset.fault = .none ∧ EngineD.reset.phase = .idle := by decide +kernel

theorem witness_FaultEntryAndAnswer :
    Instr.close.port = some .E ∧ (nextState (exec .close (atE (capped 1) mid))).isSome = true ∧
    Instr.readPair.port = some .D ∧ (nextState (exec .readPair (atD unbounded ones))).isSome = true := by
  decide +kernel

theorem witness_EnginesAreIndependent :
    (let s := { atD unbounded ones with e := mid }
     Instr.close.port = some .E ∧ Instr.readPair.port = some .D ∧ (atE unbounded mid).params = s.params ∧
       (atE unbounded mid).e = s.e ∧ (atD unbounded ones).d = s.d ∧
       ((nextState (exec .close s)).bind fun t => nextState (exec .readPair t)).isSome = true) := by decide +kernel

theorem witness_PredictorTouchesValuesOnly :
    ones.erasePred = (ones.withPred (freshPred .dfcm 4#64)).erasePred ∧
    (nextState (exec .readPair (atD unbounded ones))).isSome = true := by decide +kernel

/-- P1, P2: the empty block and the single sample. -/
theorem witness_BlockRoundTrips :
    (runOk [.cInit .last 1500000000000#64 0#64, .addValue 1500000000010#64 0x3FF0000000000000#64, .close]
      State.reset).map (fun t => t.e.wUnit) = some 24 ∧ 24 ≤ (24#64 : W64).toNat ∧
    (runOk [.cInit .last 1500000000000#64 0#64, .close] State.reset).map (fun t => t.e.wUnit) = some 13 := by
  decide +kernel

end Tests
end Sys2Proof
end

/-! The zig-zag map (00_scope.md R9). Each direction is a shift by one bit, complemented in one of two cases: the sign
decides which for `zigzag64`, the low bit for `unzigzag64`. Read as numbers these are the two formulas of R9 and
their inverses. -/

namespace Sys2Proof
namespace Machine

section Zigzag
variable {n z : W64}

theorem zigzag64_of_nonneg (h : 0 ≤ n.toInt) : zigzag64 n = n <<< 1 := by
  have hmsb : n.msb = false := by simpa [BitVec.msb_eq_toInt] using h
  have hlt := BitVec.msb_eq_false_iff_two_mul_lt.mp hmsb
  have hsign : n.sshiftRight 63 = 0#64 := by
    rw [BitVec.sshiftRight_eq_of_msb_false hmsb]
    bv_omega
  rw [zigzag64, hsign, BitVec.xor_zero]

theorem zigzag64_of_neg (h : n.toInt < 0) : zigzag64 n = ~~~(n <<< 1) := by
  have hmsb : n.msb = true := by simpa [BitVec.msb_eq_toInt] using h
  have hge := BitVec.msb_eq_true_iff_two_mul_ge.mp hmsb
  have hsign : n.sshiftRight 63 = BitVec.allOnes 64 := by
    rw [BitVec.sshiftRight_eq_of_msb_true hmsb, ← BitVec.not_zero]
    bv_omega
  rw [zigzag64, hsign, BitVec.xor_allOnes]

theorem unzigzag64_of_even (h : z.toNat % 2 = 0) : unzigzag64 z = z >>> 1 := by
  have hlow : z &&& 1#64 = 0#64 := BitVec.eq_of_toNat_eq (by simpa [Nat.and_one_is_mod] using h)
  rw [unzigzag64, hlow, BitVec.sub_zero, BitVec.xor_zero]

theorem unzigzag64_of_odd (h : z.toNat % 2 = 1) : unzigzag64 z = ~~~(z >>> 1) := by
  have hlow : z &&& 1#64 = 1#64 := BitVec.eq_of_toNat_eq (by simpa [Nat.and_one_is_mod] using h)
  have hmask : 0#64 - 1#64 = BitVec.allOnes 64 := by decide
  rw [unzigzag64, hlow, hmask, BitVec.xor_allOnes]

theorem zigzag64_toNat_of_nonneg (h : 0 ≤ n.toInt) : ((zigzag64 n).toNat : Int) = 2 * n.toInt := by
  have hn := n.toInt_eq_toNat_cond
  rw [zigzag64_of_nonneg h, BitVec.toNat_shiftLeft, Nat.shiftLeft_eq]
  omega

theorem zigzag64_toNat_of_neg (h : n.toInt < 0) : ((zigzag64 n).toNat : Int) = -2 * n.toInt - 1 := by
  have hn := n.toInt_eq_toNat_cond
  rw [zigzag64_of_neg h, BitVec.toNat_not, BitVec.toNat_shiftLeft, Nat.shiftLeft_eq]
  omega

theorem unzigzag64_toInt_of_even (h : z.toNat % 2 = 0) : 2 * (unzigzag64 z).toInt = z.toNat := by
  rw [unzigzag64_of_even h, BitVec.toInt_eq_toNat_cond, BitVec.toNat_ushiftRight]
  omega

theorem unzigzag64_toInt_of_odd (h : z.toNat % 2 = 1) : 2 * (unzigzag64 z).toInt = -z.toNat - 1 := by
  rw [unzigzag64_of_odd h, BitVec.toInt_eq_toNat_cond, BitVec.toNat_not, BitVec.toNat_ushiftRight]
  omega

@[simp] theorem unzigzag64_zigzag64 (n : W64) : unzigzag64 (zigzag64 n) = n := by
  apply BitVec.eq_of_toInt_eq
  by_cases hsign : 0 ≤ n.toInt
  · have hz := zigzag64_toNat_of_nonneg hsign
    have hu := unzigzag64_toInt_of_even (z := zigzag64 n) (by omega)
    omega
  · have hz := zigzag64_toNat_of_neg (n := n) (by omega)
    have hu := unzigzag64_toInt_of_odd (z := zigzag64 n) (by omega)
    omega

@[simp] theorem zigzag64_unzigzag64 (z : W64) : zigzag64 (unzigzag64 z) = z := by
  apply BitVec.eq_of_toNat_eq
  obtain hlow | hlow := Nat.mod_two_eq_zero_or_one z.toNat
  · have hu := unzigzag64_toInt_of_even hlow
    have hz := zigzag64_toNat_of_nonneg (n := unzigzag64 z) (by omega)
    omega
  · have hu := unzigzag64_toInt_of_odd hlow
    have hz := zigzag64_toNat_of_neg (n := unzigzag64 z) (by omega)
    omega

end Zigzag

/-- Settles O28: the two formulas of R9 by the sign of `n`, and both inverses. -/
theorem zigzagMapsAndInverts : Obligations.ZigzagMapsAndInverts := by
  intro n
  exact ⟨zigzag64_toNat_of_nonneg, zigzag64_toNat_of_neg, unzigzag64_zigzag64 n, zigzag64_unzigzag64 n⟩

end Machine
end Sys2Proof

/-! How a piece of pseudocode ends (00_scope.md R10), as a rule of two postconditions: `Q` of the state it ends
normally in, `R` of the code it raises and the state it leaves. -/

namespace Sys2Proof
namespace Machine

section Ends
variable {σ τ α β : Type} {Q Q' : σ → Prop} {R R' : FaultCode → σ → Prop}

/-- `r` ends normally in a state with `Q`, or raises with `R`. -/
def Res.Ends (r : Res σ α) (Q : σ → Prop) (R : FaultCode → σ → Prop) : Prop :=
  match r with
  | .ok _ s => Q s
  | .raised f s => R f s

/-- `r` keeps `I`, also where it raises, and raises only codes in `F`. -/
abbrev Res.Keeps (r : Res σ α) (I : σ → Prop) (F : FaultCode → Prop) : Prop :=
  r.Ends I fun f s => F f ∧ I s

@[simp] theorem Res.ends_ok (a : α) (s : σ) : (Res.ok a s).Ends Q R ↔ Q s := Iff.rfl

theorem Res.Ends.mono {r : Res σ α} (h : r.Ends Q R) (hQ : ∀ s, Q s → Q' s) (hR : ∀ f s, R f s → R' f s) :
    r.Ends Q' R' := by
  cases r with
  | ok a s => exact hQ s h
  | raised f s => exact hR f s h

/-- The next line starts where the line before ended normally. -/
theorem Res.Ends.bind {r : Res σ α} {k : α → σ → Res σ β} (h : r.Ends Q R) (hk : ∀ a s, Q s → (k a s).Ends Q' R) :
    (r.bind k).Ends Q' R := by
  cases r with
  | ok a s => exact hk a s h
  | raised f s => exact h

/-- An operation on a part keeps what the part's invariant gives the whole. -/
theorem Res.Ends.within {I : τ → Prop} {F G : FaultCode → Prop} {r : Res σ α} {put : σ → τ} (h : r.Keeps Q G)
    (hput : ∀ s, Q s → I (put s)) (hF : ∀ f, G f → F f) : (r.within put).Keeps I F := by
  cases r with
  | ok a s => exact hput s h
  | raised f s => exact ⟨hF f h.1, hput s h.2⟩

/-- Reporting a result changes nothing. -/
theorem Res.Ends.reported {r : Res σ α} (h : r.Ends Q R) (k : α → β) : (r.bind fun a s => .ok (k a) s).Ends Q R :=
  h.bind fun _ _ hq => hq

theorem Res.Ends.silent {r : Res σ Unit} (h : r.Ends Q R) : r.silent.Ends Q R := h.reported _

theorem Res.Ends.asWord {r : Res σ W64} (h : r.Ends Q R) : r.asWord.Ends Q R := h.reported _

theorem Res.Ends.asFlagged {r : Res σ (Bool × W64)} (h : r.Ends Q R) : r.asFlagged.Ends Q R := h.reported _

end Ends

/-! Runs of zeros (00_scope.md R8) and the window registers (10_state.md R37 item 3). -/

/-- `64 - clz64 x` is the number of bits `x` needs. -/
theorem sub_clz64_le_iff {x : W64} {k : Nat} : 64 - clz64 x ≤ k ↔ x.toNat < 2 ^ k := by
  by_cases hx : x = 0#64
  · simp [clz64, hx]
  · have hne : x.toNat ≠ 0 := fun h => hx (BitVec.eq_of_toNat_eq h)
    have hlog : Nat.log2 x.toNat < 64 := (Nat.log2_lt hne).2 x.isLt
    rw [clz64, if_neg hx, ← Nat.log2_lt hne]
    omega

/-- The scan of `ctz64` stops at a 1 bit if there is one in its reach. -/
theorem getLsbD_ctzFrom {x : W64} {fuel i j : Nat} (hij : i ≤ j) (hj : j < i + fuel) (hx : x.getLsbD j = true) :
    x.getLsbD (ctzFrom x fuel i) = true := by
  induction fuel generalizing i with
  | zero => omega
  | succ fuel ih =>
    rw [ctzFrom]
    split
    · assumption
    · next hi =>
      have hne : i ≠ j := fun h => hi (h ▸ hx)
      exact ih (by omega) (by omega)

/-- A residual that is not 0 has its last 1 bit at `ctz64` and its first at `63 - clz64`. -/
theorem clz64_add_ctz64_le {x : W64} (hx : x ≠ 0#64) : clz64 x + ctz64 x ≤ 63 := by
  have hne : x.toNat ≠ 0 := fun h => hx (BitVec.eq_of_toNat_eq h)
  have hlog : Nat.log2 x.toNat < 64 := (Nat.log2_lt hne).2 x.isLt
  have hbit : x.getLsbD (ctz64 x) = true :=
    getLsbD_ctzFrom (Nat.zero_le _) (by omega) (show x.getLsbD (Nat.log2 x.toNat) = true from Nat.testBit_log2 hne)
  have hctz : ctz64 x ≤ Nat.log2 x.toNat := (Nat.le_log2 hne).2 (Nat.ge_two_pow_of_testBit hbit)
  rw [clz64, if_neg hx]
  omega

/-- A window that leaves at least one bit between its zeros is a legal one. -/
theorem windowInv_withWindow (ses : Session) {leading trailing : Nat} (h : leading + trailing ≤ 63) :
    WindowInv (ses.withWindow leading trailing) := by
  refine .inr ?_
  simp only [Session.withWindow_leading, Session.withWindow_trailing, BitVec.toNat_ofNat]
  omega

theorem windowWidth_le (ses : Session) : ses.windowWidth ≤ 64 := by
  rw [Session.windowWidth]
  omega

/-! A predictor right after PRED_INIT and after reset (10_state.md R35, R36, 42_predictor.md R161). -/

theorem overTable_one (p : Params) : p.overTable 1 = false := by
  unfold Params.overTable
  split
  · rfl
  · simp

theorem nextPow2_eq_two_pow_log2 (n : Nat) : nextPow2 n = 2 ^ Nat.log2 (nextPow2 n) := by
  unfold nextPow2
  split
  · rfl
  · rw [Nat.log2_two_pow]

theorem predInv_reset (p : Params) : PredInv p Pred.reset :=
  ⟨Nat.zero_lt_one, rfl, overTable_one p, Table.wf_empty 1⟩

theorem predInv_freshPred {p : Params} {k : PredKind} {sizeReq : W64} (h : predAccepted p k sizeReq = true) :
    PredInv p (freshPred k sizeReq) := by
  cases k with
  | last => exact predInv_reset p
  | dfcm =>
    have hover : p.overTable (nextPow2 sizeReq.toNat) = false := by
      simp only [predAccepted, Bool.and_eq_true, Bool.not_eq_true'] at h
      exact h.2
    have hpow := nextPow2_eq_two_pow_log2 sizeReq.toNat
    have hpos : 0 < nextPow2 sizeReq.toNat := by rw [hpow]; exact Nat.two_pow_pos _
    exact ⟨hpos, hpow, hover, Table.wf_empty _⟩

/-- PRED_INIT keeps the invariant of a predictor, a rejected size too, and raises nothing but CONFIG (R161, R254). -/
theorem predInit_keeps {p : Params} {q : Pred} (k : PredKind) (sizeReq : W64) (h : PredInv p q) :
    (predInit p k sizeReq q).Keeps (PredInv p) (· = .config) := by
  obtain ⟨hhash, hpow, hover, htab⟩ := h
  rcases predInit_cases (p := p) (q := q) k sizeReq with ⟨heq, hacc⟩ | ⟨heq, -, -⟩
  · rw [heq]
    exact predInv_freshPred hacc
  · rw [heq]
    exact ⟨rfl, Nat.lt_of_le_of_lt (Nat.zero_le _) hhash, hpow, hover, htab⟩

end Machine
end Sys2Proof

/-! Engine E: every line of its pseudocode keeps R37 items 1, 3 and 4, the phase and the fault register, and raises
only what R251 lists for it. -/

namespace Sys2Proof
namespace Machine

/-- R37 items 1, 3 and 4 on engine E. -/
structure InvE (p : Params) (e : EngineE) : Prop where
  sink : SinkInv p e
  window : WindowInv e.ses
  pred : PredInv p e.ses.pred

/-- Engine E with its invariants, in phase `ph` and with fault register `g`. -/
structure SoundE (p : Params) (ph : PhaseE) (g : FaultCode) (e : EngineE) : Prop extends InvE p e where
  phase : e.phase = ph
  fault : e.fault = g

section EngineE
variable {p : Params} {e e1 : EngineE} {ph : PhaseE} {g : FaultCode} {F : FaultCode → Prop} {bs : List Bool}

theorem InvE.sound (h : InvE p e) : SoundE p e.phase e.fault e := { h with phase := rfl, fault := rfl }

theorem InvE.withFault (h : InvE p e) (f : FaultCode) : InvE p { e with fault := f } := ⟨h.sink, h.window, h.pred⟩

theorem InvE.withPhase (h : InvE p e) (x : PhaseE) : InvE p { e with phase := x } := ⟨h.sink, h.window, h.pred⟩

theorem SoundE.withPhase (h : SoundE p ph g e) (x : PhaseE) : SoundE p x g { e with phase := x } :=
  { h.toInvE.withPhase x with phase := rfl, fault := h.fault }

/-- New session registers that keep their own invariants. -/
theorem SoundE.withSes (h : SoundE p ph g e) {x : Session} (hw : WindowInv x) (hq : PredInv p x.pred) :
    SoundE p ph g { e with ses := x } :=
  { sink := h.sink, window := hw, pred := hq, phase := h.phase, fault := h.fault }

theorem SoundE.update (h : SoundE p ph g e) (value : W64) : SoundE p ph g (e.update value) :=
  h.withSes h.window (predInv_predUpdate value h.pred)

theorem SoundE.accOpen (h : SoundE p ph g e) : e.accOpen p := h.sink.1

/-- What is appended to the sink does not touch the other registers. -/
theorem SoundE.of_appended (h : SoundE p ph g e) (ha : Appended p bs e e1) (hs : SinkInv p e1) :
    SoundE p ph g e1 where
  sink := hs
  window := by rw [ha.ses]; exact h.window
  pred := by rw [ha.ses]; exact h.pred
  phase := ha.phase.trans h.phase
  fault := ha.fault.trans h.fault

/-! The sink (R37 item 1). -/

/-- A unit committed inside the capacity (40_bitsink.md R125). -/
theorem sinkInv_commitUnit (hwf : Memory.wf e.smE)
    (hlist : ∀ a, a < e.wUnit * p.unit.bytes → (e.smE.read a).isSome = true)
    (hcap : p.overCapacity ((e.wUnit + 1) * p.unit.bits) = false) : SinkInv p (commitUnit p e) := by
  refine ⟨p.unit.bits_pos, fun i _ => by simp, fun i _ _ => by simp, hcap, wf_commitUnit hwf, fun a ha => ?_⟩
  rw [commitUnit_wUnit, Nat.add_mul] at ha
  rw [commitUnit_smE, Memory.read_writeUnit]
  split
  · rfl
  · exact hlist a (by omega)

/-- One bit pushed where it fits (R121). -/
theorem sinkInv_pushAcc (b : Bool) (h : SinkInv p e) (hr : e.room p 1) : SinkInv p (pushAcc p b e) := by
  obtain ⟨hopen, hlow, hhigh, -, hwf, hlist⟩ := h
  have hle := p.unit.bits_le
  unfold pushAcc
  dsimp only
  split
  · next hfull =>
    refine sinkInv_commitUnit hwf hlist ?_
    have hpos : e.wPos p + 1 = (e.wUnit + 1) * p.unit.bits := by
      rw [EngineE.wPos, Nat.add_mul]
      omega
    rw [← hpos]
    exact hr
  · next hfull =>
    refine ⟨by dsimp only; omega, fun i hi => ?_, fun i hi hu => ?_, hr, hwf, hlist⟩
    · dsimp only at hi ⊢
      rw [getLsbD_assignBit _ _ _ _ (by omega), if_neg (by omega)]
      exact hlow i (by omega)
    · dsimp only
      rw [getLsbD_assignBit _ _ _ _ (by omega), if_neg (by omega)]
      exact hhigh i hi hu

/-- A part-filled unit below the capacity lies in it whole (20_memory.md R69). -/
theorem overCapacity_roundUp (hf : 0 < e.accFill) (hcap : p.overCapacity (e.wPos p) = false) :
    p.overCapacity ((e.wUnit + 1) * p.unit.bits) = false := by
  unfold Params.overCapacity EngineE.wPos at *
  cases hc : p.sinkCapUnits with
  | none => rfl
  | some c =>
    simp only [hc, decide_eq_false_iff_not, Nat.not_lt] at hcap ⊢
    have hlt : e.wUnit * p.unit.bits < c * p.unit.bits := by omega
    exact Nat.mul_le_mul_right _ (Nat.lt_of_mul_lt_mul_right hlt)

theorem writeBit_keeps (hc : F .capacity) (b : Bool) (h : SoundE p ph g e) :
    (writeBit p b e).Keeps (SoundE p ph g) F := by
  unfold writeBit
  split
  · exact ⟨hc, h⟩
  · next hr => exact h.of_appended (appended_pushAcc b h.accOpen) (sinkInv_pushAcc b h.sink (by simpa using hr))

theorem writeLoop_keeps (hc : F .capacity) (v : W64) (n : Nat) (h : SoundE p ph g e) :
    (writeLoop p v n e).Keeps (SoundE p ph g) F := by
  induction n generalizing e with
  | zero => exact h
  | succ n ih => exact (writeBit_keeps hc _ h).bind fun _ _ h1 => ih h1

/-- WRITE_BITS of a width given by the host, which may be too wide (R123, R258). -/
theorem writeBits_keeps_any (hc : F .capacity) (hb : F .badWidth) (v : W64) (n : Nat) (h : SoundE p ph g e) :
    (writeBits p v n e).Keeps (SoundE p ph g) F := by
  unfold writeBits
  split
  · exact ⟨hb, h⟩
  · split
    · exact ⟨hc, h⟩
    · exact writeLoop_keeps hc v n h

theorem writeBits_keeps (hc : F .capacity) (v : W64) {n : Nat} (hn : n ≤ 64) (h : SoundE p ph g e) :
    (writeBits p v n e).Keeps (SoundE p ph g) F := by
  unfold writeBits
  rw [if_neg (by omega)]
  split
  · exact ⟨hc, h⟩
  · exact writeLoop_keeps hc v n h

theorem padZeros_keeps (hc : F .capacity) (k : Nat) (h : SoundE p ph g e) :
    (padZeros p k e).Keeps (SoundE p ph g) F := by
  induction k generalizing e with
  | zero => exact h
  | succ k ih => exact (writeBit_keeps hc false h).bind fun _ _ h1 => ih h1

theorem flush_keeps (h : SoundE p ph g e) : (flush p e).Keeps (SoundE p ph g) F := by
  obtain ⟨-, -, -, hcap, hwf, hlist⟩ := h.sink
  unfold flush
  split
  · next hf =>
    exact { h with sink := sinkInv_commitUnit hwf hlist (overCapacity_roundUp hf hcap) }
  · exact h

/-! The codecs (44_timestamp_dod.md, 43_value_xor.md). -/

theorem SoundE.withTime (h : SoundE p ph g e) (delta timestamp : W64) :
    SoundE p ph g { e with ses := e.ses.withTime delta timestamp } :=
  h.withSes h.window h.pred

theorem tsWidth_le (r : Nat) : tsWidth r ≤ 64 := by
  unfold tsWidth
  split_ifs <;> decide

theorem tsPrefixWidth_le (r : Nat) : tsPrefixWidth r ≤ 64 := by
  unfold tsPrefixWidth
  split <;> omega

theorem tsWriteFirst_keeps (hc : F .capacity) (hr : F .firstDeltaRange) (timestamp : W64) (h : SoundE p ph g e) :
    (tsWriteFirst p timestamp e).Keeps (SoundE p ph g) F := by
  unfold tsWriteFirst
  dsimp only
  split
  · exact (writeBits_keeps hc _ (by decide) h).bind fun _ _ h1 => h1.withTime _ _
  · exact ⟨hr, h⟩

theorem writeDod_keeps (hc : F .capacity) (hr : F .dodRange) (dod : W64) (h : SoundE p ph g e) :
    (writeDod p dod e).Keeps (SoundE p ph g) F := by
  unfold writeDod
  split
  · exact writeBit_keeps hc false h
  · split
    · exact (writeBits_keeps hc _ (tsPrefixWidth_le _) h).bind fun _ _ h1 => writeBits_keeps hc _ (tsWidth_le _) h1
    · exact ⟨hr, h⟩

theorem tsCompress_keeps (hc : F .capacity) (hr : F .dodRange) (timestamp : W64) (h : SoundE p ph g e) :
    (tsCompress p timestamp e).Keeps (SoundE p ph g) F :=
  (writeDod_keeps hc hr _ h).bind fun _ _ h1 => h1.withTime _ _

theorem valWriteFirst_keeps (hc : F .capacity) (value : W64) (h : SoundE p ph g e) :
    (valWriteFirst p value e).Keeps (SoundE p ph g) F :=
  writeBits_keeps hc value (by decide) (h.update value)

theorem compressReuse_keeps (hc : F .capacity) (residual : W64) (h : SoundE p ph g e) :
    (compressReuse p residual e).Keeps (SoundE p ph g) F :=
  (writeBit_keeps hc false h).bind fun _ _ h1 => writeBits_keeps hc _ (windowWidth_le _) h1

/-- The window a NEW word announces is one because its residual is not 0 (R182). -/
theorem compressNew_keeps (hc : F .capacity) {residual : W64} (hres : residual ≠ 0#64) (h : SoundE p ph g e) :
    (compressNew p residual e).Keeps (SoundE p ph g) F :=
  (writeBit_keeps hc true h).bind fun _ _ h1 =>
  (writeBits_keeps hc _ (by decide) h1).bind fun _ _ h2 =>
  (writeBits_keeps hc _ (by decide) h2).bind fun _ _ h3 =>
  (writeBits_keeps hc _ (by omega) h3).bind fun _ _ h4 =>
    h4.withSes (windowInv_withWindow _ (clz64_add_ctz64_le hres)) h4.pred

theorem compressResidual_keeps (hc : F .capacity) (residual : W64) (h : SoundE p ph g e) :
    (compressResidual p residual e).Keeps (SoundE p ph g) F := by
  unfold compressResidual
  split
  · exact writeBit_keeps hc false h
  · next hres =>
    refine (writeBit_keeps hc true h).bind fun _ e1 h1 => ?_
    split
    · exact compressReuse_keeps hc residual h1
    · exact compressNew_keeps hc hres h1

theorem valCompress_keeps (hc : F .capacity) (value : W64) (h : SoundE p ph g e) :
    (valCompress p value e).Keeps (SoundE p ph g) F :=
  compressResidual_keeps hc _ (h.update value)

theorem writeTerminator_keeps (hc : F .capacity) (h : SoundE p ph g e) :
    (writeTerminator p e).Keeps (SoundE p ph g) F :=
  (writeBits_keeps hc _ (by decide) h).bind fun _ _ h1 =>
  (writeBits_keeps hc _ (by decide) h1).bind fun _ _ h2 => writeBit_keeps hc false h2

/-! The commands (45_framing.md R222 to R224). -/

/-- The empty sink a construction starts from. -/
theorem sinkInv_empty (hfill : e.accFill = 0) (hacc : e.acc = 0#64) (hunit : e.wUnit = 0) (hwf : Memory.wf e.smE) :
    SinkInv p e := by
  refine ⟨by rw [hfill]; exact p.unit.bits_pos, fun i _ => by simp [hacc], fun i _ _ => by simp [hacc], ?_, hwf,
    fun a ha => by simp [hunit] at ha⟩
  rw [EngineE.wPos, hfill, hunit]
  unfold Params.overCapacity
  split <;> simp

/-- C_INIT ends READY, or IDLE with one of the two faults it can raise. -/
theorem cInit_ends (kind : PredKind) (blockTimestamp tableSizeReq : W64) (h : InvE p e) :
    (cInit p kind blockTimestamp tableSizeReq e).Ends (SoundE p .ready .none)
      fun f e1 => (f = .config ∨ f = .capacity) ∧ SoundE p .idle .none e1 := by
  obtain ⟨-, -, -, -, hwf, -⟩ := h.sink
  let e0 : EngineE :=
    { e with fault := .none, phase := .idle, wUnit := 0, acc := 0#64, accFill := 0,
             ses := e.ses.fresh blockTimestamp }
  have h0 : SoundE p .idle .none e0 :=
    { sink := sinkInv_empty rfl rfl rfl hwf, window := .inl rfl, pred := h.pred, phase := rfl, fault := rfl }
  have hinit := (predInit_keeps kind tableSizeReq h0.pred).within (put := e0.withPred)
    (F := fun f => f = .config ∨ f = .capacity) (fun _ hq => h0.withSes h0.window hq) fun _ => .inl
  exact hinit.bind fun _ _ h1 => (writeBits_keeps (.inr rfl) _ (by decide) h1).bind fun _ _ h2 => h2.withPhase _

/-- ADD_VALUE ends AFTER_FIRST or STREAMING, or raises where it was. -/
theorem addValue_ends (hc : F .capacity) (hfirst : F .firstDeltaRange) (hdod : F .dodRange) (timestamp value : W64)
    (h : SoundE p ph g e) :
    (addValue p timestamp value e).Ends (fun e1 => SoundE p .afterFirst g e1 ∨ SoundE p .streaming g e1)
      fun f e1 => F f ∧ SoundE p ph g e1 := by
  unfold addValue
  split
  · exact (tsWriteFirst_keeps hc hfirst timestamp h).bind fun _ _ h1 =>
      (valWriteFirst_keeps hc value h1).bind fun _ _ h2 => .inl (h2.withPhase _)
  · exact (tsCompress_keeps hc hdod timestamp h).bind fun _ _ h1 =>
      (valCompress_keeps hc value h1).bind fun _ _ h2 => .inr (h2.withPhase _)

/-- CLOSE ends CLOSED, or raises where it was. -/
theorem close_ends (hc : F .capacity) (h : SoundE p ph g e) :
    (close p e).Ends (SoundE p .closed g) fun f e1 => F f ∧ SoundE p ph g e1 :=
  (writeTerminator_keeps hc h).bind fun _ _ h1 => (flush_keeps h1).bind fun _ _ h2 => h2.withPhase _

end EngineE

end Machine
end Sys2Proof

/-! Engine D: every line of its pseudocode, and every code word run alone, keeps R37 items 2 to 4 and the fault
register, and raises only what R251 lists for it. -/

namespace Sys2Proof
namespace Machine

/-- R37 items 2, 3 and 4 on engine D. -/
structure InvD (p : Params) (d : EngineD) : Prop where
  source : SourceInv p d
  window : WindowInv d.ses
  pred : PredInv p d.ses.pred

/-- Engine D with its invariants, in phase `ph` and with fault register `g`. -/
structure SoundD (p : Params) (ph : PhaseD) (g : FaultCode) (d : EngineD) : Prop extends InvD p d where
  phase : d.phase = ph
  fault : d.fault = g

section EngineD
variable {p : Params} {d : EngineD} {ph : PhaseD} {g : FaultCode} {F : FaultCode → Prop}

theorem InvD.sound (h : InvD p d) : SoundD p d.phase d.fault d := { h with phase := rfl, fault := rfl }

theorem InvD.withFault (h : InvD p d) (f : FaultCode) : InvD p { d with fault := f } := ⟨h.source, h.window, h.pred⟩

theorem InvD.withPhase (h : InvD p d) (x : PhaseD) : InvD p { d with phase := x } := ⟨h.source, h.window, h.pred⟩

theorem SoundD.withPhase (h : SoundD p ph g d) (x : PhaseD) : SoundD p x g { d with phase := x } :=
  { h.toInvD.withPhase x with phase := rfl, fault := h.fault }

/-- New session registers that keep their own invariants. -/
theorem SoundD.withSes (h : SoundD p ph g d) {x : Session} (hw : WindowInv x) (hq : PredInv p x.pred) :
    SoundD p ph g { d with ses := x } :=
  { source := h.source, window := hw, pred := hq, phase := h.phase, fault := h.fault }

theorem SoundD.withTime (h : SoundD p ph g d) (delta timestamp : W64) :
    SoundD p ph g { d with ses := d.ses.withTime delta timestamp } :=
  h.withSes h.window h.pred

theorem SoundD.withBlock (h : SoundD p ph g d) (blockTimestamp : W64) :
    SoundD p ph g { d with ses := { d.ses with blockTimestamp := blockTimestamp } } :=
  h.withSes h.window h.pred

/-- A cursor that stays inside the source. -/
theorem InvD.withCursor (h : InvD p d) {k : Nat} (hk : k ≤ d.srcLenBits p) : InvD p { d with rPos := k } :=
  ⟨⟨hk, h.source.2⟩, h.window, h.pred⟩

theorem SoundD.withCursor (h : SoundD p ph g d) {k : Nat} (hk : k ≤ d.srcLenBits p) :
    SoundD p ph g { d with rPos := k } :=
  { h.toInvD.withCursor hk with phase := h.phase, fault := h.fault }

/-! The source (41_bitsource.md). -/

theorem readBit_keeps (hx : F .sourceExhausted) (h : SoundD p ph g d) : (readBit p d).Keeps (SoundD p ph g) F := by
  by_cases ha : d.available p 1
  · rw [readBit_reads ha]
    exact h.withCursor ha
  · rw [readBit_exhausted ha]
    exact ⟨hx, h⟩

/-- READ_BITS of a width given by the host, which may be too wide (R142, R258). -/
theorem readBits_keeps_any (hx : F .sourceExhausted) (hb : F .badWidth) (n : Nat) (h : SoundD p ph g d) :
    (readBits p n d).Keeps (SoundD p ph g) F := by
  rcases readBits_cases (p := p) (d := d) n with ⟨heq, -, ha⟩ | ⟨heq, -, -⟩ | ⟨heq, -⟩ <;> rw [heq]
  · exact h.withCursor ha
  · exact ⟨hx, h⟩
  · exact ⟨hb, h⟩

theorem readBits_keeps (hx : F .sourceExhausted) {n : Nat} (hn : n ≤ 64) (h : SoundD p ph g d) :
    (readBits p n d).Keeps (SoundD p ph g) F := by
  by_cases ha : d.available p n
  · rw [readBits_reads hn ha]
    exact h.withCursor ha
  · rw [readBits_exhausted hn ha]
    exact ⟨hx, h⟩

theorem readRunFrom_keeps (hx : F .sourceExhausted) (n count : Nat) (h : SoundD p ph g d) :
    (readRunFrom p n count d).Keeps (SoundD p ph g) F := by
  induction n generalizing count d with
  | zero => exact h
  | succ n ih =>
    refine (readBit_keeps hx h).bind fun b d1 h1 => ?_
    split
    · exact ih _ h1
    · exact h1

/-! The codecs (44_timestamp_dod.md, 43_value_xor.md). -/

theorem takeFirstDelta_keeps (v : W64) (h : SoundD p ph g d) : (takeFirstDelta v d).Keeps (SoundD p ph g) F := by
  unfold takeFirstDelta
  split
  · exact h
  · exact h.withTime _ _

theorem takeDod_keeps (dod : W64) (h : SoundD p ph g d) : (takeDod dod d).Keeps (SoundD p ph g) F := h.withTime _ _

theorem takePayload_keeps (r : Nat) (payload : W64) (h : SoundD p ph g d) :
    (takePayload r payload d).Keeps (SoundD p ph g) F := by
  unfold takePayload
  split
  · exact h
  · exact takeDod_keeps _ h

theorem recordValue_keeps (value : W64) (h : SoundD p ph g d) : (recordValue value d).Keeps (SoundD p ph g) F :=
  h.withSes h.window (predInv_predUpdate value h.pred)

theorem tsReadFirst_keeps (hx : F .sourceExhausted) (h : SoundD p ph g d) :
    (tsReadFirst p d).Keeps (SoundD p ph g) F :=
  (readBits_keeps hx (by decide) h).bind fun v _ h1 => takeFirstDelta_keeps v h1

theorem tsDecompress_keeps (hx : F .sourceExhausted) (h : SoundD p ph g d) :
    (tsDecompress p d).Keeps (SoundD p ph g) F := by
  refine (readRunFrom_keeps hx _ _ h).bind fun r d1 h1 => ?_
  split
  · exact takeDod_keeps _ h1
  · exact (readBits_keeps hx (tsWidth_le r) h1).bind fun payload _ h2 => takePayload_keeps r payload h2

theorem valReadFirst_keeps (hx : F .sourceExhausted) (h : SoundD p ph g d) :
    (valReadFirst p d).Keeps (SoundD p ph g) F :=
  (readBits_keeps hx (by decide) h).bind fun v _ h1 => recordValue_keeps v h1

theorem decompressReuse_keeps (hx : F .sourceExhausted) (hm : F .malformed) (predicted : W64) (h : SoundD p ph g d) :
    (decompressReuse p predicted d).Keeps (SoundD p ph g) F := by
  unfold decompressReuse
  split
  · exact ⟨hm, h⟩
  · exact (readBits_keeps hx (windowWidth_le _) h).bind fun _ _ h1 => recordValue_keeps _ h1

/-- The window of a possible NEW word (30_encoding.md R102, R105). -/
theorem SoundD.withNewWindow (h : SoundD p ph g d) {leading lengthM1 : Nat} (hfit : ¬ 64 < leading + (lengthM1 + 1)) :
    SoundD p ph g { d with ses := d.ses.withWindow leading (64 - (lengthM1 + 1) - leading) } :=
  h.withSes (windowInv_withWindow _ (by omega)) h.pred

theorem decompressNew_keeps (hx : F .sourceExhausted) (hm : F .malformed) (predicted : W64) (h : SoundD p ph g d) :
    (decompressNew p predicted d).Keeps (SoundD p ph g) F := by
  refine (readBits_keeps hx (by decide) h).bind fun l d1 h1 => ?_
  refine (readBits_keeps hx (by decide) h1).bind fun m d2 h2 => ?_
  dsimp only
  split
  · exact ⟨hm, h2⟩
  · next hfit =>
    exact (readBits_keeps hx (by omega) (h2.withNewWindow hfit)).bind fun _ _ h3 => recordValue_keeps _ h3

theorem valDecompress_keeps (hx : F .sourceExhausted) (hm : F .malformed) (h : SoundD p ph g d) :
    (valDecompress p d).Keeps (SoundD p ph g) F := by
  refine (readBit_keeps hx h).bind fun b1 d1 h1 => ?_
  split
  · refine (readBit_keeps hx h1).bind fun b2 d2 h2 => ?_
    split
    · exact decompressNew_keeps hx hm _ h2
    · exact decompressReuse_keeps hx hm _ h2
  · exact recordValue_keeps _ h1

/-! The commands (45_framing.md R225, R226). -/

/-- D_INIT ends READY, or IDLE with one of the two faults it can raise. -/
theorem dInit_ends (kind : PredKind) (srcLenUnits tableSizeReq : W64) (h : InvD p d) :
    (dInit p kind srcLenUnits tableSizeReq d).Ends (SoundD p .ready .none)
      fun f d1 => (f = .config ∨ f = .sourceExhausted) ∧ SoundD p .idle .none d1 := by
  let d0 : EngineD :=
    { d with fault := .none, phase := .idle, srcLenUnits := srcLenUnits.toNat, rPos := 0, ses := d.ses.fresh 0#64 }
  have h0 : SoundD p .idle .none d0 :=
    { source := ⟨Nat.zero_le _, h.source.2⟩, window := .inl rfl, pred := h.pred, phase := rfl, fault := rfl }
  have hinit := (predInit_keeps kind tableSizeReq h0.pred).within (put := d0.withPred)
    (F := fun f => f = .config ∨ f = .sourceExhausted) (fun _ hq => h0.withSes h0.window hq) fun _ => .inl
  exact hinit.bind fun _ _ h1 =>
    (readBits_keeps (.inr rfl) (by decide) h1).bind fun v _ h2 => (h2.withBlock v).withPhase _

/-- READ_PAIR ends in a phase a session can be in, or raises where it was. -/
theorem readPair_ends (hx : F .sourceExhausted) (hm : F .malformed) (h : SoundD p ph g d) (hph : ph ≠ .exhausted) :
    (readPair p d).Ends (fun d1 => ∃ x, x ≠ .idle ∧ SoundD p x g d1) fun f d1 => F f ∧ SoundD p ph g d1 := by
  unfold readPair
  rw [if_neg (by rw [h.phase]; exact hph)]
  split
  · refine (tsReadFirst_keeps hx h).bind fun r d1 h1 => ?_
    split
    · exact ⟨_, by decide, h1.withPhase .exhausted⟩
    · exact (valReadFirst_keeps hx h1).bind fun _ _ h2 => ⟨_, by decide, h2.withPhase .afterFirst⟩
  · refine (tsDecompress_keeps hx h).bind fun r d1 h1 => ?_
    split
    · exact ⟨_, by decide, h1.withPhase .exhausted⟩
    · exact (valDecompress_keeps hx hm h1).bind fun _ _ h2 => ⟨_, by decide, h2.withPhase .streaming⟩

theorem readPair_exhausted (h : d.phase = .exhausted) : readPair p d = .ok none d := by
  rw [readPair, if_pos h]

/-! The code words run alone. They change the phase last, so each raises in the phase it began in. -/

theorem consume_keeps (hx : F .sourceExhausted) (n : Nat) (h : SoundD p ph g d) :
    (consume p n d).Keeps (SoundD p ph g) F := by
  rcases consume_cases (p := p) (d := d) n with ⟨heq, ha⟩ | ⟨heq, -⟩ <;> rw [heq]
  · exact h.withCursor ha
  · exact ⟨hx, h⟩

theorem consumeEach_keeps (hx : F .sourceExhausted) (n : Nat) (h : SoundD p ph g d) :
    (consumeEach p n d).Keeps (SoundD p ph g) F := by
  rcases consumeEach_cases (p := p) (d := d) n with ⟨heq, ha⟩ | ⟨heq, -⟩ <;> rw [heq]
  · exact h.withCursor ha
  · exact ⟨hx, h.withCursor (max_le h.source.1 le_rfl)⟩

theorem markEnd_ends (r : Bool × W64) (h : SoundD p ph g d) :
    (markEnd r d).Ends (InvD p) fun f d1 => F f ∧ SoundD p ph g d1 := by
  unfold markEnd
  rw [Res.ends_ok]
  split
  · exact h.toInvD.withPhase _
  · exact h.toInvD

theorem headerWord_ends (hx : F .sourceExhausted) (blockTimestamp : W64) (h : SoundD p ph g d) :
    (headerWord p blockTimestamp d).Ends (InvD p) fun f d1 => F f ∧ SoundD p ph g d1 :=
  (consume_keeps hx 64 h).bind fun _ _ h1 => (h1.withBlock blockTimestamp).toInvD.withPhase _

theorem firstDeltaField_ends (hx : F .sourceExhausted) (v : W64) (h : SoundD p ph g d) :
    (firstDeltaField p v d).Ends (InvD p) fun f d1 => F f ∧ SoundD p ph g d1 :=
  ((consume_keeps hx _ h).bind fun _ _ h1 => takeFirstDelta_keeps v h1).bind fun r _ h2 => markEnd_ends r h2

theorem firstValueWord_ends (hx : F .sourceExhausted) (value : W64) (h : SoundD p ph g d) :
    (firstValueWord p value d).Ends (InvD p) fun f d1 => F f ∧ SoundD p ph g d1 :=
  (consume_keeps hx 64 h).bind fun _ _ h1 =>
  (recordValue_keeps value h1).bind fun _ _ h2 => h2.toInvD.withPhase _

theorem timestampWord_ends (hx : F .sourceExhausted) (r : Nat) (payload : W64) (h : SoundD p ph g d) :
    (timestampWord p r payload d).Ends (InvD p) fun f d1 => F f ∧ SoundD p ph g d1 :=
  ((consumeEach_keeps hx _ h).bind fun _ _ h1 =>
    (consume_keeps hx _ h1).bind fun _ _ h2 => takePayload_keeps r payload h2).bind fun v _ h3 => markEnd_ends v h3

theorem timestampZero_keeps (hx : F .sourceExhausted) (h : SoundD p ph g d) :
    (timestampZero p d).Keeps (SoundD p ph g) F :=
  (consumeEach_keeps hx 1 h).bind fun _ _ h1 => takeDod_keeps _ h1

theorem endSample_ends (value : W64) (h : SoundD p ph g d) :
    (endSample value d).Ends (InvD p) fun f d1 => F f ∧ SoundD p ph g d1 :=
  (recordValue_keeps value h).bind fun _ _ h1 => h1.toInvD.withPhase _

theorem sameWord_ends (hx : F .sourceExhausted) (h : SoundD p ph g d) :
    (sameWord p d).Ends (InvD p) fun f d1 => F f ∧ SoundD p ph g d1 :=
  (consumeEach_keeps hx 1 h).bind fun _ _ h1 => endSample_ends _ h1

theorem reuseWord_ends (hx : F .sourceExhausted) (hm : F .malformed) (bits : W64) (h : SoundD p ph g d) :
    (reuseWord p bits d).Ends (InvD p) fun f d1 => F f ∧ SoundD p ph g d1 := by
  refine (consumeEach_keeps hx 2 h).bind fun _ d1 h1 => ?_
  split
  · exact ⟨hm, h1⟩
  · exact (consume_keeps hx _ h1).bind fun _ _ h2 => endSample_ends _ h2

theorem newWord_ends (hx : F .sourceExhausted) (hm : F .malformed) (leading lengthM1 : Nat) (bits : W64)
    (h : SoundD p ph g d) :
    (newWord p leading lengthM1 bits d).Ends (InvD p) fun f d1 => F f ∧ SoundD p ph g d1 := by
  refine (consumeEach_keeps hx 2 h).bind fun _ d1 h1 => ?_
  refine (consume_keeps hx _ h1).bind fun _ d2 h2 => ?_
  refine (consume_keeps hx _ h2).bind fun _ d3 h3 => ?_
  dsimp only
  split
  · exact ⟨hm, h3⟩
  · next hfit => exact (consume_keeps hx _ (h3.withNewWindow hfit)).bind fun _ _ h4 => endSample_ends _ h4

end EngineD

end Machine
end Sys2Proof

/-! The codes and the state after reset (10_state.md R23, R25, R35), and O12: R37 items 1 to 4 through the frames, the
instructions and the events. -/

namespace Sys2Proof
namespace Machine

/-- Settles O6: each list is the code function's own table. -/
theorem codesAreAsListed : Obligations.CodesAreAsListed :=
  ⟨rfl, rfl, rfl, rfl, rfl⟩

section Reset
variable {s : State}

/-- R37 items 1 to 4 are one invariant of each engine. -/
theorem inv_iff : Inv s ↔ InvE s.params s.e ∧ InvD s.params s.d := by
  constructor
  · rintro ⟨hsink, hwe, hpe, hsrc, hwd, hpd⟩
    exact ⟨⟨hsink, hwe, hpe⟩, ⟨hsrc, hwd, hpd⟩⟩
  · rintro ⟨⟨hsink, hwe, hpe⟩, ⟨hsrc, hwd, hpd⟩⟩
    exact ⟨hsink, hwe, hpe, hsrc, hwd, hpd⟩

theorem invE_reset (p : Params) : InvE p EngineE.reset :=
  ⟨sinkInv_empty rfl rfl rfl Memory.wf_empty, .inl rfl, predInv_reset p⟩

theorem invD_reset (p : Params) : InvD p EngineD.reset :=
  ⟨⟨Nat.zero_le _, Memory.wf_empty⟩, .inl rfl, predInv_reset p⟩

theorem inv_resetWith (p : Params) : Inv (State.resetWith p) := inv_iff.2 ⟨invE_reset p, invD_reset p⟩

theorem phaseInv_resetWith (p : Params) : PhaseInv (State.resetWith p) :=
  ⟨rfl, rfl, fun _ => .inl rfl, fun _ => .inl rfl, nofun, nofun⟩

/-- An IDLE engine E promises nothing about its sink. -/
theorem grammarInv_resetWith (p : Params) : GrammarInv (State.resetWith p) := fun _ => trivial

end Reset

/-- Settles O11: an empty sink, an empty source, no window and a table of one entry, in phase IDLE with no fault. -/
theorem invariantsHoldAtReset : Obligations.InvariantsHoldAtReset :=
  ⟨fun p => ⟨inv_resetWith p, phaseInv_resetWith p, grammarInv_resetWith p⟩, inv_resetWith _⟩

section State
variable {s t : State}

/-! The frames. -/

/-- No claim about the codes raised: a step keeps R37 items 1 to 4 whatever fault it enters. -/
def AnyCode (_ : FaultCode) : Prop := True

theorem anyCode (f : FaultCode) : AnyCode f := trivial

theorem inv_of_e_of_d (hs : Inv s) (hp : t.params = s.params) (he : t.e = s.e) (hd : t.d = s.d) : Inv t := by
  rw [inv_iff, hp, he, hd]
  exact inv_iff.1 hs

theorem inv_refuse (x : Engine) (st : Status) (hs : Inv s) : Inv (s.refuse x st) :=
  inv_of_e_of_d hs (by simp) (by simp) (by simp)

theorem inv_finishE {r : Res EngineE Unit} (hs : Inv s) (hr : r.Ends (InvE s.params) fun _ => InvE s.params)
    (ht : finishE r s = .next t) : Inv t := by
  obtain ⟨-, hd⟩ := inv_iff.1 hs
  rcases finishE_cases ht with ⟨e, rfl, rfl⟩ | ⟨f, e, rfl, rfl⟩ <;> rw [Res.Ends] at hr
  · exact inv_iff.2 (by simpa using ⟨hr, hd⟩)
  · exact inv_iff.2 (by simpa using ⟨hr.withFault f, hd⟩)

theorem inv_finishD {r : Res EngineD Unit} (hs : Inv s) (hr : r.Ends (InvD s.params) fun _ => InvD s.params)
    (ht : finishD r s = .next t) : Inv t := by
  obtain ⟨he, -⟩ := inv_iff.1 hs
  rcases finishD_cases ht with ⟨d, rfl, rfl⟩ | ⟨f, d, rfl, rfl⟩ <;> rw [Res.Ends] at hr
  · exact inv_iff.2 (by simpa using ⟨he, hr⟩)
  · exact inv_iff.2 (by simpa using ⟨he, hr.withFault f⟩)

theorem inv_finishRead {r : Res EngineD (Option (W64 × W64))} (hs : Inv s)
    (hr : r.Ends (InvD s.params) fun _ => InvD s.params) (ht : finishRead r s = .next t) : Inv t := by
  obtain ⟨he, -⟩ := inv_iff.1 hs
  rcases finishRead_cases ht with ⟨pair, d, rfl, rfl⟩ | ⟨f, d, rfl, rfl⟩ <;> rw [Res.Ends] at hr
  · exact inv_iff.2 (by simpa using ⟨he, hr⟩)
  · exact inv_iff.2 (by simpa using ⟨he, hr.withFault f⟩)

theorem inv_acceptE {body : EngineE → Res EngineE Unit} (hs : Inv s)
    (hr : (body s.e).Ends (InvE s.params) fun _ => InvE s.params) (ht : acceptE body s = .next t) : Inv t := by
  rcases acceptE_cases ht with ⟨-, rfl⟩ | ⟨-, -, rfl⟩ | ⟨-, -, ht⟩
  · exact inv_refuse _ _ hs
  · exact inv_refuse _ _ hs
  · exact inv_finishE hs hr ht

theorem inv_acceptRead {body : EngineD → Res EngineD (Option (W64 × W64))} (hs : Inv s)
    (hr : (body s.d).Ends (InvD s.params) fun _ => InvD s.params) (ht : acceptRead body s = .next t) : Inv t := by
  rcases acceptRead_cases ht with ⟨-, rfl⟩ | ⟨-, -, rfl⟩ | ⟨-, -, ht⟩
  · exact inv_refuse _ _ hs
  · exact inv_refuse _ _ hs
  · exact inv_finishRead hs hr ht

theorem inv_aloneE {r : Res EngineE Returned} (hs : Inv s) (hr : r.Ends (InvE s.params) fun _ => InvE s.params)
    (ht : aloneE r s = .next t) : Inv t := by
  obtain ⟨-, hd⟩ := inv_iff.1 hs
  rcases aloneE_cases ht with ⟨v, e, rfl, rfl⟩ | ⟨f, e, rfl, rfl⟩
  · exact inv_iff.2 ⟨hr, hd⟩
  · exact inv_iff.2 ⟨hr.withFault f, hd⟩

theorem inv_aloneD {r : Res EngineD Returned} (hs : Inv s) (hr : r.Ends (InvD s.params) fun _ => InvD s.params)
    (ht : aloneD r s = .next t) : Inv t := by
  obtain ⟨he, -⟩ := inv_iff.1 hs
  rcases aloneD_cases ht with ⟨v, d, rfl, rfl⟩ | ⟨f, d, rfl, rfl⟩
  · exact inv_iff.2 ⟨he, hr⟩
  · exact inv_iff.2 ⟨he, hr.withFault f⟩

theorem inv_alonePred {x : Engine} {op : Pred → Res Pred Returned} (hs : Inv s)
    (hop : ∀ q, PredInv s.params q → (op q).Keeps (PredInv s.params) AnyCode)
    (ht : alonePred x op s = .next t) : Inv t := by
  obtain ⟨he, hd⟩ := inv_iff.1 hs
  cases x with
  | E =>
    have hr := (hop _ he.pred).within (put := s.e.withPred) (I := InvE s.params) (F := AnyCode)
      (fun _ hq => ⟨he.sink, he.window, hq⟩) fun _ _ => anyCode _
    exact inv_aloneE hs (hr.mono (fun _ h => h) fun _ _ h => h.2) ht
  | D =>
    have hr := (hop _ hd.pred).within (put := s.d.withPred) (I := InvD s.params) (F := AnyCode)
      (fun _ hq => ⟨hd.source, hd.window, hq⟩) fun _ _ => anyCode _
    exact inv_aloneD hs (hr.mono (fun _ h => h) fun _ _ h => h.2) ht

end State

section Instructions
variable {s t : State}

theorem Res.Ends.invE {α : Type} {r : Res EngineE α} {p : Params} {ph x : PhaseE} {g y : FaultCode}
    {F : FaultCode → Prop} (h : r.Ends (SoundE p x y) fun f e => F f ∧ SoundE p ph g e) :
    r.Ends (InvE p) fun _ => InvE p :=
  h.mono (fun _ hq => hq.toInvE) fun _ _ hr => hr.2.toInvE

theorem Res.Ends.invD {α : Type} {r : Res EngineD α} {p : Params} {ph x : PhaseD} {g y : FaultCode}
    {F : FaultCode → Prop} (h : r.Ends (SoundD p x y) fun f d => F f ∧ SoundD p ph g d) :
    r.Ends (InvD p) fun _ => InvD p :=
  h.mono (fun _ hq => hq.toInvD) fun _ _ hr => hr.2.toInvD

/-- A code word ends with the invariant in whatever phase it left. -/
theorem Res.Ends.invD_of_word {α : Type} {r : Res EngineD α} {p : Params} {ph : PhaseD} {g : FaultCode}
    {F : FaultCode → Prop} (h : r.Ends (InvD p) fun f d => F f ∧ SoundD p ph g d) :
    r.Ends (InvD p) fun _ => InvD p :=
  h.mono (fun _ hq => hq) fun _ _ hr => hr.2.toInvD

/-- Every instruction keeps R37 items 1 to 4. -/
theorem exec_keeps_inv (i : Instr) (hs : Inv s) (ht : exec i s = .next t) : Inv t := by
  obtain ⟨he', hd'⟩ := inv_iff.1 hs
  have he := he'.sound
  have hd := hd'.sound
  cases i with
  | cInit k b n => exact inv_finishE hs (cInit_ends k b n he').invE ht
  | addValue ts v =>
    have hends := addValue_ends (anyCode _) (anyCode _) (anyCode _) ts v he
    exact inv_acceptE hs (hends.mono (fun _ h => h.elim (·.toInvE) (·.toInvE)) fun _ _ h => h.2.toInvE) ht
  | close => exact inv_acceptE hs (close_ends (anyCode _) he).invE ht
  | dInit k len n =>
    exact inv_finishD hs ((dInit_ends k len n hd').invD) ht
  | readPair =>
    refine inv_acceptRead hs ?_ ht
    by_cases hx : s.d.phase = .exhausted
    · rw [readPair_exhausted hx]
      exact hd'
    · exact (readPair_ends (anyCode _) (anyCode _) hd hx).mono (fun _ ⟨_, _, h⟩ => h.toInvD) fun _ _ h => h.2.toInvD
  | writeBit b => exact inv_aloneE hs (writeBit_keeps (anyCode _) b he).silent.invE ht
  | skipBit => exact inv_aloneE hs (writeBit_keeps (anyCode _) false he).silent.invE ht
  | writeBits v n => exact inv_aloneE hs (writeBits_keeps_any (anyCode _) (anyCode _) v _ he).silent.invE ht
  | flush =>
    rw [exec, execFlush] at ht
    split at ht
    · cases ht
    · exact inv_aloneE hs (flush_keeps (F := AnyCode) he).silent.invE ht
  | readBit => exact inv_aloneD hs (((readBit_keeps (anyCode _) hd).reported _).invD) ht
  | readBits n => exact inv_aloneD hs ((readBits_keeps_any (anyCode _) (anyCode _) _ hd).asWord.invD) ht
  | readRunOfOnes n =>
    exact inv_aloneD hs (((readRunFrom_keeps (anyCode _) _ _ hd).reported _).invD) ht
  | predInit x k n =>
    have hkeeps : ∀ q, PredInv s.params q → (predInit s.params k n q).silent.Keeps (PredInv s.params) AnyCode :=
      fun _ hq => (predInit_keeps k n hq).silent.mono (fun _ h => h) fun _ _ h => ⟨anyCode _, h.2⟩
    exact inv_alonePred hs hkeeps ht
  | predUpdate x v =>
    exact inv_alonePred (op := fun q => .ok .nothing (predUpdate v q)) hs (fun _ hq => predInv_predUpdate v hq) ht
  | predPredict x =>
    exact inv_alonePred (op := fun q => .ok (.word (predPredict q)) q) hs (fun _ hq => hq) ht
  | valWriteFirst v => exact inv_aloneE hs (valWriteFirst_keeps (anyCode _) v he).silent.invE ht
  | valCompress v => exact inv_aloneE hs (valCompress_keeps (anyCode _) v he).silent.invE ht
  | valReadFirst => exact inv_aloneD hs ((valReadFirst_keeps (anyCode _) hd).asWord.invD) ht
  | valDecompress => exact inv_aloneD hs ((valDecompress_keeps (anyCode _) (anyCode _) hd).asWord.invD) ht
  | tsWriteFirst ts => exact inv_aloneE hs (tsWriteFirst_keeps (anyCode _) (anyCode _) ts he).silent.invE ht
  | tsCompress ts => exact inv_aloneE hs (tsCompress_keeps (anyCode _) (anyCode _) ts he).silent.invE ht
  | tsReadFirst => exact inv_aloneD hs ((tsReadFirst_keeps (anyCode _) hd).asFlagged.invD) ht
  | tsDecompress => exact inv_aloneD hs ((tsDecompress_keeps (anyCode _) hd).asFlagged.invD) ht
  | header b => exact inv_aloneD hs ((headerWord_ends (anyCode _) b hd).silent.invD_of_word) ht
  | firstDelta d => exact inv_aloneD hs ((firstDeltaField_ends (anyCode _) _ hd).asFlagged.invD_of_word) ht
  | emptyMarker => exact inv_aloneD hs ((firstDeltaField_ends (anyCode _) _ hd).asFlagged.invD_of_word) ht
  | firstValue v => exact inv_aloneD hs ((firstValueWord_ends (anyCode _) v hd).asWord.invD_of_word) ht
  | tsZero => exact inv_aloneD hs ((timestampZero_keeps (anyCode _) hd).asFlagged.invD) ht
  | ts7 c => exact inv_aloneD hs ((timestampWord_ends (anyCode _) 1 _ hd).asFlagged.invD_of_word) ht
  | ts9 c => exact inv_aloneD hs ((timestampWord_ends (anyCode _) 2 _ hd).asFlagged.invD_of_word) ht
  | ts12 c => exact inv_aloneD hs ((timestampWord_ends (anyCode _) 3 _ hd).asFlagged.invD_of_word) ht
  | ts32 c => exact inv_aloneD hs ((timestampWord_ends (anyCode _) 4 _ hd).asFlagged.invD_of_word) ht
  | tsSentinel => exact inv_aloneD hs ((timestampWord_ends (anyCode _) 4 _ hd).asFlagged.invD_of_word) ht
  | valSame => exact inv_aloneD hs ((sameWord_ends (anyCode _) hd).asWord.invD_of_word) ht
  | valReuse n b => exact inv_aloneD hs ((reuseWord_ends (anyCode _) (anyCode _) b hd).asWord.invD_of_word) ht
  | valNew l m b =>
    exact inv_aloneD hs ((newWord_ends (anyCode _) (anyCode _) l.toNat m.toNat b hd).asWord.invD_of_word) ht
  | terminator => exact inv_aloneE hs (writeTerminator_keeps (anyCode _) he).silent.invE ht
  | padding k => exact inv_aloneE hs (padZeros_keeps (anyCode _) k he).silent.invE ht

end Instructions

/-! The events. -/

section Events
variable {s t : State}

/-- A field that is not there is cut off, never reported as cut among its control bits. -/
theorem fieldAt_ne_exhausted {n used u : Nat} {r : List Bool} {k : W64 → Instr} :
    fieldAt n used r k ≠ .error (.exhausted u) := by
  unfold fieldAt
  split <;> simp

theorem decodeTimestamp_exhausted_le {u : Nat} {bs : List Bool} (h : decodeTimestamp bs = .error (.exhausted u)) :
    u ≤ bs.length := by
  unfold decodeTimestamp at h
  split at h
  case h_1 => cases h; exact Nat.le_refl _
  case h_2 => cases h
  case h_3 => cases h; exact Nat.le_refl _
  case h_5 => cases h; exact Nat.le_refl _
  case h_7 => cases h; exact Nat.le_refl _
  all_goals exact absurd h fieldAt_ne_exhausted

theorem decodeNew_exhausted_le {u : Nat} {r : List Bool} (h : decodeNew r = .error (.exhausted u)) :
    u ≤ r.length + 2 := by
  unfold decodeNew at h
  split at h
  · cases h; omega
  · split at h
    · cases h; omega
    · dsimp only at h
      split at h
      · cases h
      · exact absurd h fieldAt_ne_exhausted

theorem decodeValue_exhausted_le {n u : Nat} {bs : List Bool} (h : decodeValue n bs = .error (.exhausted u)) :
    u ≤ bs.length := by
  unfold decodeValue at h
  split at h
  · cases h; exact Nat.le_refl _
  · cases h
  · cases h; exact Nat.le_refl _
  · exact absurd h fieldAt_ne_exhausted
  · exact decodeNew_exhausted_le h

/-- A word reported as cut among its control bits has used no bit that is not there (41_bitsource.md R141, R143). -/
theorem decode_exhausted_le {sp : Space} {u : Nat} {bs : List Bool} (hsp : Space.read sp = true)
    (h : decode sp bs = .error (.exhausted u)) : u ≤ bs.length := by
  unfold decode at h
  cases sp with
  | word => cases hsp
  | trailer => cases hsp
  | timestamp => exact decodeTimestamp_exhausted_le h
  | value n => exact decodeValue_exhausted_le h
  | _ =>
    dsimp only at h
    split at h <;> cases h
    exact Nat.zero_le _

theorem read_spaceNow (sp : Space) (d : EngineD) : Space.read (spaceNow sp d) = Space.read sp := by
  cases sp <;> rfl

/-- Bits that are not there yet cannot be used up. -/
theorem exhaustedAfter_keeps_inv {used : Nat} (hs : Inv s) (hu : used ≤ (upcoming s.params s.d).length) :
    Inv (exhaustedAfter used s) := by
  obtain ⟨he, hd⟩ := inv_iff.1 hs
  rw [upcoming, length_streamBits] at hu
  have hpos := hd.source.1
  exact inv_iff.2 ⟨he, (hd.withCursor (k := s.d.rPos + used) (by omega)).withFault _⟩

theorem hostWrite_keeps_inv {addr : Nat} {bytes : List Byte} (hs : Inv s) (ht : hostWrite addr bytes s = .next t) :
    Inv t := by
  obtain ⟨he, hd⟩ := inv_iff.1 hs
  have hwf := wf_hostWrite hd.source.2 ht
  unfold hostWrite at ht
  split at ht <;> cases ht
  exact inv_iff.2 ⟨he, ⟨hd.source.1, hwf⟩, hd.window, hd.pred⟩

/-- An event that needs no instruction: a refusal, a host's event, or a word cut off among its control bits. -/
theorem fetch_settled_keeps_inv {r : Request} (hs : Inv s) (h : fetch r s = .settled (.next t)) : Inv t := by
  cases r with
  | command x w =>
    rw [fetch, fetchCommand] at h
    split at h
    · split at h <;> cases h
      exact inv_refuse _ _ hs
    · cases h
      exact inv_refuse _ _ hs
  | hostWrite addr bytes =>
    rw [fetch, Fetched.settled.injEq] at h
    exact hostWrite_keeps_inv hs h
  | reset =>
    cases h
    exact inv_iff.2 ⟨invE_reset _, invD_reset _⟩
  | micro w =>
    rw [fetch, fetchMicro] at h
    split at h
    · split at h <;> cases h
    · cases h
  | element sp =>
    rw [fetch, fetchElement] at h
    split at h
    · next hsp =>
      split at h <;> cases h
      next hdec => exact exhaustedAfter_keeps_inv hs (decode_exhausted_le (by rw [read_spaceNow]; exact hsp) hdec)
    · cases h
  | emit bits =>
    rw [fetch, fetchEmit] at h
    split at h <;> cases h

/-- What a step that goes on did: nothing, one instruction, or one event that needs none. -/
theorem step_cases (h : step s = .next t) :
    (s.input = [] ∧ t = s) ∨
    ∃ r rest, s.input = r :: rest ∧
      ((∃ i, fetch r { s with input := rest } = .instr i ∧ exec i { s with input := rest } = .next t) ∨
        fetch r { s with input := rest } = .settled (.next t)) := by
  cases hin : s.input with
  | nil =>
    rw [step_idle hin] at h
    cases h
    exact .inl ⟨rfl, rfl⟩
  | cons r rest =>
    rw [step_cons hin] at h
    refine .inr ⟨r, rest, rfl, ?_⟩
    split at h
    · next i hi => exact .inl ⟨i, hi, h⟩
    · next o ho => exact .inr (h ▸ ho)

end Events

/-- Settles O12: a step is one instruction or one event without one, and each keeps the invariant of both engines. -/
theorem stepKeepsInvariants : Obligations.StepKeepsInvariants := by
  intro s t hs ht
  rcases step_cases ht with ⟨-, rfl⟩ | ⟨r, rest, -, ⟨i, -, hi⟩ | hf⟩
  · exact hs
  · exact exec_keeps_inv (s := { s with input := rest }) i (inv_of_e_of_d (s := s) hs rfl rfl rfl) hi
  · exact fetch_settled_keeps_inv (s := { s with input := rest }) (inv_of_e_of_d (s := s) hs rfl rfl rfl) hf

end Machine
end Sys2Proof

/-! The two engines apart (10_state.md R20, 20_memory.md R71): a command is a function of the parameters and of its own
engine's registers, and writes only those and its own port's answer. -/

namespace Sys2Proof
namespace Machine

/-- `m` always goes on, having replaced engine E and its answer by what the parameters and engine E alone give. -/
def OnlyE (m : State → Result) : Prop :=
  ∀ p e, ∃ e1 r, ∀ s : State, s.params = p → s.e = e → m s = .next { s with e := e1, respE := some r }

/-- The same for engine D. -/
def OnlyD (m : State → Result) : Prop :=
  ∀ p d, ∃ d1 r, ∀ s : State, s.params = p → s.d = d → m s = .next { s with d := d1, respD := some r }

theorem onlyE_finishE (body : Params → EngineE → Res EngineE Unit) :
    OnlyE fun s => finishE (body s.params s.e) s := by
  intro p e
  cases hb : body p e with
  | ok u e1 => exact ⟨e1, plainResponse .ok e1.fault, by rintro s rfl rfl; simp only [hb]; rfl⟩
  | raised f e1 => exact ⟨{ e1 with fault := f }, plainResponse .fault f, by rintro s rfl rfl; simp only [hb]; rfl⟩

theorem onlyD_finishD (body : Params → EngineD → Res EngineD Unit) :
    OnlyD fun s => finishD (body s.params s.d) s := by
  intro p d
  cases hb : body p d with
  | ok u d1 => exact ⟨d1, plainResponse .ok d1.fault, by rintro s rfl rfl; simp only [hb]; rfl⟩
  | raised f d1 => exact ⟨{ d1 with fault := f }, plainResponse .fault f, by rintro s rfl rfl; simp only [hb]; rfl⟩

theorem onlyD_finishRead (body : Params → EngineD → Res EngineD (Option (W64 × W64))) :
    OnlyD fun s => finishRead (body s.params s.d) s := by
  intro p d
  cases hb : body p d with
  | ok pair d1 => exact ⟨d1, pairResponse d1.fault pair, by rintro s rfl rfl; simp only [hb]; rfl⟩
  | raised f d1 => exact ⟨{ d1 with fault := f }, plainResponse .fault f, by rintro s rfl rfl; simp only [hb]; rfl⟩

/-- A refusal depends on the fault and the phase of the engine asked, and leaves it as it was (R221). -/
theorem onlyE_acceptE (body : Params → EngineE → Res EngineE Unit) :
    OnlyE fun s => acceptE (body s.params) s := by
  intro p e
  by_cases hf : e.fault = .none
  · by_cases hp : e.phase.live = true
    · obtain ⟨e1, r, hrun⟩ := onlyE_finishE body p e
      refine ⟨e1, r, fun s hsp hse => ?_⟩
      rw [← hrun s hsp hse]
      simp [acceptE, hse, hf, hp]
    · refine ⟨e, plainResponse .refusedPhase e.fault, ?_⟩
      rintro s rfl rfl
      simp [acceptE, hf, hp, State.refuse, State.answer]
  · refine ⟨e, plainResponse .refusedFaulted e.fault, ?_⟩
    rintro s rfl rfl
    simp [acceptE, hf, State.refuse, State.answer]

theorem onlyD_acceptRead (body : Params → EngineD → Res EngineD (Option (W64 × W64))) :
    OnlyD fun s => acceptRead (body s.params) s := by
  intro p d
  by_cases hf : d.fault = .none
  · by_cases hp : d.phase.readable = true
    · obtain ⟨d1, r, hrun⟩ := onlyD_finishRead body p d
      refine ⟨d1, r, fun s hsp hsd => ?_⟩
      rw [← hrun s hsp hsd]
      simp [acceptRead, hsd, hf, hp]
    · refine ⟨d, plainResponse .refusedPhase d.fault, ?_⟩
      rintro s rfl rfl
      simp [acceptRead, hf, hp, State.refuse, State.answer]
  · refine ⟨d, plainResponse .refusedFaulted d.fault, ?_⟩
    rintro s rfl rfl
    simp [acceptRead, hf, State.refuse, State.answer]

/-- The commands of the two ports (30_encoding.md R92). -/
theorem port_E_cases {i : Instr} (h : i.port = some .E) :
    (∃ k b n, i = .cInit k b n) ∨ (∃ ts v, i = .addValue ts v) ∨ i = .close := by
  cases i with
  | cInit k b n => exact .inl ⟨k, b, n, rfl⟩
  | addValue ts v => exact .inr (.inl ⟨ts, v, rfl⟩)
  | close => exact .inr (.inr rfl)
  | _ => simp [Instr.port] at h

theorem port_D_cases {i : Instr} (h : i.port = some .D) : (∃ k len n, i = .dInit k len n) ∨ i = .readPair := by
  cases i with
  | dInit k len n => exact .inl ⟨k, len, n, rfl⟩
  | readPair => exact .inr rfl
  | _ => simp [Instr.port] at h

theorem onlyE_exec {i : Instr} (h : i.port = some .E) : OnlyE (exec i) := by
  rcases port_E_cases h with ⟨k, b, n, rfl⟩ | ⟨ts, v, rfl⟩ | rfl
  · exact onlyE_finishE fun p => cInit p k b n
  · exact onlyE_acceptE fun p => addValue p ts v
  · exact onlyE_acceptE close

theorem onlyD_exec {i : Instr} (h : i.port = some .D) : OnlyD (exec i) := by
  rcases port_D_cases h with ⟨k, len, n, rfl⟩ | rfl
  · exact onlyD_finishD fun p => dInit p k len n
  · exact onlyD_acceptRead readPair

/-- A command of engine E leaves everything of engine D and of the model's own fields. -/
theorem exec_port_E_frame {i : Instr} {s t : State} (h : i.port = some .E) (ht : exec i s = .next t) :
    ∃ r, t = { s with e := t.e, respE := some r } := by
  obtain ⟨e1, r, hrun⟩ := onlyE_exec h s.params s.e
  rw [hrun s rfl rfl] at ht
  cases ht
  exact ⟨r, rfl⟩

theorem exec_port_D_frame {i : Instr} {s t : State} (h : i.port = some .D) (ht : exec i s = .next t) :
    ∃ r, t = { s with d := t.d, respD := some r } := by
  obtain ⟨d1, r, hrun⟩ := onlyD_exec h s.params s.d
  rw [hrun s rfl rfl] at ht
  cases ht
  exact ⟨r, rfl⟩

/-- Settles O58: each command is a function of its own engine, so two on different engines act side by side. -/
theorem enginesAreIndependent : Obligations.EnginesAreIndependent := by
  refine ⟨fun s s' t i hi hp he ht => ?_, fun s s' t i hi hp hd ht => ?_, fun s t u i j hi hj ht hu => ?_⟩
  · obtain ⟨e1, r, hrun⟩ := onlyE_exec hi s.params s.e
    rw [hrun s rfl rfl] at ht
    cases ht
    exact ⟨_, hrun s' hp.symm he.symm, rfl, rfl⟩
  · obtain ⟨d1, r, hrun⟩ := onlyD_exec hi s.params s.d
    rw [hrun s rfl rfl] at ht
    cases ht
    exact ⟨_, hrun s' hp.symm hd.symm, rfl, rfl⟩
  · obtain ⟨e1, r, hrunE⟩ := onlyE_exec hi s.params s.e
    obtain ⟨d1, q, hrunD⟩ := onlyD_exec hj s.params s.d
    rw [hrunE s rfl rfl] at ht
    cases ht
    have hrunD' := hrunD { s with e := e1, respE := some r } rfl rfl
    rw [hrunD'] at hu
    cases hu
    exact ⟨_, hrunD s rfl rfl, hrunE _ rfl rfl⟩

end Machine
end Sys2Proof

/-! What engine E has written where an operation ends normally (30_encoding.md R96 to R104): the code words of a sample,
appended to the sink, and the session registers they leave. -/

namespace Sys2Proof

/-- The low bits of a value do not depend on how wide it stands. -/
theorem bitsOf_setWidth {v w n : Nat} (x : BitVec v) (h : n ≤ w) : bitsOf (x.setWidth w) n = bitsOf x n := by
  induction n with
  | zero => rfl
  | succ n ih =>
    simp only [bitsOf, BitVec.getLsbD_setWidth, ih (by omega)]
    simp [show n < w by omega]

namespace Machine

section Written
variable {p : Params} {e e1 e2 : EngineE} {bs cs : List Bool}

/-- `e1` has the bits `bs` more in its sink than `e`; the session registers may have changed too. -/
def Wrote (p : Params) (bs : List Bool) (e e1 : EngineE) : Prop := Appended p bs { e with ses := e1.ses } e1

theorem Appended.wrote (h : Appended p bs e e1) : Wrote p bs e e1 := by
  rw [Wrote, h.ses]
  exact h

theorem Wrote.withSes (h : Wrote p bs e e1) (x : Session) : Wrote p bs e { e1 with ses := x } := Appended.withSes h x

theorem Wrote.trans (ho : e.accOpen p) (h1 : Wrote p bs e e1) (h2 : Wrote p cs e1 e2) : Wrote p (bs ++ cs) e e2 :=
  Appended.trans (e := { e with ses := e2.ses }) ho (h1.withSes e2.ses) h2

theorem Wrote.bits (h : Wrote p bs e e1) : e1.bits p = e.bits p ++ bs := h.1

theorem Wrote.accOpen (h : Wrote p bs e e1) : e1.accOpen p := Appended.accOpen h

theorem appended_of_writeBit {b : Bool} (ho : e.accOpen p) (h : writeBit p b e = .ok () e1) : Appended p [b] e e1 := by
  unfold writeBit at h
  split at h <;> cases h
  exact appended_pushAcc b ho

theorem appended_of_writeBits {v : W64} {n : Nat} (ho : e.accOpen p) (h : writeBits p v n e = .ok () e1) :
    Appended p (bitsOf v n) e e1 := by
  rcases writeBits_cases (p := p) v n ho with ⟨e2, hw, ha, -, -⟩ | ⟨hw, -, -⟩ | ⟨hw, -⟩ <;> rw [hw] at h <;> cases h
  exact ha

/-! The first sample (R98). -/

theorem toNat_of_firstDeltaInRange {x : W64} (h : firstDeltaInRange x = true) : x.toNat ≤ 134217726 := by
  simp only [firstDeltaInRange, Bool.and_eq_true, decide_eq_true_eq, BitVec.toInt_eq_toNat_cond] at h
  omega

theorem wfFirstDelta_setWidth {x : W64} (h : firstDeltaInRange x = true) : wfFirstDelta (x.setWidth 27) = true := by
  have hle := toNat_of_firstDeltaInRange h
  rw [wfFirstDelta, bne_iff_ne, ne_eq, ← BitVec.toNat_inj, BitVec.toNat_setWidth, BitVec.toNat_allOnes]
  omega

theorem tsWriteFirst_ok {timestamp : W64} (ho : e.accOpen p) (h : tsWriteFirst p timestamp e = .ok () e1) :
    ∃ d, wfFirstDelta d = true ∧ Wrote p (encodeStream (.firstDelta d)) e e1 ∧
      e1.ses = e.ses.withTime (timestamp - e.ses.blockTimestamp) timestamp := by
  unfold tsWriteFirst at h
  dsimp only at h
  split at h
  · next hr =>
    obtain ⟨_, e2, hw, hk⟩ := Res.bind_eq_ok.1 h
    have ha := appended_of_writeBits ho hw
    cases hk
    refine ⟨_, wfFirstDelta_setWidth hr, ?_, by rw [ha.ses]⟩
    rw [encodeStream, bitsOf_setWidth _ (Nat.le_refl 27)]
    exact ha.wrote.withSes _
  · cases h

theorem valWriteFirst_ok {value : W64} (ho : e.accOpen p) (h : valWriteFirst p value e = .ok () e1) :
    Wrote p (encodeStream (.firstValue value)) e e1 ∧ e1.ses = (e.update value).ses := by
  have ha := appended_of_writeBits (e := e.update value) ho h
  exact ⟨ha.wrote, ha.ses⟩

/-! The timestamp code word (R99, R203). -/

/-- What is written for a delta-of-delta that is not 0 is the payload of R203. -/
theorem toNat_zigzag64_sub_one {dod : W64} (h : dod ≠ 0#64) : (zigzag64 dod - 1#64).toNat = dodPayload dod.toInt := by
  have hne : dod.toInt ≠ 0 := fun h0 => h (BitVec.eq_of_toInt_eq h0)
  rw [dodPayload, BitVec.toNat_sub, BitVec.toNat_ofNat]
  rcases Int.lt_or_gt_of_ne hne with hneg | hpos
  · have hz := zigzag64_toNat_of_neg hneg
    have hlt := (zigzag64 dod).isLt
    rw [if_neg (by omega)]
    omega
  · have hz := zigzag64_toNat_of_nonneg (n := dod) (by omega)
    have hlt := (zigzag64 dod).isLt
    rw [if_pos hpos]
    omega

/-- The ranges of R203 are those of the payload's width (R99). -/
theorem dodPayload_lt_iff {dod : Int} (h : dod ≠ 0) (k : Nat) :
    dodPayload dod < 2 * k ↔ -(k : Int) ≤ dod ∧ dod ≤ k := by
  unfold dodPayload
  split <;> omega

theorem dodPayload_lt_of_inRange {dod : W64} (h : dodInRange dod = true) : dodPayload dod.toInt < 4294967295 := by
  simp only [dodInRange, Bool.and_eq_true, decide_eq_true_eq] at h
  unfold dodPayload
  split <;> omega

/-- A code word of class `r` that carries `payload` (R99). -/
def classWord (r : Nat) (payload : W64) : Instr :=
  if r = 1 then .ts7 (payload.setWidth 7)
  else if r = 2 then .ts9 (payload.setWidth 9)
  else if r = 3 then .ts12 (payload.setWidth 12)
  else .ts32 (payload.setWidth 32)

/-- The class TS_COMPRESS picks is the one whose range holds the delta-of-delta (R202, R203). -/
theorem dodWord_eq_classWord {dod : W64} (h : dod ≠ 0#64) :
    dodWord dod.toInt = classWord (tsClass (64 - clz64 (zigzag64 dod - 1#64))) (zigzag64 dod - 1#64) := by
  have hne : dod.toInt ≠ 0 := fun h0 => h (BitVec.eq_of_toInt_eq h0)
  have hpay := toNat_zigzag64_sub_one h
  have h7 := dodPayload_lt_iff hne 64
  have h9 := dodPayload_lt_iff hne 256
  have h12 := dodPayload_lt_iff hne 2048
  have hset : ∀ w, BitVec.ofNat w (dodPayload dod.toInt) = (zigzag64 dod - 1#64).setWidth w := fun w => by
    rw [← hpay, BitVec.ofNat_toNat]
  simp only [dodWord, tsClass, sub_clz64_le_iff, hpay, hset, if_neg hne]
  push_cast at h7 h9 h12
  norm_num only at h7 h9 h12 ⊢
  simp only [← h7, ← h9, ← h12]
  split_ifs <;> rfl

/-- A code word is the literal of its class and the low bits of the payload (R99, R202). -/
theorem encodeStream_classWord (n : Nat) (payload : W64) :
    encodeStream (classWord (tsClass n) payload) =
      bitsOf (tsPrefixLiteral (tsClass n)) (tsPrefixWidth (tsClass n)) ++ bitsOf payload (tsWidth (tsClass n)) := by
  unfold tsClass
  split_ifs
  · exact congrArg ([true, false] ++ ·) (bitsOf_setWidth payload (Nat.le_refl 7))
  · exact congrArg ([true, true, false] ++ ·) (bitsOf_setWidth payload (Nat.le_refl 9))
  · exact congrArg ([true, true, true, false] ++ ·) (bitsOf_setWidth payload (Nat.le_refl 12))
  · exact congrArg ([true, true, true, true] ++ ·) (bitsOf_setWidth payload (Nat.le_refl 32))

theorem writeDod_ok {dod : W64} (ho : e.accOpen p) (h : writeDod p dod e = .ok () e1) :
    dodInRange dod = true ∧ Appended p (encodeStream (dodWord dod.toInt)) e e1 := by
  unfold writeDod at h
  split at h
  · next h0 =>
    subst h0
    exact ⟨by decide, appended_of_writeBit ho h⟩
  · next h0 =>
    split at h
    · next hr =>
      obtain ⟨_, e2, hw, hk⟩ := Res.bind_eq_ok.1 h
      have ha := appended_of_writeBits ho hw
      rw [dodWord_eq_classWord h0, encodeStream_classWord]
      exact ⟨hr, ha.trans ho (appended_of_writeBits ha.accOpen hk)⟩
    · cases h

theorem tsCompress_ok {timestamp : W64} (ho : e.accOpen p) (h : tsCompress p timestamp e = .ok () e1) :
    ∃ dod, dodInRange dod = true ∧ Wrote p (encodeStream (dodWord dod.toInt)) e e1 ∧
      e1.ses = e.ses.withTime (timestamp - e.ses.storedTimestamp) timestamp := by
  obtain ⟨_, e2, hw, hk⟩ := Res.bind_eq_ok.1 h
  obtain ⟨hr, ha⟩ := writeDod_ok ho hw
  cases hk
  exact ⟨_, hr, ha.wrote.withSes _, by rw [ha.ses]⟩

theorem isTimestampCode_dodWord (dod : Int) : (dodWord dod).isTimestampCode = true := by
  unfold dodWord
  split_ifs <;> rfl

/-- The payload of an accepted delta-of-delta is not the sentinel (R105, R256). -/
theorem wf_dodWord {dod : W64} (h : dodInRange dod = true) : (dodWord dod.toInt).wf = true := by
  have hlt := dodPayload_lt_of_inRange h
  unfold dodWord
  split_ifs
  case neg =>
    rw [Instr.wf, wfTs32, bne_iff_ne, ne_eq, ← BitVec.toNat_inj, BitVec.toNat_ofNat, BitVec.toNat_allOnes]
    omega
  all_goals rfl

/-! The value code word (R101, R186). -/

/-- No residual fits the absent window. -/
theorem fits_iff (ses : Session) (r : W64) :
    ses.fits r = true ↔ ses.storedLeadingZeros ≠ Config.noWindow ∧ ses.storedLeadingZeros.toNat ≤ clz64 r ∧
      ses.storedTrailingZeros.toNat ≤ ctz64 r := by
  have hclz : clz64 r ≤ 64 := by
    unfold clz64
    split <;> omega
  simp only [Session.fits, Bool.and_eq_true, decide_eq_true_eq]
  refine ⟨fun ⟨hl, ht⟩ => ⟨fun hno => ?_, hl, ht⟩, fun ⟨_, hl, ht⟩ => ⟨hl, ht⟩⟩
  rw [hno] at hl
  exact absurd (hl.trans hclz) (by decide)

theorem residualWord_zero (ses : Session) : residualWord ses 0#64 = .valSame := by
  rw [residualWord, if_pos rfl]

theorem residualWord_reuse {ses : Session} {r : W64} (h0 : r ≠ 0#64) (hf : ses.fits r = true) :
    residualWord ses r = .valReuse ses.windowWidth (r >>> ses.storedTrailingZeros.toNat) := by
  rw [residualWord, if_neg h0, if_pos ((fits_iff ses r).1 hf)]

theorem residualWord_new {ses : Session} {r : W64} (h0 : r ≠ 0#64) (hf : ¬ ses.fits r = true) :
    residualWord ses r =
      .valNew (BitVec.ofNat 6 (clz64 r)) (BitVec.ofNat 6 (64 - clz64 r - ctz64 r - 1)) (r >>> ctz64 r) := by
  rw [residualWord, if_neg h0, if_neg fun h => hf ((fits_iff ses r).2 h)]

/-- A word is one of the three kinds, as its residual is 0, fits the window, or announces a new one (R186). -/
theorem residual_cases (ses : Session) (r : W64) :
    r = 0#64 ∨ (r ≠ 0#64 ∧ ses.fits r = true) ∨ (r ≠ 0#64 ∧ ¬ ses.fits r = true) := by
  tauto

/-- The two 6-bit fields of a NEW word hold its counts whole (R102). -/
theorem toNat_newFields {r : W64} (h0 : r ≠ 0#64) :
    (BitVec.ofNat 6 (clz64 r)).toNat = clz64 r ∧
      (BitVec.ofNat 6 (64 - clz64 r - ctz64 r - 1)).toNat + 1 = 64 - clz64 r - ctz64 r := by
  have hsum := clz64_add_ctz64_le h0
  simp only [BitVec.toNat_ofNat]
  omega

/-- A residual without its `t` trailing bits has at most `64 - l - t` bits where `l` of its bits lead. -/
theorem toNat_ushiftRight_lt {r : W64} {l t : Nat} (hl : l ≤ clz64 r) (hsum : l + t ≤ 64) :
    (r >>> t).toNat < 2 ^ (64 - l - t) := by
  have hlt : r.toNat < 2 ^ (64 - l) := sub_clz64_le_iff.1 (by omega)
  rw [BitVec.toNat_ushiftRight, Nat.shiftRight_eq_div_pow, Nat.div_lt_iff_lt_mul (Nat.two_pow_pos t), ← Nat.pow_add]
  rwa [show 64 - l - t + t = 64 - l by omega]

theorem isValueCode_residualWord (ses : Session) (r : W64) : (residualWord ses r).isValueCode = true := by
  unfold residualWord
  split_ifs <;> rfl

theorem wf_residualWord {ses : Session} (hw : WindowInv ses) (r : W64) : (residualWord ses r).wf = true := by
  rcases residual_cases ses r with rfl | ⟨h0, hf⟩ | ⟨h0, hf⟩
  · rw [residualWord_zero]; rfl
  · obtain ⟨hsome, hl, -⟩ := (fits_iff ses r).1 hf
    obtain ⟨-, -, hsum⟩ := hw.resolve_left hsome
    have hlt := toNat_ushiftRight_lt (t := ses.storedTrailingZeros.toNat) hl (by omega)
    rw [residualWord_reuse h0 hf, Instr.wf, wfValReuse, Bool.and_eq_true, decide_eq_true_eq, decide_eq_true_eq]
    exact ⟨windowWidth_le ses, hlt⟩
  · obtain ⟨hlead, hlen⟩ := toNat_newFields h0
    have hsum := clz64_add_ctz64_le h0
    have hlt := toNat_ushiftRight_lt (r := r) (t := ctz64 r) (Nat.le_refl _) (by omega)
    rw [residualWord_new h0 hf, Instr.wf, wfValNew, hlead, if_pos (by omega), decide_eq_true_eq, hlen]
    exact hlt

/-- The word an encoder picks is one its own window makes legal (R105, R186). -/
theorem wordLegal_residualWord (ses : Session) (r : W64) : wordLegal ses (residualWord ses r) = true := by
  rcases residual_cases ses r with rfl | ⟨h0, hf⟩ | ⟨h0, hf⟩
  · rw [residualWord_zero]; rfl
  · rw [residualWord_reuse h0 hf]
    simpa [wordLegal] using ((fits_iff ses r).1 hf).1
  · obtain ⟨hlead, hlen⟩ := toNat_newFields h0
    rw [residualWord_new h0 hf, wordLegal, hlead, decide_eq_true_eq]
    omega

/-- The window a decoder takes from the word is the one the encoder stored (R101, R102, R186). -/
theorem wordWindow_residualWord (ses : Session) (r : W64) :
    wordWindow ses (residualWord ses r) = residualWindow ses r := by
  unfold residualWindow
  rcases residual_cases ses r with rfl | ⟨h0, hf⟩ | ⟨h0, hf⟩
  · rw [residualWord_zero]; rfl
  · rw [residualWord_reuse h0 hf]; rfl
  · obtain ⟨hlead, hlen⟩ := toNat_newFields h0
    have hsum := clz64_add_ctz64_le h0
    have htrail : newTrailing (BitVec.ofNat 6 (clz64 r)) (BitVec.ofNat 6 (64 - clz64 r - ctz64 r - 1)) = ctz64 r := by
      rw [newTrailing, hlead, hlen]
      omega
    rw [residualWord_new h0 hf, wordWindow, hlead, htrail]

theorem residualWindow_block (ses : Session) (r : W64) :
    (residualWindow ses r).blockTimestamp = ses.blockTimestamp := by
  unfold residualWindow
  split <;> rfl

/-- The bits of a NEW word are its two control bits and the three fields VAL_COMPRESS writes (R101, R182). -/
theorem encodeStream_valNew_residual {r : W64} (h0 : r ≠ 0#64) :
    encodeStream (.valNew (BitVec.ofNat 6 (clz64 r)) (BitVec.ofNat 6 (64 - clz64 r - ctz64 r - 1)) (r >>> ctz64 r)) =
      true :: true :: (bitsOf (BitVec.ofNat 64 (clz64 r)) 6 ++
        (bitsOf (BitVec.ofNat 64 (64 - clz64 r - ctz64 r - 1)) 6 ++
          bitsOf (r >>> ctz64 r) (64 - clz64 r - ctz64 r))) := by
  obtain ⟨hlead, hlen⟩ := toNat_newFields h0
  have hfield : ∀ n, bitsOf (BitVec.ofNat 6 n) 6 = bitsOf (BitVec.ofNat 64 n) 6 := fun n => by
    rw [← bitsOf_setWidth (BitVec.ofNat 64 n) (Nat.le_refl 6), BitVec.setWidth_ofNat_of_le (by decide)]
  rw [encodeStream, hlead, if_pos (by omega), hlen, hfield, hfield]

theorem compressReuse_ok {r : W64} (ho : e.accOpen p) (h : compressReuse p r e = .ok () e1) :
    Appended p (false :: bitsOf (r >>> e.ses.storedTrailingZeros.toNat) e.ses.windowWidth) e e1 := by
  obtain ⟨_, e2, hw, hk⟩ := Res.bind_eq_ok.1 h
  have ha := appended_of_writeBit ho hw
  exact ha.trans ho (appended_of_writeBits ha.accOpen hk)

theorem compressNew_ok {r : W64} (ho : e.accOpen p) (h : compressNew p r e = .ok () e1) :
    Wrote p (true :: (bitsOf (BitVec.ofNat 64 (clz64 r)) 6 ++
      (bitsOf (BitVec.ofNat 64 (64 - clz64 r - ctz64 r - 1)) 6 ++
        bitsOf (r >>> ctz64 r) (64 - clz64 r - ctz64 r)))) e e1 ∧
      e1.ses = e.ses.withWindow (clz64 r) (ctz64 r) := by
  obtain ⟨_, e2, hw2, hk⟩ := Res.bind_eq_ok.1 h
  obtain ⟨_, e3, hw3, hk⟩ := Res.bind_eq_ok.1 hk
  obtain ⟨_, e4, hw4, hk⟩ := Res.bind_eq_ok.1 hk
  obtain ⟨_, e5, hw5, hk⟩ := Res.bind_eq_ok.1 hk
  have ha2 := appended_of_writeBit ho hw2
  have ha3 := appended_of_writeBits ha2.accOpen hw3
  have ha4 := appended_of_writeBits ha3.accOpen hw4
  have ha5 := appended_of_writeBits ha4.accOpen hw5
  have ha := ha2.trans ho (ha3.trans ha2.accOpen (ha4.trans ha3.accOpen ha5))
  cases hk
  exact ⟨ha.wrote.withSes _, by rw [ha.ses]⟩

theorem compressResidual_ok {r : W64} (ho : e.accOpen p) (h : compressResidual p r e = .ok () e1) :
    Wrote p (encodeStream (residualWord e.ses r)) e e1 ∧ e1.ses = residualWindow e.ses r := by
  unfold compressResidual at h
  split at h
  · next h0 =>
    subst h0
    have ha := appended_of_writeBit ho h
    rw [residualWindow, residualWord_zero]
    exact ⟨ha.wrote, ha.ses⟩
  · next h0 =>
    obtain ⟨_, e2, hw, hk⟩ := Res.bind_eq_ok.1 h
    have ha := appended_of_writeBit ho hw
    split at hk
    · next hf =>
      have hr := compressReuse_ok ha.accOpen hk
      rw [ha.ses] at hf hr
      rw [residualWindow, residualWord_reuse h0 hf]
      exact ⟨(ha.trans ho hr).wrote, hr.ses.trans ha.ses⟩
    · next hf =>
      obtain ⟨hn, hses⟩ := compressNew_ok ha.accOpen hk
      rw [ha.ses] at hf hses
      rw [residualWindow, residualWord_new h0 hf, encodeStream_valNew_residual h0]
      exact ⟨ha.wrote.trans ho hn, hses⟩

theorem valCompress_ok {value : W64} (ho : e.accOpen p) (h : valCompress p value e = .ok () e1) :
    ∃ r, Wrote p (encodeStream (residualWord (e.update value).ses r)) e e1 ∧
      e1.ses = residualWindow (e.update value).ses r := by
  obtain ⟨hw, hses⟩ := compressResidual_ok (e := e.update value) ho h
  exact ⟨_, hw, hses⟩

/-! The end of a block (R103, R104). -/

theorem terminatorBits_eq : terminatorBits = bitsOf 0x0F#64 4 ++ (bitsOf Config.tsSentinel 32 ++ [false]) := by
  decide

theorem writeTerminator_ok (ho : e.accOpen p) (h : writeTerminator p e = .ok () e1) :
    Appended p terminatorBits e e1 := by
  obtain ⟨_, e2, hw2, hk⟩ := Res.bind_eq_ok.1 h
  obtain ⟨_, e3, hw3, hk⟩ := Res.bind_eq_ok.1 hk
  have ha2 := appended_of_writeBits ho hw2
  have ha3 := appended_of_writeBits ha2.accOpen hw3
  rw [terminatorBits_eq]
  exact ha2.trans ho (ha3.trans ha2.accOpen (appended_of_writeBit ha3.accOpen hk))

theorem flush_ok (hs : SinkInv p e) (h : flush p e = .ok () e1) :
    Appended p (List.replicate ((p.unit.bits - e.accFill) % p.unit.bits) false) e e1 ∧ e1.accFill = 0 := by
  obtain ⟨hopen, hlow, -⟩ := hs
  obtain ⟨e2, hw, ha⟩ := flush_appends hopen hlow
  have heq : e2 = e1 := by
    rw [hw] at h
    cases h
    rfl
  refine ⟨heq ▸ ha, ?_⟩
  unfold flush at h
  split at h <;> cases h
  · rfl
  · omega

end Written

end Machine
end Sys2Proof

/-! R37 items 5 to 7 (10_state.md) and the grammar of the sink (30_encoding.md R96): engine by engine, command by
command, event by event. -/

namespace Sys2Proof
namespace Machine

section Phases
variable {s t : State} {p : Params} {e : EngineE} {d : EngineD} {f : FaultCode}

/-- What R37 items 5 and 7 and R251 say of engine E's phase and fault register. -/
structure PhaseOkE (e : EngineE) : Prop where
  code : e.fault.ofE = true
  idle : e.phase = .idle → e.fault = .none ∨ e.fault = .config ∨ e.fault = .capacity
  closed : e.phase = .closed → e.fault = .none ∧ e.accFill = 0

/-- What R37 items 6 and 7 and R251 say of engine D's phase and fault register. -/
structure PhaseOkD (d : EngineD) : Prop where
  code : d.fault.ofD = true
  idle : d.phase = .idle → d.fault = .none ∨ d.fault = .config ∨ d.fault = .sourceExhausted
  exhausted : d.phase = .exhausted → d.fault = .none

theorem phaseInv_iff : PhaseInv s ↔ PhaseOkE s.e ∧ PhaseOkD s.d := by
  constructor
  · rintro ⟨hce, hcd, hie, hid, hclosed, hexh⟩
    exact ⟨⟨hce, hie, hclosed⟩, ⟨hcd, hid, hexh⟩⟩
  · rintro ⟨⟨hce, hie, hclosed⟩, ⟨hcd, hid, hexh⟩⟩
    exact ⟨hce, hcd, hie, hid, hclosed, hexh⟩

theorem PhaseOkE.of_no_fault (hf : e.fault = .none) (hc : e.phase ≠ .closed) : PhaseOkE e :=
  ⟨by rw [hf]; rfl, fun _ => .inl hf, fun h => absurd h hc⟩

theorem PhaseOkD.of_no_fault (hf : d.fault = .none) : PhaseOkD d :=
  ⟨by rw [hf]; rfl, fun _ => .inl hf, fun _ => hf⟩

/-- A fault taken inside a session leaves its phase, which is neither IDLE nor an end (R227, R261). -/
theorem PhaseOkE.of_raised (hc : f.ofE = true) (hl : e.phase.live = true) : PhaseOkE { e with fault := f } := by
  refine ⟨hc, fun h => ?_, fun h => ?_⟩ <;> · rw [show e.phase = _ from h] at hl; cases hl

theorem PhaseOkD.of_raised (hc : f.ofD = true) (hr : d.phase.readable = true) (hx : d.phase ≠ .exhausted) :
    PhaseOkD { d with fault := f } := by
  refine ⟨hc, fun h => ?_, fun h => absurd h hx⟩
  rw [show d.phase = _ from h] at hr
  cases hr

/-! The grammar, phase by phase. -/

/-- The header is in the sink and no window is stored yet. -/
def HoldsHeader (p : Params) (e : EngineE) : Prop :=
  e.ses.sameWindow Session.reset ∧ e.bits p = encodeStream (.header e.ses.blockTimestamp)

/-- A first sample and the later samples `ws` are in the sink, and the registers hold the window they left. -/
def HoldsSamples (p : Params) (ws : List (Instr × Instr)) (e : EngineE) : Prop :=
  ∃ d v, wfFirstDelta d = true ∧ samplesWf Session.reset ws ∧ e.ses.sameWindow (samplesWindow Session.reset ws) ∧
    e.bits p = blockBits e.ses.blockTimestamp d v ws

/-- A block up to its terminator is in the sink. -/
def HoldsBody (p : Params) (e : EngineE) : Prop := HoldsHeader p e ∨ ∃ ws, HoldsSamples p ws e

/-- The registers are the same and so are the bits: so is what the engine holds. -/
theorem grammarInv_congr (hp : t.params = s.params) (he : t.e = s.e) : GrammarInv t ↔ GrammarInv s := by
  unfold GrammarInv
  rw [hp, he]

theorem grammarInv_of_fault (h : s.e.fault ≠ .none) : GrammarInv s := fun hf => absurd hf h

theorem grammarInv_ready (hp : s.e.phase = .ready) (h : HoldsHeader s.params s.e) : GrammarInv s := by
  intro _
  rw [hp]
  exact h

theorem grammarInv_afterFirst (hp : s.e.phase = .afterFirst) (h : HoldsSamples s.params [] s.e) : GrammarInv s := by
  obtain ⟨d, v, hd, -, hw, hb⟩ := h
  intro _
  rw [hp]
  exact ⟨hw, d, v, hd, hb⟩

theorem grammarInv_streaming {ws : List (Instr × Instr)} (hp : s.e.phase = .streaming) (hne : ws ≠ [])
    (h : HoldsSamples s.params ws s.e) : GrammarInv s := by
  obtain ⟨d, v, hd, hws, hw, hb⟩ := h
  intro _
  rw [hp]
  exact ⟨d, v, ws, hd, hne, hws, hw, hb⟩

/-- What a READY session has written. -/
theorem GrammarInv.header (h : GrammarInv s) (hf : s.e.fault = .none) (hp : s.e.phase = .ready) :
    HoldsHeader s.params s.e := by
  have hg := h hf
  rw [hp] at hg
  exact hg

/-- What a session with a sample has written. -/
theorem GrammarInv.samples (h : GrammarInv s) (hf : s.e.fault = .none)
    (hp : s.e.phase = .afterFirst ∨ s.e.phase = .streaming) : ∃ ws, HoldsSamples s.params ws s.e := by
  have hg := h hf
  rcases hp with hp | hp <;> rw [hp] at hg
  · obtain ⟨hw, d, v, hd, hb⟩ := hg
    exact ⟨[], d, v, hd, trivial, hw, hb⟩
  · obtain ⟨d, v, ws, hd, -, hws, hw, hb⟩ := hg
    exact ⟨ws, d, v, hd, hws, hw, hb⟩

theorem live_cases (h : e.phase.live = true) :
    e.phase = .ready ∨ e.phase = .afterFirst ∨ e.phase = .streaming := by
  cases hp : e.phase with
  | ready => exact .inl rfl
  | afterFirst => exact .inr (.inl rfl)
  | streaming => exact .inr (.inr rfl)
  | _ => rw [hp] at h; cases h

theorem GrammarInv.body (h : GrammarInv s) (hf : s.e.fault = .none) (hl : s.e.phase.live = true) :
    HoldsBody s.params s.e := by
  rcases live_cases hl with hp | hp
  · exact .inl (h.header hf hp)
  · exact .inr (h.samples hf hp)

/-! The commands of engine E where they end `OK`: what the sink then holds. -/

theorem cInit_ok {k : PredKind} {blockTimestamp n : W64} {e1 : EngineE}
    (h : cInit p k blockTimestamp n e = .ok () e1) : HoldsHeader p e1 := by
  obtain ⟨_, e2, hw2, hk2⟩ := Res.bind_eq_ok.1 h
  obtain ⟨_, e3, hw3, hk3⟩ := Res.bind_eq_ok.1 hk2
  rcases predInit_cases (p := p) (q := e.ses.pred) k n with ⟨heq, -⟩ | ⟨heq, -, -⟩ <;>
    rw [Session.fresh_pred, heq] at hw2 <;> cases hw2
  have ha := appended_of_writeBits (p := p) p.unit.bits_pos hw3
  cases hk3
  refine ⟨by rw [ha.ses]; exact ⟨rfl, rfl⟩, ?_⟩
  rw [ha.ses]
  refine ha.1.trans ?_
  simp [EngineE.bits, EngineE.wPos, encodeStream]

/-- One more code word pair after the samples there are. -/
theorem HoldsSamples.append {ws : List (Instr × Instr)} {w : Instr × Instr} {e1 : EngineE}
    (h : HoldsSamples p ws e) (hb : e1.bits p = e.bits p ++ sampleBits w)
    (ht : e1.ses.blockTimestamp = e.ses.blockTimestamp) (hw : e1.ses.sameWindow (wordWindow e.ses w.2))
    (hts : w.1.isTimestampCode = true ∧ w.1.wf = true) (hv : w.2.isValueCode = true ∧ w.2.wf = true)
    (hlegal : wordLegal e.ses w.2 = true) : HoldsSamples p (ws ++ [w]) e1 := by
  obtain ⟨d, v, hd, hws, hwin, hbits⟩ := h
  obtain ⟨hl, htr⟩ := sameWindow_wordWindow hwin w.2
  refine ⟨d, v, hd, ?_, ?_, ?_⟩
  · rw [samplesWf_append]
    exact ⟨hws, hts.1, hts.2, hv.1, hv.2, by rw [← wordLegal_congr hwin]; exact hlegal, trivial⟩
  · rw [samplesWindow_append]
    exact ⟨hw.1.trans hl, hw.2.trans htr⟩
  · rw [hb, hbits, ht]
    simp [blockBits]

/-- ADD_VALUE of the first sample (R223). -/
theorem addValue_first_ok {ts v : W64} {e1 : EngineE} (ho : e.accOpen p) (hp : e.phase = .ready)
    (hh : HoldsHeader p e) (h : addValue p ts v e = .ok () e1) : e1.phase = .afterFirst ∧ HoldsSamples p [] e1 := by
  obtain ⟨hwin, hbits⟩ := hh
  rw [addValue, if_pos hp] at h
  obtain ⟨_, e2, hw2, hk⟩ := Res.bind_eq_ok.1 h
  obtain ⟨_, e3, hw3, hk⟩ := Res.bind_eq_ok.1 hk
  obtain ⟨d, hd, hts, hses2⟩ := tsWriteFirst_ok ho hw2
  obtain ⟨hval, hses3⟩ := valWriteFirst_ok hts.accOpen hw3
  cases hk
  rw [EngineE.update_ses, hses2] at hses3
  have hb : e3.bits p = e.bits p ++ (encodeStream (.firstDelta d) ++ encodeStream (.firstValue v)) :=
    (hts.trans ho hval).bits
  refine ⟨rfl, d, v, hd, trivial, ?_, ?_⟩
  · rw [hses3]
    exact hwin
  · rw [hses3]
    refine hb.trans ?_
    simp [hbits, blockBits]

/-- ADD_VALUE of a later sample (R223). -/
theorem addValue_later_ok {ts v : W64} {e1 : EngineE} {ws : List (Instr × Instr)} (ho : e.accOpen p)
    (hp : e.phase ≠ .ready) (hinv : WindowInv e.ses) (hs : HoldsSamples p ws e)
    (h : addValue p ts v e = .ok () e1) : e1.phase = .streaming ∧ ∃ w, HoldsSamples p (ws ++ [w]) e1 := by
  rw [addValue, if_neg hp] at h
  obtain ⟨_, e2, hw2, hk⟩ := Res.bind_eq_ok.1 h
  obtain ⟨_, e3, hw3, hk⟩ := Res.bind_eq_ok.1 hk
  obtain ⟨dod, hr, hts, hses2⟩ := tsCompress_ok ho hw2
  obtain ⟨r, hval, hses3⟩ := valCompress_ok hts.accOpen hw3
  cases hk
  have hsame : (e2.update v).ses.sameWindow e.ses := by
    rw [EngineE.update_ses, hses2]
    exact ⟨rfl, rfl⟩
  have hinv2 : WindowInv (e2.update v).ses := by
    rw [EngineE.update_ses, hses2]
    exact hinv
  have hblock : e3.ses.blockTimestamp = e.ses.blockTimestamp := by
    rw [hses3, residualWindow_block, EngineE.update_ses, hses2]
    rfl
  have hwin : e3.ses.sameWindow (wordWindow e.ses (residualWord (e2.update v).ses r)) := by
    rw [hses3, ← wordWindow_residualWord]
    exact sameWindow_wordWindow hsame _
  have hlegal : wordLegal e.ses (residualWord (e2.update v).ses r) = true := by
    rw [← wordLegal_congr hsame]
    exact wordLegal_residualWord _ r
  exact ⟨rfl, (dodWord dod.toInt, residualWord (e2.update v).ses r),
    hs.append (hts.trans ho hval).bits hblock hwin ⟨isTimestampCode_dodWord _, wf_dodWord hr⟩
      ⟨isValueCode_residualWord _ r, wf_residualWord hinv2 r⟩ hlegal⟩

/-- CLOSE appends the terminator and less than a unit of zeros, and leaves the accumulator empty (R103, R104, R224). -/
theorem close_ok {e1 : EngineE} (hi : InvE p e) (h : close p e = .ok () e1) :
    e1.accFill = 0 ∧ e1.ses = e.ses ∧ ∃ pad, pad < p.unit.bits ∧
      e1.bits p = e.bits p ++ (terminatorBits ++ List.replicate pad false) := by
  obtain ⟨_, e2, hw2, hk⟩ := Res.bind_eq_ok.1 h
  obtain ⟨_, e3, hw3, hk⟩ := Res.bind_eq_ok.1 hk
  have hsound := writeTerminator_keeps (anyCode _) hi.sound
  rw [hw2] at hsound
  have hterm := writeTerminator_ok hi.sink.1 hw2
  obtain ⟨hflush, hempty⟩ := flush_ok (p := p) (SoundE.toInvE hsound).sink hw3
  cases hk
  exact ⟨hempty, hflush.ses.trans hterm.ses, _, Nat.mod_lt _ p.unit.bits_pos, (hterm.trans hi.sink.1 hflush).1⟩

theorem grammarInv_closed {pad : Nat} {e0 : EngineE} (hp : s.e.phase = .closed) (hpad : pad < s.params.unit.bits)
    (hses : s.e.ses = e0.ses) (hbody : HoldsBody s.params e0)
    (hb : s.e.bits s.params = e0.bits s.params ++ (terminatorBits ++ List.replicate pad false)) : GrammarInv s := by
  intro _
  rw [hp]
  refine ⟨e0.bits s.params, pad, hpad, hb, ?_⟩
  rw [hses]
  rcases hbody with ⟨-, hh⟩ | ⟨ws, d, v, hd, hws, -, hs⟩
  · exact .inl hh
  · exact .inr ⟨d, v, ws, hd, hws, hs⟩

/-! The commands through their frames. -/

/-- What a command of engine E can raise inside a session (R251). -/
def SessionFaultE (f : FaultCode) : Prop := f.ofE = true ∧ f ≠ .none

/-- What READ_PAIR can raise (R251). -/
def SessionFaultD (f : FaultCode) : Prop := f.ofD = true

theorem execCInit_keeps_grammar {k : PredKind} {b n : W64} (hi : InvE s.params s.e)
    (ht : execCInit k b n s = .next t) : PhaseOkE t.e ∧ GrammarInv t := by
  have hends := cInit_ends k b n hi
  rcases finishE_cases ht with ⟨e1, hr, rfl⟩ | ⟨f, e1, hr, rfl⟩ <;> rw [hr] at hends
  · exact ⟨.of_no_fault hends.fault (by simp [hends.phase]), grammarInv_ready hends.phase (cInit_ok hr)⟩
  · obtain ⟨hf, hsound⟩ := hends
    refine ⟨⟨?_, fun _ => .inr hf, fun hc => ?_⟩, grammarInv_of_fault ?_⟩
    · rcases hf with rfl | rfl <;> rfl
    · have hidle : e1.phase = .closed := hc
      rw [hsound.phase] at hidle
      cases hidle
    · rcases hf with rfl | rfl <;> simp

/-- A command that raises inside a session leaves a live phase and a fault. -/
theorem raised_keeps_grammar {f : FaultCode} {e1 : EngineE} (hf : SessionFaultE f) (hl : e1.phase.live = true) :
    PhaseOkE (({ s with e := e1 } : State).faultCommand .E f).e ∧
      GrammarInv (({ s with e := e1 } : State).faultCommand .E f) :=
  ⟨.of_raised hf.1 hl, grammarInv_of_fault hf.2⟩

theorem refuse_keeps_grammar (x : Engine) (st : Status) (hp : PhaseInv s) (hg : GrammarInv s) :
    PhaseInv (s.refuse x st) ∧ GrammarInv (s.refuse x st) := by
  rw [phaseInv_iff, grammarInv_congr (State.refuse_params s x st) (State.refuse_e s x st), State.refuse_e,
    State.refuse_d]
  exact ⟨phaseInv_iff.1 hp, hg⟩

theorem execAddValue_keeps_grammar {ts v : W64} (hi : InvE s.params s.e) (hp : PhaseInv s) (hg : GrammarInv s)
    (ht : execAddValue ts v s = .next t) : PhaseOkE t.e ∧ GrammarInv t := by
  rcases acceptE_cases ht with ⟨-, rfl⟩ | ⟨-, -, rfl⟩ | ⟨hf, hl, ht⟩
  · exact (refuse_keeps_grammar _ _ hp hg).imp_left fun h => (phaseInv_iff.1 h).1
  · exact (refuse_keeps_grammar _ _ hp hg).imp_left fun h => (phaseInv_iff.1 h).1
  have hends := addValue_ends (F := SessionFaultE) ⟨rfl, nofun⟩ ⟨rfl, nofun⟩ ⟨rfl, nofun⟩ ts v hi.sound
  rcases finishE_cases ht with ⟨e1, hr, rfl⟩ | ⟨f, e1, hr, rfl⟩ <;> rw [hr] at hends
  · have hfault : e1.fault = .none := by
      rcases hends with h | h <;> exact h.fault.trans hf
    rcases live_cases hl with hready | hlater
    · obtain ⟨hph, hs⟩ := addValue_first_ok hi.sink.1 hready (hg.header hf hready) hr
      exact ⟨.of_no_fault hfault (by simp [hph]), grammarInv_afterFirst hph hs⟩
    · obtain ⟨ws, hws⟩ := hg.samples hf hlater
      have hnot : s.e.phase ≠ .ready := by rcases hlater with h | h <;> rw [h] <;> decide
      obtain ⟨hph, w, hs⟩ := addValue_later_ok hi.sink.1 hnot hi.window hws hr
      exact ⟨.of_no_fault hfault (by simp [hph]), grammarInv_streaming hph (by simp) hs⟩
  · exact raised_keeps_grammar hends.1 (by rw [hends.2.phase]; exact hl)

theorem execClose_keeps_grammar (hi : InvE s.params s.e) (hp : PhaseInv s) (hg : GrammarInv s)
    (ht : execClose s = .next t) : PhaseOkE t.e ∧ GrammarInv t := by
  rcases acceptE_cases ht with ⟨-, rfl⟩ | ⟨-, -, rfl⟩ | ⟨hf, hl, ht⟩
  · exact (refuse_keeps_grammar _ _ hp hg).imp_left fun h => (phaseInv_iff.1 h).1
  · exact (refuse_keeps_grammar _ _ hp hg).imp_left fun h => (phaseInv_iff.1 h).1
  have hends := close_ends (F := SessionFaultE) ⟨rfl, nofun⟩ hi.sound
  rcases finishE_cases ht with ⟨e1, hr, rfl⟩ | ⟨f, e1, hr, rfl⟩ <;> rw [hr] at hends
  · have hfault : e1.fault = .none := hends.fault.trans hf
    obtain ⟨hempty, hses, pad, hpad, hb⟩ := close_ok hi hr
    exact ⟨⟨by simp [hfault, FaultCode.ofE], fun _ => .inl hfault, fun _ => ⟨hfault, hempty⟩⟩,
      grammarInv_closed hends.phase hpad hses (hg.body hf hl) hb⟩
  · exact raised_keeps_grammar hends.1 (by rw [hends.2.phase]; exact hl)

theorem execDInit_keeps_phase {k : PredKind} {len n : W64} (hi : InvD s.params s.d)
    (ht : execDInit k len n s = .next t) : PhaseOkD t.d := by
  have hends := dInit_ends k len n hi
  rcases finishD_cases ht with ⟨d1, hr, rfl⟩ | ⟨f, d1, hr, rfl⟩ <;> rw [hr] at hends
  · exact .of_no_fault hends.fault
  · obtain ⟨hf, hsound⟩ := hends
    refine ⟨?_, fun _ => .inr hf, fun hx => ?_⟩
    · rcases hf with rfl | rfl <;> rfl
    · have hidle : d1.phase = .exhausted := hx
      rw [hsound.phase] at hidle
      cases hidle

theorem execReadPair_keeps_phase (hi : InvD s.params s.d) (hp : PhaseOkD s.d) (ht : execReadPair s = .next t) :
    PhaseOkD t.d := by
  rcases acceptRead_cases ht with ⟨-, rfl⟩ | ⟨-, -, rfl⟩ | ⟨hf, hl, ht⟩
  · simpa using hp
  · simpa using hp
  by_cases hx : s.d.phase = .exhausted
  · rw [readPair_exhausted hx] at ht
    cases ht
    simpa using hp
  have hends := readPair_ends (F := SessionFaultD) rfl rfl hi.sound hx
  rcases finishRead_cases ht with ⟨pair, d1, hr, rfl⟩ | ⟨f, d1, hr, rfl⟩ <;> rw [hr] at hends
  · obtain ⟨x, -, hsound⟩ := hends
    exact .of_no_fault (hsound.fault.trans hf)
  · obtain ⟨hcode, hsound⟩ := hends
    exact .of_raised hcode (by rw [hsound.phase]; exact hl) (by rw [hsound.phase]; exact hx)

/-- Each command keeps its own engine's part and leaves the other's. -/
theorem exec_command_keeps_grammar {i : Instr} {x : Engine} (hport : i.port = some x) (hi : Inv s) (hp : PhaseInv s)
    (hg : GrammarInv s) (ht : exec i s = .next t) : PhaseInv t ∧ GrammarInv t := by
  obtain ⟨hiE, hiD⟩ := inv_iff.1 hi
  obtain ⟨hpE, hpD⟩ := phaseInv_iff.1 hp
  cases x with
  | E =>
    have hE : PhaseOkE t.e ∧ GrammarInv t := by
      rcases port_E_cases hport with ⟨k, b, n, rfl⟩ | ⟨ts, v, rfl⟩ | rfl
      · exact execCInit_keeps_grammar hiE ht
      · exact execAddValue_keeps_grammar hiE hp hg ht
      · exact execClose_keeps_grammar hiE hp hg ht
    obtain ⟨r, hframe⟩ := exec_port_E_frame hport ht
    have hd : t.d = s.d := by rw [hframe]
    exact ⟨phaseInv_iff.2 ⟨hE.1, hd ▸ hpD⟩, hE.2⟩
  | D =>
    have hD : PhaseOkD t.d := by
      rcases port_D_cases hport with ⟨k, len, n, rfl⟩ | rfl
      · exact execDInit_keeps_phase hiD ht
      · exact execReadPair_keeps_phase hiD hpD ht
    obtain ⟨r, hframe⟩ := exec_port_D_frame hport ht
    have he : t.e = s.e := by rw [hframe]
    have hparams : t.params = s.params := by rw [hframe]
    exact ⟨phaseInv_iff.2 ⟨he ▸ hpE, hD⟩, (grammarInv_congr hparams he).2 hg⟩

/-! The host's events. -/

theorem hostWrite_keeps_grammar {addr : Nat} {bytes : List Byte} (hp : PhaseInv s) (hg : GrammarInv s)
    (ht : hostWrite addr bytes s = .next t) : PhaseInv t ∧ GrammarInv t := by
  unfold hostWrite at ht
  split at ht <;> cases ht
  exact ⟨hp, hg⟩

/-- What the host's event turns into: a command on its port, or an event that keeps the invariants at once. -/
theorem fetch_host_keeps_grammar {r : Request} (hhost : r.isHost = true) (hp : PhaseInv s) (hg : GrammarInv s) :
    (∀ i, fetch r s = .instr i → ∃ x, i.port = some x) ∧
      ∀ t, fetch r s = .settled (.next t) → PhaseInv t ∧ GrammarInv t := by
  cases r with
  | command x w =>
    rw [fetch, fetchCommand]
    split
    · split
      · next hport => exact ⟨fun j h => by cases h; exact ⟨x, hport⟩, fun t h => by cases h⟩
      · exact ⟨fun j h => (by cases h), fun t h => by cases h; exact refuse_keeps_grammar _ _ hp hg⟩
    · exact ⟨fun j h => (by cases h), fun t h => by cases h; exact refuse_keeps_grammar _ _ hp hg⟩
  | hostWrite addr bytes =>
    refine ⟨fun i h => (by cases h), fun t h => ?_⟩
    rw [fetch, Fetched.settled.injEq] at h
    exact hostWrite_keeps_grammar hp hg h
  | reset =>
    refine ⟨fun i h => (by cases h), fun t h => ?_⟩
    cases h
    exact ⟨phaseInv_resetWith s.params, grammarInv_resetWith s.params⟩
  | micro w => cases hhost
  | element sp => cases hhost
  | emit bits => cases hhost

end Phases

/-- Settles O13: the host's event is a command, which keeps its own engine's part and leaves the other's, or a refusal,
a write of SM_D or a reset, for which the invariants are those of before or those of reset. -/
theorem hostStepsKeepTheGrammar : Obligations.HostStepsKeepTheGrammar := by
  intro s t r rest hin hhost hi hp hg ht
  rw [step_cons hin] at ht
  obtain ⟨hinstr, hsettled⟩ := fetch_host_keeps_grammar (s := { s with input := rest }) hhost hp hg
  split at ht
  · next i hf =>
    obtain ⟨x, hport⟩ := hinstr i hf
    exact exec_command_keeps_grammar (s := { s with input := rest }) hport hi hp hg ht
  · next o hf => exact hsettled t (ht ▸ hf)

end Machine
end Sys2Proof

/-! The stream memories as the host and the engines see them (20_memory.md R60 to R63): the host's own events in one
step, and the byte image of a stream. -/

namespace Sys2Proof
namespace Machine

section HostReads
variable {s : State} {u k : Nat}

/-- The host reads exactly the committed units (10_state.md R34). -/
theorem hostReadUnit_committed (h : u < s.e.wUnit) :
    s.hostReadUnit u = some (unitAt s.params.unit s.e.byteAt u) := by
  rw [State.hostReadUnit, if_pos h]

theorem hostReadUnit_uncommitted (h : s.e.wUnit ≤ u) : s.hostReadUnit u = none := by
  rw [State.hostReadUnit, if_neg (Nat.not_lt.2 h)]

/-- A unit the host reads holds the bits of `B_E` at their positions of R61. -/
theorem unitBit_hostRead {p : Params} {e : EngineE} (h : k / p.unit.bits < e.wUnit) :
    (unitAt p.unit e.byteAt (k / p.unit.bits)).getLsbD (p.unit.bits - 1 - k % p.unit.bits) = sinkBit p e k := by
  rw [sinkBit, if_pos h, unitBit]

end HostReads

/-- Settles O20: a bit's place in its byte does not depend on the unit's width (`unitBit_unitAt`), and source, committed
sink and host all read units made of the same bytes. -/
theorem unitsAreBigEndianBytes : Obligations.UnitsAreBigEndianBytes := by
  intro s
  refine ⟨streamBit_byte, fun k hk => ?_, fun u => hostReadUnit_uncommitted⟩
  have hunit : k / s.params.unit.bits < s.e.wUnit := (Nat.div_lt_iff_lt_mul s.params.unit.bits_pos).2 hk
  exact ⟨sinkBit_committed hunit, _, hostReadUnit_committed hunit, unitBit_hostRead hunit⟩

section HostEvents
variable {s : State} {rest : List Request} {addr : Nat} {bytes : List Byte}

/-- An event that needs no instruction settles the whole step. -/
theorem step_of_settled {r : Request} {o : Result} (h : s.input = r :: rest)
    (hf : fetch r { s with input := rest } = .settled o) : step s = o := by
  rw [step_cons h, hf]

/-- The phases of a session that still reads its source (45_framing.md R232). -/
theorem phaseD_live_iff (ph : PhaseD) :
    ph.live = true ↔ ph = .ready ∨ ph = .afterFirst ∨ ph = .streaming := by
  cases ph <;> simp [PhaseD.live]

theorem hostWriteForbidden_iff :
    hostWriteForbidden addr bytes s = true ↔
      (s.d.phase = .ready ∨ s.d.phase = .afterFirst ∨ s.d.phase = .streaming) ∧ s.d.fault = .none ∧
        bytes ≠ [] ∧ addr < s.d.srcLenUnits * s.params.unit.bytes := by
  simp only [hostWriteForbidden, Bool.and_eq_true, decide_eq_true_eq, phaseD_live_iff, and_assoc]

theorem hostWrite_forbidden (h : hostWriteForbidden addr bytes s = true) :
    hostWrite addr bytes s = .refused .sourceChangedInSession := by
  rw [hostWrite, if_pos h]

theorem hostWrite_allowed (h : ¬ hostWriteForbidden addr bytes s = true) :
    hostWrite addr bytes s = .next { s with d := { s.d with smD := s.d.smD.writeBytes addr bytes } } := by
  rw [hostWrite, if_neg h]

end HostEvents

/-- Settles O8: each of these events is settled without an instruction, and what a host's write leaves at every address
is `Memory.read_writeBytes`. -/
theorem hostEventsAct : Obligations.HostEventsAct := by
  intro s rest
  refine ⟨step_idle, fun hin => step_of_settled hin rfl, fun addr bytes hin => ?_⟩
  have hstep : step s = hostWrite addr bytes { s with input := rest } := step_of_settled hin rfl
  have hforbidden := hostWriteForbidden_iff (s := { s with input := rest }) (addr := addr) (bytes := bytes)
  split
  · next hlive => rw [hstep, hostWrite_forbidden (hforbidden.2 hlive)]
  · next hfree =>
    exact ⟨s.d.smD.writeBytes addr bytes, by rw [hstep, hostWrite_allowed (mt hforbidden.1 hfree)],
      Memory.wf_writeBytes _ _ _, fun a => Memory.read_writeBytes _ a _ _⟩

end Machine
end Sys2Proof

/-! Fields, command words and the operation numbers (30_encoding.md R91 to R95). -/

namespace Sys2Proof

section Fields
variable {w : Nat}

/-- A field read into a wider register stands there zero-extended (R142). -/
theorem ofBits_bitsOf_setWidth {v : Nat} (x : BitVec v) (h : v ≤ w) : ofBits w (bitsOf x v) = x.setWidth w := by
  have hlt : (x.setWidth w).toNat < 2 ^ v := by
    rw [BitVec.toNat_setWidth]
    exact Nat.lt_of_le_of_lt (Nat.mod_le _ _) x.isLt
  rw [← bitsOf_setWidth x h]
  exact ofBits_bitsOf _ _ hlt

/-- A field as wide as its register is read back whole. -/
theorem ofBits_bitsOf_self (x : BitVec w) : ofBits w (bitsOf x w) = x := ofBits_bitsOf x w x.isLt

theorem ofBits_append_singleton (bs : List Bool) (b : Bool) : ofBits w (bs ++ [b]) = pushBit (ofBits w bs) b :=
  ofBitsFrom_append _ _ _

theorem bitsOf_pushBit (v : BitVec w) (b : Bool) {n : Nat} (h : n < w) :
    bitsOf (pushBit v b) (n + 1) = bitsOf v n ++ [b] := by
  induction n with
  | zero => simp [bitsOf, getLsbD_pushBit v b 0 h]
  | succ n ih =>
    rw [bitsOf, ih (by omega), getLsbD_pushBit v b _ h, bitsOf]
    simp

/-- Bits read as a number and written again are the same bits (R62, R142). -/
theorem bitsOf_ofBits {bs : List Bool} (h : bs.length ≤ w) : bitsOf (ofBits w bs) bs.length = bs := by
  induction bs using List.reverseRecOn with
  | nil => rfl
  | append_singleton bs b ih =>
    rw [List.length_append, List.length_singleton] at h ⊢
    rw [ofBits_append_singleton, bitsOf_pushBit _ _ h, ih (by omega)]

/-- A number read from `bs.length` bits fits them. -/
theorem toNat_ofBits_lt {bs : List Bool} (h : bs.length ≤ w) : (ofBits w bs).toNat < 2 ^ bs.length := by
  refine Nat.lt_pow_two_of_testBit _ fun i hi => ?_
  rcases Nat.lt_or_ge i w with hiw | hiw
  · have hbit := getLsbD_ofBits_bitsOf (ofBits w bs) bs.length i hiw
    rw [bitsOf_ofBits h, decide_eq_false (by omega), Bool.false_and] at hbit
    exact hbit
  · exact BitVec.getLsbD_of_ge _ _ hiw

end Fields

section CommandWords
variable (op : Byte) (k : Bool) (a b : W64)

/-! The fields of a word are the four it was packed from (R91). -/

@[simp] theorem packWord_op : (packWord op k a b).extractLsb' 129 8 = op := BitVec.extractLsb'_append_eq_left

@[simp] theorem packWord_K : (packWord op k a b).getLsbD 128 = k := by
  have hlow : (packWord op k a b).getLsbD 128 = (BitVec.ofBool k ++ (a ++ b)).getLsbD 128 := BitVec.getLsbD_append
  rw [hlow, BitVec.getLsbD_append]
  cases k <;> rfl

@[simp] theorem packWord_A : (packWord op k a b).extractLsb' 64 64 = a := by
  have hlow : (packWord op k a b).extractLsb' 64 64 = (a ++ b).extractLsb' 64 64 :=
    (BitVec.extractLsb'_append_eq_of_add_le (by decide)).trans (BitVec.extractLsb'_append_eq_of_add_le (by decide))
  rw [hlow, BitVec.extractLsb'_append_eq_left]

@[simp] theorem packWord_B : (packWord op k a b).extractLsb' 0 64 = b := by
  have hlow : (packWord op k a b).extractLsb' 0 64 = (a ++ b).extractLsb' 0 64 :=
    (BitVec.extractLsb'_append_eq_of_add_le (by decide)).trans (BitVec.extractLsb'_append_eq_of_add_le (by decide))
  rw [hlow, BitVec.extractLsb'_append_eq_right]

@[simp] theorem decodeWord_packWord : decodeWord (packWord op k a b) = decodeOp op k a b := by
  rw [decodeWord, packWord_op, packWord_K, packWord_A, packWord_B]

@[simp] theorem kindOf_bit (x : PredKind) : kindOf x.bit = x := by cases x <;> rfl

@[simp] theorem bitVal_zero (c : Bool) : (bitVal 64 c)[0] = c := by cases c <;> rfl

@[simp] theorem engineOf_engineField (x : Engine) : engineOf ((engineField x)[0]) = x := by cases x <;> rfl

/-- The operation number of R92 that names an instruction; `none` for a stream code word. -/
def opNumber (i : Instr) : Option Byte := (encodeWord i).map fun w => w.extractLsb' 129 8

/-- One row of the operation number table: an instruction that its own number selects. -/
theorem opNumber_of_row {c : Byte} {i j : Instr} {r : Except Reject Instr} (hrow : opNumber j = some c)
    (hrest : r = .ok i → opNumber i = some op) : (if op = c then .ok j else r) = .ok i → opNumber i = some op := by
  intro h
  split at h
  · next hop =>
    cases h
    rw [hop]
    exact hrow
  · exact hrest h

/-- An operation number names one operation only (R92). -/
theorem opNumber_of_decodeOp {i : Instr} : decodeOp op k a b = .ok i → opNumber i = some op := by
  unfold decodeOp
  iterate 23 refine opNumber_of_row _ (congrArg some (packWord_op _ _ _ _)) ?_
  exact nofun

/-- The word an instruction is packed into decodes to it, every operand kept (R92, R93; log 6). -/
theorem decodeWord_of_encodeWord {i : Instr} {w : CommandWord} (h : encodeWord i = some w) : decodeWord w = .ok i := by
  cases i <;> cases h <;> simp [decodeOp]

end CommandWords
end Sys2Proof

/-! Code words that end in one field (30_encoding.md R97 to R102): the bits that tell the word apart, then the field.
Decoding and encoding agree on all of them for one reason, so it is said once (`FieldCode`) and each kind of word is
shown to be such a code. -/

namespace Sys2Proof

/-- In space `sp` the bits `pre` announce the words `k v`, and the field `v` of `n` bits follows. -/
structure FieldCode (sp : Space) (pre : List Bool) (n : Nat) (k : W64 → Instr) : Prop where
  width : n ≤ 64
  wf : ∀ v : W64, v.toNat < 2 ^ n → (k v).wf = true
  bits : ∀ v : W64, v.toNat < 2 ^ n → encode (k v) = pre ++ bitsOf v n
  reads : ∀ r : List Bool, n ≤ r.length → decode sp (pre ++ r) = .ok (k (ofBits 64 (r.take n)), pre.length + n)
  short : ∀ (r : List Bool) (x : Instr × Nat), r.length < n → decode sp (pre ++ r) ≠ .ok x

/-- `i` is well-formed and its encoding is the first `m` bits of `bs`. -/
def ReadExactly (bs : List Bool) (i : Instr) (m : Nat) : Prop :=
  i.wf = true ∧ m ≤ bs.length ∧ encode i = bs.take m

namespace FieldCode
variable {sp : Space} {pre r rest : List Bool} {n m : Nat} {k : W64 → Instr} {i : Instr}

/-- Encoded and then decoded, whatever follows in the stream (R107). -/
theorem decode_encode (h : FieldCode sp pre n k) {v : W64} (hv : v.toNat < 2 ^ n) :
    decode sp (encode (k v) ++ rest) = .ok (k v, (encode (k v)).length) := by
  have hlen : n ≤ (bitsOf v n ++ rest).length := by simp
  have htake : (bitsOf v n ++ rest).take n = bitsOf v n := List.take_left' (length_bitsOf v n)
  rw [h.bits v hv, List.append_assoc, h.reads _ hlen, htake, ofBits_bitsOf v n hv, List.length_append, length_bitsOf]

/-- Decoded and then encoded. -/
theorem encode_decode (h : FieldCode sp pre n k) (hd : decode sp (pre ++ r) = .ok (i, m)) :
    ReadExactly (pre ++ r) i m := by
  have hlen : n ≤ r.length := Nat.le_of_not_lt fun hlt => h.short r _ hlt hd
  have htake : (r.take n).length = n := List.length_take_of_le hlen
  have hv : (ofBits 64 (r.take n)).toNat < 2 ^ n := by
    have hlt := toNat_ofBits_lt (w := 64) (bs := r.take n) (by rw [htake]; exact h.width)
    rwa [htake] at hlt
  have hbits : bitsOf (ofBits 64 (r.take n)) n = r.take n := by
    have heq := bitsOf_ofBits (w := 64) (bs := r.take n) (by rw [htake]; exact h.width)
    rwa [htake] at heq
  rw [h.reads r hlen] at hd
  cases hd
  refine ⟨h.wf _ hv, by rw [List.length_append]; omega, ?_⟩
  rw [h.bits _ hv, hbits, List.take_length_add_append]

end FieldCode

/-! The kinds of word. -/

theorem fieldAt_of_le {n used : Nat} {r : List Bool} (k : W64 → Instr) (h : n ≤ r.length) :
    fieldAt n used r k = .ok (k (ofBits 64 (r.take n)), used + n) := by
  rw [fieldAt, if_neg (Nat.not_lt.2 h)]

theorem fieldAt_of_lt {n used : Nat} {r : List Bool} (k : W64 → Instr) (x : Instr × Nat) (h : r.length < n) :
    fieldAt n used r k ≠ .ok x := by
  rw [fieldAt, if_pos h]
  exact nofun

/-- A word whose field `decode` hands to `fieldAt`. -/
theorem FieldCode.of_fieldAt {sp : Space} {pre : List Bool} {n : Nat} {k : W64 → Instr} (hn : n ≤ 64)
    (hk : ∀ v : W64, v.toNat < 2 ^ n → (k v).wf = true ∧ encode (k v) = pre ++ bitsOf v n)
    (hd : ∀ r, decode sp (pre ++ r) = fieldAt n pre.length r k) : FieldCode sp pre n k where
  width := hn
  wf v hv := (hk v hv).1
  bits v hv := (hk v hv).2
  reads r hr := by rw [hd, fieldAt_of_le k hr]
  short r x hr := by rw [hd]; exact fieldAt_of_lt k x hr

/-- A word that is its field alone, as where nothing has to be told apart (R97, R98). -/
theorem FieldCode.of_raw {sp : Space} {n : Nat} {k : W64 → Instr} (hn : n ≤ 64)
    (hk : ∀ v : W64, v.toNat < 2 ^ n → (k v).wf = true ∧ encode (k v) = bitsOf v n)
    (hd : ∀ bs, decode sp bs =
      if bs.length < n then .error (.exhausted 0) else .ok (k (ofBits 64 (bs.take n)), n)) : FieldCode sp [] n k where
  width := hn
  wf v hv := (hk v hv).1
  bits v hv := (hk v hv).2
  reads r hr := by rw [List.nil_append, hd, if_neg (Nat.not_lt.2 hr), List.length_nil, Nat.zero_add]
  short r x hr := by rw [List.nil_append, hd, if_pos hr]; exact nofun

theorem fieldCode_header : FieldCode .header [] 64 .header := .of_raw (by decide) (fun _ _ => ⟨rfl, rfl⟩) fun _ => rfl

theorem fieldCode_firstValue : FieldCode .firstValue [] 64 .firstValue :=
  .of_raw (by decide) (fun _ _ => ⟨rfl, rfl⟩) fun _ => rfl

/-! The all-ones fields (R105). -/

/-- A field that is not all ones is still not all ones where it stands alone. -/
theorem setWidth_ne_allOnes {n : Nat} {v : W64} (hn : n ≤ 64) (hv : v.toNat < 2 ^ n)
    (hne : v ≠ BitVec.ofNat 64 (2 ^ n - 1)) : v.setWidth n ≠ BitVec.allOnes n := by
  intro h
  have hpow : 2 ^ n ≤ 2 ^ 64 := Nat.pow_le_pow_right (by decide) hn
  have hnat := congrArg BitVec.toNat h
  rw [BitVec.toNat_setWidth, BitVec.toNat_allOnes, Nat.mod_eq_of_lt hv] at hnat
  refine hne (BitVec.eq_of_toNat_eq ?_)
  rw [BitVec.toNat_ofNat, hnat, Nat.mod_eq_of_lt (by omega)]

theorem fieldCode_firstDelta : FieldCode .firstDelta [] 27 firstDeltaWord := by
  refine .of_raw (by decide) (fun v hv => ?_) fun _ => rfl
  rw [firstDeltaWord]
  split
  · next hmarker => subst hmarker; decide
  · next hmarker =>
    exact ⟨bne_iff_ne.2 (setWidth_ne_allOnes (by decide) hv hmarker), bitsOf_setWidth v (Nat.le_refl 27)⟩

theorem fieldCode_ts7 : FieldCode .timestamp [true, false] 7 fun v => .ts7 (v.setWidth 7) :=
  .of_fieldAt (by decide) (fun v _ => ⟨rfl, congrArg ([true, false] ++ ·) (bitsOf_setWidth v (Nat.le_refl 7))⟩)
    fun _ => rfl

theorem fieldCode_ts9 : FieldCode .timestamp [true, true, false] 9 fun v => .ts9 (v.setWidth 9) :=
  .of_fieldAt (by decide) (fun v _ => ⟨rfl, congrArg ([true, true, false] ++ ·) (bitsOf_setWidth v (Nat.le_refl 9))⟩)
    fun _ => rfl

theorem fieldCode_ts12 : FieldCode .timestamp [true, true, true, false] 12 fun v => .ts12 (v.setWidth 12) :=
  .of_fieldAt (by decide)
    (fun v _ => ⟨rfl, congrArg ([true, true, true, false] ++ ·) (bitsOf_setWidth v (Nat.le_refl 12))⟩) fun _ => rfl

theorem fieldCode_ts32 : FieldCode .timestamp [true, true, true, true] 32 ts32Word := by
  refine .of_fieldAt (by decide) (fun v hv => ?_) fun _ => rfl
  rw [ts32Word]
  split
  · next hsentinel => subst hsentinel; decide
  · next hsentinel =>
    exact ⟨bne_iff_ne.2 (setWidth_ne_allOnes (by decide) hv hsentinel),
      congrArg ([true, true, true, true] ++ ·) (bitsOf_setWidth v (Nat.le_refl 32))⟩

theorem fieldCode_valReuse {n : Nat} (hn : n ≤ 64) : FieldCode (.value n) [true, false] n (.valReuse n) := by
  refine .of_fieldAt hn (fun v hv => ⟨?_, rfl⟩) fun _ => rfl
  rw [Instr.wf, wfValReuse, decide_eq_true hn, decide_eq_true hv, Bool.and_self]

theorem encode_stream {i : Instr} (h : encodeWord i = none) : encode i = encodeStream i := by
  rw [encode, h]

/-! VAL_NEW (R101, R102): the two counts stand before the tail and give its width. -/

/-- The bits of a VAL_NEW before its tail. -/
def newPrefix (leading lengthM1 : BitVec 6) : List Bool := true :: true :: (bitsOf leading 6 ++ bitsOf lengthM1 6)

section New
variable {n m : Nat} {leading lengthM1 : BitVec 6} {r : List Bool} {i : Instr}

theorem length_newPrefix : (newPrefix leading lengthM1).length = 14 := by
  simp [newPrefix]

/-- A value word that starts as a VAL_NEW has both its counts, or is cut off inside them. -/
theorem exists_newPrefix (h : decodeNew r = .ok (i, m)) :
    ∃ leading lengthM1 tail, true :: true :: r = newPrefix leading lengthM1 ++ tail := by
  have hlen : 12 ≤ r.length := by
    unfold decodeNew at h
    split at h
    · cases h
    · split at h
      · cases h
      · omega
  have hl : (r.take 6).length = 6 := List.length_take_of_le (by omega)
  have hm : ((r.drop 6).take 6).length = 6 := List.length_take_of_le (by rw [List.length_drop]; omega)
  have hlead := bitsOf_ofBits (w := 6) (bs := r.take 6) hl.le
  have hfield := bitsOf_ofBits (w := 6) (bs := (r.drop 6).take 6) hm.le
  rw [hl] at hlead
  rw [hm] at hfield
  refine ⟨ofBits 6 (r.take 6), ofBits 6 ((r.drop 6).take 6), r.drop 12, ?_⟩
  rw [newPrefix, hlead, hfield, List.cons_append, List.cons_append, List.append_assoc,
    show r.drop 12 = (r.drop 6).drop 6 by rw [List.drop_drop], List.take_append_drop, List.take_append_drop]

/-- Once the counts are there, they tell whether and how wide a tail follows (R102, R105). -/
theorem decode_newPrefix :
    decode (.value n) (newPrefix leading lengthM1 ++ r) =
      if 64 < leading.toNat + lengthM1.toNat + 1 then .ok (.valNew leading lengthM1 0#64, 14)
      else fieldAt (lengthM1.toNat + 1) 14 r fun v => .valNew leading lengthM1 v := by
  have hl : (bitsOf leading 6 ++ (bitsOf lengthM1 6 ++ r)).take 6 = bitsOf leading 6 :=
    List.take_left' (length_bitsOf _ _)
  have hd : (bitsOf leading 6 ++ (bitsOf lengthM1 6 ++ r)).drop 6 = bitsOf lengthM1 6 ++ r :=
    List.drop_left' (length_bitsOf _ _)
  have hm : (bitsOf lengthM1 6 ++ r).take 6 = bitsOf lengthM1 6 := List.take_left' (length_bitsOf _ _)
  have hr : (bitsOf lengthM1 6 ++ r).drop 6 = r := List.drop_left' (length_bitsOf _ _)
  change decodeNew ((bitsOf leading 6 ++ bitsOf lengthM1 6) ++ r) = _
  rw [List.append_assoc, decodeNew, if_neg (by simp), if_neg (by simp; omega), hl, hd, hm, ofBits_bitsOf_self,
    ofBits_bitsOf_self, show (12 : Nat) = 6 + 6 from rfl, ← List.drop_drop, hd, hr]

theorem encode_valNew {v : W64} (h : leading.toNat + lengthM1.toNat + 1 ≤ 64) :
    encode (.valNew leading lengthM1 v) = newPrefix leading lengthM1 ++ bitsOf v (lengthM1.toNat + 1) := by
  rw [encode_stream rfl, encodeStream, if_pos h, newPrefix, List.cons_append, List.cons_append, List.append_assoc]

theorem encode_valNew_impossible {v : W64} (h : 64 < leading.toNat + lengthM1.toNat + 1) :
    encode (.valNew leading lengthM1 v) = newPrefix leading lengthM1 := by
  rw [encode_stream rfl, encodeStream, if_neg (by omega), List.append_nil, newPrefix]

theorem fieldCode_valNew (h : leading.toNat + lengthM1.toNat + 1 ≤ 64) :
    FieldCode (.value n) (newPrefix leading lengthM1) (lengthM1.toNat + 1) (.valNew leading lengthM1) := by
  refine .of_fieldAt (by omega) (fun v hv => ⟨?_, encode_valNew h⟩) fun r => ?_
  · rw [Instr.wf, wfValNew, if_pos h, decide_eq_true hv]
  · rw [decode_newPrefix, if_neg (by omega), length_newPrefix]

end New

/-! Decoding what was encoded, word by word. -/

section RoundTrip
variable {i : Instr} {rest : List Bool}

theorem setWidth_setWidth_64 {n : Nat} (p : BitVec n) (h : n ≤ 64) : (p.setWidth 64).setWidth n = p := by
  rw [BitVec.setWidth_setWidth_of_le _ h, BitVec.setWidth_eq]

theorem toNat_setWidth_64_lt {n : Nat} (p : BitVec n) : (p.setWidth 64).toNat < 2 ^ n := by
  rw [BitVec.toNat_setWidth]
  exact Nat.lt_of_le_of_lt (Nat.mod_le _ _) p.isLt

/-- A payload that is not all ones is not the all-ones payload in a wider register either (R105). -/
theorem setWidth_64_ne {n : Nat} {p : BitVec n} {c : W64} (hn : n ≤ 64) (hp : p ≠ BitVec.allOnes n)
    (hc : c.setWidth n = BitVec.allOnes n) : p.setWidth 64 ≠ c := by
  rintro rfl
  exact hp ((setWidth_setWidth_64 p hn).symm.trans hc)

theorem setWidth_ne_firstDeltaEmpty {d : BitVec 27} (h : d ≠ BitVec.allOnes 27) :
    d.setWidth 64 ≠ Config.firstDeltaEmpty :=
  setWidth_64_ne (by decide) h (by decide)

theorem setWidth_ne_tsSentinel {p : BitVec 32} (h : wfTs32 p = true) : p.setWidth 64 ≠ Config.tsSentinel :=
  setWidth_64_ne (by decide) (bne_iff_ne.1 h) (by decide)

theorem firstDeltaWord_setWidth {d : BitVec 27} (h : wfFirstDelta d = true) :
    firstDeltaWord (d.setWidth 64) = .firstDelta d := by
  rw [firstDeltaWord, if_neg (setWidth_ne_firstDeltaEmpty (bne_iff_ne.1 h)), setWidth_setWidth_64 d (by decide)]

theorem ts32Word_setWidth {p : BitVec 32} (h : wfTs32 p = true) : ts32Word (p.setWidth 64) = .ts32 p := by
  rw [ts32Word, if_neg (setWidth_ne_tsSentinel h), setWidth_setWidth_64 p (by decide)]

/-- A word of the command space is read back from its 137 bits (R91). -/
theorem decode_encodeWord {w : CommandWord} (h : encodeWord i = some w) :
    decode .word (bitsOf w 137 ++ rest) = .ok (i, 137) := by
  have htake : (bitsOf w 137 ++ rest).take 137 = bitsOf w 137 := List.take_left' (length_bitsOf w 137)
  rw [decode, if_neg (by simp), htake, ofBits_bitsOf_self, decodeWord_of_encodeWord h]

/-- A VAL_SAME in any window (R101, R107). -/
theorem decode_encode_valSame (n : Nat) :
    decode (.value n) (encode .valSame ++ rest) = .ok (.valSame, (encode .valSame).length) := rfl

/-- A VAL_NEW in any window (R101, R107). -/
theorem decode_encode_valNew (n : Nat) {leading lengthM1 : BitVec 6} {bits : W64}
    (h : (Instr.valNew leading lengthM1 bits).wf = true) :
    decode (.value n) (encode (.valNew leading lengthM1 bits) ++ rest) =
      .ok (.valNew leading lengthM1 bits, (encode (.valNew leading lengthM1 bits)).length) := by
  rw [Instr.wf, wfValNew] at h
  split at h
  · next hfit => exact (fieldCode_valNew hfit).decode_encode (of_decide_eq_true h)
  · next hfit =>
    have hzero : bits = 0#64 := beq_iff_eq.1 h
    rw [encode_valNew_impossible (by omega), decode_newPrefix, if_pos (by omega), length_newPrefix, hzero]

/-- What engine E alone writes, standing alone (R103, R104). -/
theorem decode_padding {k : Nat} (h : k < 64) : decode .trailer (List.replicate k false) = .ok (.padding k, k) := by
  have hne : List.replicate k false ≠ terminatorBits := fun heq => by
    have hmem : true ∈ List.replicate k false := by rw [heq]; decide
    exact absurd (List.eq_of_mem_replicate hmem) (by decide)
  have hzeros : (List.replicate k false).all (fun b => !b) = true := by
    rw [List.all_eq_true]
    exact fun b hb => by rw [List.eq_of_mem_replicate hb]; rfl
  change decodeTrailer _ = _
  rw [decodeTrailer, if_neg hne, hzeros, List.length_replicate, decide_eq_true h]
  rfl

theorem space_of_encodeWord {w : CommandWord} (h : encodeWord i = some w) : i.space = .word := by
  cases i <;> cases h <;> rfl

/-- Every well-formed stream code word, in its own space (R97 to R105). -/
theorem decode_encode_stream (hs : encodeWord i = none) (hwf : i.wf = true) (hrest : i.space = .trailer → rest = []) :
    decode i.space (encode i ++ rest) = .ok (i, (encode i).length) := by
  cases i
  case header t => exact fieldCode_header.decode_encode t.isLt
  case firstDelta d =>
    have h := fieldCode_firstDelta.decode_encode (rest := rest) (toNat_setWidth_64_lt d)
    rwa [firstDeltaWord_setWidth hwf] at h
  case emptyMarker => exact fieldCode_firstDelta.decode_encode (v := Config.firstDeltaEmpty) (by decide)
  case firstValue v => exact fieldCode_firstValue.decode_encode v.isLt
  case tsZero => rfl
  case ts7 p =>
    rw [← setWidth_setWidth_64 p (by decide)]
    exact fieldCode_ts7.decode_encode (toNat_setWidth_64_lt p)
  case ts9 p =>
    rw [← setWidth_setWidth_64 p (by decide)]
    exact fieldCode_ts9.decode_encode (toNat_setWidth_64_lt p)
  case ts12 p =>
    rw [← setWidth_setWidth_64 p (by decide)]
    exact fieldCode_ts12.decode_encode (toNat_setWidth_64_lt p)
  case ts32 p =>
    have h := fieldCode_ts32.decode_encode (rest := rest) (toNat_setWidth_64_lt p)
    rwa [ts32Word_setWidth hwf] at h
  case tsSentinel => exact fieldCode_ts32.decode_encode (v := Config.tsSentinel) (by decide)
  case valSame => rfl
  case valReuse n bits =>
    rw [Instr.wf, wfValReuse, Bool.and_eq_true, decide_eq_true_eq, decide_eq_true_eq] at hwf
    exact (fieldCode_valReuse hwf.1).decode_encode hwf.2
  case valNew leading lengthM1 bits => exact decode_encode_valNew 0 hwf
  case terminator =>
    rw [hrest rfl]
    rfl
  case padding k =>
    have hk : k < 64 := of_decide_eq_true hwf
    have hbits : encode (.padding k) = List.replicate k false := rfl
    rw [hrest rfl, List.append_nil, hbits, List.length_replicate]
    exact decode_padding hk
  all_goals cases hs

end RoundTrip

/-- Settles O1: a command word is read back by its four fields, and a stream word by the bits that announce it and its
field (`FieldCode.decode_encode`). -/
theorem decodeEncodeAgree : Obligations.DecodeEncodeAgree := by
  refine ⟨fun i rest hwf hrest => ?_, fun n rest =>
    ⟨decode_encode_valSame n, fun leading lengthM1 bits hwf => decode_encode_valNew n hwf⟩⟩
  cases hw : encodeWord i with
  | none => exact decode_encode_stream hw hwf hrest
  | some w =>
    rw [space_of_encodeWord hw, encode, hw, length_bitsOf]
    exact decode_encodeWord hw

end Sys2Proof

/-! Encoding what was decoded, space by space (30_encoding.md R96 to R107). -/

namespace Sys2Proof

section Spaces
variable {i : Instr} {m : Nat} {bs : List Bool}

/-- A timestamp code is told apart by its run of ones (R99). -/
theorem readExactly_timestamp (h : decode .timestamp bs = .ok (i, m)) : ReadExactly bs i m := by
  match bs, h with
  | false :: r, h =>
    cases h
    exact ⟨rfl, by simp, rfl⟩
  | true :: false :: r, h => exact fieldCode_ts7.encode_decode h
  | true :: true :: false :: r, h => exact fieldCode_ts9.encode_decode h
  | true :: true :: true :: false :: r, h => exact fieldCode_ts12.encode_decode h
  | true :: true :: true :: true :: r, h => exact fieldCode_ts32.encode_decode h

/-- A VAL_NEW has its tail, or is impossible and ends after its counts (R102, R105). -/
theorem readExactly_new {n : Nat} {leading lengthM1 : BitVec 6} {r : List Bool}
    (h : decode (.value n) (newPrefix leading lengthM1 ++ r) = .ok (i, m)) :
    ReadExactly (newPrefix leading lengthM1 ++ r) i m := by
  by_cases hfit : leading.toNat + lengthM1.toNat + 1 ≤ 64
  · exact (fieldCode_valNew hfit).encode_decode h
  · rw [decode_newPrefix, if_pos (by omega)] at h
    cases h
    refine ⟨?_, by rw [List.length_append, length_newPrefix]; omega, ?_⟩
    · rw [Instr.wf, wfValNew, if_neg hfit, beq_self_eq_true]
    · rw [encode_valNew_impossible (by omega), List.take_left' length_newPrefix]

/-- A value code is told apart by its two control bits (R101). -/
theorem readExactly_value {n : Nat} (hn : n ≤ 64) (h : decode (.value n) bs = .ok (i, m)) : ReadExactly bs i m := by
  match bs, h with
  | false :: r, h =>
    cases h
    exact ⟨rfl, by simp, rfl⟩
  | true :: false :: r, h => exact (fieldCode_valReuse hn).encode_decode h
  | true :: true :: r, h =>
    obtain ⟨leading, lengthM1, tail, hbits⟩ := exists_newPrefix (r := r) h
    rw [hbits] at h ⊢
    exact readExactly_new h

/-- The terminator, or a run of zeros, stands alone (R103, R104). -/
theorem readExactly_trailer (h : decode .trailer bs = .ok (i, m)) : ReadExactly bs i m := by
  change decodeTrailer bs = _ at h
  unfold decodeTrailer at h
  split at h
  · next hterm =>
    cases h
    subst hterm
    exact ⟨rfl, by decide, rfl⟩
  · split at h
    · next hpad =>
      cases h
      rw [Bool.and_eq_true, List.all_eq_true] at hpad
      obtain ⟨hzeros, hlen⟩ := hpad
      refine ⟨hlen, Nat.le_refl _, ?_⟩
      rw [List.take_length]
      exact (List.eq_replicate_of_mem fun b hb => by simpa using hzeros b hb).symm
    · cases h

end Spaces

/-- Settles O2: space by space, what announces a word settles which code it is of, and a code with a field is read back
exactly (`FieldCode.encode_decode`). -/
theorem encodeDecodeAgree : Obligations.EncodeDecodeAgree := by
  intro sp bs i n hword hvalue h
  cases sp with
  | word => exact absurd rfl hword
  | header => exact fieldCode_header.encode_decode (pre := []) h
  | firstDelta => exact fieldCode_firstDelta.encode_decode (pre := []) h
  | firstValue => exact fieldCode_firstValue.encode_decode (pre := []) h
  | timestamp => exact readExactly_timestamp h
  | value k => exact readExactly_value (hvalue k rfl) h
  | trailer => exact readExactly_trailer h

end Sys2Proof

/-! Events and the instructions they decode to (30_encoding.md R91 to R95, R107; 45_framing.md R221 line 1). -/

namespace Sys2Proof
namespace Machine

section Steps
variable {s : State} {rest : List Request} {x : Engine} {i : Instr}

/-- An event that decodes to an instruction runs it on the state without the event. -/
theorem step_of_instr {r : Request} (h : s.input = r :: rest) (hf : fetch r { s with input := rest } = .instr i) :
    step s = exec i { s with input := rest } := by
  rw [step_cons h, hf]

theorem fetchCommand_instr {w : CommandWord} (hw : decodeWord w = .ok i) (hport : i.port = some x) :
    fetchCommand x w s = .instr i := by
  rw [fetchCommand, hw]
  exact if_pos hport

theorem fetchMicro_instr {w : CommandWord} (hw : decodeWord w = .ok i) (hport : i.port = none) :
    fetchMicro w = .instr i := by
  rw [fetchMicro, hw]
  exact if_pos hport

theorem fetchElement_instr {sp : Space} {n : Nat} (hsp : Space.read sp = true)
    (hd : decode (spaceNow sp s.d) (upcoming s.params s.d) = .ok (i, n)) : fetchElement sp s = .instr i := by
  rw [fetchElement, if_pos hsp, hd]

theorem fetchEmit_instr {bs : List Bool} {n : Nat} (hd : decode .trailer bs = .ok (i, n)) :
    fetchEmit bs = .instr i := by
  rw [fetchEmit, hd]

/-- A word that is no command of this port's engine is refused (R95). -/
theorem fetchCommand_illegal {w : CommandWord} (h : ∀ i, decodeWord w = .ok i → i.port ≠ some x) :
    fetchCommand x w s = .settled (.next (s.refuse x .refusedIllegalOp)) := by
  cases hw : decodeWord w with
  | error r => rw [fetchCommand, hw]
  | ok i =>
    rw [fetchCommand, hw]
    exact if_neg (h i hw)

end Steps

/-! Which operation numbers are commands of which port (R92). -/

section Ports
variable {op : Byte} {k : Bool} {a b : W64} {i : Instr}

theorem op_of_port_E (h : decodeOp op k a b = .ok i) (hport : i.port = some .E) : op ∈ [0x01#8, 0x02#8, 0x03#8] := by
  have hop := opNumber_of_decodeOp op k a b h
  rcases port_E_cases hport with ⟨_, _, _, rfl⟩ | ⟨_, _, rfl⟩ | rfl <;>
    simp only [opNumber, encodeWord, Option.map_some, packWord_op, Option.some.injEq] at hop <;> simp [← hop]

theorem op_of_port_D (h : decodeOp op k a b = .ok i) (hport : i.port = some .D) : op ∈ [0x11#8, 0x12#8] := by
  have hop := opNumber_of_decodeOp op k a b h
  rcases port_D_cases hport with ⟨_, _, _, rfl⟩ | rfl <;>
    simp only [opNumber, encodeWord, Option.map_some, packWord_op, Option.some.injEq] at hop <;> simp [← hop]

/-- `K` is read by C_INIT and D_INIT (R93), and by PRED_INIT, which is no command (R92, log 6). -/
theorem decodeOp_K (h1 : op ≠ 0x01#8) (h2 : op ≠ 0x11#8) (h3 : op ≠ 0x40#8) :
    decodeOp op true a b = decodeOp op false a b := by
  simp only [decodeOp, if_neg h1, if_neg h2, if_neg h3]

end Ports

/-- Settles O5: the instruction a word decodes to has the word's operation number, and the port's commands have the
numbers of R92 only; PRED_INIT reads `K`, but is refused on both ports. -/
theorem illegalOpRefused : Obligations.IllegalOpRefused := by
  refine ⟨fun s x w rest hin hop => ?_, fun s x op a b rest h1 h2 => ?_⟩
  · have hillegal : ∀ i, decodeWord w = .ok i → i.port ≠ some x := by
      intro i hw hport
      cases x with
      | E => exact hop (op_of_port_E hw hport)
      | D => exact hop (op_of_port_D hw hport)
    rw [step_of_settled hin (fetchCommand_illegal hillegal)]
    cases x <;> rfl
  · have hfetch : ∀ t : State, fetchCommand x (packWord op true a b) t = fetchCommand x (packWord op false a b) t := by
      intro t
      by_cases h3 : op = 0x40#8
      · subst h3
        have hillegal : ∀ k i, decodeWord (packWord 0x40#8 k a b) = .ok i → i.port ≠ some x := by
          intro k i hw
          rw [decodeWord_packWord] at hw
          cases hw
          exact nofun
        rw [fetchCommand_illegal (hillegal true), fetchCommand_illegal (hillegal false)]
      · rw [fetchCommand, fetchCommand, decodeWord_packWord, decodeWord_packWord, decodeOp_K h1 h2 h3]
    rw [step_cons (q := .command x (packWord op true a b)) rfl, step_cons (q := .command x (packWord op false a b)) rfl,
      fetch, fetch, hfetch]

/-- A word written out bit by bit decodes to the instruction it is the encoding of. -/
theorem decode_written {i : Instr} {sp : Space} {bs : List Bool} {n : Nat}
    (hd : decode sp (encode i ++ []) = .ok (i, (encode i).length)) (hbits : encode i = bs) (hn : bs.length = n) :
    decode sp bs = .ok (i, n) := by
  subst hbits hn
  rwa [List.append_nil] at hd

/-- Settles O3: each word written out is the encoding of its instruction, and so decodes to it. -/
theorem writtenWordsDecode : Obligations.WrittenWordsDecode := by
  have hstream : ∀ i : Instr, i.wf = true → i.space ≠ .trailer →
      decode i.space (encode i ++ []) = .ok (i, (encode i).length) :=
    fun i hwf hsp => decodeEncodeAgree.1 i [] hwf fun h => absurd h hsp
  unfold Obligations.WrittenWordsDecode
  refine ⟨decodeWord_of_encodeWord ?_, decodeWord_of_encodeWord ?_, decodeWord_of_encodeWord ?_,
    decodeWord_of_encodeWord ?_, decodeWord_of_encodeWord ?_, decode_written (hstream (.ts7 95#7) rfl nofun) ?_ rfl,
    decode_written (hstream .tsSentinel rfl nofun) ?_ rfl,
    decode_written (hstream (.valReuse 12 7#64) rfl nofun) ?_ rfl,
    decode_written (decode_encode_valNew 12 (leading := 13#6) (lengthM1 := 0#6) (bits := 1#64) rfl) ?_ rfl⟩
  all_goals decide

/-- Settles O4: decoding a packed word reads its four fields, and LAST leaves the requested size unread. -/
theorem commandOperandAssembly : Obligations.CommandOperandAssembly := by
  refine ⟨fun k a b => ?_, fun s a b b' => ⟨rfl, rfl⟩⟩
  simp only [decodeWord_packWord]
  exact ⟨rfl, rfl, rfl, rfl, rfl⟩

/-- Settles O7: each of the four kinds of event is fetched as what its bits decode to. -/
theorem stepRunsTheDecodedInstruction : Obligations.StepRunsTheDecodedInstruction := fun _ _ =>
  ⟨fun _ _ _ hin hw hport => step_of_instr hin (fetchCommand_instr hw hport),
    fun _ _ hin hw hport => step_of_instr hin (fetchMicro_instr hw hport),
    fun _ _ _ hin hsp hd => step_of_instr hin (fetchElement_instr hsp hd),
    fun _ _ _ hin hd => step_of_instr hin (fetchEmit_instr hd)⟩

end Machine
end Sys2Proof

/-! Code words that engine D runs whole (20_memory.md R74, 30_encoding.md R97 to R105): what each leaves where its bits
are in the source. -/

namespace Sys2Proof
namespace Machine

section Consuming
variable {p : Params} {d : EngineD}

theorem consume_available {n : Nat} (h : d.available p n) : consume p n d = .ok () { d with rPos := d.rPos + n } := by
  rw [consume, if_neg (Nat.not_lt.2 h)]

theorem consumeEach_available {n : Nat} (h : d.available p n) :
    consumeEach p n d = .ok () { d with rPos := d.rPos + n } := by
  rw [consumeEach, if_neg (Nat.not_lt.2 h)]

theorem available_mono {m n : Nat} (hmn : m ≤ n) (h : d.available p n) : d.available p m :=
  Nat.le_trans (Nat.add_le_add_left hmn _) h

/-- What is left once `m` bits are consumed. -/
theorem available_after {m n : Nat} {ses : Session} (h : d.available p (m + n)) :
    ({ d with rPos := d.rPos + m, ses := ses } : EngineD).available p n := by
  rw [EngineD.available, ← Nat.add_assoc] at h
  exact h

/-! The framing words (R97, R98, R105). -/

theorem headerWord_available (t : W64) (h : d.available p 64) :
    headerWord p t d = .ok () { d with rPos := d.rPos + 64, phase := .ready,
                                       ses := { d.ses with blockTimestamp := t } } := by
  rw [headerWord, consume_available h]
  rfl

theorem firstDeltaField_delta {v : W64} (hv : v ≠ Config.firstDeltaEmpty) (h : d.available p 27) :
    firstDeltaField p v d =
      .ok (false, d.ses.blockTimestamp + v)
        { d with rPos := d.rPos + 27, ses := d.ses.withTime v (d.ses.blockTimestamp + v) } := by
  rw [firstDeltaField, Config.firstDeltaBits, consume_available h, Res.bind_ok, takeFirstDelta, if_neg hv]
  rfl

theorem firstDeltaField_marker (h : d.available p 27) :
    firstDeltaField p Config.firstDeltaEmpty d =
      .ok (true, 0#64) { d with rPos := d.rPos + 27, phase := .exhausted } := by
  rw [firstDeltaField, Config.firstDeltaBits, consume_available h, Res.bind_ok, takeFirstDelta, if_pos rfl]
  rfl

theorem firstValueWord_available (v : W64) (h : d.available p 64) :
    firstValueWord p v d = .ok v { d.afterValue 64 d.ses v with phase := .afterFirst } := by
  rw [firstValueWord, consume_available h]
  rfl

/-! Timestamp codes (R99, R100, R105). -/

/-- Prefix and payload of a class (R99). -/
def tsCodeWidth (r : Nat) : Nat := tsPrefixWidth r + tsWidth r

theorem timestampWord_available {r : Nat} (payload : W64) (h : d.available p (tsCodeWidth r)) :
    timestampWord p r payload d = (takePayload r payload { d with rPos := d.rPos + tsCodeWidth r }).bind markEnd := by
  rw [timestampWord, consumeEach_available (available_mono (Nat.le_add_right _ _) h), Res.bind_ok,
    consume_available (available_after h), Res.bind_ok, tsCodeWidth, Nat.add_assoc]

/-- What a payload stands for is the map of R100 read backwards. -/
theorem unzigzag64_payload {payload : W64} (h : payload.toNat + 1 < 2 ^ 64) :
    unzigzag64 (payload + 1#64) = BitVec.ofInt 64 (payloadDod payload.toNat) := by
  have hz : (payload + 1#64).toNat = payload.toNat + 1 := by
    rw [BitVec.toNat_add, BitVec.toNat_ofNat]
    omega
  rw [← BitVec.ofInt_toInt (x := unzigzag64 (payload + 1#64)), payloadDod]
  congr 1
  split
  · next hodd =>
    have heven := unzigzag64_toInt_of_even (z := payload + 1#64) (by omega)
    omega
  · next heven =>
    have hodd := unzigzag64_toInt_of_odd (z := payload + 1#64) (by omega)
    omega

/-- A code of class `r` that is not the sentinel moves the timestamp registers (R205). -/
theorem timestampWord_advances {r : Nat} {payload : W64} (hlt : payload.toNat < 2 ^ 32)
    (hne : ¬ (r = 4 ∧ payload = Config.tsSentinel)) (h : d.available p (tsCodeWidth r)) :
    timestampWord p r payload d =
      .ok (false, (d.ses.advance (payloadDod payload.toNat)).storedTimestamp)
        { d with rPos := d.rPos + tsCodeWidth r, ses := d.ses.advance (payloadDod payload.toNat) } := by
  rw [timestampWord_available payload h, takePayload, if_neg hne, unzigzag64_payload (by omega)]
  rfl

theorem timestampWord_sentinel (h : d.available p 36) :
    timestampWord p 4 Config.tsSentinel d = .ok (true, 0#64) { d with rPos := d.rPos + 36, phase := .exhausted } := by
  rw [timestampWord_available _ h, takePayload, if_pos ⟨rfl, rfl⟩]
  rfl

theorem timestampZero_advances (h : d.available p 1) :
    timestampZero p d = .ok (false, (d.ses.advance 0).storedTimestamp)
      { d with rPos := d.rPos + 1, ses := d.ses.advance 0 } := by
  rw [timestampZero, consumeEach_available h]
  rfl

/-! Value codes (R101, R102, R105). -/

theorem lowBits_of_lt {n : Nat} {v : W64} (hn : n ≤ 64) (hv : v.toNat < 2 ^ n) : lowBits n v = v := by
  have hpow : 2 ^ n ≤ 2 ^ 64 := Nat.pow_le_pow_right (by decide) hn
  refine BitVec.eq_of_toNat_eq ?_
  rw [lowBits, BitVec.toNat_and, BitVec.toNat_ofNat, Nat.mod_eq_of_lt (by omega), Nat.and_two_pow_sub_one_eq_mod,
    Nat.mod_eq_of_lt hv]

theorem sameWord_records (h : d.available p 1) :
    sameWord p d = .ok (predPredict d.ses.pred)
      { d.afterValue 1 d.ses (predPredict d.ses.pred) with phase := .streaming } := by
  rw [sameWord, consumeEach_available h]
  rfl

theorem reuseWord_records {bits v : W64} (hwin : d.ses.storedLeadingZeros ≠ Config.noWindow)
    (hbits : bits.toNat < 2 ^ d.ses.windowWidth) (h : d.available p (2 + d.ses.windowWidth))
    (hv : predPredict d.ses.pred ^^^ (bits <<< d.ses.storedTrailingZeros.toNat) = v) :
    reuseWord p bits d = .ok v { d.afterValue (2 + d.ses.windowWidth) d.ses v with phase := .streaming } := by
  rw [reuseWord, consumeEach_available (available_mono (by omega) h), Res.bind_ok, if_neg hwin,
    consume_available (available_after h), Res.bind_ok, lowBits_of_lt (windowWidth_le _) hbits, BitVec.xor_comm, hv,
    Nat.add_assoc]
  rfl

theorem reuseWord_noWindow (bits : W64) (hwin : d.ses.storedLeadingZeros = Config.noWindow) (h : d.available p 2) :
    reuseWord p bits d = .raised .malformed { d with rPos := d.rPos + 2 } := by
  rw [reuseWord, consumeEach_available h, Res.bind_ok, if_pos hwin]

/-- A NEW word's control bits and counts, once they are there (R101). -/
theorem newWord_available {leading lengthM1 : Nat} (bits : W64) (h : d.available p 14) :
    newWord p leading lengthM1 bits d =
      if 64 < leading + (lengthM1 + 1) then .raised .malformed { d with rPos := d.rPos + 14 }
      else
        (consume p (lengthM1 + 1)
          { d with rPos := d.rPos + 14, ses := d.ses.withWindow leading (64 - (lengthM1 + 1) - leading) }).bind
          fun _ d4 => endSample ((lowBits (lengthM1 + 1) bits <<< (64 - (lengthM1 + 1) - leading))
            ^^^ predPredict d.ses.pred) d4 := by
  have h2 : d.available p 2 := available_mono (by decide) h
  have h8 : d.available p (2 + 6) := available_mono (by decide) h
  have h14 : d.available p (2 + 6 + 6) := h
  rw [newWord, consumeEach_available h2, Res.bind_ok, Config.leadingFieldBits, consume_available (available_after h8),
    Res.bind_ok, Config.lengthFieldBits, consume_available (available_after h14)]
  rfl

theorem newWord_records {leading lengthM1 : Nat} {bits v : W64} (hfit : leading + lengthM1 + 1 ≤ 64)
    (hbits : bits.toNat < 2 ^ (lengthM1 + 1)) (h : d.available p (14 + (lengthM1 + 1)))
    (hv : predPredict d.ses.pred ^^^ (bits <<< (64 - (lengthM1 + 1) - leading)) = v) :
    newWord p leading lengthM1 bits d =
      .ok v { d.afterValue (14 + (lengthM1 + 1)) (d.ses.withWindow leading (64 - (lengthM1 + 1) - leading)) v with
                phase := .streaming } := by
  rw [newWord_available bits (available_mono (by omega) h), if_neg (by omega), consume_available (available_after h),
    Res.bind_ok, lowBits_of_lt (by omega) hbits, BitVec.xor_comm, hv, Nat.add_assoc]
  rfl

theorem newWord_impossible {leading lengthM1 : Nat} (bits : W64) (hfit : 64 < leading + lengthM1 + 1)
    (h : d.available p 14) : newWord p leading lengthM1 bits d = .raised .malformed { d with rPos := d.rPos + 14 } := by
  rw [newWord_available bits h, if_pos (by omega)]

end Consuming

/-! The dispatch: which word is run how. -/

section Dispatch
variable (s : State)

theorem exec_header (t : W64) : exec (.header t) s = aloneD (headerWord s.params t s.d).silent s := rfl

theorem exec_firstDelta (x : BitVec 27) :
    exec (.firstDelta x) s = aloneD (firstDeltaField s.params (x.setWidth 64) s.d).asFlagged s := rfl

theorem exec_emptyMarker :
    exec .emptyMarker s = aloneD (firstDeltaField s.params Config.firstDeltaEmpty s.d).asFlagged s := rfl

theorem exec_firstValue (v : W64) : exec (.firstValue v) s = aloneD (firstValueWord s.params v s.d).asWord s := rfl

theorem exec_tsZero : exec .tsZero s = aloneD (timestampZero s.params s.d).asFlagged s := rfl

theorem exec_ts7 (x : BitVec 7) :
    exec (.ts7 x) s = aloneD (timestampWord s.params 1 (x.setWidth 64) s.d).asFlagged s := rfl

theorem exec_ts9 (x : BitVec 9) :
    exec (.ts9 x) s = aloneD (timestampWord s.params 2 (x.setWidth 64) s.d).asFlagged s := rfl

theorem exec_ts12 (x : BitVec 12) :
    exec (.ts12 x) s = aloneD (timestampWord s.params 3 (x.setWidth 64) s.d).asFlagged s := rfl

theorem exec_ts32 (x : BitVec 32) :
    exec (.ts32 x) s = aloneD (timestampWord s.params 4 (x.setWidth 64) s.d).asFlagged s := rfl

theorem exec_tsSentinel :
    exec .tsSentinel s = aloneD (timestampWord s.params 4 Config.tsSentinel s.d).asFlagged s := rfl

theorem exec_valSame : exec .valSame s = aloneD (sameWord s.params s.d).asWord s := rfl

theorem exec_valReuse (n : Nat) (bits : W64) :
    exec (.valReuse n bits) s = aloneD (reuseWord s.params bits s.d).asWord s := rfl

theorem exec_valNew (leading lengthM1 : BitVec 6) (bits : W64) :
    exec (.valNew leading lengthM1 bits) s =
      aloneD (newWord s.params leading.toNat lengthM1.toNat bits s.d).asWord s := rfl

end Dispatch

/-- Settles O44: each framing word consumes its bits and leaves what READ_PAIR or D_INIT leaves after reading them. -/
theorem framingWordsAct : Obligations.FramingWordsAct := by
  intro s
  refine ⟨fun t h => ?_, fun d hd h => ?_, fun h => ?_, fun v h => ?_⟩
  · rw [exec_header, headerWord_available t h]
    rfl
  · rw [exec_firstDelta, firstDeltaField_delta (setWidth_ne_firstDeltaEmpty hd) h]
    rfl
  · rw [exec_emptyMarker, firstDeltaField_marker h]
    rfl
  · rw [exec_firstValue, firstValueWord_available v h]
    rfl

/-- A code of class `r` run alone, from a payload field of `n` bits. -/
theorem aloneD_timestampWord {s : State} {r n len : Nat} (x : BitVec n) (hn : n ≤ 32)
    (hne : ¬ (r = 4 ∧ x.setWidth 64 = Config.tsSentinel)) (hlen : tsCodeWidth r = len) (h : s.d.available s.params len) :
    aloneD (timestampWord s.params r (x.setWidth 64) s.d).asFlagged s =
      .next { s with d := { s.d with rPos := s.d.rPos + len, ses := s.d.ses.advance (payloadDod x.toNat) },
                     ret := .flagged false (s.d.ses.advance (payloadDod x.toNat)).storedTimestamp } := by
  subst hlen
  have hx : (x.setWidth 64).toNat = x.toNat := BitVec.toNat_setWidth_of_le (by omega)
  have hlt : x.toNat < 2 ^ 32 := Nat.lt_of_lt_of_le x.isLt (Nat.pow_le_pow_right (by decide) hn)
  rw [timestampWord_advances (by rwa [hx]) hne h, hx]
  rfl

/-- Settles O33: every class is consumed and decoded alike (`aloneD_timestampWord`); only the 32-bit class has a payload
that is the sentinel, and a well-formed word does not carry it. -/
theorem timestampWordsAdvance : Obligations.TimestampWordsAdvance := by
  refine ⟨fun s w hcode hwf h => ?_, fun s h => ?_⟩
  · cases w
    case tsZero =>
      rw [exec_tsZero, timestampZero_advances h]
      rfl
    case ts7 x => exact aloneD_timestampWord x (by decide) (by omega) (Laws.CodeLength.ts7 x).symm h
    case ts9 x => exact aloneD_timestampWord x (by decide) (by omega) (Laws.CodeLength.ts9 x).symm h
    case ts12 x => exact aloneD_timestampWord x (by decide) (by omega) (Laws.CodeLength.ts12 x).symm h
    case ts32 x =>
      exact aloneD_timestampWord x (by decide) (fun hs => setWidth_ne_tsSentinel hwf hs.2) (Laws.CodeLength.ts32 x).symm h
    all_goals cases hcode
  · rw [exec_tsSentinel, timestampWord_sentinel h]
    rfl

/-- Settles O38: the word's bits are those its window or its own counts announce, and its tail fits them. -/
theorem valueWordsRecord : Obligations.ValueWordsRecord := by
  intro s w hcode hwf hlegal h
  cases w
  case valSame =>
    have hres : wordResidual s.d.ses .valSame = 0#64 := rfl
    rw [exec_valSame, sameWord_records h, hres, BitVec.xor_zero]
    rfl
  case valReuse n bits =>
    rw [wordLegal, Bool.and_eq_true, decide_eq_true_eq, decide_eq_true_eq] at hlegal
    rw [Instr.wf, wfValReuse, Bool.and_eq_true, decide_eq_true_eq, decide_eq_true_eq] at hwf
    obtain ⟨hwin, rfl⟩ := hlegal
    have hlen : (encodeStream (.valReuse s.d.ses.windowWidth bits)).length = 2 + s.d.ses.windowWidth :=
      Laws.CodeLength.valReuse _ bits
    rw [hlen] at h ⊢
    rw [exec_valReuse, reuseWord_records hwin hwf.2 h rfl]
    rfl
  case valNew leading lengthM1 bits =>
    have hfit : leading.toNat + lengthM1.toNat + 1 ≤ 64 := of_decide_eq_true hlegal
    rw [Instr.wf, wfValNew, if_pos hfit, decide_eq_true_eq] at hwf
    have hlen : (encodeStream (.valNew leading lengthM1 bits)).length = 14 + (lengthM1.toNat + 1) :=
      (Laws.CodeLength.valNew leading lengthM1 bits).trans (if_pos hfit)
    rw [hlen] at h ⊢
    rw [exec_valNew, newWord_records hfit hwf h rfl]
    rfl
  all_goals cases hcode

/-- Settles O41: the raise comes after the control bits, and after the counts of a VAL_NEW, before anything is stored. -/
theorem illegalValueWordsAreMalformed : Obligations.IllegalValueWordsAreMalformed := by
  refine fun s => ⟨fun n bits hwin h => ?_, fun leading lengthM1 bits hfit h => ?_⟩
  · rw [exec_valReuse, reuseWord_noWindow bits hwin h]
    rfl
  · rw [exec_valNew, newWord_impossible bits hfit h]
    rfl

end Machine
end Sys2Proof

/-! The end of a block (30_encoding.md R103, R104): the words engine E writes alone, and PADDING up to the unit boundary
against FLUSH (40_bitsink.md R124). -/

namespace Sys2Proof
namespace Machine

section EndOfBlock
variable {p : Params} {e : EngineE}

/-- TERMINATOR with room appends its 37 bits (R103). -/
theorem writeTerminator_appends (ho : e.accOpen p) (hr : e.room p 37) :
    ∃ e1, writeTerminator p e = .ok () e1 ∧ Appended p terminatorBits e e1 := by
  obtain ⟨e1, hw1, ha1⟩ := writeBits_appends 0x0F#64 (n := 4) (by decide) ho (EngineE.room_mono (by decide) hr)
  have hr1 : e1.room p 33 := ha1.room (by rw [length_bitsOf]; exact hr)
  obtain ⟨e2, hw2, ha2⟩ :=
    writeBits_appends Config.tsSentinel (n := 32) (by decide) ha1.accOpen (EngineE.room_mono (by decide) hr1)
  have hr2 : e2.room p 1 := ha2.room (by rw [length_bitsOf]; exact hr1)
  obtain ⟨e3, hw3, ha3⟩ := writeBit_appends false ha2.accOpen hr2
  refine ⟨e3, ?_, ?_⟩
  · rw [writeTerminator, hw1, Res.bind_ok, hw2, Res.bind_ok, skipBit, hw3]
  · rw [terminatorBits_eq]
    exact ha1.trans ho (ha2.trans ha1.accOpen ha3)

/-- Writing a 0 where a 0 stands changes nothing. -/
theorem assignBit_false {v : W64} {i : Nat} (hi : i < 64) (h : v.getLsbD i = false) : assignBit v i false = v := by
  refine BitVec.eq_of_getLsbD_eq fun j _ => ?_
  rw [getLsbD_assignBit _ _ _ _ hi]
  split
  · next hj => rw [hj, h]
  · rfl

/-- A zero bit pushed where the accumulator has a 0 only moves the cursor, or commits a unit that is now full (R121). -/
theorem pushAcc_zero (ho : e.accOpen p) (hz : e.acc.getLsbD (p.unit.bits - 1 - e.accFill) = false) :
    pushAcc p false e =
      if e.accFill + 1 = p.unit.bits then commitUnit p e else { e with accFill := e.accFill + 1 } := by
  have hlt : p.unit.bits - 1 - e.accFill < 64 := by
    have hle := p.unit.bits_le
    have hpos := p.unit.bits_pos
    omega
  rw [pushAcc, assignBit_false hlt hz]
  rfl

theorem skipBit_of_room (hr : e.room p 1) : skipBit p e = .ok () (pushAcc p false e) := by
  rw [skipBit, writeBit, hr]
  rfl

/-- Zeros up to the unit boundary commit the accumulator as it stands, as FLUSH does (R124). -/
theorem padZeros_eq_commitUnit {k : Nat} (hfill : e.accFill + (k + 1) = p.unit.bits) (hr : e.room p (k + 1))
    (hz : ∀ i, i < k + 1 → e.acc.getLsbD i = false) : padZeros p (k + 1) e = .ok () (commitUnit p e) := by
  have hopen : e.accOpen p := by rw [EngineE.accOpen]; omega
  induction k generalizing e with
  | zero =>
    rw [padZeros, skipBit_of_room hr, Res.bind_ok, pushAcc_zero hopen (hz _ (by omega)), if_pos hfill]
    rfl
  | succ k ih =>
    let next : EngineE := { e with accFill := e.accFill + 1 }
    have hnext : next.accFill + (k + 1) = p.unit.bits := by change e.accFill + 1 + (k + 1) = _; omega
    have hroom : next.room p (k + 1) := by
      have hpos : next.wPos p + (k + 1) = e.wPos p + (k + 1 + 1) := by
        rw [show next.wPos p = e.wPos p + 1 from rfl, Nat.add_assoc, Nat.add_comm 1]
      rw [EngineE.room, hpos]
      exact hr
    have hcommit := ih hnext hroom (fun i hi => hz i (by omega)) (show next.accFill < _ by omega)
    rw [padZeros, skipBit_of_room (EngineE.room_mono (by omega) hr), Res.bind_ok, pushAcc_zero hopen (hz _ (by omega)),
      if_neg (by omega)]
    exact hcommit

/-- As many zeros as are missing to the unit boundary are what FLUSH does (R104, R124). -/
theorem padZeros_eq_flush (hs : SinkInv p e) : padZeros p ((p.unit.bits - e.accFill) % p.unit.bits) e = flush p e := by
  obtain ⟨hopen, hlow, -, hcap, -, -⟩ := hs
  rw [flush]
  split
  · next hpart =>
    obtain ⟨k, hk⟩ : ∃ k, p.unit.bits - e.accFill = k + 1 := ⟨p.unit.bits - e.accFill - 1, by omega⟩
    have hroom : e.room p (k + 1) := by
      have hpos : e.wPos p + (k + 1) = (e.wUnit + 1) * p.unit.bits := by
        rw [EngineE.wPos, Nat.add_mul]
        omega
      rw [EngineE.room, hpos]
      exact overCapacity_roundUp hpart hcap
    rw [Nat.mod_eq_of_lt (by omega), hk]
    exact padZeros_eq_commitUnit (by omega) hroom fun i hi => hlow i (by omega)
  · next hempty =>
    rw [show e.accFill = 0 by omega, Nat.sub_zero, Nat.mod_self]
    rfl

/-- A sink that holds its invariant never flushes outside its capacity (R60). -/
theorem flushOutside_eq_false (hs : SinkInv p e) : flushOutside p e = false := by
  obtain ⟨-, -, -, hcap, -, -⟩ := hs
  rw [flushOutside, Bool.and_eq_false_imp, decide_eq_true_eq]
  exact fun hpart => overCapacity_roundUp hpart hcap

end EndOfBlock

section Dispatch
variable (s : State)

theorem exec_terminator : exec .terminator s = aloneE (writeTerminator s.params s.e).silent s := rfl

theorem exec_padding (k : Nat) : exec (.padding k) s = aloneE (padZeros s.params k s.e).silent s := rfl

theorem exec_flush (hs : SinkInv s.params s.e) : exec .flush s = aloneE (flush s.params s.e).silent s := by
  change execFlush s = _
  rw [execFlush, flushOutside_eq_false hs]
  rfl

end Dispatch

/-- Settles O17: the words are the writes of CLOSE, and FLUSH is PADDING up to the boundary (`padZeros_eq_flush`). -/
theorem trailerWordsAppend : Obligations.TrailerWordsAppend := by
  refine fun s ho => ⟨fun hr => ?_, fun k hr => ?_, fun hs => ?_⟩
  · obtain ⟨e1, hw, ha⟩ := writeTerminator_appends ho hr
    exact ⟨e1, by rw [exec_terminator, hw]; rfl, ha⟩
  · obtain ⟨e1, hw, ha⟩ := padZeros_appends k ho hr
    exact ⟨e1, by rw [exec_padding, hw]; rfl, ha⟩
  · rw [exec_padding, exec_flush s hs, padZeros_eq_flush hs]

end Machine
end Sys2Proof

/-! The BitSink's operations run alone (40_bitsink.md R121 to R124): each appends its bits, or enters its fault and
leaves the sink as it was. -/

namespace Sys2Proof

/-- A field's bits by their positions in the value, the most significant first (R62). -/
theorem bitsOf_eq_map_range {w : Nat} (v : BitVec w) (n : Nat) :
    bitsOf v n = (List.range n).map fun j => v.getLsbD (n - 1 - j) := by
  induction n with
  | zero => rfl
  | succ n ih =>
    rw [bitsOf, ih, List.range_succ_eq_map, List.map_cons, List.map_map]
    refine congrArg₂ List.cons rfl (List.map_congr_left fun j _ => ?_)
    rw [Function.comp_apply, Nat.succ_eq_add_one, Nat.add_sub_cancel, Nat.sub_sub, Nat.add_comm 1]

namespace Machine

section SinkOperations
variable (s : State)

theorem exec_writeBit (b : Bool) : exec (.writeBit b) s = aloneE (writeBit s.params b s.e).silent s := rfl

theorem exec_skipBit : exec .skipBit s = aloneE (writeBit s.params false s.e).silent s := rfl

theorem exec_writeBits (v : W64) (n : Byte) :
    exec (.writeBits v n) s = aloneE (writeBits s.params v n.toNat s.e).silent s := rfl

/-- FLUSH at a unit boundary has nothing to commit (R124). -/
theorem exec_flush_of_empty (h : s.e.accFill = 0) : exec .flush s = .next { s with ret := .nothing } := by
  change execFlush s = _
  rw [execFlush, flushOutside, flush, h]
  rfl

end SinkOperations

/-- Settles O14: SKIP_BIT is WRITE_BIT of a 0. -/
theorem writeBitAppendsOneBit : Obligations.WriteBitAppendsOneBit := by
  intro s i b hi ho
  have hexec : exec i s = aloneE (writeBit s.params b s.e).silent s := by
    obtain rfl | ⟨rfl, rfl⟩ := hi
    · exact exec_writeBit s b
    · exact exec_skipBit s
  refine ⟨fun hr => ?_, fun hr => ?_⟩
  · obtain ⟨e1, hw, ha⟩ := writeBit_appends b ho hr
    exact ⟨e1, by rw [hexec, hw]; rfl, ha⟩
  · rw [hexec, writeBit_full b hr]
    rfl

/-- Settles O15: the three ways WRITE_BITS ends, in the order it tests for them. -/
theorem writeBitsAppendsItsField : Obligations.WriteBitsAppendsItsField := by
  refine fun s v n ho => ⟨fun hn hr => ?_, fun hn hr => ?_, fun hn => ?_⟩
  · obtain ⟨e1, hw, ha⟩ := writeBits_appends v hn ho hr
    rw [bitsOf_eq_map_range] at ha
    exact ⟨e1, by rw [exec_writeBits, hw]; rfl, ha⟩
  · rw [exec_writeBits, writeBits_full v hn hr]
    rfl
  · rw [exec_writeBits, writeBits_wide v hn]
    rfl

/-- Settles O16: FLUSH leaves the cursor at a unit boundary, where a second FLUSH has nothing to do. -/
theorem flushPadsToTheBoundary : Obligations.FlushPadsToTheBoundary := by
  intro s hs
  have ⟨hopen, hlow, _⟩ := hs
  obtain ⟨e1, hw, -⟩ := flush_appends hopen hlow
  obtain ⟨happ, hempty⟩ := flush_ok hs hw
  have hexec : exec .flush s = .next { s with e := e1, ret := .nothing } := by
    rw [exec_flush s hs, hw]
    rfl
  refine ⟨⟨e1, hexec, hempty, happ⟩, fun t ht => ?_⟩
  rw [hexec] at ht
  cases ht
  exact exec_flush_of_empty _ hempty

end Machine
end Sys2Proof

/-! What is in the sink stays (20_memory.md R72, 40_bitsink.md R127): every line of engine E's pseudocode but a
construction only adds to the sink, also where it raises, and engine D's never touches it. -/

namespace Sys2Proof
namespace Machine

/-- `e1` still has every bit that `e` had appended to `B_E`, in front, and every unit it had committed. -/
structure ExtendsSink (p : Params) (e e1 : EngineE) : Prop where
  accOpen : e1.accOpen p
  bits : e.bits p <+: e1.bits p
  wUnit : e.wUnit ≤ e1.wUnit
  committed : ∀ addr, addr < e.wUnit * p.unit.bytes → e1.smE.read addr = e.smE.read addr

/-- `r` ends with the sink of `e` extended, normally or by a raise. -/
abbrev Res.ExtendsSink {α : Type} (r : Res EngineE α) (p : Params) (e : EngineE) : Prop :=
  r.Ends (Machine.ExtendsSink p e) fun _ => Machine.ExtendsSink p e

section Extending
variable {p : Params} {e e1 e2 : EngineE} {bs : List Bool}

theorem ExtendsSink.refl (h : e.accOpen p) : ExtendsSink p e e :=
  ⟨h, ⟨[], List.append_nil _⟩, Nat.le_refl _, fun _ _ => rfl⟩

/-- The sink does not depend on the other registers. -/
theorem ExtendsSink.withRegisters (h : ExtendsSink p e e1) (ph : PhaseE) (f : FaultCode) (x : Session) :
    ExtendsSink p e { e1 with phase := ph, fault := f, ses := x } :=
  ⟨h.accOpen, h.bits, h.wUnit, h.committed⟩

theorem ExtendsSink.trans (h1 : ExtendsSink p e e1) (h2 : ExtendsSink p e1 e2) : ExtendsSink p e e2 where
  accOpen := h2.accOpen
  bits := h1.bits.trans h2.bits
  wUnit := h1.wUnit.trans h2.wUnit
  committed addr ha :=
    (h2.committed addr (Nat.lt_of_lt_of_le ha (Nat.mul_le_mul_right _ h1.wUnit))).trans (h1.committed addr ha)

theorem Appended.extendsSink (ho : e.accOpen p) (h : Appended p bs e e1) : ExtendsSink p e e1 := by
  have hopen := h.accOpen
  obtain ⟨hbits, -, -, -, hunit, -, hmem⟩ := h
  refine ⟨hopen, ⟨bs, hbits.symm⟩, ?_, fun addr ha => hmem addr (.inl ha)⟩
  rw [hunit, ← wPos_div ho, EngineE.wPos]
  exact Nat.div_le_div_right (Nat.le_add_right _ _)

/-- A unit is committed behind those committed before it, whatever its unfilled bits are (R125, R126). -/
theorem extendsSink_commitUnit (ho : e.accOpen p) : ExtendsSink p e (commitUnit p e) where
  accOpen := p.unit.bits_pos
  bits := ⟨_, (commitUnit_bits ho).symm⟩
  wUnit := Nat.le_succ _
  committed addr ha := by rw [commitUnit_smE, Memory.read_writeUnit, if_neg (by omega)]

/-! The sink's own operations (40_bitsink.md). -/

theorem writeBit_extends (b : Bool) (h : ExtendsSink p e e1) : (writeBit p b e1).ExtendsSink p e := by
  unfold writeBit
  split
  · exact h
  · exact h.trans ((appended_pushAcc b h.accOpen).extendsSink h.accOpen)

theorem writeLoop_extends (v : W64) (n : Nat) (h : ExtendsSink p e e1) : (writeLoop p v n e1).ExtendsSink p e := by
  induction n generalizing e1 with
  | zero => exact h
  | succ n ih => exact (writeBit_extends _ h).bind fun _ _ h1 => ih h1

theorem writeBits_extends (v : W64) (n : Nat) (h : ExtendsSink p e e1) : (writeBits p v n e1).ExtendsSink p e := by
  unfold writeBits
  split
  · exact h
  · split
    · exact h
    · exact writeLoop_extends v n h

theorem padZeros_extends (k : Nat) (h : ExtendsSink p e e1) : (padZeros p k e1).ExtendsSink p e := by
  induction k generalizing e1 with
  | zero => exact h
  | succ k ih => exact (writeBit_extends false h).bind fun _ _ h1 => ih h1

theorem flush_extends (h : ExtendsSink p e e1) : (flush p e1).ExtendsSink p e := by
  unfold flush
  split
  · exact h.trans (extendsSink_commitUnit h.accOpen)
  · exact h

/-! The codecs (44_timestamp_dod.md, 43_value_xor.md). -/

theorem tsWriteFirst_extends (timestamp : W64) (h : ExtendsSink p e e1) :
    (tsWriteFirst p timestamp e1).ExtendsSink p e := by
  unfold tsWriteFirst
  dsimp only
  split
  · exact (writeBits_extends _ _ h).bind fun _ _ h1 => h1.withRegisters _ _ _
  · exact h

theorem writeDod_extends (dod : W64) (h : ExtendsSink p e e1) : (writeDod p dod e1).ExtendsSink p e := by
  unfold writeDod
  split
  · exact writeBit_extends false h
  · split
    · exact (writeBits_extends _ _ h).bind fun _ _ h1 => writeBits_extends _ _ h1
    · exact h

theorem tsCompress_extends (timestamp : W64) (h : ExtendsSink p e e1) : (tsCompress p timestamp e1).ExtendsSink p e :=
  (writeDod_extends _ h).bind fun _ _ h1 => h1.withRegisters _ _ _

theorem valWriteFirst_extends (value : W64) (h : ExtendsSink p e e1) : (valWriteFirst p value e1).ExtendsSink p e :=
  writeBits_extends value 64 (h.withRegisters _ _ _)

theorem compressReuse_extends (residual : W64) (h : ExtendsSink p e e1) :
    (compressReuse p residual e1).ExtendsSink p e :=
  (writeBit_extends false h).bind fun _ _ h1 => writeBits_extends _ _ h1

theorem compressNew_extends (residual : W64) (h : ExtendsSink p e e1) : (compressNew p residual e1).ExtendsSink p e :=
  (writeBit_extends true h).bind fun _ _ h1 =>
  (writeBits_extends _ _ h1).bind fun _ _ h2 =>
  (writeBits_extends _ _ h2).bind fun _ _ h3 =>
  (writeBits_extends _ _ h3).bind fun _ _ h4 => h4.withRegisters _ _ _

theorem compressResidual_extends (residual : W64) (h : ExtendsSink p e e1) :
    (compressResidual p residual e1).ExtendsSink p e := by
  unfold compressResidual
  split
  · exact writeBit_extends false h
  · refine (writeBit_extends true h).bind fun _ e2 h1 => ?_
    split
    · exact compressReuse_extends residual h1
    · exact compressNew_extends residual h1

theorem valCompress_extends (value : W64) (h : ExtendsSink p e e1) : (valCompress p value e1).ExtendsSink p e :=
  compressResidual_extends _ (h.withRegisters _ _ _)

theorem writeTerminator_extends (h : ExtendsSink p e e1) : (writeTerminator p e1).ExtendsSink p e :=
  (writeBits_extends _ _ h).bind fun _ _ h1 =>
  (writeBits_extends _ _ h1).bind fun _ _ h2 => writeBit_extends false h2

/-! The commands inside a session (45_framing.md R223, R224). -/

theorem addValue_extends (timestamp value : W64) (h : ExtendsSink p e e1) :
    (addValue p timestamp value e1).ExtendsSink p e := by
  unfold addValue
  split
  · exact (tsWriteFirst_extends timestamp h).bind fun _ _ h1 =>
      (valWriteFirst_extends value h1).bind fun _ _ h2 => h2.withRegisters _ _ _
  · exact (tsCompress_extends timestamp h).bind fun _ _ h1 =>
      (valCompress_extends value h1).bind fun _ _ h2 => h2.withRegisters _ _ _

theorem close_extends (h : ExtendsSink p e e1) : (close p e1).ExtendsSink p e :=
  (writeTerminator_extends h).bind fun _ _ h1 => (flush_extends h1).bind fun _ _ h2 => h2.withRegisters _ _ _

end Extending

/-! The frames. -/

section Frames
variable {s t : State} {p : Params}

theorem acceptE_extends {body : EngineE → Res EngineE Unit} (ho : s.e.accOpen p)
    (hr : (body s.e).ExtendsSink p s.e) (ht : acceptE body s = .next t) : ExtendsSink p s.e t.e := by
  have hs := ExtendsSink.refl ho
  rcases acceptE_cases ht with ⟨-, rfl⟩ | ⟨-, -, rfl⟩ | ⟨-, -, ht⟩
  · simpa using hs
  · simpa using hs
  · rcases finishE_cases ht with ⟨e1, hb, rfl⟩ | ⟨f, e1, hb, rfl⟩ <;> rw [hb] at hr
    · simpa using hr
    · exact hr.withRegisters _ _ _

theorem aloneE_extends {r : Res EngineE Returned} (hr : r.ExtendsSink p s.e) (ht : aloneE r s = .next t) :
    ExtendsSink p s.e t.e := by
  rcases aloneE_cases ht with ⟨v, e1, rfl, rfl⟩ | ⟨f, e1, rfl, rfl⟩
  · exact hr
  · exact hr.withRegisters _ _ _

/-- An operation of engine D leaves engine E. -/
theorem aloneD_e {r : Res EngineD Returned} (ht : aloneD r s = .next t) : t.e = s.e := by
  rcases aloneD_cases ht with ⟨v, d, -, rfl⟩ | ⟨f, d, -, rfl⟩ <;> rfl

/-- The predictor is no part of the sink. -/
theorem alonePred_extends {x : Engine} {op : Pred → Res Pred Returned} (ho : s.e.accOpen p)
    (ht : alonePred x op s = .next t) : ExtendsSink p s.e t.e := by
  have hs := ExtendsSink.refl ho
  cases x with
  | E =>
    refine aloneE_extends ?_ ht
    cases op s.e.ses.pred <;> exact hs.withRegisters _ _ _
  | D =>
    rw [aloneD_e ht]
    exact hs

/-- Every instruction but C_INIT only adds to the sink. -/
theorem exec_extends {i : Instr} (hi : ∀ k b n, i ≠ .cInit k b n) (ho : s.e.accOpen s.params)
    (ht : exec i s = .next t) : ExtendsSink s.params s.e t.e := by
  have hs := ExtendsSink.refl ho
  cases i with
  | cInit k b n => exact absurd rfl (hi k b n)
  | addValue ts v => exact acceptE_extends ho (addValue_extends ts v hs) ht
  | close => exact acceptE_extends ho (close_extends hs) ht
  | dInit k len n =>
    obtain ⟨r, hframe⟩ := exec_port_D_frame rfl ht
    rw [hframe]
    exact hs
  | readPair =>
    obtain ⟨r, hframe⟩ := exec_port_D_frame rfl ht
    rw [hframe]
    exact hs
  | writeBit b => exact aloneE_extends (writeBit_extends b hs).silent ht
  | skipBit => exact aloneE_extends (writeBit_extends false hs).silent ht
  | writeBits v n => exact aloneE_extends (writeBits_extends v _ hs).silent ht
  | flush =>
    rw [exec, execFlush] at ht
    split at ht
    · cases ht
    · exact aloneE_extends (flush_extends hs).silent ht
  | predInit x k n => exact alonePred_extends (op := fun q => (predInit s.params k n q).silent) ho ht
  | predUpdate x v => exact alonePred_extends (op := fun q => .ok .nothing (predUpdate v q)) ho ht
  | predPredict x => exact alonePred_extends (op := fun q => .ok (.word (predPredict q)) q) ho ht
  | valWriteFirst v => exact aloneE_extends (valWriteFirst_extends v hs).silent ht
  | valCompress v => exact aloneE_extends (valCompress_extends v hs).silent ht
  | tsWriteFirst ts => exact aloneE_extends (tsWriteFirst_extends ts hs).silent ht
  | tsCompress ts => exact aloneE_extends (tsCompress_extends ts hs).silent ht
  | terminator => exact aloneE_extends (writeTerminator_extends hs).silent ht
  | padding k => exact aloneE_extends (padZeros_extends k hs).silent ht
  -- engine D's micro-operations and code words
  | _ =>
    rw [aloneD_e ht]
    exact hs

end Frames

/-- Settles O19: every instruction but C_INIT extends the sink it finds (`exec_extends`). -/
theorem appendedBitsAreFinal : Obligations.AppendedBitsAreFinal := by
  intro i s t hi ho ht
  have h := exec_extends hi ho ht
  exact ⟨h.bits, h.wUnit, h.committed⟩

end Machine
end Sys2Proof

/-! The BitSource's operations run alone (41_bitsource.md R141 to R145): READ_BITS returns the next bits as a number,
and READ_RUN_OF_ONES passes the ones that stand next in the source. -/

namespace Sys2Proof

/-- A bit string after a value: the value moves up by its length (41_bitsource.md R142). -/
theorem ofBitsFrom_eq_or {w : Nat} (v : BitVec w) (bs : List Bool) :
    ofBitsFrom v bs = (v <<< bs.length) ||| ofBits w bs := by
  have hpush (u : BitVec w) (n : Nat) (b : Bool) :
      pushBit u b <<< n = (u <<< (n + 1)) ||| (pushBit 0#w b <<< n) := by
    rw [pushBit, pushBit, BitVec.shiftLeft_or_distrib, ← BitVec.shiftLeft_add, Nat.add_comm 1, BitVec.zero_shiftLeft,
      BitVec.zero_or]
  induction bs generalizing v with
  | nil => simp [ofBits, ofBitsFrom]
  | cons b bs ih =>
    rw [ofBits, ofBitsFrom, ofBitsFrom, ih, ih (pushBit 0#w b), hpush, List.length_cons, BitVec.or_assoc]

theorem ofBits_append {w : Nat} (bs cs : List Bool) :
    ofBits w (bs ++ cs) = (ofBits w bs <<< cs.length) ||| ofBits w cs := by
  rw [ofBits, ofBitsFrom_append, ofBitsFrom_eq_or]
  rfl

namespace Machine

section Reading
variable {p : Params} {d : EngineD}

/-- READ_BITS right-aligns: the last bit read is bit 0, and nothing stands above the first (R142). -/
theorem getLsbD_ofBits_streamBits (k n : Nat) {j : Nat} (hj : j < 64) :
    (ofBits 64 (streamBits p d k n)).getLsbD j = (decide (j < n) && streamBit p d (k + (n - 1 - j))) := by
  induction n generalizing j with
  | zero => simp [streamBits, ofBits, ofBitsFrom]
  | succ n ih =>
    have hlast : streamBits p d (k + n) 1 = [streamBit p d (k + n)] := rfl
    rw [streamBits_add, hlast, ofBits_append_singleton, getLsbD_pushBit _ _ _ hj]
    cases j with
    | zero => simp
    | succ j =>
      rw [if_neg (Nat.succ_ne_zero j), Nat.add_sub_cancel, ih (by omega), Nat.add_sub_cancel,
        show n - 1 - j = n - (j + 1) by omega]
      simp

/-- READ_BITS of one bit is READ_BIT (R145 (a)), where the source has ended too. -/
theorem readBits_one : readBits p 1 d = (readBit p d).bind fun b d1 => .ok (bitVal 64 b) d1 := by
  by_cases h : d.available p 1
  · rw [readBits_reads (by decide) h, readBit_reads h]
    simp [EngineD.next, streamBits, ofBits, ofBitsFrom, pushBit]
  · rw [readBits_exhausted (by decide) h, readBit_exhausted h]
    rfl

/-- READ_BITS in two steps (R145 (c)). -/
theorem readBits_add {a b : Nat} (hab : a + b ≤ 64) (h : d.available p (a + b)) :
    readBits p (a + b) d =
      (readBits p a d).bind fun v d1 => (readBits p b d1).bind fun w d2 => .ok ((v <<< b) ||| w) d2 := by
  have hnext : ofBits 64 (d.next p (a + b)) =
      (ofBits 64 (d.next p a) <<< b) ||| ofBits 64 (({ d with rPos := d.rPos + a } : EngineD).next p b) := by
    rw [EngineD.next, streamBits_add, ofBits_append, length_streamBits, EngineD.next, EngineD.next,
      streamBits_congr (d := d) (d1 := { d with rPos := d.rPos + a }) rfl]
  rw [readBits_reads hab h, readBits_reads (by omega) (available_mono (Nat.le_add_right a b) h), Res.bind_ok,
    readBits_reads (by omega) (available_after h), Res.bind_ok, hnext, Nat.add_assoc]

/-! The scan of a run of ones (R143). -/

/-- How many ones stand first among the `n` stream bits from bit address `k` on. -/
def onesRun (p : Params) (d : EngineD) (k n : Nat) : Nat := ((streamBits p d k n).takeWhile fun b => b).length

theorem onesRun_succ (k n : Nat) :
    onesRun p d k (n + 1) = if streamBit p d k then onesRun p d (k + 1) n + 1 else 0 := by
  rw [onesRun, streamBits, List.takeWhile_cons]
  split <;> rfl

theorem onesRun_le (k n : Nat) : onesRun p d k n ≤ n := by
  have h := (List.takeWhile_sublist (l := streamBits p d k n) fun b => b).length_le
  rwa [length_streamBits] at h

theorem streamBit_of_lt_onesRun {k n i : Nat} (h : i < onesRun p d k n) : streamBit p d (k + i) = true := by
  induction n generalizing k i with
  | zero => cases h
  | succ n ih =>
    rw [onesRun_succ] at h
    split at h
    · next hone =>
      cases i with
      | zero => exact hone
      | succ i =>
        rw [Nat.add_comm i, ← Nat.add_assoc]
        exact ih (by omega)
    · cases h

/-- The bit that ends the run, where it ends among the bits looked at. -/
theorem streamBit_onesRun {k n : Nat} (h : onesRun p d k n < n) : streamBit p d (k + onesRun p d k n) = false := by
  induction n generalizing k with
  | zero => cases h
  | succ n ih =>
    rw [onesRun_succ] at h ⊢
    split
    · next hone =>
      rw [if_pos hone] at h
      rw [Nat.add_comm (onesRun _ _ _ _), ← Nat.add_assoc]
      exact ih (by omega)
    · next hzero => exact Bool.eq_false_iff.2 hzero

/-- The next `c` bits are there and are ones. -/
structure OnesAhead (p : Params) (d : EngineD) (c : Nat) : Prop where
  available : d.available p c
  ones : ∀ i, i < c → streamBit p d (d.rPos + i) = true

theorem onesAhead_onesRun {n : Nat} (h : d.available p n) : OnesAhead p d (onesRun p d d.rPos n) :=
  ⟨available_mono (onesRun_le _ _) h, fun _ => streamBit_of_lt_onesRun⟩

/-- The scan passes the ones ahead, counting them. -/
theorem readRunFrom_ones {c : Nat} (n count : Nat) (h : OnesAhead p d c) :
    readRunFrom p (c + n) count d = readRunFrom p n (count + c) { d with rPos := d.rPos + c } := by
  induction c generalizing n with
  | zero => rw [Nat.zero_add]; rfl
  | succ c ih =>
    have hbefore : OnesAhead p d c :=
      ⟨available_mono (Nat.le_succ c) h.available, fun i hi => h.ones i (Nat.lt_succ_of_lt hi)⟩
    have hone : streamBit p { d with rPos := d.rPos + c } (d.rPos + c) = true := h.ones c (Nat.lt_succ_self c)
    rw [Nat.succ_add_eq_add_succ, ih _ hbefore, readRunFrom_succ, if_pos (available_after h.available),
      if_pos hone]
    rfl

theorem readRunOfOnes_zero {c m : Nat} (h : OnesAhead p d c) (hm : c < m) (ha : d.available p (c + 1))
    (hzero : streamBit p d (d.rPos + c) = false) :
    readRunOfOnes p m d = .ok c { d with rPos := d.rPos + (c + 1) } := by
  obtain ⟨n, rfl⟩ := Nat.exists_eq_add_of_lt hm
  have hzero' : ¬ streamBit p { d with rPos := d.rPos + c } (d.rPos + c) = true := Bool.eq_false_iff.1 hzero
  rw [readRunOfOnes, Nat.add_assoc, readRunFrom_ones _ _ h, readRunFrom_succ, if_pos (available_after ha),
    if_neg hzero', Nat.zero_add]
  rfl

/-- A full run: the bit after it is not looked at. -/
theorem readRunOfOnes_full {m : Nat} (h : OnesAhead p d m) :
    readRunOfOnes p m d = .ok m { d with rPos := d.rPos + m } := by
  have hrun := readRunFrom_ones 0 0 h
  rw [Nat.zero_add] at hrun
  exact hrun

/-- The source ends inside the run. -/
theorem readRunOfOnes_cut {c m : Nat} (h : OnesAhead p d c) (hm : c < m) (hend : ¬ d.available p (c + 1)) :
    readRunOfOnes p m d = .raised .sourceExhausted { d with rPos := d.rPos + c } := by
  obtain ⟨n, rfl⟩ := Nat.exists_eq_add_of_lt hm
  rw [readRunOfOnes, Nat.add_assoc, readRunFrom_ones _ _ h, readRunFrom_succ, if_neg]
  exact hend

end Reading

section SourceOperations
variable (s : State)

theorem exec_readBit :
    exec .readBit s = aloneD ((readBit s.params s.d).bind fun b d => .ok (.word (bitVal 64 b)) d) s := rfl

theorem exec_readBits (n : Byte) : exec (.readBits n) s = aloneD (readBits s.params n.toNat s.d).asWord s := rfl

theorem exec_readRunOfOnes (m : Byte) :
    exec (.readRunOfOnes m) s =
      aloneD ((readRunOfOnes s.params m.toNat s.d).bind fun c d => .ok (.word (BitVec.ofNat 64 c)) d) s := rfl

end SourceOperations

/-- Settles O21: the ways READ_BIT and READ_BITS end, and the bits of the number READ_BITS reads. -/
theorem readBitsReturnsTheNextBits : Obligations.ReadBitsReturnsTheNextBits := by
  refine fun s => ⟨fun h => ?_, fun h => ?_, fun n => ⟨fun hn h => ?_, fun hn h => ?_, fun hn => ?_⟩⟩
  · rw [exec_readBit, readBit_reads h]
    rfl
  · rw [exec_readBit, readBit_exhausted h]
    rfl
  · refine ⟨ofBits 64 (s.d.next s.params n.toNat), ?_, fun j hj => getLsbD_ofBits_streamBits _ _ hj⟩
    rw [exec_readBits, readBits_reads hn h]
    rfl
  · rw [exec_readBits, readBits_exhausted hn h]
    rfl
  · rw [exec_readBits, readBits_wide hn]
    rfl

/-- Settles O22: the ones counted are ahead of the cursor, and what follows them, a 0, a bit that was not asked for or
the end of the source, tells the three cases apart. -/
theorem readRunOfOnesScans : Obligations.ReadRunOfOnesScans := by
  intro s m hin k c
  have hk : s.d.available s.params k := by
    have : k ≤ s.d.srcLenBits s.params - s.d.rPos := Nat.min_le_right _ _
    rw [EngineD.available]
    omega
  have hkm : k ≤ m.toNat := Nat.min_le_left _ _
  have hc : OnesAhead s.params s.d c := onesAhead_onesRun hk
  refine ⟨fun hlt => ?_, fun heq hfull => ?_, fun heq hcut => ?_⟩
  · rw [exec_readRunOfOnes, readRunOfOnes_zero hc (by omega) (available_mono hlt hk) (streamBit_onesRun hlt)]
    rfl
  · rw [heq, hfull] at hc
    rw [exec_readRunOfOnes, readRunOfOnes_full hc, hfull]
    rfl
  · have hend : s.d.rPos + c = s.d.srcLenBits s.params := by omega
    have hno : ¬ s.d.available s.params (c + 1) := by
      rw [EngineD.available]
      omega
    rw [exec_readRunOfOnes, readRunOfOnes_cut hc (by omega) hno, hend]
    rfl

/-- Settles O23: the bits split where the cursor stands after the first read, and the last bit alone is a READ_BIT. -/
theorem readBitsSplits : Obligations.ReadBitsSplits := by
  refine fun p d a b hab h => ⟨readBits_add hab h, ?_⟩
  rintro rfl
  rw [readBits_add hab h]
  refine congrArg (Res.bind _) (funext fun v => funext fun d1 => ?_)
  rw [readBits_one]
  cases readBit p d1 <;> rfl

end Machine
end Sys2Proof

/-! What the source keeps (10_state.md R28, R30, 41_bitsource.md R140): every line of engine D's pseudocode but a
construction, and every code word, only moves the cursor on, inside the source, also where it raises. -/

namespace Sys2Proof
namespace Machine

/-- `d1` has the source of `d`, and its cursor at or behind the one of `d`, no further than the source's end. -/
structure ReadsOn (p : Params) (d d1 : EngineD) : Prop where
  smD : d1.smD = d.smD
  srcLenUnits : d1.srcLenUnits = d.srcLenUnits
  forward : d.rPos ≤ d1.rPos
  bounded : d1.rPos ≤ max d.rPos (d.srcLenBits p)

/-- `r` ends with the source of `d` read on, normally or by a raise. -/
abbrev Res.ReadsOn {α : Type} (r : Res EngineD α) (p : Params) (d : EngineD) : Prop :=
  r.Ends (Machine.ReadsOn p d) fun _ => Machine.ReadsOn p d

section Reading
variable {p : Params} {d d1 : EngineD}

theorem ReadsOn.refl : ReadsOn p d d := ⟨rfl, rfl, Nat.le_refl _, Nat.le_max_left _ _⟩

/-- The source does not depend on the other registers. -/
theorem ReadsOn.withRegisters (h : ReadsOn p d d1) (ph : PhaseD) (f : FaultCode) (x : Session) :
    ReadsOn p d { d1 with phase := ph, fault := f, ses := x } :=
  ⟨h.smD, h.srcLenUnits, h.forward, h.bounded⟩

theorem ReadsOn.withCursor (h : ReadsOn p d d1) {k : Nat} (hk : d1.rPos ≤ k) (hb : k ≤ max d1.rPos (d1.srcLenBits p)) :
    ReadsOn p d { d1 with rPos := k } := by
  obtain ⟨hmem, hlen, hfwd, hbnd⟩ := h
  rw [EngineD.srcLenBits, hlen] at hb
  exact ⟨hmem, hlen, hfwd.trans hk, hb.trans (max_le hbnd (Nat.le_max_right _ _))⟩

theorem ReadsOn.consumed (h : ReadsOn p d d1) {n : Nat} (ha : d1.available p n) :
    ReadsOn p d { d1 with rPos := d1.rPos + n } :=
  h.withCursor (Nat.le_add_right _ _) (ha.trans (Nat.le_max_right _ _))

/-! The source's own operations (41_bitsource.md), and the same for a code word's bits. -/

theorem readBit_readsOn (h : ReadsOn p d d1) : (readBit p d1).ReadsOn p d := by
  by_cases ha : d1.available p 1
  · rw [readBit_reads ha]
    exact h.consumed ha
  · rw [readBit_exhausted ha]
    exact h

theorem readBits_readsOn (n : Nat) (h : ReadsOn p d d1) : (readBits p n d1).ReadsOn p d := by
  rcases readBits_cases (p := p) (d := d1) n with ⟨heq, -, ha⟩ | ⟨heq, -, -⟩ | ⟨heq, -⟩ <;> rw [heq]
  · exact h.consumed ha
  · exact h
  · exact h

theorem readRunFrom_readsOn (n count : Nat) (h : ReadsOn p d d1) : (readRunFrom p n count d1).ReadsOn p d := by
  induction n generalizing count d1 with
  | zero => exact h
  | succ n ih =>
    refine (readBit_readsOn h).bind fun b d2 h1 => ?_
    split
    · exact ih _ h1
    · exact h1

theorem consume_readsOn (n : Nat) (h : ReadsOn p d d1) : (consume p n d1).ReadsOn p d := by
  rcases consume_cases (p := p) (d := d1) n with ⟨heq, ha⟩ | ⟨heq, -⟩ <;> rw [heq]
  · exact h.consumed ha
  · exact h

theorem consumeEach_readsOn (n : Nat) (h : ReadsOn p d d1) : (consumeEach p n d1).ReadsOn p d := by
  rcases consumeEach_cases (p := p) (d := d1) n with ⟨heq, ha⟩ | ⟨heq, -⟩ <;> rw [heq]
  · exact h.consumed ha
  · exact h.withCursor (Nat.le_max_left _ _) (Nat.le_refl _)

/-! The codecs (44_timestamp_dod.md, 43_value_xor.md). -/

theorem takeFirstDelta_readsOn (v : W64) (h : ReadsOn p d d1) : (takeFirstDelta v d1).ReadsOn p d := by
  unfold takeFirstDelta
  split
  · exact h
  · exact h.withRegisters _ _ _

theorem takeDod_readsOn (dod : W64) (h : ReadsOn p d d1) : (takeDod dod d1).ReadsOn p d := h.withRegisters _ _ _

theorem takePayload_readsOn (r : Nat) (payload : W64) (h : ReadsOn p d d1) :
    (takePayload r payload d1).ReadsOn p d := by
  unfold takePayload
  split
  · exact h
  · exact takeDod_readsOn _ h

theorem recordValue_readsOn (value : W64) (h : ReadsOn p d d1) : (recordValue value d1).ReadsOn p d :=
  h.withRegisters _ _ _

theorem tsReadFirst_readsOn (h : ReadsOn p d d1) : (tsReadFirst p d1).ReadsOn p d :=
  (readBits_readsOn _ h).bind fun v _ h1 => takeFirstDelta_readsOn v h1

theorem tsDecompress_readsOn (h : ReadsOn p d d1) : (tsDecompress p d1).ReadsOn p d := by
  refine (readRunFrom_readsOn _ _ h).bind fun r d2 h1 => ?_
  split
  · exact takeDod_readsOn _ h1
  · exact (readBits_readsOn _ h1).bind fun payload _ h2 => takePayload_readsOn r payload h2

theorem valReadFirst_readsOn (h : ReadsOn p d d1) : (valReadFirst p d1).ReadsOn p d :=
  (readBits_readsOn _ h).bind fun v _ h1 => recordValue_readsOn v h1

theorem decompressReuse_readsOn (predicted : W64) (h : ReadsOn p d d1) :
    (decompressReuse p predicted d1).ReadsOn p d := by
  unfold decompressReuse
  split
  · exact h
  · exact (readBits_readsOn _ h).bind fun _ _ h1 => recordValue_readsOn _ h1

theorem decompressNew_readsOn (predicted : W64) (h : ReadsOn p d d1) : (decompressNew p predicted d1).ReadsOn p d := by
  refine (readBits_readsOn _ h).bind fun l d2 h1 => ?_
  refine (readBits_readsOn _ h1).bind fun m d3 h2 => ?_
  dsimp only
  split
  · exact h2
  · exact (readBits_readsOn _ (h2.withRegisters _ _ _)).bind fun _ _ h3 => recordValue_readsOn _ h3

theorem valDecompress_readsOn (h : ReadsOn p d d1) : (valDecompress p d1).ReadsOn p d := by
  refine (readBit_readsOn h).bind fun b1 d2 h1 => ?_
  split
  · refine (readBit_readsOn h1).bind fun b2 d3 h2 => ?_
    split
    · exact decompressNew_readsOn _ h2
    · exact decompressReuse_readsOn _ h2
  · exact recordValue_readsOn _ h1

/-! The commands (45_framing.md R225, R226). -/

/-- D_INIT starts at bit 0 of a source of the length it is given. -/
theorem dInit_readsOn (kind : PredKind) (srcLenUnits tableSizeReq : W64) :
    (dInit p kind srcLenUnits tableSizeReq d).ReadsOn p { d with srcLenUnits := srcLenUnits.toNat, rPos := 0 } := by
  have h0 : ReadsOn p { d with srcLenUnits := srcLenUnits.toNat, rPos := 0 }
      { d with srcLenUnits := srcLenUnits.toNat, rPos := 0, phase := .idle, fault := .none, ses := d.ses.fresh 0#64 } :=
    ReadsOn.refl.withRegisters _ _ _
  unfold dInit
  refine Res.Ends.bind ?_ fun _ _ h1 => (readBits_readsOn _ h1).bind fun _ _ h2 => h2.withRegisters _ _ _
  cases predInit p kind tableSizeReq (d.ses.fresh 0#64).pred <;> exact h0.withRegisters _ _ _

theorem readPair_readsOn (h : ReadsOn p d d1) : (readPair p d1).ReadsOn p d := by
  unfold readPair
  split
  · exact h
  · split
    · refine (tsReadFirst_readsOn h).bind fun r d2 h1 => ?_
      split
      · exact h1.withRegisters _ _ _
      · exact (valReadFirst_readsOn h1).bind fun _ _ h2 => h2.withRegisters _ _ _
    · refine (tsDecompress_readsOn h).bind fun r d2 h1 => ?_
      split
      · exact h1.withRegisters _ _ _
      · exact (valDecompress_readsOn h1).bind fun _ _ h2 => h2.withRegisters _ _ _

/-! The code words run alone (30_encoding.md R97 to R105). -/

theorem markEnd_readsOn (r : Bool × W64) (h : ReadsOn p d d1) : (markEnd r d1).ReadsOn p d := by
  rw [markEnd, Res.ReadsOn, Res.ends_ok]
  split
  · exact h.withRegisters _ _ _
  · exact h

theorem headerWord_readsOn (blockTimestamp : W64) (h : ReadsOn p d d1) :
    (headerWord p blockTimestamp d1).ReadsOn p d :=
  (consume_readsOn 64 h).bind fun _ _ h1 => h1.withRegisters _ _ _

theorem firstDeltaField_readsOn (v : W64) (h : ReadsOn p d d1) : (firstDeltaField p v d1).ReadsOn p d :=
  ((consume_readsOn _ h).bind fun _ _ h1 => takeFirstDelta_readsOn v h1).bind fun r _ h2 => markEnd_readsOn r h2

theorem firstValueWord_readsOn (value : W64) (h : ReadsOn p d d1) : (firstValueWord p value d1).ReadsOn p d :=
  (consume_readsOn 64 h).bind fun _ _ h1 =>
  (recordValue_readsOn value h1).bind fun _ _ h2 => h2.withRegisters _ _ _

theorem timestampWord_readsOn (r : Nat) (payload : W64) (h : ReadsOn p d d1) :
    (timestampWord p r payload d1).ReadsOn p d :=
  ((consumeEach_readsOn _ h).bind fun _ _ h1 =>
    (consume_readsOn _ h1).bind fun _ _ h2 => takePayload_readsOn r payload h2).bind fun v _ h3 => markEnd_readsOn v h3

theorem timestampZero_readsOn (h : ReadsOn p d d1) : (timestampZero p d1).ReadsOn p d :=
  (consumeEach_readsOn 1 h).bind fun _ _ h1 => takeDod_readsOn _ h1

theorem endSample_readsOn (value : W64) (h : ReadsOn p d d1) : (endSample value d1).ReadsOn p d :=
  (recordValue_readsOn value h).bind fun _ _ h1 => h1.withRegisters _ _ _

theorem sameWord_readsOn (h : ReadsOn p d d1) : (sameWord p d1).ReadsOn p d :=
  (consumeEach_readsOn 1 h).bind fun _ _ h1 => endSample_readsOn _ h1

theorem reuseWord_readsOn (bits : W64) (h : ReadsOn p d d1) : (reuseWord p bits d1).ReadsOn p d := by
  refine (consumeEach_readsOn 2 h).bind fun _ d2 h1 => ?_
  split
  · exact h1
  · exact (consume_readsOn _ h1).bind fun _ _ h2 => endSample_readsOn _ h2

theorem newWord_readsOn (leading lengthM1 : Nat) (bits : W64) (h : ReadsOn p d d1) :
    (newWord p leading lengthM1 bits d1).ReadsOn p d := by
  refine (consumeEach_readsOn 2 h).bind fun _ d2 h1 => ?_
  refine (consume_readsOn _ h1).bind fun _ d3 h2 => ?_
  refine (consume_readsOn _ h2).bind fun _ d4 h3 => ?_
  dsimp only
  split
  · exact h3
  · exact (consume_readsOn _ (h3.withRegisters _ _ _)).bind fun _ _ h4 => endSample_readsOn _ h4

end Reading

/-! The frames. -/

section Frames
variable {s t : State} {p : Params} {d : EngineD}

theorem finishD_readsOn {r : Res EngineD Unit} (hr : r.ReadsOn p d) (ht : finishD r s = .next t) : ReadsOn p d t.d := by
  rcases finishD_cases ht with ⟨d1, rfl, rfl⟩ | ⟨f, d1, rfl, rfl⟩
  · exact hr
  · exact hr.withRegisters _ _ _

theorem acceptRead_readsOn {body : EngineD → Res EngineD (Option (W64 × W64))} (hr : (body s.d).ReadsOn p s.d)
    (ht : acceptRead body s = .next t) : ReadsOn p s.d t.d := by
  rcases acceptRead_cases ht with ⟨-, rfl⟩ | ⟨-, -, rfl⟩ | ⟨-, -, ht⟩
  · exact ReadsOn.refl
  · exact ReadsOn.refl
  · rcases finishRead_cases ht with ⟨pair, d1, hb, rfl⟩ | ⟨f, d1, hb, rfl⟩ <;> rw [hb] at hr
    · exact hr
    · exact hr.withRegisters _ _ _

theorem aloneD_readsOn {r : Res EngineD Returned} (hr : r.ReadsOn p d) (ht : aloneD r s = .next t) :
    ReadsOn p d t.d := by
  rcases aloneD_cases ht with ⟨v, d1, rfl, rfl⟩ | ⟨f, d1, rfl, rfl⟩
  · exact hr
  · exact hr.withRegisters _ _ _

/-- An operation of engine E leaves engine D. -/
theorem aloneE_d {r : Res EngineE Returned} (ht : aloneE r s = .next t) : t.d = s.d := by
  rcases aloneE_cases ht with ⟨v, e, -, rfl⟩ | ⟨f, e, -, rfl⟩ <;> rfl

/-- The predictor is no part of the source. -/
theorem alonePred_readsOn {x : Engine} {op : Pred → Res Pred Returned} (ht : alonePred x op s = .next t) :
    ReadsOn p s.d t.d := by
  cases x with
  | E =>
    rw [aloneE_d ht]
    exact ReadsOn.refl
  | D =>
    refine aloneD_readsOn ?_ ht
    cases op s.d.ses.pred <;> exact ReadsOn.refl.withRegisters _ _ _

theorem exec_flush_d (ht : exec .flush s = .next t) : t.d = s.d := by
  rw [exec, execFlush] at ht
  split at ht
  · cases ht
  · exact aloneE_d ht

/-- Every instruction but D_INIT only reads on. -/
theorem exec_readsOn {i : Instr} (hi : ∀ k len n, i ≠ .dInit k len n) (ht : exec i s = .next t) :
    ReadsOn s.params s.d t.d := by
  have h : ReadsOn s.params s.d s.d := ReadsOn.refl
  cases i with
  | dInit k len n => exact absurd rfl (hi k len n)
  | readPair => exact acceptRead_readsOn (readPair_readsOn h) ht
  | readBit => exact aloneD_readsOn ((readBit_readsOn h).reported _) ht
  | readBits n => exact aloneD_readsOn (readBits_readsOn _ h).asWord ht
  | readRunOfOnes m => exact aloneD_readsOn ((readRunFrom_readsOn _ _ h).reported _) ht
  | predInit x k n => exact alonePred_readsOn (op := fun q => (predInit s.params k n q).silent) ht
  | predUpdate x v => exact alonePred_readsOn (op := fun q => .ok .nothing (predUpdate v q)) ht
  | predPredict x => exact alonePred_readsOn (op := fun q => .ok (.word (predPredict q)) q) ht
  | valReadFirst => exact aloneD_readsOn (valReadFirst_readsOn h).asWord ht
  | valDecompress => exact aloneD_readsOn (valDecompress_readsOn h).asWord ht
  | tsReadFirst => exact aloneD_readsOn (tsReadFirst_readsOn h).asFlagged ht
  | tsDecompress => exact aloneD_readsOn (tsDecompress_readsOn h).asFlagged ht
  | header b => exact aloneD_readsOn (headerWord_readsOn b h).silent ht
  | firstDelta x => exact aloneD_readsOn (firstDeltaField_readsOn _ h).asFlagged ht
  | emptyMarker => exact aloneD_readsOn (firstDeltaField_readsOn _ h).asFlagged ht
  | firstValue v => exact aloneD_readsOn (firstValueWord_readsOn v h).asWord ht
  | tsZero => exact aloneD_readsOn (timestampZero_readsOn h).asFlagged ht
  | ts7 x => exact aloneD_readsOn (timestampWord_readsOn 1 _ h).asFlagged ht
  | ts9 x => exact aloneD_readsOn (timestampWord_readsOn 2 _ h).asFlagged ht
  | ts12 x => exact aloneD_readsOn (timestampWord_readsOn 3 _ h).asFlagged ht
  | ts32 x => exact aloneD_readsOn (timestampWord_readsOn 4 _ h).asFlagged ht
  | tsSentinel => exact aloneD_readsOn (timestampWord_readsOn 4 _ h).asFlagged ht
  | valSame => exact aloneD_readsOn (sameWord_readsOn h).asWord ht
  | valReuse n bits => exact aloneD_readsOn (reuseWord_readsOn bits h).asWord ht
  | valNew l m bits => exact aloneD_readsOn (newWord_readsOn l.toNat m.toNat bits h).asWord ht
  | flush =>
    rw [exec_flush_d ht]
    exact h
  -- the commands of engine E
  | cInit | addValue | close =>
    obtain ⟨r, hframe⟩ := exec_port_E_frame rfl ht
    rw [hframe]
    exact h
  -- engine E's other micro-operations and code words
  | _ =>
    rw [aloneE_d ht]
    exact h

/-- D_INIT reads on from the start of a source of the length it is given. -/
theorem exec_dInit_readsOn {k : PredKind} {len n : W64} (ht : exec (.dInit k len n) s = .next t) :
    ReadsOn s.params { s.d with srcLenUnits := len.toNat, rPos := 0 } t.d :=
  finishD_readsOn (dInit_readsOn k len n) ht

end Frames

/-- The cursor stays inside a source it was inside of. -/
theorem ReadsOn.rPos_le {p : Params} {d d1 : EngineD} (h : ReadsOn p d d1) (hin : d.rPos ≤ d.srcLenBits p) :
    d1.rPos ≤ d1.srcLenBits p := by
  have hb := h.bounded
  rwa [max_eq_right hin, EngineD.srcLenBits, ← h.srcLenUnits] at hb

/-- Settles O24: D_INIT reads on from the start of its source (`exec_dInit_readsOn`), everything else from where the
cursor stands (`exec_readsOn`). -/
theorem sourceIsReadOnce : Obligations.SourceIsReadOnce := by
  intro i s t ht
  by_cases hi : ∃ k len n, i = .dInit k len n
  · obtain ⟨k, len, n, rfl⟩ := hi
    have h := exec_dInit_readsOn ht
    exact ⟨h.smD, fun _ => h.rPos_le (Nat.zero_le _), fun hne => absurd rfl (hne k len n)⟩
  · have h := exec_readsOn (fun k len n heq => hi ⟨k, len, n, heq⟩) ht
    exact ⟨h.smD, h.rPos_le, fun _ => ⟨h.forward, h.srcLenUnits⟩⟩

end Machine
end Sys2Proof

/-! The predictor run alone (42_predictor.md R161 to R166): what the bench sees of each of its three operations, the
hash in the arithmetic of R164, and `NextPow2` as the least power of two. -/

namespace Sys2Proof
namespace Machine

/-- `NextPow2` by its lower bounds: among the powers of two, those at or above `s` (R166). -/
theorem nextPow2_le_two_pow_iff {s : Nat} (hs : 1 ≤ s) (k : Nat) : nextPow2 s ≤ 2 ^ k ↔ s ≤ 2 ^ k := by
  unfold nextPow2
  split
  · next hone =>
    have hpos : 1 ≤ 2 ^ k := Nat.one_le_two_pow
    omega
  · next hmore =>
    rw [Nat.pow_le_pow_iff_right (by decide), Nat.add_one_le_iff, Nat.log2_lt (by omega)]
    omega

/-- Settles O27: a power of two, at or above `s` because it is at or above itself. -/
theorem nextPowerIsTheSmallest : Obligations.NextPowerIsTheSmallest := by
  intro s hs
  have hpow := nextPow2_eq_two_pow_log2 s
  refine ⟨⟨_, hpow⟩, ?_, fun k => (nextPow2_le_two_pow_iff hs k).2⟩
  rw [hpow]
  exact (nextPow2_le_two_pow_iff hs _).1 hpow.le

section PredictorAlone
variable {s : State} {x : Engine}

theorem alonePred_ok {op : Pred → Res Pred Returned} {v : Returned} {q : Pred} (h : op (s.predOf x) = .ok v q) :
    alonePred x op s = .next { s.setPred x q with ret := v } := by
  cases x <;> rw [State.predOf] at h <;> rw [alonePred, h] <;> rfl

theorem alonePred_raised {op : Pred → Res Pred Returned} {f : FaultCode} {q : Pred}
    (h : op (s.predOf x) = .raised f q) :
    alonePred x op s = .next (({ s.setPred x q with ret := .nothing } : State).enterFault x f) := by
  cases x <;> rw [State.predOf] at h <;> rw [alonePred, h] <;> rfl

@[simp] theorem State.setPred_predOf : s.setPred x (s.predOf x) = s := by cases x <;> rfl

theorem exec_predUpdate (v : W64) :
    exec (.predUpdate x v) s = .next { s.setPred x (predUpdate v (s.predOf x)) with ret := .nothing } :=
  alonePred_ok (op := fun q => .ok .nothing (predUpdate v q)) rfl

theorem exec_predPredict : exec (.predPredict x) s = .next { s with ret := .word (predPredict (s.predOf x)) } := by
  have h := alonePred_ok (s := s) (x := x) (op := fun q => .ok (.word (predPredict q)) q) rfl
  rwa [State.setPred_predOf] at h

theorem exec_predInit_accepted {k : PredKind} {n : W64} (h : predAccepted s.params k n = true) :
    exec (.predInit x k n) s = .next { s.setPred x (freshPred k n) with ret := .nothing } := by
  rcases predInit_cases (p := s.params) (q := s.predOf x) k n with ⟨heq, -⟩ | ⟨-, -, hrej⟩
  · exact alonePred_ok (op := fun q => (predInit s.params k n q).silent) (by rw [heq, Res.silent_ok])
  · rw [h] at hrej
    cases hrej

theorem exec_predInit_rejected {k : PredKind} {n : W64} (h : predAccepted s.params k n = false) :
    exec (.predInit x k n) s =
      .next (({ s.setPred x { s.predOf x with kind := .dfcm, lastValue := 0#64, hash := 0 } with
                ret := .nothing } : State).enterFault x .config) := by
  rcases predInit_cases (p := s.params) (q := s.predOf x) k n with ⟨-, hacc⟩ | ⟨heq, -, -⟩
  · rw [h] at hacc
    cases hacc
  · exact alonePred_raised (op := fun q => (predInit s.params k n q).silent) (by rw [heq, Res.silent_raised])

end PredictorAlone

section Predictor
variable {p : Params} {q : Pred} {v : W64}

theorem predPredict_last (h : q.kind = .last) : predPredict q = q.lastValue := by
  rw [predPredict, h, predictLast]

theorem predPredict_dfcm (h : q.kind = .dfcm) : predPredict q = q.table.read q.hash + q.lastValue := by
  rw [predPredict, h, predictDfcm]

theorem predUpdate_last (h : q.kind = .last) : predUpdate v q = updateLast v q := by
  rw [predUpdate, h]

theorem predUpdate_dfcm (h : q.kind = .dfcm) : predUpdate v q = updateDfcm v q := by
  rw [predUpdate, h]

/-- R164's hash as numbers: the mask of a size that is a power of two is a remainder. -/
theorem nextHash_eq_mod {hash size : Nat} (delta : W64) (h : size = 2 ^ Nat.log2 size) :
    nextHash hash size delta = (hash * 32 ^^^ delta.toNat / 2 ^ 50) % size := by
  rw [nextHash, BitVec.toNat_ushiftRight, Nat.shiftRight_eq_div_pow, Nat.shiftLeft_eq, h,
    Nat.and_two_pow_sub_one_eq_mod]

theorem Table.read_write {t : Table} (h : cellsRise t) (i j : Nat) (w : W64) :
    (t.write i w).read j = if j = i then w else t.read j := by
  split
  · next hj => rw [hj, Table.read_write_same t i w h]
  · next hj => exact Table.read_write_ne t i j w hj

end Predictor

/-- Settles O25: PRED_INIT as it accepts its operands or not, PRED_PREDICT by its two variants. -/
theorem predictorStartsAndPredicts : Obligations.PredictorStartsAndPredicts := by
  refine fun s x => ⟨fun k n => exec_predInit_accepted, fun k n => exec_predInit_rejected, fun h => ?_, fun h => ?_⟩
  · rw [exec_predPredict, predPredict_last h]
  · rw [exec_predPredict, predPredict_dfcm h]

/-- Settles O26: what PRED_UPDATE leaves is still a predictor (`predInv_predUpdate`), and it is written by the two
variants. -/
theorem predictorRecords : Obligations.PredictorRecords := by
  intro s x v hinv q
  have ⟨_, hpow, _, hrise, _⟩ := hinv
  obtain ⟨-, -, -, hwf⟩ := predInv_predUpdate v hinv
  refine ⟨predUpdate v q, exec_predUpdate v, predUpdate_kind v, predUpdate_size v, predUpdate_lastValue v, hwf,
    fun h => ?_, fun h => ?_⟩
  · rw [predUpdate_last h]
    exact ⟨rfl, rfl⟩
  · rw [predUpdate_dfcm h]
    exact ⟨nextHash_eq_mod _ hpow, fun j => Table.read_write hrise _ _ _⟩

end Machine
end Sys2Proof

/-! The predictor of engine D is for values only (42_predictor.md R167, 70_reset_and_hazards.md R286): two decoders that
differ in nothing else read the same bits line by line, and stay that way. -/

namespace Sys2Proof
namespace Machine

/-- `d'` is engine D as in `d`, but for its predictor. -/
def EngineD.SameButPred (d d' : EngineD) : Prop := ∃ q, d' = d.withPred q

theorem EngineD.sameButPred_iff {d d' : EngineD} : d.SameButPred d' ↔ d.erasePred = d'.erasePred := by
  constructor
  · rintro ⟨q, rfl⟩
    rfl
  · intro h
    have hback : d'.erasePred.withPred d'.ses.pred = d' := rfl
    exact ⟨d'.ses.pred, by rw [← hback, ← h]; rfl⟩

section SameButPred
variable {d d' : EngineD}

theorem EngineD.SameButPred.phase (h : d.SameButPred d') : d'.phase = d.phase := by
  obtain ⟨q, rfl⟩ := h
  rfl

theorem EngineD.SameButPred.fault (h : d.SameButPred d') : d'.fault = d.fault := by
  obtain ⟨q, rfl⟩ := h
  rfl

theorem EngineD.SameButPred.withPhase (h : d.SameButPred d') (x : PhaseD) :
    ({ d with phase := x } : EngineD).SameButPred { d' with phase := x } := by
  obtain ⟨q, rfl⟩ := h
  exact ⟨q, rfl⟩

theorem EngineD.SameButPred.withFault (h : d.SameButPred d') (f : FaultCode) :
    ({ d with fault := f } : EngineD).SameButPred { d' with fault := f } := by
  obtain ⟨q, rfl⟩ := h
  exact ⟨q, rfl⟩

end SameButPred

/-- Both end normally, with results related by `V`, or both raise the same code; only the predictor tells the two
decoders apart afterwards. -/
inductive Res.Alike {α β : Type} (V : α → β → Prop) : Res EngineD α → Res EngineD β → Prop where
  | ok {a : α} {b : β} {d d' : EngineD} (hv : V a b) (hd : d.SameButPred d') : Alike V (.ok a d) (.ok b d')
  | raised {f : FaultCode} {d d' : EngineD} (hd : d.SameButPred d') : Alike V (.raised f d) (.raised f d')

/-- Values may differ. -/
def AnyValues (_ _ : W64) : Prop := True

/-- Both pairs are absent, or both are there with one timestamp. -/
def SameTimestamp (a b : Option (W64 × W64)) : Prop := a.map Prod.fst = b.map Prod.fst

section Alike
variable {α β γ δ : Type} {V : α → β → Prop} {W : γ → δ → Prop}

theorem Res.Alike.bind {r : Res EngineD α} {r' : Res EngineD β} {k : α → EngineD → Res EngineD γ}
    {k' : β → EngineD → Res EngineD δ} (h : r.Alike V r')
    (hk : ∀ a b d d', V a b → d.SameButPred d' → (k a d).Alike W (k' b d')) : (r.bind k).Alike W (r'.bind k') := by
  cases h with
  | ok hv hd => exact hk _ _ _ _ hv hd
  | raised hd => exact .raised hd

/-- The next line where the line before gave both decoders the same result. -/
theorem Res.Alike.bindEq {r r' : Res EngineD α} {k : α → EngineD → Res EngineD γ}
    {k' : α → EngineD → Res EngineD δ} (h : r.Alike Eq r')
    (hk : ∀ a d d', d.SameButPred d' → (k a d).Alike W (k' a d')) : (r.bind k).Alike W (r'.bind k') :=
  h.bind fun a _ d d' hab hd => hab ▸ hk a d d' hd

/-- A test on what both decoders have. -/
theorem Res.Alike.ite {c : Prop} [Decidable c] {a b : Res EngineD α} {a' b' : Res EngineD β} (ha : a.Alike V a')
    (hb : b.Alike V b') : (if c then a else b).Alike V (if c then a' else b') := by
  split
  · exact ha
  · exact hb

end Alike

section Reading
variable {p : Params} {d d' : EngineD}

/-! The source (41_bitsource.md): the predictor is no part of it. -/

theorem readBit_alike (h : d.SameButPred d') : (readBit p d).Alike Eq (readBit p d') := by
  obtain ⟨q, rfl⟩ := h
  exact .ite (.raised ⟨q, rfl⟩) (.ok rfl ⟨q, rfl⟩)

theorem next_withPred (q : Pred) (n : Nat) : (d.withPred q).next p n = d.next p n :=
  streamBits_congr (d := d) (d1 := d.withPred q) rfl _ _

theorem readBits_alike (n : Nat) (h : d.SameButPred d') : (readBits p n d).Alike Eq (readBits p n d') := by
  obtain ⟨q, rfl⟩ := h
  rcases readBits_cases (p := p) (d := d) n with ⟨heq, hn, ha⟩ | ⟨heq, hn, ha⟩ | ⟨heq, hn⟩ <;> rw [heq]
  · rw [readBits_reads (d := d.withPred q) hn ha, next_withPred]
    exact .ok rfl ⟨q, rfl⟩
  · rw [readBits_exhausted (d := d.withPred q) hn ha]
    exact .raised ⟨q, rfl⟩
  · rw [readBits_wide hn]
    exact .raised ⟨q, rfl⟩

theorem readRunFrom_alike (n count : Nat) (h : d.SameButPred d') :
    (readRunFrom p n count d).Alike Eq (readRunFrom p n count d') := by
  induction n generalizing count d d' with
  | zero => exact .ok rfl h
  | succ n ih => exact (readBit_alike h).bindEq fun _ _ _ h1 => .ite (ih _ h1) (.ok rfl h1)

/-! The timestamp codec (44_timestamp_dod.md): bits and registers that are the same on both sides. -/

theorem takeFirstDelta_alike (v : W64) (h : d.SameButPred d') :
    (takeFirstDelta v d).Alike Eq (takeFirstDelta v d') := by
  obtain ⟨q, rfl⟩ := h
  exact .ite (.ok rfl ⟨q, rfl⟩) (.ok rfl ⟨q, rfl⟩)

theorem takeDod_alike (dod : W64) (h : d.SameButPred d') : (takeDod dod d).Alike Eq (takeDod dod d') := by
  obtain ⟨q, rfl⟩ := h
  exact .ok rfl ⟨q, rfl⟩

theorem takePayload_alike (r : Nat) (payload : W64) (h : d.SameButPred d') :
    (takePayload r payload d).Alike Eq (takePayload r payload d') :=
  .ite (.ok rfl h) (takeDod_alike _ h)

theorem tsReadFirst_alike (h : d.SameButPred d') : (tsReadFirst p d).Alike Eq (tsReadFirst p d') :=
  (readBits_alike _ h).bindEq fun v _ _ h1 => takeFirstDelta_alike v h1

theorem tsDecompress_alike (h : d.SameButPred d') : (tsDecompress p d).Alike Eq (tsDecompress p d') :=
  (readRunFrom_alike _ _ h).bindEq fun r _ _ h1 =>
    .ite (takeDod_alike _ h1) <|
      (readBits_alike _ h1).bindEq fun payload _ _ h2 => takePayload_alike r payload h2

/-! The value codec (43_value_xor.md): the same bits, and a value for each prediction. -/

/-- Recording a value writes the predictor and nothing else. -/
theorem recordValue_alike (v v' : W64) (h : d.SameButPred d') :
    (recordValue v d).Alike AnyValues (recordValue v' d') := by
  obtain ⟨q, rfl⟩ := h
  exact .ok trivial ⟨predUpdate v' q, rfl⟩

theorem valReadFirst_alike (h : d.SameButPred d') : (valReadFirst p d).Alike AnyValues (valReadFirst p d') :=
  (readBits_alike _ h).bindEq fun v _ _ h1 => recordValue_alike v v h1

theorem decompressReuse_alike (predicted predicted' : W64) (h : d.SameButPred d') :
    (decompressReuse p predicted d).Alike AnyValues (decompressReuse p predicted' d') := by
  obtain ⟨q, rfl⟩ := h
  exact .ite (.raised ⟨q, rfl⟩) <| (readBits_alike _ ⟨q, rfl⟩).bindEq fun _ _ _ h1 => recordValue_alike _ _ h1

theorem decompressNew_alike (predicted predicted' : W64) (h : d.SameButPred d') :
    (decompressNew p predicted d).Alike AnyValues (decompressNew p predicted' d') := by
  refine (readBits_alike _ h).bindEq fun _ _ _ h1 => ?_
  refine (readBits_alike _ h1).bindEq fun _ _ _ h2 => ?_
  obtain ⟨q, rfl⟩ := h2
  exact .ite (.raised ⟨q, rfl⟩) <| (readBits_alike _ ⟨q, rfl⟩).bindEq fun _ _ _ h3 => recordValue_alike _ _ h3

theorem valDecompress_alike (h : d.SameButPred d') : (valDecompress p d).Alike AnyValues (valDecompress p d') :=
  (readBit_alike h).bindEq fun _ _ _ h1 =>
    .ite ((readBit_alike h1).bindEq fun _ _ _ h2 => .ite (decompressNew_alike _ _ h2) (decompressReuse_alike _ _ h2))
      (recordValue_alike _ _ h1)

/-! READ_PAIR (45_framing.md R226). -/

theorem readPair_alike (h : d.SameButPred d') : (readPair p d).Alike SameTimestamp (readPair p d') := by
  unfold readPair
  rw [h.phase]
  refine .ite (.ok rfl h) (.ite ?_ ?_)
  · exact (tsReadFirst_alike h).bindEq fun _ _ _ h1 => .ite (.ok rfl (h1.withPhase _)) <|
      (valReadFirst_alike h1).bind fun _ _ _ _ _ h2 => .ok rfl (h2.withPhase _)
  · exact (tsDecompress_alike h).bindEq fun _ _ _ h1 => .ite (.ok rfl (h1.withPhase _)) <|
      (valDecompress_alike h1).bind fun _ _ _ _ _ h2 => .ok rfl (h2.withPhase _)

end Reading

/-- The answers agree in all but the value. -/
structure Response.SameButValue (r r' : Response) : Prop where
  status : r.status = r'.status
  fault : r.fault = r'.fault
  timestamp : r.timestamp = r'.timestamp

theorem pairResponse_sameButValue (f : FaultCode) {a b : Option (W64 × W64)} (h : SameTimestamp a b) :
    (pairResponse f a).SameButValue (pairResponse f b) := by
  cases a with
  | none =>
    cases b with
    | none => exact ⟨rfl, rfl, rfl⟩
    | some y => cases h
  | some x =>
    cases b with
    | none => cases h
    | some y => exact ⟨rfl, rfl, Option.some.inj h⟩

/-- Both outcomes go on, engine D the same but for the predictor and the answers of its port but for the value. -/
def AnswerAlike (o o' : Result) : Prop :=
  ∃ t t' r r', o = .next t ∧ o' = .next t' ∧ t.respD = some r ∧ t'.respD = some r' ∧ t.d.SameButPred t'.d ∧
    r.SameButValue r'

section Frames
variable {s s' : State}

theorem finishRead_alike {x x' : Res EngineD (Option (W64 × W64))} (h : x.Alike SameTimestamp x') :
    AnswerAlike (finishRead x s) (finishRead x' s') := by
  cases h with
  | ok hv hd =>
    refine ⟨_, _, _, _, rfl, rfl, rfl, rfl, hd, ?_⟩
    rw [hd.fault]
    exact pairResponse_sameButValue _ hv
  | raised hd => exact ⟨_, _, _, _, rfl, rfl, rfl, rfl, hd.withFault _, rfl, rfl, rfl⟩

theorem refuse_alike (st : Status) (h : s.d.SameButPred s'.d) :
    AnswerAlike (.next (s.refuse .D st)) (.next (s'.refuse .D st)) :=
  ⟨_, _, _, _, rfl, rfl, rfl, rfl, h, rfl, h.fault.symm, rfl⟩

/-- The fault and the phase that a refusal looks at are no part of the predictor (R221). -/
theorem acceptRead_alike {body body' : EngineD → Res EngineD (Option (W64 × W64))} (h : s.d.SameButPred s'.d)
    (hbody : (body s.d).Alike SameTimestamp (body' s'.d)) :
    AnswerAlike (acceptRead body s) (acceptRead body' s') := by
  unfold acceptRead
  rw [h.fault, h.phase]
  split
  · exact refuse_alike _ h
  · split
    · exact refuse_alike _ h
    · exact finishRead_alike hbody

end Frames

/-- Settles O59: READ_PAIR line by line (`readPair_alike`), then its frame. -/
theorem predictorTouchesValuesOnly : Obligations.PredictorTouchesValuesOnly := by
  intro s s' t hp hd ht
  have h := EngineD.sameButPred_iff.2 hd
  have hbody : (readPair s.params s.d).Alike SameTimestamp (readPair s'.params s'.d) := hp ▸ readPair_alike h
  have hexec : AnswerAlike (exec .readPair s) (exec .readPair s') := acceptRead_alike h hbody
  obtain ⟨u, t', r, r', hu, ht', hr, hr', hsame, hanswer⟩ := hexec
  rw [ht] at hu
  cases hu
  exact ⟨t', r, r', ht', hr, hr', EngineD.sameButPred_iff.1 hsame, hanswer.status, hanswer.fault, hanswer.timestamp⟩

end Machine
end Sys2Proof

/-! The value codec run alone (43_value_xor.md R181 to R187): VAL_COMPRESS ends normally or lacks the room for its whole
code word, VAL_DECOMPRESS takes a word off the bits ahead of it, and the word an encoder picks says its residual. -/

namespace Sys2Proof
namespace Machine

section Writing
variable {p : Params} {e e1 : EngineE} {m n N : Nat} {Q : EngineE → Prop}

/-- `e1` is `e` with `m` bits more in its sink, ready for the next, and the same session registers. -/
structure FilledBy (p : Params) (m : Nat) (e e1 : EngineE) : Prop where
  accOpen : e1.accOpen p
  wPos : e1.wPos p = e.wPos p + m
  ses : e1.ses = e.ses

/-- A raise for want of room for `N` bits behind the cursor of `e` (60_exceptions.md R252). -/
def LacksRoom (p : Params) (N : Nat) (e : EngineE) (f : FaultCode) (_ : EngineE) : Prop :=
  f = .capacity ∧ ¬ e.room p N

theorem FilledBy.refl (ho : e.accOpen p) : FilledBy p 0 e e := ⟨ho, rfl, rfl⟩

theorem FilledBy.append {bs : List Bool} {e2 : EngineE} (h : FilledBy p m e e1) (ha : Appended p bs e1 e2) :
    FilledBy p (m + bs.length) e e2 :=
  ⟨ha.accOpen, by rw [ha.wPos, h.wPos, Nat.add_assoc], ha.ses.trans h.ses⟩

/-- Where the next `n` bits do not fit, the `N` bits they belong to do not. -/
theorem FilledBy.lacksRoom (h : FilledBy p m e e1) (hN : m + n ≤ N) (hr : ¬ e1.room p n) :
    LacksRoom p N e .capacity e1 := by
  refine ⟨rfl, fun hroom => hr ?_⟩
  rw [EngineE.room, h.wPos, Nat.add_assoc]
  exact EngineE.room_mono hN hroom

theorem writeBit_fills (b : Bool) (h : FilledBy p m e e1) (hN : m + 1 ≤ N) :
    (writeBit p b e1).Ends (FilledBy p (m + 1) e) (LacksRoom p N e) := by
  by_cases hr : e1.room p 1
  · obtain ⟨e2, hw, ha⟩ := writeBit_appends b h.accOpen hr
    rw [hw]
    exact h.append ha
  · rw [writeBit_full b hr]
    exact h.lacksRoom hN hr

theorem writeBits_fills (v : W64) (hn : n ≤ 64) (h : FilledBy p m e e1) (hN : m + n ≤ N) :
    (writeBits p v n e1).Ends (FilledBy p (m + n) e) (LacksRoom p N e) := by
  by_cases hr : e1.room p n
  · obtain ⟨e2, hw, ha⟩ := writeBits_appends v hn h.accOpen hr
    have hlen : (bitsOf v n).length = n := length_bitsOf v n
    rw [hw]
    exact hlen ▸ h.append ha
  · rw [writeBits_full v hn hr]
    exact h.lacksRoom hN hr

theorem valWriteFirst_fills (v : W64) (ho : e.accOpen p) :
    (valWriteFirst p v e).Ends (FilledBy p (0 + 64) (e.update v)) (LacksRoom p 64 (e.update v)) :=
  writeBits_fills (e := e.update v) v (by decide) (.refl ho) (by decide)

theorem compressReuse_fills (r : W64) (h : FilledBy p 1 e e1) :
    (compressReuse p r e1).Ends (fun _ => True) (LacksRoom p (2 + e.ses.windowWidth) e) := by
  unfold compressReuse
  rw [h.ses]
  refine (writeBit_fills false h (by omega)).bind fun _ _ h2 => ?_
  exact (writeBits_fills _ (windowWidth_le _) h2 (Nat.le_refl _)).mono (fun _ _ => trivial) fun _ _ hf => hf

theorem compressNew_fills (r : W64) (h : FilledBy p 1 e e1) :
    (compressNew p r e1).Ends (fun _ => True) (LacksRoom p (14 + (64 - clz64 r - ctz64 r)) e) :=
  (writeBit_fills true h (by omega)).bind fun _ _ h2 =>
  (writeBits_fills (n := 6) _ (by decide) h2 (by omega)).bind fun _ _ h8 =>
  (writeBits_fills (n := 6) _ (by decide) h8 (by omega)).bind fun _ _ h14 =>
  (writeBits_fills _ (by omega) h14 (Nat.le_refl _)).bind fun _ _ _ => trivial

/-- Whatever word a residual takes, its code ends normally or lacks the room for the whole word (R182, R252). -/
theorem compressResidual_fills (r : W64) (ho : e.accOpen p) :
    (compressResidual p r e).Ends (fun _ => True) (LacksRoom p (encodeStream (residualWord e.ses r)).length e) := by
  rcases residual_cases e.ses r with rfl | ⟨h0, hf⟩ | ⟨h0, hf⟩
  · rw [residualWord_zero, compressResidual, if_pos rfl]
    exact (writeBit_fills false (.refl ho) (Nat.le_refl _)).mono (fun _ _ => trivial) fun _ _ hl => hl
  · have hlen : (encodeStream (residualWord e.ses r)).length = 2 + e.ses.windowWidth := by
      rw [residualWord_reuse h0 hf]
      exact Laws.CodeLength.valReuse _ _
    rw [hlen, compressResidual, if_neg h0]
    refine (writeBit_fills true (.refl ho) (by omega)).bind fun _ e1 h1 => ?_
    rw [h1.ses, if_pos hf]
    exact compressReuse_fills r h1
  · have hlen : (encodeStream (residualWord e.ses r)).length = 14 + (64 - clz64 r - ctz64 r) := by
      rw [residualWord_new h0 hf, encodeStream_valNew_residual h0]
      simp only [List.length_cons, List.length_append, length_bitsOf]
      omega
    rw [hlen, compressResidual, if_neg h0]
    refine (writeBit_fills true (.refl ho) (by omega)).bind fun _ e1 h1 => ?_
    rw [h1.ses, if_neg hf]
    exact compressNew_fills r h1

theorem ok_of_room {x : Res EngineE Unit} (h : x.Ends Q (LacksRoom p N e)) (hr : e.room p N) :
    ∃ e2, x = .ok () e2 := by
  cases x with
  | ok _ e2 => exact ⟨e2, rfl⟩
  | raised f e2 => exact absurd hr h.2

/-- Run alone without a fault in the register afterwards, nothing was raised. -/
theorem ok_of_no_fault {x : Res EngineE Unit} {s t : State} (h : x.Ends Q (LacksRoom p N e))
    (ht : aloneE x.silent s = .next t) (hf : t.e.fault = .none) :
    ∃ e2, x = .ok () e2 ∧ t = { s with e := e2, ret := .nothing } := by
  cases x with
  | ok _ e2 =>
    cases ht
    exact ⟨e2, rfl, rfl⟩
  | raised f e2 =>
    cases ht
    exact absurd (h.1.symm.trans hf) (by decide)

end Writing

/-! The word an encoder picks (R182, R186). -/

section Residual
variable (ses : Session) (r : W64)

/-- A window that a residual fits is a legal one: the residual's own zeros leave a bit between them. -/
theorem windowInv_of_fits {ses : Session} {r : W64} (h0 : r ≠ 0#64) (hf : ses.fits r = true) : WindowInv ses := by
  have hsum := clz64_add_ctz64_le h0
  obtain ⟨-, hl, ht⟩ := (fits_iff ses r).1 hf
  exact .inr ⟨by omega, by omega, by omega⟩

theorem not_fits_noWindow : ¬ Session.reset.fits r = true := fun hf => ((fits_iff _ r).1 hf).1 rfl

/-- The word is well-formed for any contents of the window registers: where they play a part, the residual fits them. -/
theorem wf_residualWord_any : (residualWord ses r).wf = true := by
  have hreset : (residualWord Session.reset r).wf = true := wf_residualWord (.inl rfl) r
  rcases residual_cases ses r with rfl | ⟨h0, hf⟩ | ⟨h0, hf⟩
  · rw [residualWord_zero]; rfl
  · exact wf_residualWord (windowInv_of_fits h0 hf) r
  · rw [residualWord_new h0 (not_fits_noWindow r)] at hreset
    rwa [residualWord_new h0 hf]

/-- Everything the scan of `ctz64` passes is 0. -/
theorem getLsbD_of_lt_ctzFrom {x : W64} {fuel i j : Nat} (hij : i ≤ j) (hj : j < ctzFrom x fuel i) :
    x.getLsbD j = false := by
  induction fuel generalizing i with
  | zero => exact absurd hj (Nat.not_lt.2 hij)
  | succ fuel ih =>
    rw [ctzFrom] at hj
    split at hj
    · exact absurd hj (Nat.not_lt.2 hij)
    · next hzero =>
      rcases Nat.eq_or_lt_of_le hij with rfl | hlt
      · exact Bool.eq_false_iff.2 hzero
      · exact ih hlt hj

/-- Trailing zeros shifted out are shifted in again. -/
theorem ushiftRight_shiftLeft_of_le_ctz64 {x : W64} {t : Nat} (ht : t ≤ ctz64 x) : (x >>> t) <<< t = x := by
  refine BitVec.eq_of_getLsbD_eq fun j hj => ?_
  rw [BitVec.getLsbD_shiftLeft, BitVec.getLsbD_ushiftRight]
  by_cases h : j < t
  · rw [getLsbD_of_lt_ctzFrom (Nat.zero_le j) (Nat.lt_of_lt_of_le h ht)]
    simp [h]
  · rw [Nat.add_sub_cancel' (Nat.not_lt.1 h)]
    simp [h, hj]

/-- The trailing count a decoder works out from a NEW word's two fields is the residual's (R102). -/
theorem newTrailing_newFields {r : W64} (h0 : r ≠ 0#64) :
    newTrailing (BitVec.ofNat 6 (clz64 r)) (BitVec.ofNat 6 (64 - clz64 r - ctz64 r - 1)) = ctz64 r := by
  have hsum := clz64_add_ctz64_le h0
  obtain ⟨hlead, hlen⟩ := toNat_newFields h0
  rw [newTrailing, hlead, hlen]
  omega

/-- The word stands for the residual it was picked for (R101, R102, R187). -/
theorem wordResidual_residualWord : wordResidual ses (residualWord ses r) = r := by
  rcases residual_cases ses r with rfl | ⟨h0, hf⟩ | ⟨h0, hf⟩
  · rw [residualWord_zero]; rfl
  · rw [residualWord_reuse h0 hf]
    exact ushiftRight_shiftLeft_of_le_ctz64 ((fits_iff ses r).1 hf).2.2
  · rw [residualWord_new h0 hf, wordResidual, newTrailing_newFields h0]
    exact ushiftRight_shiftLeft_of_le_ctz64 (Nat.le_refl _)

/-- Only the two window registers tell which word is picked (R186). -/
theorem residualWord_congr {ses ses1 : Session} (h : ses.sameWindow ses1) :
    residualWord ses r = residualWord ses1 r := by
  rw [residualWord, residualWord, h.1, h.2, windowWidth_congr h]

/-- The same window before a residual leaves the same window after its word (R186). -/
theorem sameWindow_residualWindow {ses ses1 : Session} (h : ses.sameWindow ses1) :
    (residualWindow ses r).sameWindow (residualWindow ses1 r) := by
  rw [← wordWindow_residualWord, ← wordWindow_residualWord, residualWord_congr r h]
  exact sameWindow_wordWindow h _

/-- The window and the predictor do not depend on each other. -/
theorem residualWindow_withPred (q : Pred) :
    residualWindow { ses with pred := q } r = { residualWindow ses r with pred := q } := by
  have hword : residualWord { ses with pred := q } r = residualWord ses r := residualWord_congr r ⟨rfl, rfl⟩
  rw [residualWindow, residualWindow, hword]
  split <;> rfl

/-- A word moves nothing but the window registers (R101). -/
theorem wordWindow_eq (w : Instr) :
    wordWindow ses w = { ses with storedLeadingZeros := (wordWindow ses w).storedLeadingZeros
                                  storedTrailingZeros := (wordWindow ses w).storedTrailingZeros } := by
  cases w <;> rfl

end Residual

/-! Bits ahead of the read cursor (41_bitsource.md R141, R142). -/

section Ahead
variable {p : Params} {d : EngineD} {bs cs : List Bool} {k : Nat} {ses : Session}

/-- Engine D with `k` bits consumed and the session registers `ses`. -/
def EngineD.moved (d : EngineD) (k : Nat) (ses : Session) : EngineD := { d with rPos := d.rPos + k, ses := ses }

@[simp] theorem EngineD.moved_ses : (d.moved k ses).ses = ses := rfl

theorem EngineD.moved_moved (d : EngineD) (k n : Nat) (ses ses1 : Session) :
    (d.moved k ses).moved n ses1 = d.moved (k + n) ses1 := by
  rw [EngineD.moved, EngineD.moved, EngineD.moved, Nat.add_assoc]

/-- The bits `bs` stand next in the source. -/
structure Ahead (p : Params) (bs : List Bool) (d : EngineD) : Prop where
  available : d.available p bs.length
  bits : d.next p bs.length = bs

theorem Ahead.front (h : Ahead p (bs ++ cs) d) : Ahead p bs d := by
  have hbits := h.bits
  rw [EngineD.next, List.length_append, streamBits_add] at hbits
  exact ⟨available_mono (by rw [List.length_append]; omega) h.available,
    (List.append_inj hbits (length_streamBits _ _)).1⟩

/-- Once the front is consumed, the rest is next. -/
theorem Ahead.rest (h : Ahead p (bs ++ cs) d) (ses1 : Session) : Ahead p cs (d.moved bs.length ses1) := by
  obtain ⟨havail, hbits⟩ := h
  rw [EngineD.next, List.length_append, streamBits_add] at hbits
  rw [List.length_append] at havail
  have hrest : streamBits p d (d.rPos + bs.length) cs.length = cs := (List.append_inj hbits (length_streamBits _ _)).2
  have hsame : (d.moved bs.length ses1).next p cs.length = streamBits p d (d.rPos + bs.length) cs.length :=
    streamBits_congr (d := d) (d1 := d.moved bs.length ses1) rfl _ _
  exact ⟨available_after havail, hsame.trans hrest⟩

theorem readBit_ahead {b : Bool} (h : Ahead p (b :: bs) (d.moved k ses)) :
    readBit p (d.moved k ses) = .ok b (d.moved (k + 1) ses) ∧ Ahead p bs (d.moved (k + 1) ses) := by
  obtain ⟨havail, hbits⟩ := Ahead.front (bs := [b]) (cs := bs) h
  have hbit : streamBit p (d.moved k ses) (d.moved k ses).rPos = b := (List.cons.inj hbits).1
  refine ⟨?_, Ahead.rest (bs := [b]) h ses⟩
  rw [readBit_reads havail, hbit]
  rfl

/-- A field ahead that fits its width is read whole, and what follows it is next. -/
theorem readBits_ahead {v : W64} {n : Nat} (hn : n ≤ 64) (hv : v.toNat < 2 ^ n)
    (h : Ahead p (bitsOf v n ++ bs) (d.moved k ses)) :
    readBits p n (d.moved k ses) = .ok v (d.moved (k + n) ses) ∧ ∀ ses1, Ahead p bs (d.moved (k + n) ses1) := by
  obtain ⟨havail, hbits⟩ := h.front
  have hrest := h.rest
  rw [length_bitsOf] at havail hbits hrest
  refine ⟨?_, fun ses1 => d.moved_moved k n ses ses1 ▸ hrest ses1⟩
  rw [readBits_reads hn havail, hbits, ofBits_bitsOf v n hv]
  exact congrArg (Res.ok v) (d.moved_moved k n ses ses)

end Ahead

/-! VAL_DECOMPRESS on the bits of a word (R184). -/

section Decompress
variable {p : Params} {d : EngineD}

theorem valDecompress_same (h : Ahead p [false] d) :
    valDecompress p d = .ok (predPredict d.ses.pred) (d.afterValue 1 d.ses (predPredict d.ses.pred)) := by
  have hb : readBit p d = _ := (readBit_ahead (k := 0) (ses := d.ses) h).1
  rw [valDecompress, hb]
  rfl

/-- Two control bits tell REUSE from NEW (R101). -/
theorem valDecompress_control {b : Bool} {bs : List Bool} (h : Ahead p (true :: b :: bs) d) :
    valDecompress p d = (if b then decompressNew p (predPredict d.ses.pred) (d.moved 2 d.ses)
        else decompressReuse p (predPredict d.ses.pred) (d.moved 2 d.ses)) ∧
      Ahead p bs (d.moved 2 d.ses) := by
  obtain ⟨hb1, h1⟩ := readBit_ahead (k := 0) (ses := d.ses) h
  obtain ⟨hb2, h2⟩ := readBit_ahead h1
  have hfirst : readBit p d = .ok true (d.moved 1 d.ses) := hb1
  refine ⟨?_, h2⟩
  rw [valDecompress, hfirst, Res.bind_ok, if_pos rfl, hb2]
  rfl

theorem valDecompress_reuse {bits v : W64} (hwin : d.ses.storedLeadingZeros ≠ Config.noWindow)
    (hbits : bits.toNat < 2 ^ d.ses.windowWidth) (h : Ahead p (true :: false :: bitsOf bits d.ses.windowWidth) d)
    (hv : predPredict d.ses.pred ^^^ (bits <<< d.ses.storedTrailingZeros.toNat) = v) :
    valDecompress p d = .ok v (d.afterValue (2 + d.ses.windowWidth) d.ses v) := by
  obtain ⟨heq, h2⟩ := valDecompress_control h
  rw [← List.append_nil (bitsOf _ _)] at h2
  have hfield := (readBits_ahead (windowWidth_le _) hbits h2).1
  rw [heq, if_neg Bool.false_ne_true, decompressReuse, EngineD.moved_ses, if_neg hwin, hfield, Res.bind_ok,
    BitVec.xor_comm, hv]
  rfl

/-- The six bits of a count are read as its number (R102). -/
theorem readBits_count {x : BitVec 6} {bs : List Bool} {k : Nat} {ses : Session}
    (h : Ahead p (bitsOf x 6 ++ bs) (d.moved k ses)) :
    readBits p 6 (d.moved k ses) = .ok (x.setWidth 64) (d.moved (k + 6) ses) ∧
      ∀ ses1, Ahead p bs (d.moved (k + 6) ses1) := by
  have hlt : (x.setWidth 64).toNat < 2 ^ 6 := by
    rw [BitVec.toNat_setWidth_of_le (by decide)]
    exact x.isLt
  rw [← bitsOf_setWidth x (w := 64) (by decide)] at h
  exact readBits_ahead (by decide) hlt h

theorem valDecompress_new {leading lengthM1 : BitVec 6} {bits v : W64} (hfit : leading.toNat + lengthM1.toNat + 1 ≤ 64)
    (hbits : bits.toNat < 2 ^ (lengthM1.toNat + 1))
    (h : Ahead p (true :: true :: (bitsOf leading 6 ++ (bitsOf lengthM1 6 ++ bitsOf bits (lengthM1.toNat + 1)))) d)
    (hv : predPredict d.ses.pred ^^^ (bits <<< newTrailing leading lengthM1) = v) :
    valDecompress p d =
      .ok v (d.afterValue (14 + (lengthM1.toNat + 1))
        (d.ses.withWindow leading.toNat (newTrailing leading lengthM1)) v) := by
  have hnum (x : BitVec 6) : (x.setWidth 64).toNat = x.toNat := BitVec.toNat_setWidth_of_le (by decide)
  obtain ⟨heq, h2⟩ := valDecompress_control h
  obtain ⟨hl, h8⟩ := readBits_count h2
  obtain ⟨hm, h14⟩ := readBits_count (h8 d.ses)
  have hrest := h14 (d.ses.withWindow leading.toNat (newTrailing leading lengthM1))
  rw [← List.append_nil (bitsOf _ (_ + 1))] at hrest
  obtain ⟨hfield, -⟩ := readBits_ahead (by omega) hbits hrest
  rw [heq, if_pos rfl, decompressNew, Config.leadingFieldBits, hl, Res.bind_ok, Config.lengthFieldBits, hm, Res.bind_ok]
  dsimp only
  rw [hnum, hnum, if_neg (by omega), ← newTrailing]
  change (readBits p _ (d.moved 14 (d.ses.withWindow _ _))).bind _ = _
  rw [hfield, Res.bind_ok, BitVec.xor_comm, hv]
  rfl

/-- On the bits of a legal word VAL_DECOMPRESS ends as the word says (R101, R102, R184). -/
theorem valDecompress_word {w : Instr} (hcode : w.isValueCode = true) (hwf : w.wf = true)
    (hlegal : wordLegal d.ses w = true) (h : Ahead p (encodeStream w) d) {v : W64}
    (hv : predPredict d.ses.pred ^^^ wordResidual d.ses w = v) :
    valDecompress p d = .ok v (d.afterValue (encodeStream w).length (wordWindow d.ses w) v) := by
  cases w
  case valSame =>
    have hpred : predPredict d.ses.pred = v := (BitVec.xor_zero).symm.trans hv
    rw [valDecompress_same h, hpred]
    rfl
  case valReuse n bits =>
    rw [wordLegal, Bool.and_eq_true, decide_eq_true_eq, decide_eq_true_eq] at hlegal
    rw [Instr.wf, wfValReuse, Bool.and_eq_true, decide_eq_true_eq, decide_eq_true_eq] at hwf
    obtain ⟨hwin, rfl⟩ := hlegal
    have hlen : (encodeStream (.valReuse d.ses.windowWidth bits)).length = 2 + d.ses.windowWidth :=
      Laws.CodeLength.valReuse _ bits
    rw [hlen]
    exact valDecompress_reuse hwin hwf.2 h hv
  case valNew leading lengthM1 bits =>
    have hfit : leading.toNat + lengthM1.toNat + 1 ≤ 64 := of_decide_eq_true hlegal
    rw [Instr.wf, wfValNew, if_pos hfit, decide_eq_true_eq] at hwf
    have hlen : (encodeStream (.valNew leading lengthM1 bits)).length = 14 + (lengthM1.toNat + 1) :=
      (Laws.CodeLength.valNew leading lengthM1 bits).trans (if_pos hfit)
    rw [hlen]
    rw [encodeStream, if_pos hfit] at h
    exact valDecompress_new hfit hwf h hv
  all_goals cases hcode

theorem valReadFirst_available {v : W64} (h : d.available p 64) (hv : ofBits 64 (d.next p 64) = v) :
    valReadFirst p d = .ok v (d.afterValue 64 d.ses v) := by
  rw [valReadFirst, readBits_reads (by decide) h, hv]
  rfl

theorem valReadFirst_exhausted (h : ¬ d.available p 64) : valReadFirst p d = .raised .sourceExhausted d := by
  rw [valReadFirst, readBits_exhausted (by decide) h]
  rfl

end Decompress

section Dispatch
variable (s : State)

theorem exec_valWriteFirst (v : W64) :
    exec (.valWriteFirst v) s = aloneE (valWriteFirst s.params v s.e).silent s := rfl

theorem exec_valCompress (v : W64) : exec (.valCompress v) s = aloneE (valCompress s.params v s.e).silent s := rfl

theorem exec_valReadFirst : exec .valReadFirst s = aloneD (valReadFirst s.params s.d).asWord s := rfl

theorem exec_valDecompress : exec .valDecompress s = aloneD (valDecompress s.params s.d).asWord s := rfl

end Dispatch

/-- Settles O36: the predictor is updated before the 64 bits are written and after they are read. -/
theorem firstValueIsRaw : Obligations.FirstValueIsRaw := by
  refine fun s => ⟨fun v ho hr => ?_, fun h => ?_, fun h => ?_⟩
  · obtain ⟨e1, hw, ha⟩ := writeBits_appends (e := s.e.update v) v (by decide) ho hr
    exact ⟨e1, by rw [exec_valWriteFirst, valWriteFirst, hw]; rfl, ha⟩
  · rw [exec_valReadFirst, valReadFirst_available h rfl]
    rfl
  · rw [exec_valReadFirst, valReadFirst_exhausted h]
    rfl

/-- Settles O37: with room for the whole word nothing is raised (`compressResidual_fills`), and the word is the one of
the table (`compressResidual_ok`). -/
theorem valueCodeBySelection : Obligations.ValueCodeBySelection := by
  intro s v ho r w hr
  have hword : residualWord (s.e.update v).ses r = w := residualWord_congr r ⟨rfl, rfl⟩
  have hfills := compressResidual_fills (e := s.e.update v) r ho
  rw [hword] at hfills
  obtain ⟨e1, hw⟩ := ok_of_room hfills hr
  obtain ⟨hwrote, hses⟩ := compressResidual_ok (e := s.e.update v) ho hw
  refine ⟨⟨e1, ?_, ?_⟩, wf_residualWord_any _ _⟩
  · rw [exec_valCompress, valCompress, hw]
    rfl
  · rw [Wrote, hword, hses, EngineE.update_ses, residualWindow_withPred] at hwrote
    exact hwrote

/-- Settles O39: VAL_DECOMPRESS on a word's bits ends as the word says (`valDecompress_word`). -/
theorem valueIsDecoded : Obligations.ValueIsDecoded := by
  intro s w hcode hwf hlegal havail hbits v
  rw [exec_valDecompress, valDecompress_word hcode hwf hlegal ⟨havail, hbits⟩ rfl]
  rfl

/-- The registers of the value codec, window and predictor, as another session has them (R187). -/
def Session.withCodecOf (ses ses1 : Session) : Session :=
  { ses with storedLeadingZeros := ses1.storedLeadingZeros, storedTrailingZeros := ses1.storedTrailingZeros,
             pred := ses1.pred }

section RoundTrip
variable {p : Params} {e e1 : EngineE} {d : EngineD} {v : W64} {bs : List Bool}

/-- VAL_COMPRESS without a fault has appended the word of its residual `r`, and VAL_DECOMPRESS on that word's bits ends
with the value and the registers VAL_COMPRESS left (R187). -/
theorem valDecompress_compressed {r : W64} (ho : e.accOpen p) (hpred : d.ses.pred = e.ses.pred)
    (hwin : d.ses.sameWindow e.ses) (hr : predPredict d.ses.pred ^^^ r = v)
    (hw : compressResidual p r (e.update v) = .ok () e1) (hbs : e1.bits p = e.bits p ++ bs) (h : Ahead p bs d) :
    valDecompress p d = .ok v (d.moved bs.length (d.ses.withCodecOf e1.ses)) := by
  have hword : residualWord (e.update v).ses r = residualWord d.ses r := (residualWord_congr r hwin).symm
  obtain ⟨hwrote, hses⟩ := compressResidual_ok (e := e.update v) ho hw
  have hcode : bs = encodeStream (residualWord d.ses r) := by
    rw [← hword]
    exact List.append_cancel_left (hbs.symm.trans hwrote.bits)
  have hvalue : predPredict d.ses.pred ^^^ wordResidual d.ses (residualWord d.ses r) = v := by
    rw [wordResidual_residualWord, hr]
  have hwindow : (wordWindow d.ses (residualWord d.ses r)).sameWindow e1.ses := by
    rw [wordWindow_residualWord, hses]
    exact sameWindow_residualWindow r hwin
  have hlast : predUpdate v d.ses.pred = e1.ses.pred := by
    rw [hses, EngineE.update_ses, residualWindow_withPred, hpred]
  subst hcode
  rw [valDecompress_word (isValueCode_residualWord _ _) (wf_residualWord_any _ _) (wordLegal_residualWord _ _) h hvalue,
    EngineD.afterValue, wordWindow_eq, hwindow.1, hwindow.2, hlast]
  rfl

/-- The same for the 64 raw bits of a first value. -/
theorem valReadFirst_written (ho : e.accOpen p) (hpred : d.ses.pred = e.ses.pred) (hwin : d.ses.sameWindow e.ses)
    (hw : valWriteFirst p v e = .ok () e1) (hbs : e1.bits p = e.bits p ++ bs) (h : Ahead p bs d) :
    valReadFirst p d = .ok v (d.moved bs.length (d.ses.withCodecOf e1.ses)) := by
  obtain ⟨hwrote, hses⟩ := valWriteFirst_ok ho hw
  have hcode : bs = bitsOf v 64 := List.append_cancel_left (hbs.symm.trans hwrote.bits)
  obtain ⟨havail, hbits⟩ := h
  subst hcode
  rw [length_bitsOf] at havail hbits ⊢
  have hvalue : ofBits 64 (d.next p 64) = v := by rw [hbits, ofBits_bitsOf_self]
  rw [valReadFirst_available havail hvalue, EngineD.afterValue, Session.withCodecOf, hses, EngineE.update_ses,
    ← hwin.1, ← hwin.2, ← hpred]
  rfl

end RoundTrip

/-- Settles O43: what the encoder appended is one word or one raw value, and the decoder takes it off the source with
the value and the registers the encoder left (`valDecompress_compressed`, `valReadFirst_written`). -/
theorem valuesRoundTrip : Obligations.ValuesRoundTrip := by
  intro s t v enc dec bs hpair ho hpred hlead htrail hexec hf hbs havail hbits
  have hwin : s.d.ses.sameWindow s.e.ses := ⟨hlead, htrail⟩
  have hahead : Ahead s.params bs s.d := ⟨havail, hbits⟩
  obtain ⟨rfl, rfl⟩ | ⟨rfl, rfl⟩ := hpair
  · obtain ⟨e1, hw, rfl⟩ := ok_of_no_fault (valWriteFirst_fills v ho) hexec hf
    rw [exec_valReadFirst, valReadFirst_written ho hpred hwin hw hbs hahead]
    rfl
  · obtain ⟨e1, hw, rfl⟩ := ok_of_no_fault (compressResidual_fills (e := s.e.update v) _ ho) hexec hf
    have hresidual : predPredict s.d.ses.pred ^^^ (predPredict s.e.ses.pred ^^^ v) = v := by
      rw [hpred, ← BitVec.xor_assoc, BitVec.xor_self, BitVec.zero_xor]
    rw [exec_valDecompress, valDecompress_compressed ho hpred hwin hresidual hw hbs hahead]
    rfl

end Machine
end Sys2Proof

/-! The timestamp codec run alone (44_timestamp_dod.md R201 to R207): TS_COMPRESS takes its delta-of-delta for one it
can code and then ends normally or lacks the room for the code word, TS_DECOMPRESS takes a code word off the bits ahead
of it, and the word an encoder picks says its delta-of-delta. -/

namespace Sys2Proof
namespace Machine

/-! The payload (R100, R203, R206). -/

section Payload
variable {dod : W64}

theorem dodInRange_iff : dodInRange dod = true ↔ -2147483648 ≤ dod.toInt ∧ dod.toInt ≤ 2147483647 := by
  rw [dodInRange, Bool.and_eq_true, decide_eq_true_eq, decide_eq_true_eq]

theorem firstDeltaInRange_iff {delta0 : W64} :
    firstDeltaInRange delta0 = true ↔ 0 ≤ delta0.toInt ∧ delta0.toInt ≤ 134217726 := by
  rw [firstDeltaInRange, Bool.and_eq_true, decide_eq_true_eq, decide_eq_true_eq]

/-- The map of R203 read backwards gives the delta-of-delta. -/
theorem payloadDod_dodPayload {n : Int} (h : n ≠ 0) : payloadDod (dodPayload n) = n := by
  rw [payloadDod, dodPayload]
  split_ifs <;> omega

/-- The code word picked for a delta-of-delta that can be coded stands for it (R100, R203). -/
theorem wordDod_dodWord (h : dodInRange dod = true) : wordDod (dodWord dod.toInt) = dod.toInt := by
  by_cases h0 : dod.toInt = 0
  · rw [dodWord, if_pos h0, h0]
    rfl
  · have hfield {w : Nat} (hw : dodPayload dod.toInt < 2 ^ w) :
        payloadDod (BitVec.ofNat w (dodPayload dod.toInt)).toNat = dod.toInt := by
      rw [BitVec.toNat_ofNat, Nat.mod_eq_of_lt hw, payloadDod_dodPayload h0]
    rw [dodWord, if_neg h0]
    split_ifs with h7 h9 h12
    · exact hfield ((dodPayload_lt_iff h0 64).2 h7)
    · exact hfield ((dodPayload_lt_iff h0 256).2 h9)
    · exact hfield ((dodPayload_lt_iff h0 2048).2 h12)
    · exact hfield (Nat.lt_trans (dodPayload_lt_of_inRange h) (by decide))

/-- The low 32 bits of a delta-of-delta that can be coded are the same number. -/
theorem toInt_setWidth_32 (h : dodInRange dod = true) : (dod.setWidth 32).toInt = dod.toInt := by
  have hrange := dodInRange_iff.1 h
  have hdod := dod.toInt_eq_toNat_cond
  rw [BitVec.toInt_eq_toNat_cond, BitVec.toNat_setWidth]
  omega

/-- Shifted arithmetically to its last place, every bit is the sign. -/
theorem getLsbD_sshiftRight_last {w i : Nat} (x : BitVec (w + 1)) (hi : i < w + 1) :
    (x.sshiftRight w).getLsbD i = x.msb := by
  rw [BitVec.getLsbD_sshiftRight, decide_eq_false (Nat.not_le.2 hi), BitVec.msb_eq_getLsbD_last]
  split
  · next h0 =>
    obtain rfl : i = 0 := by omega
    rfl
  · rfl

/-- The sign mask of the zig-zag map, taken in 32 bits. -/
theorem setWidth_sshiftRight_63 (h : dodInRange dod = true) :
    (dod.sshiftRight 63).setWidth 32 = (dod.setWidth 32).sshiftRight 31 := by
  have hsign : (dod.setWidth 32).msb = dod.msb := by
    rw [BitVec.msb_eq_toInt, BitVec.msb_eq_toInt, toInt_setWidth_32 h]
  refine BitVec.eq_of_getLsbD_eq fun i hi => ?_
  rw [BitVec.getLsbD_setWidth, getLsbD_sshiftRight_last _ (by omega), getLsbD_sshiftRight_last _ hi, hsign]
  simp [hi]

/-- The zig-zag map of 32 bits gives the low half of the 64-bit one (R206). -/
theorem zigzag32_eq_setWidth (h : dodInRange dod = true) :
    (dod.setWidth 32 <<< 1) ^^^ (dod.setWidth 32).sshiftRight 31 = (zigzag64 dod).setWidth 32 := by
  have hshift : (dod <<< 1).setWidth 32 = dod.setWidth 32 <<< 1 := BitVec.setWidth_shiftLeft_of_le (by decide)
  rw [zigzag64, BitVec.setWidth_xor, hshift, setWidth_sshiftRight_63 h]

end Payload

/-- Settles O29: the payload is that of R203 (`toNat_zigzag64_sub_one`) and fits 32 bits, so the low half of the 64-bit
payload, which 32-bit arithmetic gives, is all of it. -/
theorem dodPayloadIsFaithful : Obligations.DodPayloadIsFaithful := by
  refine ⟨fun dod hr h0 => ?_, by decide, by decide⟩
  have hne : dod.toInt ≠ 0 := fun h => h0 (BitVec.eq_of_toInt_eq h)
  have hpay := toNat_zigzag64_sub_one h0
  have hlt := dodPayload_lt_of_inRange hr
  refine ⟨hpay, Nat.le_of_lt_succ hlt, ?_, payloadDod_dodPayload hne, ?_⟩
  · rw [BitVec.sub_add_cancel, unzigzag64_zigzag64]
  · have hhalf : (zigzag64 dod).setWidth 32 - 1#32 = (zigzag64 dod - 1#64).setWidth 32 := by bv_omega
    rw [zigzag32_eq_setWidth hr, hhalf, BitVec.toNat_setWidth, hpay, Nat.mod_eq_of_lt (by omega)]

/-! TS_WRITE_FIRST and TS_COMPRESS (R201, R202). -/

section Writing
variable {p : Params} {e e1 : EngineE} {ts dod : W64}

theorem tsWriteFirst_outOfRange (h : ¬ firstDeltaInRange (ts - e.ses.blockTimestamp) = true) :
    tsWriteFirst p ts e = .raised .firstDeltaRange e := by
  rw [tsWriteFirst]
  exact if_neg h

theorem tsWriteFirst_inRange (h : firstDeltaInRange (ts - e.ses.blockTimestamp) = true) :
    tsWriteFirst p ts e = (writeBits p (ts - e.ses.blockTimestamp) 27 e).bind fun _ e1 =>
      .ok () { e1 with ses := e1.ses.withTime (ts - e.ses.blockTimestamp) ts } := by
  rw [tsWriteFirst]
  exact if_pos h

theorem tsWriteFirst_fills (h : firstDeltaInRange (ts - e.ses.blockTimestamp) = true) (ho : e.accOpen p) :
    (tsWriteFirst p ts e).Ends (fun _ => True) (LacksRoom p 27 e) := by
  rw [tsWriteFirst_inRange h]
  exact (writeBits_fills _ (by decide) (.refl ho) (Nat.le_refl _)).bind fun _ _ _ => trivial

/-- Where TS_WRITE_FIRST ends normally it has written the difference and stored it. -/
theorem tsWriteFirst_wrote (ho : e.accOpen p) (h : tsWriteFirst p ts e = .ok () e1) :
    Wrote p (bitsOf (ts - e.ses.blockTimestamp) 27) e e1 ∧
      e1.ses = e.ses.withTime (ts - e.ses.blockTimestamp) ts := by
  by_cases hr : firstDeltaInRange (ts - e.ses.blockTimestamp) = true
  · rw [tsWriteFirst_inRange hr] at h
    obtain ⟨_, e2, hw, hk⟩ := Res.bind_eq_ok.1 h
    have ha := appended_of_writeBits ho hw
    cases hk
    exact ⟨ha.wrote.withSes _, by rw [ha.ses]⟩
  · rw [tsWriteFirst_outOfRange hr] at h
    cases h

theorem writeDod_outOfRange (h : ¬ dodInRange dod = true) : writeDod p dod e = .raised .dodRange e := by
  have h0 : dod ≠ 0#64 := fun h0 => h (h0 ▸ by decide)
  rw [writeDod, if_neg h0, if_neg h]

/-- Whatever class a delta-of-delta has, its code ends normally or lacks the room for the whole word (R202, R252). -/
theorem writeDod_fills (h : dodInRange dod = true) (ho : e.accOpen p) :
    (writeDod p dod e).Ends (fun _ => True) (LacksRoom p (encodeStream (dodWord dod.toInt)).length e) := by
  by_cases h0 : dod = 0#64
  · subst h0
    rw [writeDod, if_pos rfl]
    exact (writeBit_fills false (.refl ho) (Nat.le_refl 1)).mono (fun _ _ => trivial) fun _ _ hl => hl
  · rw [writeDod, if_neg h0, if_pos h, dodWord_eq_classWord h0, encodeStream_classWord, List.length_append,
      length_bitsOf, length_bitsOf]
    refine (writeBits_fills _ (tsPrefixWidth_le _) (.refl ho) (by omega)).bind fun _ e1 h1 => ?_
    exact (writeBits_fills _ (tsWidth_le _) h1 (by omega)).mono (fun _ _ => trivial) fun _ _ hl => hl

theorem tsCompress_outOfRange (h : ¬ dodInRange (ts - e.ses.storedTimestamp - e.ses.storedDelta) = true) :
    tsCompress p ts e = .raised .dodRange e := by
  rw [tsCompress, writeDod_outOfRange h]
  rfl

theorem tsCompress_fills (h : dodInRange (ts - e.ses.storedTimestamp - e.ses.storedDelta) = true) (ho : e.accOpen p) :
    (tsCompress p ts e).Ends (fun _ => True)
      (LacksRoom p (encodeStream (dodWord (ts - e.ses.storedTimestamp - e.ses.storedDelta).toInt)).length e) :=
  (writeDod_fills h ho).bind fun _ _ _ => trivial

/-- Where TS_COMPRESS ends normally it has written the word of its delta-of-delta and stored the new delta. -/
theorem tsCompress_wrote (ho : e.accOpen p) (h : tsCompress p ts e = .ok () e1) :
    Wrote p (encodeStream (dodWord (ts - e.ses.storedTimestamp - e.ses.storedDelta).toInt)) e e1 ∧
      e1.ses = e.ses.withTime (ts - e.ses.storedTimestamp) ts := by
  obtain ⟨_, e2, hw, hk⟩ := Res.bind_eq_ok.1 h
  obtain ⟨-, ha⟩ := writeDod_ok ho hw
  cases hk
  exact ⟨ha.wrote.withSes _, by rw [ha.ses]⟩

end Writing

/-! TS_READ_FIRST and TS_DECOMPRESS on the bits ahead (R204, R205). -/

section Reading
variable {p : Params} {d : EngineD} {bs cs : List Bool} {b : Bool} {c r : Nat}

theorem takeFirstDelta_marker : takeFirstDelta Config.firstDeltaEmpty d = .ok (true, 0#64) d := if_pos rfl

theorem takeFirstDelta_delta {v : W64} (h : v ≠ Config.firstDeltaEmpty) :
    takeFirstDelta v d = .ok (false, d.ses.blockTimestamp + v)
      { d with ses := d.ses.withTime v (d.ses.blockTimestamp + v) } := if_neg h

theorem tsReadFirst_available (h : d.available p 27) :
    tsReadFirst p d = takeFirstDelta (ofBits 64 (d.next p 27)) { d with rPos := d.rPos + 27 } := by
  rw [tsReadFirst, Config.firstDeltaBits, readBits_reads (by decide) h, Res.bind_ok]

theorem tsReadFirst_exhausted (h : ¬ d.available p 27) : tsReadFirst p d = .raised .sourceExhausted d := by
  rw [tsReadFirst, Config.firstDeltaBits, readBits_exhausted (by decide) h, Res.bind_raised]

/-- The bit behind the front is the stream's. -/
theorem Ahead.streamBit_behind (h : Ahead p (bs ++ b :: cs) d) : streamBit p d (d.rPos + bs.length) = b :=
  (List.cons.inj (h.rest d.ses).bits).1

theorem Ahead.ones (h : Ahead p (List.replicate c true ++ bs) d) : OnesAhead p d c := by
  refine ⟨?_, fun i hi => ?_⟩
  · have havail := h.front.available
    rwa [List.length_replicate] at havail
  · have hsplit : List.replicate c true ++ bs =
        List.replicate i true ++ true :: (List.replicate (c - i - 1) true ++ bs) := by
      rw [← List.cons_append, ← List.replicate_succ, ← List.append_assoc, ← List.replicate_add,
        show i + (c - i - 1 + 1) = c by omega]
    rw [hsplit] at h
    have hbit := h.streamBit_behind
    rwa [List.length_replicate] at hbit

/-- What announces a class (R99): a run of `r` ones, and the 0 that ends it unless four ones already do. -/
def tsPrefix (r : Nat) : List Bool := List.replicate r true ++ if r < 4 then [false] else []

theorem length_tsPrefix (hr : r ≤ 4) : (tsPrefix r).length = tsPrefixWidth r := by
  rw [tsPrefix, tsPrefixWidth, List.length_append, List.length_replicate]
  split
  · rfl
  · rw [List.length_nil]
    omega

/-- The scan tells the class (R143, R205). -/
theorem readRunOfOnes_tsPrefix (hr : r ≤ 4) (h : Ahead p (tsPrefix r ++ bs) d) :
    readRunOfOnes p Config.tsPrefixMax d = .ok r (d.moved (tsPrefixWidth r) d.ses) := by
  have havail := h.front.available
  rw [length_tsPrefix hr] at havail
  rw [tsPrefix, List.append_assoc] at h
  rcases Nat.lt_or_eq_of_le hr with hlt | rfl
  · rw [if_pos hlt] at h
    have hbit := h.streamBit_behind
    rw [List.length_replicate] at hbit
    rw [tsPrefixWidth, if_pos hlt] at havail ⊢
    exact readRunOfOnes_zero h.ones hlt havail hbit
  · exact readRunOfOnes_full h.ones

theorem tsDecompress_zero (h : Ahead p [false] d) :
    tsDecompress p d = .ok (false, (d.ses.advance 0).storedTimestamp) (d.moved 1 (d.ses.advance 0)) := by
  rw [tsDecompress, readRunOfOnes_tsPrefix (r := 0) (bs := []) (by decide) h, Res.bind_ok, if_pos rfl]
  rfl

/-- A class other than 0 is read with its payload. -/
theorem tsDecompress_class {payload : W64} (hr0 : r ≠ 0) (hr : r ≤ 4) (hlt : payload.toNat < 2 ^ tsWidth r)
    (h : Ahead p (tsPrefix r ++ bitsOf payload (tsWidth r)) d) :
    tsDecompress p d = takePayload r payload (d.moved (tsCodeWidth r) d.ses) := by
  have hfield := h.rest d.ses
  rw [length_tsPrefix hr, ← List.append_nil (bitsOf _ _)] at hfield
  rw [tsDecompress, readRunOfOnes_tsPrefix hr h, Res.bind_ok, if_neg hr0, (readBits_ahead (tsWidth_le r) hlt hfield).1,
    Res.bind_ok, tsCodeWidth]

theorem tsWidth_le_32 (r : Nat) : tsWidth r ≤ 32 := by
  unfold tsWidth
  split_ifs <;> decide

/-- A payload that is not the sentinel moves the timestamp registers (R205). -/
theorem tsDecompress_field (x : BitVec (tsWidth r)) (hr0 : r ≠ 0) (hr : r ≤ 4)
    (hne : ¬ (r = 4 ∧ x.setWidth 64 = Config.tsSentinel)) (h : Ahead p (tsPrefix r ++ bitsOf x (tsWidth r)) d) :
    tsDecompress p d = .ok (false, (d.ses.advance (payloadDod x.toNat)).storedTimestamp)
      (d.moved (tsCodeWidth r) (d.ses.advance (payloadDod x.toNat))) := by
  have hx : (x.setWidth 64).toNat = x.toNat := BitVec.toNat_setWidth_of_le (tsWidth_le r)
  have hlt : x.toNat < 2 ^ 32 := Nat.lt_of_lt_of_le x.isLt (Nat.pow_le_pow_right (by decide) (tsWidth_le_32 r))
  rw [← bitsOf_setWidth x (tsWidth_le r)] at h
  rw [tsDecompress_class hr0 hr (by rw [hx]; exact x.isLt) h, takePayload, if_neg hne,
    unzigzag64_payload (by omega), hx]
  rfl

/-- On the bits of a timestamp code word TS_DECOMPRESS ends as the word says, whatever its class (R99, R205). -/
theorem tsDecompress_word {w : Instr} (hcode : w.isTimestampCode = true) (hwf : w.wf = true)
    (h : Ahead p (encodeStream w) d) :
    tsDecompress p d = .ok (false, (d.ses.advance (wordDod w)).storedTimestamp)
      (d.moved (encodeStream w).length (d.ses.advance (wordDod w))) := by
  cases w
  case tsZero => exact tsDecompress_zero h
  case ts7 x => exact tsDecompress_field (r := 1) x (by decide) (by decide) (by omega) h
  case ts9 x => exact tsDecompress_field (r := 2) x (by decide) (by decide) (by omega) h
  case ts12 x => exact tsDecompress_field (r := 3) x (by decide) (by decide) (by omega) h
  case ts32 x =>
    exact tsDecompress_field (r := 4) x (by decide) (by decide) (fun hs => setWidth_ne_tsSentinel hwf hs.2) h
  all_goals cases hcode

theorem tsDecompress_sentinel (h : Ahead p (List.replicate 36 true) d) :
    tsDecompress p d = .ok (true, 0#64) (d.moved 36 d.ses) := by
  have hsplit : List.replicate 36 true = tsPrefix 4 ++ bitsOf Config.tsSentinel (tsWidth 4) := by decide
  rw [hsplit] at h
  rw [tsDecompress_class (by decide) (by decide) (by decide) h, takePayload, if_pos ⟨rfl, rfl⟩]
  rfl

end Reading

/-! The dispatch. -/

section Dispatch
variable (s : State)

theorem exec_tsWriteFirst (ts : W64) :
    exec (.tsWriteFirst ts) s = aloneE (tsWriteFirst s.params ts s.e).silent s := rfl

theorem exec_tsCompress (ts : W64) : exec (.tsCompress ts) s = aloneE (tsCompress s.params ts s.e).silent s := rfl

theorem exec_tsReadFirst : exec .tsReadFirst s = aloneD (tsReadFirst s.params s.d).asFlagged s := rfl

theorem exec_tsDecompress : exec .tsDecompress s = aloneD (tsDecompress s.params s.d).asFlagged s := rfl

end Dispatch

/-- Settles O30: in range and with room the 27 bits are written (`tsWriteFirst_fills`); the range is tested first. -/
theorem firstTimestampIsWritten : Obligations.FirstTimestampIsWritten := by
  refine fun s ts ho => ⟨fun hr hroom => ?_, fun hr => ?_⟩
  · obtain ⟨e1, hw⟩ := ok_of_room (tsWriteFirst_fills (firstDeltaInRange_iff.2 hr) ho) hroom
    obtain ⟨hwrote, hses⟩ := tsWriteFirst_wrote ho hw
    refine ⟨e1, by rw [exec_tsWriteFirst, hw]; rfl, ?_⟩
    rw [Wrote, hses] at hwrote
    rwa [encodeStream, bitsOf_setWidth _ (Nat.le_refl 27)]
  · rw [exec_tsWriteFirst, tsWriteFirst_outOfRange fun h => hr (firstDeltaInRange_iff.1 h)]
    rfl

/-- Settles O31: in range and with room the word is written whole (`tsCompress_fills`), and it is the one of the class
table (`tsCompress_wrote`); the range is tested first. -/
theorem timestampCodeByClass : Obligations.TimestampCodeByClass := by
  refine fun s ts ho => ⟨fun hr hroom => ?_, fun hr => ?_⟩
  · obtain ⟨e1, hw⟩ := ok_of_room (tsCompress_fills (dodInRange_iff.2 hr) ho) hroom
    obtain ⟨hwrote, hses⟩ := tsCompress_wrote ho hw
    refine ⟨e1, by rw [exec_tsCompress, hw]; rfl, ?_⟩
    rwa [Wrote, hses] at hwrote
  · rw [exec_tsCompress, tsCompress_outOfRange fun h => hr (dodInRange_iff.1 h)]
    rfl

/-- Settles O32: the marker is tested once the 27 bits are read. -/
theorem firstTimestampIsRead : Obligations.FirstTimestampIsRead := by
  refine fun s => ⟨fun h => ?_, fun h => ?_⟩
  · intro v ts
    rw [exec_tsReadFirst, tsReadFirst_available h]
    change aloneD (takeFirstDelta v _).asFlagged s = _
    by_cases hv : v = 134217727#64
    · rw [if_pos hv, hv, ← Config.firstDeltaEmpty, takeFirstDelta_marker]
      rfl
    · rw [if_neg hv, takeFirstDelta_delta hv]
      rfl
  · rw [exec_tsReadFirst, tsReadFirst_exhausted h]
    rfl

/-- Settles O34: TS_DECOMPRESS on a word's bits ends as the word says (`tsDecompress_word`). -/
theorem timestampIsDecoded : Obligations.TimestampIsDecoded := by
  refine ⟨fun s w hcode hwf havail hbits => ?_, fun s havail hbits => ?_⟩
  · rw [exec_tsDecompress, tsDecompress_word hcode hwf ⟨havail, hbits⟩]
    rfl
  · rw [exec_tsDecompress, tsDecompress_sentinel ⟨havail, hbits⟩]
    rfl

section RoundTrip
variable {p : Params} {e e1 : EngineE} {d : EngineD} {ts : W64} {bs : List Bool}

/-- The delta-of-delta that TS_COMPRESS took moves the same registers to the same timestamp (R207). -/
theorem advance_dod (ses : Session) :
    ses.advance (ts - ses.storedTimestamp - ses.storedDelta).toInt = ses.withTime (ts - ses.storedTimestamp) ts := by
  have hdelta : ses.storedDelta + (ts - ses.storedTimestamp - ses.storedDelta) = ts - ses.storedTimestamp := by
    rw [BitVec.add_comm, BitVec.sub_add_cancel]
  rw [Session.advance, BitVec.ofInt_toInt, hdelta, BitVec.add_comm ses.storedTimestamp, BitVec.sub_add_cancel]

/-- TS_COMPRESS has appended the word of its delta-of-delta, and TS_DECOMPRESS on that word's bits ends with the
timestamp and the registers TS_COMPRESS left (R207). -/
theorem tsDecompress_compressed (ho : e.accOpen p) (htime : d.ses.storedTimestamp = e.ses.storedTimestamp)
    (hdelta : d.ses.storedDelta = e.ses.storedDelta)
    (hr : dodInRange (ts - e.ses.storedTimestamp - e.ses.storedDelta) = true)
    (hw : tsCompress p ts e = .ok () e1) (hbs : e1.bits p = e.bits p ++ bs) (h : Ahead p bs d) :
    tsDecompress p d =
      .ok (false, ts) (d.moved bs.length (d.ses.withTime e1.ses.storedDelta e1.ses.storedTimestamp)) := by
  obtain ⟨hwrote, hses⟩ := tsCompress_wrote ho hw
  have hcode : bs = encodeStream (dodWord (ts - e.ses.storedTimestamp - e.ses.storedDelta).toInt) :=
    List.append_cancel_left (hbs.symm.trans hwrote.bits)
  subst hcode
  rw [tsDecompress_word (isTimestampCode_dodWord _) (wf_dodWord hr) h, wordDod_dodWord hr, hses, ← htime, ← hdelta,
    advance_dod]
  rfl

/-- The same for the 27 bits of a first timestamp, which are not the marker (R105, R201). -/
theorem tsReadFirst_written (ho : e.accOpen p) (hblock : d.ses.blockTimestamp = e.ses.blockTimestamp)
    (hr : firstDeltaInRange (ts - e.ses.blockTimestamp) = true) (hw : tsWriteFirst p ts e = .ok () e1)
    (hbs : e1.bits p = e.bits p ++ bs) (h : Ahead p bs d) :
    tsReadFirst p d =
      .ok (false, ts) (d.moved bs.length (d.ses.withTime e1.ses.storedDelta e1.ses.storedTimestamp)) := by
  obtain ⟨hwrote, hses⟩ := tsWriteFirst_wrote ho hw
  have hcode : bs = bitsOf (ts - e.ses.blockTimestamp) 27 := List.append_cancel_left (hbs.symm.trans hwrote.bits)
  have hle := toNat_of_firstDeltaInRange hr
  have hne : ts - e.ses.blockTimestamp ≠ Config.firstDeltaEmpty := fun h0 => absurd (h0 ▸ hle) (by decide)
  have htime : d.ses.blockTimestamp + (ts - e.ses.blockTimestamp) = ts := by
    rw [hblock, BitVec.add_comm, BitVec.sub_add_cancel]
  obtain ⟨havail, hbits⟩ := h
  subst hcode
  rw [length_bitsOf] at havail hbits ⊢
  rw [tsReadFirst_available havail, hbits, ofBits_bitsOf _ _ (by omega), takeFirstDelta_delta hne, htime, hses]
  rfl

end RoundTrip

/-- Settles O35: without a fault the timestamp was in range and there was room, so what was appended is one word or the
first delta, and the decoder takes it off the source with the registers the encoder left (`tsDecompress_compressed`,
`tsReadFirst_written`). -/
theorem timestampsRoundTrip : Obligations.TimestampsRoundTrip := by
  intro s t ts enc dec bs hpair ho hblock htime hdelta hexec hf hbs havail hbits
  have hahead : Ahead s.params bs s.d := ⟨havail, hbits⟩
  obtain ⟨rfl, rfl⟩ | ⟨rfl, rfl⟩ := hpair
  · by_cases hr : firstDeltaInRange (ts - s.e.ses.blockTimestamp) = true
    · obtain ⟨e1, hw, rfl⟩ := ok_of_no_fault (tsWriteFirst_fills hr ho) hexec hf
      refine ⟨?_, by rw [(tsWriteFirst_wrote ho hw).2]; rfl⟩
      rw [exec_tsReadFirst, tsReadFirst_written ho hblock hr hw hbs hahead]
      rfl
    · rw [exec_tsWriteFirst, tsWriteFirst_outOfRange hr] at hexec
      cases hexec
      cases hf
  · by_cases hr : dodInRange (ts - s.e.ses.storedTimestamp - s.e.ses.storedDelta) = true
    · obtain ⟨e1, hw, rfl⟩ := ok_of_no_fault (tsCompress_fills hr ho) hexec hf
      refine ⟨?_, by rw [(tsCompress_wrote ho hw).2]; rfl⟩
      rw [exec_tsDecompress, tsDecompress_compressed ho htime hdelta hr hw hbs hahead]
      rfl
    · rw [exec_tsCompress, tsCompress_outOfRange hr] at hexec
      cases hexec
      cases hf

end Machine
end Sys2Proof

/-! The commands through their frames (45_framing.md R221): what an accepted command runs and how it is answered. -/

namespace Sys2Proof
namespace Machine

section Frames
variable {s t : State} {e : EngineE} {d : EngineD} {f : FaultCode}

theorem finishE_ok {r : Res EngineE Unit} (h : r = .ok () e) (hf : e.fault = .none) :
    finishE r s = .next (({ s with e := e } : State).answer .E okResponse) := by
  rw [h, finishE, hf]
  rfl

theorem finishE_raised {r : Res EngineE Unit} (h : r = .raised f e) :
    finishE r s = .next (({ s with e := { e with fault := f } } : State).answer .E (plainResponse .fault f)) := by
  rw [h]
  rfl

theorem finishD_ok {r : Res EngineD Unit} (h : r = .ok () d) (hf : d.fault = .none) :
    finishD r s = .next (({ s with d := d } : State).answer .D okResponse) := by
  rw [h, finishD, hf]
  rfl

theorem finishD_raised {r : Res EngineD Unit} (h : r = .raised f d) :
    finishD r s = .next (({ s with d := { d with fault := f } } : State).answer .D (plainResponse .fault f)) := by
  rw [h]
  rfl

theorem finishRead_pair {r : Res EngineD (Option (W64 × W64))} {ts v : W64} (h : r = .ok (some (ts, v)) d)
    (hf : d.fault = .none) : finishRead r s = .next (({ s with d := d } : State).answer .D (pairOk ts v)) := by
  rw [h, finishRead, hf]
  rfl

theorem finishRead_absent {r : Res EngineD (Option (W64 × W64))} (h : r = .ok none d) (hf : d.fault = .none) :
    finishRead r s = .next (({ s with d := d } : State).answer .D absentResponse) := by
  rw [h, finishRead, hf]
  rfl

theorem finishRead_raised {r : Res EngineD (Option (W64 × W64))} (h : r = .raised f d) :
    finishRead r s = .next (({ s with d := { d with fault := f } } : State).answer .D (plainResponse .fault f)) := by
  rw [h]
  rfl

theorem acceptE_live {body : EngineE → Res EngineE Unit} (hf : s.e.fault = .none) (hl : s.e.phase.live = true) :
    acceptE body s = finishE (body s.e) s := by
  rw [acceptE, if_neg (not_not_intro hf), if_neg (by rw [hl]; decide)]

theorem acceptRead_readable {body : EngineD → Res EngineD (Option (W64 × W64))} (hf : s.d.fault = .none)
    (hr : s.d.phase.readable = true) : acceptRead body s = finishRead (body s.d) s := by
  rw [acceptRead, if_neg (not_not_intro hf), if_neg (by rw [hr]; decide)]

theorem exec_cInit (k : PredKind) (b n : W64) : exec (.cInit k b n) s = finishE (cInit s.params k b n s.e) s := rfl

theorem exec_dInit (k : PredKind) (len n : W64) :
    exec (.dInit k len n) s = finishD (dInit s.params k len n s.d) s := rfl

theorem exec_addValue_live (hf : s.e.fault = .none) (hl : s.e.phase.live = true) (ts v : W64) :
    exec (.addValue ts v) s = finishE (addValue s.params ts v s.e) s := acceptE_live hf hl

theorem exec_close_live (hf : s.e.fault = .none) (hl : s.e.phase.live = true) :
    exec .close s = finishE (close s.params s.e) s := acceptE_live hf hl

theorem exec_readPair_readable (hf : s.d.fault = .none) (hr : s.d.phase.readable = true) :
    exec .readPair s = finishRead (readPair s.params s.d) s := acceptRead_readable hf hr

end Frames

/-! The constructions (R222, R225): a fresh session, then the header. -/

section Constructions
variable {p : Params} {e : EngineE} {d : EngineD} {k : PredKind} {ts n len : W64}

/-- Engine E with nothing in its sink and the session registers `ses`, before the header is written (R222). -/
def EngineE.restarted (e : EngineE) (ses : Session) : EngineE :=
  { e with fault := .none, phase := .idle, wUnit := 0, acc := 0#64, accFill := 0, ses := ses }

@[simp] theorem EngineE.restarted_wPos (ses : Session) : (e.restarted ses).wPos p = 0 := by
  simp [EngineE.wPos, EngineE.restarted]

@[simp] theorem EngineE.restarted_bits (ses : Session) : (e.restarted ses).bits p = [] := by
  rw [EngineE.bits, EngineE.restarted_wPos]
  rfl

theorem EngineE.restarted_accOpen (ses : Session) : (e.restarted ses).accOpen p := p.unit.bits_pos

theorem EngineE.restarted_room_iff (ses : Session) {m : Nat} :
    (e.restarted ses).room p m ↔ p.overCapacity m = false := by
  rw [EngineE.room, EngineE.restarted_wPos, Nat.zero_add]

theorem cInit_accepted (h : predAccepted p k n = true) :
    cInit p k ts n e = (writeBits p ts 64 (e.restarted (freshSession ts k n))).bind fun _ e2 =>
      .ok () { e2 with phase := .ready } := by
  rcases predInit_cases (p := p) (q := e.ses.pred) k n with ⟨hq, -⟩ | ⟨-, -, hno⟩
  · rw [cInit, Session.fresh_pred, hq]
    rfl
  · exact absurd (h.symm.trans hno) (by decide)

theorem cInit_rejected (h : predAccepted p k n = false) :
    cInit p k ts n e = .raised .config
      (e.restarted { freshSession ts k n with
        pred := { e.ses.pred with kind := .dfcm, lastValue := 0#64, hash := 0 } }) := by
  rcases predInit_cases (p := p) (q := e.ses.pred) k n with ⟨-, hyes⟩ | ⟨hq, -, -⟩
  · exact absurd (hyes.symm.trans h) (by decide)
  · rw [cInit, Session.fresh_pred, hq]
    rfl

/-- Engine D at the start of a source of `units` units with the session registers `ses` (R225). -/
def EngineD.restarted (d : EngineD) (units : Nat) (ses : Session) : EngineD :=
  { d with fault := .none, phase := .idle, srcLenUnits := units, rPos := 0, ses := ses }

theorem EngineD.restarted_available_iff (units m : Nat) (ses : Session) :
    (d.restarted units ses).available p m ↔ m ≤ units * p.unit.bits := by
  rw [EngineD.available, EngineD.srcLenBits, EngineD.restarted, Nat.zero_add]

theorem dInit_accepted (h : predAccepted p k n = true) :
    dInit p k len n d = (readBits p 64 (d.restarted len.toNat (freshSession 0#64 k n))).bind fun v d2 =>
      .ok () { d2 with ses := { d2.ses with blockTimestamp := v }, phase := .ready } := by
  rcases predInit_cases (p := p) (q := d.ses.pred) k n with ⟨hq, -⟩ | ⟨-, -, hno⟩
  · rw [dInit, Session.fresh_pred, hq]
    rfl
  · exact absurd (h.symm.trans hno) (by decide)

theorem dInit_rejected (h : predAccepted p k n = false) :
    dInit p k len n d = .raised .config
      (d.restarted len.toNat { freshSession 0#64 k n with
        pred := { d.ses.pred with kind := .dfcm, lastValue := 0#64, hash := 0 } }) := by
  rcases predInit_cases (p := p) (q := d.ses.pred) k n with ⟨-, hyes⟩ | ⟨hq, -, -⟩
  · exact absurd (hyes.symm.trans h) (by decide)
  · rw [dInit, Session.fresh_pred, hq]
    rfl

end Constructions

/-- A header fills whole units. -/
theorem header_mod_unit (u : UnitWidth) : 64 % u.bits = 0 := by cases u <;> rfl

/-- Settles O45: PRED_INIT accepts its operands or not, and then the header fits the empty sink or not. -/
theorem cInitStartsASession : Obligations.CInitStartsASession := by
  intro s k ts n
  refine ⟨fun hacc hcap => ?_, fun hacc hcap => ?_, fun hrej => ?_⟩
  · have hopen : (s.e.restarted (freshSession ts k n)).accOpen s.params := EngineE.restarted_accOpen _
    obtain ⟨e1, hw, ha⟩ :=
      writeBits_appends ts (by decide) hopen ((EngineE.restarted_room_iff _).2 hcap)
    have hbits := ha.1
    have hfill : e1.accFill = (0 + 64) % s.params.unit.bits := by
      obtain ⟨-, -, -, -, -, hfill, -⟩ := ha
      rwa [EngineE.restarted_wPos, length_bitsOf] at hfill
    rw [Nat.zero_add, header_mod_unit] at hfill
    refine ⟨{ e1 with phase := .ready }, ?_, ?_, hfill, ha.withPhase .ready⟩
    · rw [exec_cInit]
      exact finishE_ok (by rw [cInit_accepted hacc, hw, Res.bind_ok]) ha.fault
    · rwa [EngineE.restarted_bits, List.nil_append] at hbits
  · have hfull : ¬ (s.e.restarted (freshSession ts k n)).room s.params 64 := by
      rw [EngineE.restarted_room_iff, hcap]
      decide
    have hraised : cInit s.params k ts n s.e = .raised .capacity (s.e.restarted (freshSession ts k n)) := by
      rw [cInit_accepted hacc, writeBits_full ts (by decide) hfull, Res.bind_raised]
    rw [exec_cInit, finishE_raised hraised]
    rfl
  · rw [exec_cInit]
    exact finishE_raised (cInit_rejected hrej)

/-- Settles O51: PRED_INIT accepts its operands or not, and then the source has a header or not. -/
theorem dInitReadsTheHeader : Obligations.DInitReadsTheHeader := by
  intro s k len n
  refine ⟨fun hacc hlen => ?_, fun hacc hlen => ?_, fun hrej => ?_⟩
  · have havail : (s.d.restarted len.toNat (freshSession 0#64 k n)).available s.params 64 :=
      (EngineD.restarted_available_iff _ _ _).2 hlen
    have hnext : (s.d.restarted len.toNat (freshSession 0#64 k n)).next s.params 64 = streamBits s.params s.d 0 64 :=
      streamBits_congr (d := s.d) (d1 := s.d.restarted _ _) rfl _ _
    rw [exec_dInit]
    exact finishD_ok (by rw [dInit_accepted hacc, readBits_reads (by decide) havail, hnext, Res.bind_ok]; rfl) rfl
  · have hshort : ¬ (s.d.restarted len.toNat (freshSession 0#64 k n)).available s.params 64 := by
      rw [EngineD.restarted_available_iff]
      omega
    have hraised : dInit s.params k len n s.d =
        .raised .sourceExhausted (s.d.restarted len.toNat (freshSession 0#64 k n)) := by
      rw [dInit_accepted hacc, readBits_exhausted (by decide) hshort, Res.bind_raised]
    rw [exec_dInit, finishD_raised hraised]
    rfl
  · rw [exec_dInit]
    exact finishD_raised (dInit_rejected hrej)

end Machine
end Sys2Proof

/-! ADD_VALUE and CLOSE (45_framing.md R223, R224): each ends normally where its bits fit, and then it has appended
exactly its code words. -/

namespace Sys2Proof
namespace Machine

section AddValue
variable {p : Params} {e e1 : EngineE} {ts v : W64}

theorem addValue_first (hp : e.phase = .ready) :
    addValue p ts v e = (tsWriteFirst p ts e).bind fun _ e1 => (valWriteFirst p v e1).bind fun _ e2 =>
      .ok () { e2 with phase := .afterFirst } := if_pos hp

theorem addValue_later (hp : e.phase ≠ .ready) :
    addValue p ts v e = (tsCompress p ts e).bind fun _ e1 => (valCompress p v e1).bind fun _ e2 =>
      .ok () { e2 with phase := .streaming } := if_neg hp

/-- Room behind bits already written. -/
theorem Wrote.room {bs : List Bool} {n : Nat} (h : Wrote p bs e e1) (hr : e.room p (bs.length + n)) : e1.room p n :=
  Appended.room h hr

/-- What was written, with the registers the engine has afterwards put in beforehand, in any phase. -/
theorem Wrote.appended {bs : List Bool} {x : Session} (h : Wrote p bs e e1) (hx : e1.ses = x) (ph : PhaseE) :
    Appended p bs { e with phase := ph, ses := x } { e1 with phase := ph } := hx ▸ Appended.withPhase h ph

/-- Where the first sample is taken, its 27 and 64 raw bits are appended (R223, R98). -/
theorem appended_of_addValue_first (hp : e.phase = .ready) (ho : e.accOpen p) (h : addValue p ts v e = .ok () e1) :
    Appended p (bitsOf (ts - e.ses.blockTimestamp) 27 ++ bitsOf v 64)
      { e with phase := .afterFirst,
               ses := { e.ses.withTime (ts - e.ses.blockTimestamp) ts with pred := predUpdate v e.ses.pred } } e1 := by
  rw [addValue_first hp] at h
  obtain ⟨_, e2, ht, h⟩ := Res.bind_eq_ok.1 h
  obtain ⟨_, e3, hv, h⟩ := Res.bind_eq_ok.1 h
  obtain ⟨htime, hses2⟩ := tsWriteFirst_wrote ho ht
  obtain ⟨hvalue, hses3⟩ := valWriteFirst_ok htime.accOpen hv
  rw [EngineE.update_ses, hses2] at hses3
  cases h
  exact (htime.trans ho hvalue).appended hses3 .afterFirst

/-- The first sample is taken where it is in range and its 91 bits fit. -/
theorem addValue_first_fits (hp : e.phase = .ready) (ho : e.accOpen p)
    (hr : firstDeltaInRange (ts - e.ses.blockTimestamp) = true) (hroom : e.room p 91) :
    ∃ e1, addValue p ts v e = .ok () e1 := by
  obtain ⟨e2, ht⟩ := ok_of_room (tsWriteFirst_fills hr ho) (EngineE.room_mono (by decide) hroom)
  obtain ⟨htime, -⟩ := tsWriteFirst_wrote ho ht
  have hroom2 : e2.room p 64 := htime.room (by rwa [length_bitsOf])
  obtain ⟨e3, hv⟩ := ok_of_room (valWriteFirst_fills v htime.accOpen) hroom2
  exact ⟨_, by rw [addValue_first hp, ht, Res.bind_ok, hv, Res.bind_ok]⟩

/-- The bits of a later sample: the words of its delta-of-delta and of its residual (R223). -/
def laterBits (ses : Session) (ts v : W64) : List Bool :=
  sampleBits (dodWord (ts - ses.storedTimestamp - ses.storedDelta).toInt, residualWord ses (predPredict ses.pred ^^^ v))

/-- The session registers after a later sample. -/
def laterSession (ses : Session) (ts v : W64) : Session :=
  { (residualWindow ses (predPredict ses.pred ^^^ v)).withTime (ts - ses.storedTimestamp) ts with
      pred := predUpdate v ses.pred }

/-- The window does not depend on the timestamp and the predictor registers. -/
theorem residualWindow_withTime_withPred (ses : Session) (r delta : W64) (q : Pred) :
    residualWindow { ses.withTime delta ts with pred := q } r =
      { (residualWindow ses r).withTime delta ts with pred := q } := by
  have hword : residualWord { ses.withTime delta ts with pred := q } r = residualWord ses r :=
    residualWord_congr r ⟨rfl, rfl⟩
  rw [residualWindow, residualWindow, hword]
  split <;> rfl

/-- Where a later sample is taken, its two code words are appended (R223, R203, R186). -/
theorem appended_of_addValue_later (hp : e.phase ≠ .ready) (ho : e.accOpen p) (h : addValue p ts v e = .ok () e1) :
    Appended p (laterBits e.ses ts v) { e with phase := .streaming, ses := laterSession e.ses ts v } e1 := by
  rw [addValue_later hp] at h
  obtain ⟨_, e2, ht, h⟩ := Res.bind_eq_ok.1 h
  obtain ⟨_, e3, hv, h⟩ := Res.bind_eq_ok.1 h
  obtain ⟨htime, hses2⟩ := tsCompress_wrote ho ht
  obtain ⟨hvalue, hses3⟩ := compressResidual_ok (e := e2.update v) htime.accOpen hv
  have hword : residualWord (e2.update v).ses (predPredict e2.ses.pred ^^^ v) =
      residualWord e.ses (predPredict e.ses.pred ^^^ v) := by
    rw [EngineE.update_ses, hses2]
    exact residualWord_congr _ ⟨rfl, rfl⟩
  have hses : e3.ses = laterSession e.ses ts v := by
    rw [hses3, EngineE.update_ses, hses2]
    exact residualWindow_withTime_withPred _ _ _ _
  rw [hword] at hvalue
  cases h
  exact (htime.trans ho hvalue).appended hses .streaming

/-- A later sample is taken where it is in range and its two code words fit. -/
theorem addValue_later_fits (hp : e.phase ≠ .ready) (ho : e.accOpen p)
    (hr : dodInRange (ts - e.ses.storedTimestamp - e.ses.storedDelta) = true)
    (hroom : e.room p (laterBits e.ses ts v).length) : ∃ e1, addValue p ts v e = .ok () e1 := by
  rw [laterBits, sampleBits, List.length_append] at hroom
  obtain ⟨e2, ht⟩ := ok_of_room (tsCompress_fills hr ho) (EngineE.room_mono (Nat.le_add_right _ _) hroom)
  obtain ⟨htime, hses2⟩ := tsCompress_wrote ho ht
  have hword : residualWord (e2.update v).ses (predPredict e2.ses.pred ^^^ v) =
      residualWord e.ses (predPredict e.ses.pred ^^^ v) := by
    rw [EngineE.update_ses, hses2]
    exact residualWord_congr _ ⟨rfl, rfl⟩
  have hfills := compressResidual_fills (e := e2.update v) (predPredict e2.ses.pred ^^^ v) htime.accOpen
  rw [hword] at hfills
  obtain ⟨e3, hv⟩ := ok_of_room hfills (htime.room hroom)
  exact ⟨_, by rw [addValue_later hp, ht, Res.bind_ok, valCompress, hv, Res.bind_ok]⟩

end AddValue

theorem phaseE_live_of_later {ph : PhaseE} (h : ph = .afterFirst ∨ ph = .streaming) :
    ph.live = true ∧ ph ≠ .ready := by
  rcases h with rfl | rfl <;> decide

/-- Settles O46: in range and with room the sample is taken (`addValue_first_fits`), and then its raw bits are appended
(`appended_of_addValue_first`). -/
theorem firstSampleIsAppended : Obligations.FirstSampleIsAppended := by
  intro s ts v hf hp ho delta0 hlo hhi hroom
  obtain ⟨e1, hw⟩ := addValue_first_fits hp ho (firstDeltaInRange_iff.2 ⟨hlo, hhi⟩) hroom
  have ha := appended_of_addValue_first hp ho hw
  refine ⟨e1, ?_, ?_⟩
  · rw [exec_addValue_live hf (by rw [hp]; rfl)]
    exact finishE_ok hw (ha.fault.trans hf)
  · rwa [encodeStream, encodeStream, bitsOf_setWidth _ (Nat.le_refl 27)]

/-- Settles O47: in range and with room the sample is taken (`addValue_later_fits`), and then its two code words are
appended (`appended_of_addValue_later`). -/
theorem laterSampleIsAppended : Obligations.LaterSampleIsAppended := by
  intro s ts v hf hp ho newDelta dod r bs hhi hlo hroom
  obtain ⟨hl, hne⟩ := phaseE_live_of_later hp
  obtain ⟨e1, hw⟩ := addValue_later_fits hne ho (dodInRange_iff.2 ⟨hlo, hhi⟩) hroom
  have ha := appended_of_addValue_later hne ho hw
  refine ⟨e1, ?_, ha⟩
  rw [exec_addValue_live hf hl]
  exact finishE_ok hw (ha.fault.trans hf)

/-- Settles O49: at the stored interval the delta-of-delta is 0, and a predicted value has residual 0; O47 says the
rest. -/
theorem constantSampleTakesTwoBits : Obligations.ConstantSampleTakesTwoBits := by
  intro s hf hp ho hroom ts v
  have hdelta : ts - s.e.ses.storedTimestamp = s.e.ses.storedDelta := by
    change s.e.ses.storedTimestamp + s.e.ses.storedDelta - s.e.ses.storedTimestamp = _
    rw [BitVec.add_comm, BitVec.add_sub_cancel]
  have hresidual : predPredict s.e.ses.pred ^^^ v = 0#64 := BitVec.xor_self
  have hlater := laterSampleIsAppended s ts v hf hp ho
  simp only [hdelta, BitVec.sub_self, BitVec.toInt_zero, hresidual, residualWord_zero, residualWindow] at hlater
  exact hlater (by decide) (by decide) hroom

/-! CLOSE (R224). -/

section Close
variable {p : Params} {e : EngineE}

theorem writeBit_keeps_sinkInv (b : Bool) (h : SinkInv p e) :
    (writeBit p b e).Ends (SinkInv p) fun _ => SinkInv p := by
  unfold writeBit
  split
  · exact h
  · next hr => exact sinkInv_pushAcc b h (Bool.eq_false_iff.2 hr)

theorem writeLoop_keeps_sinkInv (v : W64) (n : Nat) (h : SinkInv p e) :
    (writeLoop p v n e).Ends (SinkInv p) fun _ => SinkInv p := by
  induction n generalizing e with
  | zero => exact h
  | succ n ih => exact (writeBit_keeps_sinkInv _ h).bind fun _ _ => ih

theorem writeBits_keeps_sinkInv (v : W64) (n : Nat) (h : SinkInv p e) :
    (writeBits p v n e).Ends (SinkInv p) fun _ => SinkInv p := by
  unfold writeBits
  split_ifs
  · exact h
  · exact h
  · exact writeLoop_keeps_sinkInv v n h

theorem writeTerminator_keeps_sinkInv (h : SinkInv p e) :
    (writeTerminator p e).Ends (SinkInv p) fun _ => SinkInv p :=
  (writeBits_keeps_sinkInv _ _ h).bind fun _ _ h1 =>
  (writeBits_keeps_sinkInv _ _ h1).bind fun _ _ => writeBit_keeps_sinkInv false

theorem flush_total (p : Params) (e : EngineE) : ∃ e1, flush p e = .ok () e1 := by
  unfold flush
  split <;> exact ⟨_, rfl⟩

/-- Settles O50: the terminator is appended, and FLUSH pads what the cursor then lacks to the boundary. -/
theorem closeEndsTheBlock : Obligations.CloseEndsTheBlock := by
  intro s hf hl hs hroom pad
  obtain ⟨e1, hw, hterm⟩ := writeTerminator_appends hs.1 hroom
  have hs1 : (writeTerminator s.params s.e).Ends (SinkInv s.params) _ := writeTerminator_keeps_sinkInv hs
  rw [hw] at hs1
  obtain ⟨e2, hflush⟩ := flush_total s.params e1
  obtain ⟨hpad, hfill⟩ := flush_ok hs1 hflush
  have hcursor : e1.accFill = (s.e.wPos s.params + 37) % s.params.unit.bits := by
    obtain ⟨-, -, -, -, -, hcursor, -⟩ := hterm
    exact hcursor
  rw [hcursor] at hpad
  have hall := (hterm.trans hs.1 hpad).withPhase .closed
  refine ⟨{ e2 with phase := .closed }, ?_, hfill, hall⟩
  rw [exec_close_live hf hl]
  exact finishE_ok (by rw [close, hw, Res.bind_ok, hflush, Res.bind_ok]) (hall.fault.trans hf)

end Close

end Machine
end Sys2Proof

/-! READ_PAIR (45_framing.md R226): in each phase that still reads, a timestamp and, where the stream does not end
there, a value. -/

namespace Sys2Proof
namespace Machine

section ReadPair
variable {p : Params} {d d1 d2 : EngineD} {r : Res EngineD (Bool × W64)} {val : EngineD → Res EngineD W64} {ph : PhaseD}

/-- One sample: a timestamp, and unless it is the end of the stream a value; then the phase (R226). -/
def readSample (r : Res EngineD (Bool × W64)) (val : EngineD → Res EngineD W64) (ph : PhaseD) :
    Res EngineD (Option (W64 × W64)) :=
  r.bind fun x d1 =>
    if x.1 then .ok none { d1 with phase := .exhausted }
    else (val d1).bind fun v d2 => .ok (some (x.2, v)) { d2 with phase := ph }

theorem readPair_first (h : d.phase = .ready) :
    readPair p d = readSample (tsReadFirst p d) (valReadFirst p) .afterFirst := by
  rw [readPair, if_neg (by rw [h]; decide), if_pos h]
  rfl

theorem readPair_later (h : d.phase = .afterFirst ∨ d.phase = .streaming) :
    readPair p d = readSample (tsDecompress p d) (valDecompress p) .streaming := by
  rw [readPair, if_neg (by rcases h with h | h <;> rw [h] <;> decide),
    if_neg (by rcases h with h | h <;> rw [h] <;> decide)]
  rfl

theorem readSample_end {ts : W64} (h : r = .ok (true, ts) d1) :
    readSample r val ph = .ok none { d1 with phase := .exhausted } := by
  rw [h]
  rfl

theorem readSample_pair {ts v : W64} (h : r = .ok (false, ts) d1) (hv : val d1 = .ok v d2) :
    readSample r val ph = .ok (some (ts, v)) { d2 with phase := ph } := by
  rw [h, readSample, Res.bind_ok, if_neg Bool.false_ne_true, hv, Res.bind_ok]

theorem readSample_value_raised {f : FaultCode} {ts : W64} (h : r = .ok (false, ts) d1) (hv : val d1 = .raised f d2) :
    readSample r val ph = .raised f d2 := by
  rw [h, readSample, Res.bind_ok, if_neg Bool.false_ne_true, hv, Res.bind_raised]

/-- The marker of an empty block, where a first delta would stand (R105). -/
theorem readPair_marker (hp : d.phase = .ready) (h : Ahead p (List.replicate 27 true) d) :
    readPair p d = .ok none { d with rPos := d.rPos + 27, phase := .exhausted } := by
  have hbits : d.next p 27 = List.replicate 27 true := h.bits
  have hones : ofBits 64 (List.replicate 27 true) = Config.firstDeltaEmpty := by decide
  have hread : tsReadFirst p d = .ok (true, 0#64) { d with rPos := d.rPos + 27 } := by
    rw [tsReadFirst_available h.available, hbits, hones, takeFirstDelta_marker]
  rw [readPair_first hp]
  exact readSample_end hread

/-- The sentinel, where the timestamp code of a later sample would stand (R105). -/
theorem readPair_sentinel (hp : d.phase = .afterFirst ∨ d.phase = .streaming)
    (h : Ahead p (List.replicate 36 true) d) :
    readPair p d = .ok none { d with rPos := d.rPos + 36, phase := .exhausted } := by
  rw [readPair_later hp]
  exact readSample_end (tsDecompress_sentinel h)

/-- The raw bits of a first sample, which are not the marker (R98). -/
theorem readPair_rawSample {delta v : W64} (hp : d.phase = .ready) (havail : d.available p 91)
    (hdelta : ofBits 64 (d.next p 27) = delta) (hne : delta ≠ Config.firstDeltaEmpty)
    (hv : ofBits 64 (streamBits p d (d.rPos + 27) 64) = v) :
    readPair p d = .ok (some (d.ses.blockTimestamp + delta, v))
      { d.afterValue 91 (d.ses.withTime delta (d.ses.blockTimestamp + delta)) v with phase := .afterFirst } := by
  have htime : tsReadFirst p d = .ok (false, d.ses.blockTimestamp + delta)
      (d.moved 27 (d.ses.withTime delta (d.ses.blockTimestamp + delta))) := by
    rw [tsReadFirst_available (available_mono (by decide) havail), hdelta]
    exact takeFirstDelta_delta hne
  have hnext : (d.moved 27 (d.ses.withTime delta (d.ses.blockTimestamp + delta))).next p 64 =
      streamBits p d (d.rPos + 27) 64 := streamBits_congr (d := d) (d1 := d.moved 27 _) rfl _ _
  have hvalue := valReadFirst_available (available_after havail) ((congrArg _ hnext).trans hv)
  rw [readPair_first hp]
  exact readSample_pair htime hvalue

/-! The timestamp registers play no part in a value code word. -/

section Advance
variable (ses : Session) (n : Int) (w : Instr)

theorem wordLegal_advance : wordLegal (ses.advance n) w = wordLegal ses w := wordLegal_congr ⟨rfl, rfl⟩ w

theorem wordResidual_advance : wordResidual (ses.advance n) w = wordResidual ses w := by cases w <;> rfl

theorem wordWindow_withTime (delta ts : W64) :
    wordWindow (ses.withTime delta ts) w = (wordWindow ses w).withTime delta ts := by cases w <;> rfl

theorem wordWindow_advance : wordWindow (ses.advance n) w = (wordWindow ses w).advance n := by cases w <;> rfl

theorem wordWindow_advance_timestamp :
    ((wordWindow ses w).advance n).storedTimestamp = (ses.advance n).storedTimestamp := by cases w <;> rfl

end Advance

/-- The bits of a timestamp code word and of a legal value code word are read as the sample they stand for (R226). -/
theorem readPair_words {wt wv : Instr} {v : W64} (hp : d.phase = .afterFirst ∨ d.phase = .streaming)
    (htcode : wt.isTimestampCode = true) (htwf : wt.wf = true) (hvcode : wv.isValueCode = true) (hvwf : wv.wf = true)
    (hlegal : wordLegal d.ses wv = true) (h : Ahead p (sampleBits (wt, wv)) d)
    (hv : predPredict d.ses.pred ^^^ wordResidual d.ses wv = v) :
    readPair p d = .ok (some (((wordWindow d.ses wv).advance (wordDod wt)).storedTimestamp, v))
      { d.afterValue (sampleBits (wt, wv)).length ((wordWindow d.ses wv).advance (wordDod wt)) v with
          phase := .streaming } := by
  have htime := tsDecompress_word htcode htwf (Ahead.front h)
  have hlegal1 : wordLegal (d.ses.advance (wordDod wt)) wv = true := by rwa [wordLegal_advance]
  have hresidual :
      predPredict (d.ses.advance (wordDod wt)).pred ^^^ wordResidual (d.ses.advance (wordDod wt)) wv = v := by
    rwa [wordResidual_advance]
  have hvalue := valDecompress_word (d := d.moved (encodeStream wt).length (d.ses.advance (wordDod wt)))
    hvcode hvwf hlegal1 (Ahead.rest h _) hresidual
  rw [EngineD.moved_ses, wordWindow_advance] at hvalue
  rw [readPair_later hp, readSample_pair htime hvalue, wordWindow_advance_timestamp]
  simp only [EngineD.afterValue, EngineD.moved, sampleBits, List.length_append, Nat.add_assoc]
  rfl

end ReadPair

/-- Settles O52: 27 bits that are not the marker and 64 bits of value (`readPair_rawSample`); the marker
(`readPair_marker`); and an exhausted session, which reads nothing (`readPair_exhausted`). -/
theorem readPairFirstSample : Obligations.ReadPairFirstSample := by
  refine fun s hf => ⟨fun hp havail => ?_, fun hp havail hbits => ?_, fun hp => ?_⟩
  · intro delta v ts hne
    rw [exec_readPair_readable hf (by rw [hp]; rfl)]
    exact finishRead_pair (readPair_rawSample hp havail rfl hne rfl) hf
  · rw [exec_readPair_readable hf (by rw [hp]; rfl)]
    exact finishRead_absent (readPair_marker hp ⟨havail, hbits⟩) hf
  · rw [exec_readPair_readable hf (by rw [hp]; rfl)]
    exact finishRead_absent (readPair_exhausted hp) hf

theorem phaseD_readable_of_later {ph : PhaseD} (h : ph = .afterFirst ∨ ph = .streaming) : ph.readable = true := by
  rcases h with rfl | rfl <;> rfl

/-- Settles O53: the two words are taken off the bits one after the other (`readPair_words`), or the sentinel ends the
stream (`readPair_sentinel`). -/
theorem readPairLaterSample : Obligations.ReadPairLaterSample := by
  refine fun s hf hp => ⟨fun wt wv htcode htwf hvcode hvwf hlegal => ?_, fun havail hbits => ?_⟩
  · intro bs ses1 v havail hbits
    rw [exec_readPair_readable hf (phaseD_readable_of_later hp)]
    exact finishRead_pair (readPair_words hp htcode htwf hvcode hvwf hlegal ⟨havail, hbits⟩ rfl) hf
  · rw [exec_readPair_readable hf (phaseD_readable_of_later hp)]
    exact finishRead_absent (readPair_sentinel hp ⟨havail, hbits⟩) hf

end Machine
end Sys2Proof

/-! A whole block written and read back (45_framing.md R229): from sample to sample the decoder holds the session
registers the encoder had after the same sample. -/

namespace Sys2Proof
namespace Machine

section InStep
variable {p : Params} {e e1 : EngineE} {d : EngineD} {ts v : W64} {bs : List Bool}

/-- The phase of a decoder that has read what an encoder in this phase has written. -/
def PhaseE.mirror : PhaseE → PhaseD
  | .idle => .idle
  | .ready => .ready
  | .afterFirst => .afterFirst
  | .streaming => .streaming
  | .closed => .exhausted

/-- Engine D has read what engine E has written: the same session registers, the phase to match, and no fault. -/
structure InStep (e : EngineE) (d : EngineD) : Prop where
  ses : d.ses = e.ses
  phase : d.phase = e.phase.mirror
  fault : d.fault = .none

theorem InStep.readable (h : InStep e d) (hl : e.phase.live = true) : d.phase.readable = true := by
  rw [h.phase]
  rcases live_cases hl with hp | hp | hp <;> rw [hp] <;> rfl

/-- The phase is no part of the source. -/
theorem Ahead.withPhase (h : Ahead p bs d) (x : PhaseD) : Ahead p bs { d with phase := x } :=
  ⟨h.available, (streamBits_congr (d := d) (d1 := { d with phase := x }) rfl _ _).trans h.bits⟩

/-- What comes of one sample: `bs` are its bits, and on them READ_PAIR returns it, in step again with the encoder. -/
structure ReadsBack (p : Params) (ts v : W64) (bs : List Bool) (e e1 : EngineE) : Prop where
  accOpen : e1.accOpen p
  bits : e1.bits p = e.bits p ++ bs
  reads : ∀ d, InStep e d → Ahead p bs d →
    readPair p d = .ok (some (ts, v)) { d.moved bs.length e1.ses with phase := e1.phase.mirror }

theorem firstDeltaInRange_of_addValue (hp : e.phase = .ready) (h : addValue p ts v e = .ok () e1) :
    firstDeltaInRange (ts - e.ses.blockTimestamp) = true := by
  by_contra hr
  rw [addValue_first hp, tsWriteFirst_outOfRange hr] at h
  cases h

theorem dodInRange_of_addValue (hp : e.phase ≠ .ready) (h : addValue p ts v e = .ok () e1) :
    dodInRange (ts - e.ses.storedTimestamp - e.ses.storedDelta) = true := by
  by_contra hr
  rw [addValue_later hp, tsCompress_outOfRange hr] at h
  cases h

/-- The 27 and 64 raw bits of a first sample are its delta, which is not the marker, and its value. -/
theorem readsBack_first (hp : e.phase = .ready) (ho : e.accOpen p) (h : addValue p ts v e = .ok () e1) :
    ∃ bs, ReadsBack p ts v bs e e1 := by
  have ha := appended_of_addValue_first hp ho h
  have hle := toNat_of_firstDeltaInRange (firstDeltaInRange_of_addValue hp h)
  refine ⟨_, ha.accOpen, ha.1, fun d hstep hahead => ?_⟩
  have hready : d.phase = .ready := by rw [hstep.phase, hp]; rfl
  have havail : d.available p 91 := hahead.available
  have hfront : d.next p 27 = bitsOf (ts - e.ses.blockTimestamp) 27 := hahead.front.bits
  have hrest : streamBits p (d.moved 27 d.ses) (d.rPos + 27) 64 = bitsOf v 64 := (hahead.rest d.ses).bits
  have hdelta : ofBits 64 (d.next p 27) = ts - e.ses.blockTimestamp := by
    rw [hfront, ofBits_bitsOf _ _ (by omega)]
  have hne : ts - e.ses.blockTimestamp ≠ Config.firstDeltaEmpty := fun h0 => absurd (h0 ▸ hle) (by decide)
  have hvalue : ofBits 64 (streamBits p d (d.rPos + 27) 64) = v := by
    rw [← streamBits_congr (d := d) (d1 := d.moved 27 d.ses) rfl, hrest, ofBits_bitsOf_self]
  have htime : e.ses.blockTimestamp + (ts - e.ses.blockTimestamp) = ts := by
    rw [BitVec.add_comm, BitVec.sub_add_cancel]
  rw [readPair_rawSample hready havail hdelta hne hvalue, EngineD.afterValue, hstep.ses, htime, ha.ses, ha.phase]
  rfl

/-- The two words of a later sample stand for its delta-of-delta and its residual, which lead back to it. -/
theorem readsBack_later (hp : e.phase = .afterFirst ∨ e.phase = .streaming) (ho : e.accOpen p)
    (h : addValue p ts v e = .ok () e1) : ∃ bs, ReadsBack p ts v bs e e1 := by
  have hne : e.phase ≠ .ready := (phaseE_live_of_later hp).2
  have ha := appended_of_addValue_later hne ho h
  have hr := dodInRange_of_addValue hne h
  refine ⟨_, ha.accOpen, ha.1, fun d hstep hahead => ?_⟩
  have hlater : d.phase = .afterFirst ∨ d.phase = .streaming := by
    rw [hstep.phase]
    rcases hp with hp | hp <;> rw [hp] <;> decide
  have hvalue : predPredict d.ses.pred ^^^
      wordResidual d.ses (residualWord e.ses (predPredict e.ses.pred ^^^ v)) = v := by
    rw [hstep.ses, wordResidual_residualWord, ← BitVec.xor_assoc, BitVec.xor_self, BitVec.zero_xor]
  have hses : (wordWindow d.ses (residualWord e.ses (predPredict e.ses.pred ^^^ v))).advance
      (wordDod (dodWord (ts - e.ses.storedTimestamp - e.ses.storedDelta).toInt)) =
        (residualWindow e.ses (predPredict e.ses.pred ^^^ v)).withTime (ts - e.ses.storedTimestamp) ts := by
    rw [hstep.ses, wordDod_dodWord hr, ← wordWindow_advance, advance_dod, wordWindow_withTime,
      wordWindow_residualWord]
  rw [readPair_words hlater (isTimestampCode_dodWord _) (wf_dodWord hr) (isValueCode_residualWord _ _)
    (wf_residualWord_any _ _) (by rw [hstep.ses]; exact wordLegal_residualWord _ _) hahead hvalue, hses,
    EngineD.afterValue, hstep.ses, ha.ses, ha.phase]
  rfl

theorem addValue_readsBack (hl : e.phase.live = true) (ho : e.accOpen p) (h : addValue p ts v e = .ok () e1) :
    ∃ bs, ReadsBack p ts v bs e e1 := by
  rcases live_cases hl with hp | hp
  · exact readsBack_first hp ho h
  · exact readsBack_later hp ho h

end InStep

/-! The end of the block (R224, R226). -/

section End
variable {p : Params} {e e1 : EngineE} {d : EngineD} {pad : List Bool}

theorem flush_empties (h : flush p e = .ok () e1) : e1.accFill = 0 := by
  unfold flush at h
  split at h
  · cases h
    rfl
  · next h0 =>
    cases h
    exact Nat.eq_zero_of_not_pos h0

/-- Whatever stands in the accumulator beyond its fill, CLOSE puts the terminator behind the stream and commits it. -/
theorem bits_of_close (ho : e.accOpen p) (h : close p e = .ok () e1) :
    e1.accFill = 0 ∧ ∃ pad, e1.bits p = e.bits p ++ (terminatorBits ++ pad) := by
  obtain ⟨_, e2, hterm, h⟩ := Res.bind_eq_ok.1 h
  obtain ⟨_, e3, hflush, h⟩ := Res.bind_eq_ok.1 h
  have ha := writeTerminator_ok ho hterm
  have hext : (flush p e2).ExtendsSink p e2 := flush_extends (.refl ha.accOpen)
  rw [hflush] at hext
  obtain ⟨pad, hpad⟩ := hext.bits
  cases h
  have hfill : e3.accFill = 0 := flush_empties hflush
  refine ⟨hfill, pad, ?_⟩
  rw [← List.append_assoc, ← ha.1]
  exact hpad.symm

/-- The terminator ends the stream in every phase: its ones are the empty marker or the sentinel (R103, R105). -/
theorem readPair_terminator (hl : e.phase.live = true) (hstep : InStep e d) (h : Ahead p (terminatorBits ++ pad) d) :
    ∃ k, readPair p d = .ok none { d with rPos := k, phase := .exhausted } := by
  have hones (m n : Nat) (hmn : List.replicate 36 true = List.replicate m true ++ List.replicate n true) :
      Ahead p (List.replicate m true) d := by
    rw [terminatorBits, hmn, List.append_assoc, List.append_assoc] at h
    exact h.front
  have hphase := hstep.phase
  rcases live_cases hl with hp | hp | hp <;> rw [hp] at hphase
  · exact ⟨_, readPair_marker hphase (hones 27 9 rfl)⟩
  · exact ⟨_, readPair_sentinel (.inl hphase) (hones 36 0 rfl)⟩
  · exact ⟨_, readPair_sentinel (.inr hphase) (hones 36 0 rfl)⟩

end End

/-! Runs of commands (R229). -/

section Runs
variable {s t u : State} {i : Instr} {is : List Instr}

theorem runOk_cons (h : runOk (i :: is) s = some t) :
    ∃ s1, exec i s = .next s1 ∧ s1.respE = some okResponse ∧ runOk is s1 = some t := by
  rw [runOk] at h
  split at h
  · next s1 hexec =>
    split at h
    · next hok => exact ⟨s1, hexec, hok, h⟩
    · cases h
  · cases h
  · cases h

/-- A command of engine E that is answered `OK` was accepted and ended normally. -/
theorem acceptE_answered_ok {body : EngineE → Res EngineE Unit} (h : acceptE body s = .next t)
    (hok : t.respE = some okResponse) :
    s.e.phase.live = true ∧ t.params = s.params ∧ body s.e = .ok () t.e := by
  rcases acceptE_cases h with ⟨-, rfl⟩ | ⟨-, -, rfl⟩ | ⟨-, hl, hfin⟩
  · cases hok
  · cases hok
  · rcases finishE_cases hfin with ⟨e, he, rfl⟩ | ⟨f, e, -, rfl⟩
    · exact ⟨hl, State.answer_params _ _ _, he⟩
    · cases hok

theorem readAnswers_succ {u1 : State} (h : exec .readPair u = .next u1) (n : Nat) :
    readAnswers (n + 1) u = u1.respD :: readAnswers n u1 := by
  rw [readAnswers, h]

theorem readAnswers_exhausted (hf : u.d.fault = .none) (hp : u.d.phase = .exhausted) (n : Nat) :
    readAnswers n u = List.replicate n (some absentResponse) := by
  induction n generalizing u with
  | zero => rfl
  | succ n ih =>
    have hanswer : exec .readPair u = .next (u.answer .D absentResponse) := (readPairFirstSample u hf).2.2 hp
    rw [readAnswers_succ hanswer, ih (u := u.answer .D absentResponse) hf hp]
    rfl

/-- From the bits `bs` a decoder in step with engine E reads `samples`, and then `ABSENT` for ever (R229). -/
def Decodes (p : Params) (samples : List (W64 × W64)) (e : EngineE) (bs : List Bool) : Prop :=
  ∀ u : State, u.params = p → InStep e u.d → Ahead p bs u.d → ∀ m,
    readAnswers (samples.length + (m + 1)) u =
      samples.map (fun x => some (pairOk x.1 x.2)) ++ List.replicate (m + 1) (some absentResponse)

theorem decodes_nil {p : Params} {e : EngineE} {pad : List Bool} (hl : e.phase.live = true) :
    Decodes p [] e (terminatorBits ++ pad) := by
  rintro u rfl hstep hahead m
  obtain ⟨k, hread⟩ := readPair_terminator hl hstep hahead
  have hanswer := (exec_readPair_readable hstep.fault (hstep.readable hl)).trans (finishRead_absent hread hstep.fault)
  have hforever := readAnswers_exhausted
    (u := ({ u with d := { u.d with rPos := k, phase := .exhausted } } : State).answer .D absentResponse)
    hstep.fault rfl m
  rw [List.length_nil, Nat.zero_add, readAnswers_succ hanswer, hforever]
  rfl

theorem decodes_cons {p : Params} {samples : List (W64 × W64)} {e e1 : EngineE} {ts v : W64} {bs rest : List Bool}
    (hl : e.phase.live = true) (hback : ReadsBack p ts v bs e e1) (h : Decodes p samples e1 rest) :
    Decodes p ((ts, v) :: samples) e (bs ++ rest) := by
  rintro u rfl hstep hahead m
  have hread := hback.reads u.d hstep hahead.front
  have hanswer := (exec_readPair_readable hstep.fault (hstep.readable hl)).trans (finishRead_pair hread hstep.fault)
  rw [List.length_cons, Nat.add_right_comm, readAnswers_succ hanswer, h _ ?_ ?_ ?_]
  · rfl
  · rfl
  · exact ⟨rfl, rfl, hstep.fault⟩
  · exact (hahead.rest e1.ses).withPhase _

/-- A session that takes `samples` and is closed, all answered `OK`, leaves behind what it found in the sink bits from
which the samples are decoded. -/
theorem decodes_session (samples : List (W64 × W64)) (ho : s.e.accOpen s.params)
    (h : runOk (samples.map (fun x => Instr.addValue x.1 x.2) ++ [.close]) s = some t) :
    t.params = s.params ∧ t.e.accFill = 0 ∧
      ∃ rest, t.e.bits s.params = s.e.bits s.params ++ rest ∧ Decodes s.params samples s.e rest := by
  induction samples generalizing s with
  | nil =>
    obtain ⟨s1, hexec, hok, hrun⟩ := runOk_cons h
    cases hrun
    obtain ⟨hl, hparams, hclose⟩ := acceptE_answered_ok hexec hok
    obtain ⟨hfill, pad, hbits⟩ := bits_of_close ho hclose
    exact ⟨hparams, hfill, _, hbits, decodes_nil hl⟩
  | cons x samples ih =>
    obtain ⟨s1, hexec, hok, hrun⟩ := runOk_cons h
    obtain ⟨hl, hparams1, hadd⟩ := acceptE_answered_ok hexec hok
    obtain ⟨bs, hback⟩ := addValue_readsBack hl ho hadd
    obtain ⟨hparams, hfill, rest, hbits, hrest⟩ := ih (by rw [hparams1]; exact hback.accOpen) hrun
    rw [hparams1] at hbits hrest
    refine ⟨hparams.trans hparams1, hfill, bs ++ rest, ?_, decodes_cons hl hback hrest⟩
    rw [hbits, hback.bits, List.append_assoc]

end Runs

/-! The copy to SM_D (R108, R283). -/

section Copy
variable {p : Params} {d : EngineD} {s t : State}

theorem streamBits_eq_map (k n : Nat) : streamBits p d k n = (List.range n).map fun i => streamBit p d (k + i) := by
  induction n generalizing k with
  | zero => rfl
  | succ n ih =>
    rw [streamBits, ih, List.range_succ_eq_map, List.map_cons, List.map_map]
    exact congrArg _ (List.map_congr_left fun i _ => congrArg _ (by omega))

theorem byteAt_hostCopy {a : Nat} (h : a < s.e.wUnit * s.params.unit.bytes) :
    (hostCopy s).d.byteAt a = s.e.byteAt a := by
  have hget : s.blockBytes[a]? = some (s.e.byteAt a) := by simp [State.blockBytes, h]
  have hlen : s.blockBytes.length = s.e.wUnit * s.params.unit.bytes := by simp [State.blockBytes]
  rw [EngineD.byteAt, hostCopy, Memory.read_writeBytes, hlen, if_pos ⟨Nat.zero_le a, by omega⟩, Nat.sub_zero, hget]
  rfl

/-- A block whose every bit is committed stands at the start of SM_D once it is copied, whatever follows it. -/
theorem ahead_hostCopy {units : Nat} (hfill : s.e.accFill = 0) (hlen : s.e.wUnit ≤ units) (ses : Session) :
    Ahead s.params (s.e.bits s.params) ((hostCopy s).d.restarted units ses) := by
  have hcursor : s.e.wPos s.params = s.e.wUnit * s.params.unit.bits := by rw [EngineE.wPos, hfill, Nat.add_zero]
  have hlength : (s.e.bits s.params).length = s.e.wUnit * s.params.unit.bits := by
    rw [EngineE.bits, List.length_map, List.length_range, hcursor]
  constructor
  · rw [EngineD.restarted_available_iff, hlength]
    exact Nat.mul_le_mul_right _ hlen
  · have hsame : ((hostCopy s).d.restarted units ses).next s.params (s.e.bits s.params).length =
        streamBits s.params (hostCopy s).d 0 (s.e.bits s.params).length :=
      streamBits_congr (d := (hostCopy s).d) (d1 := (hostCopy s).d.restarted units ses) rfl _ _
    rw [hsame, hlength, streamBits_eq_map, EngineE.bits, hcursor]
    refine List.map_congr_left fun i hi => ?_
    have hlt := List.mem_range.1 hi
    have hbyte : i / 8 < s.e.wUnit * s.params.unit.bytes := by
      rw [UnitWidth.bits_eq, Nat.mul_left_comm] at hlt
      omega
    rw [Nat.zero_add, streamBit_byte, byteAt_hostCopy hbyte,
      sinkBit_committed ((Nat.div_lt_iff_lt_mul s.params.unit.bits_pos).2 hlt)]

/-- C_INIT answered `OK` had its operands accepted, and left a fresh session and the header (R222). -/
theorem execCInit_answered_ok {k : PredKind} {ts n : W64} (h : exec (.cInit k ts n) s = .next t)
    (hok : t.respE = some okResponse) :
    predAccepted s.params k n = true ∧ t.params = s.params ∧ t.e.accOpen s.params ∧ t.e.phase = .ready ∧
      t.e.ses = freshSession ts k n ∧ t.e.bits s.params = bitsOf ts 64 := by
  obtain ⟨haccepted, hfull, hrejected⟩ := cInitStartsASession s k ts n
  cases hacc : predAccepted s.params k n
  case false =>
    cases (hrejected hacc).symm.trans h
    cases hok
  case true =>
    cases hcap : s.params.overCapacity 64
    case true =>
      cases (hfull hacc hcap).symm.trans h
      cases hok
    case false =>
      obtain ⟨e1, hexec, hbits, -, ha⟩ := haccepted hacc hcap
      cases hexec.symm.trans h
      exact ⟨rfl, State.answer_params _ _ _, ha.accOpen, ha.phase, ha.ses, hbits⟩

end Copy

/-- Settles O60: C_INIT leaves the header, every sample its bits, and CLOSE the terminator (`decodes_session`); copied,
these bits are what engine D reads (`ahead_hostCopy`), and after D_INIT it is in step with engine E after C_INIT. -/
theorem blockRoundTrips : Obligations.BlockRoundTrips := by
  intro s t k origin n len samples hrun hlen
  obtain ⟨s1, hexec, hok, hsession⟩ := runOk_cons hrun
  obtain ⟨hacc, hparams1, ho, hphase, hses, hheader⟩ := execCInit_answered_ok hexec hok
  rw [← hparams1] at ho hheader
  obtain ⟨hparams, hfill, rest, hbits, hreads⟩ := decodes_session samples ho hsession
  rw [← hparams] at hbits hreads hheader
  rw [hheader] at hbits
  have hahead := ahead_hostCopy hfill hlen (freshSession origin k n)
  rw [hbits] at hahead
  have hfits := (EngineD.restarted_available_iff _ _ _).1 hahead.front.available
  have horigin : ofBits 64 (streamBits t.params (hostCopy t).d 0 64) = origin := by
    have hfront : streamBits t.params (hostCopy t).d 0 64 = bitsOf origin 64 :=
      (streamBits_congr (d1 := (hostCopy t).d) rfl _ _).trans hahead.front.bits
    rw [hfront, ofBits_bitsOf_self]
  have hacct : predAccepted t.params k n = true := by rw [hparams, hparams1, hacc]
  have hinit := (dInitReadsTheHeader (hostCopy t) k len n).1 hacct hfits
  refine ⟨_, hinit, rfl, hreads _ rfl ?_ ?_⟩
  · refine ⟨?_, ?_, rfl⟩
    · rw [hses, ← horigin]
      rfl
    · rw [hphase]
      rfl
  · exact (hahead.rest _).withPhase _

end Machine
end Sys2Proof

/-! The phases (45_framing.md R227): no line of a command's pseudocode touches the phase or the fault register until the
command ends, and every code it raises is a fault. -/

namespace Sys2Proof
namespace Machine

section EngineE
variable {p : Params} {e e1 : EngineE} {ph : PhaseE} {g : FaultCode}

/-- Engine E stands in phase `ph` with `g` in its fault register. -/
structure EngineE.Stands (ph : PhaseE) (g : FaultCode) (e : EngineE) : Prop where
  phase : e.phase = ph
  fault : e.fault = g

/-- However `r` ends, engine E stands in `ph` with `g`; a raise has a code other than 0 (R251). -/
abbrev Res.StandsE {α : Type} (r : Res EngineE α) (ph : PhaseE) (g : FaultCode) : Prop :=
  r.Keeps (EngineE.Stands ph g) (· ≠ .none)

theorem EngineE.Stands.withSes (h : e.Stands ph g) (x : Session) : EngineE.Stands ph g { e with ses := x } :=
  ⟨h.phase, h.fault⟩

theorem EngineE.Stands.withPhase (h : e.Stands ph g) (x : PhaseE) : EngineE.Stands x g { e with phase := x } :=
  ⟨rfl, h.fault⟩

theorem writeBit_standsE (b : Bool) (h : e.Stands ph g) : (writeBit p b e).StandsE ph g := by
  unfold writeBit
  split
  · exact ⟨by decide, h⟩
  · unfold pushAcc
    dsimp only
    split <;> exact ⟨h.phase, h.fault⟩

theorem writeLoop_standsE (v : W64) (n : Nat) (h : e.Stands ph g) : (writeLoop p v n e).StandsE ph g := by
  induction n generalizing e with
  | zero => exact h
  | succ n ih => exact (writeBit_standsE _ h).bind fun _ _ => ih

theorem writeBits_standsE (v : W64) (n : Nat) (h : e.Stands ph g) : (writeBits p v n e).StandsE ph g := by
  unfold writeBits
  split_ifs
  · exact ⟨by decide, h⟩
  · exact ⟨by decide, h⟩
  · exact writeLoop_standsE v n h

theorem flush_standsE (h : e.Stands ph g) : (flush p e).StandsE ph g := by
  unfold flush
  split
  · exact ⟨h.phase, h.fault⟩
  · exact h

/-! The codecs (44_timestamp_dod.md, 43_value_xor.md). -/

theorem tsWriteFirst_standsE (ts : W64) (h : e.Stands ph g) : (tsWriteFirst p ts e).StandsE ph g := by
  by_cases hr : firstDeltaInRange (ts - e.ses.blockTimestamp) = true
  · rw [tsWriteFirst_inRange hr]
    exact (writeBits_standsE _ _ h).bind fun _ _ h1 => h1.withSes _
  · rw [tsWriteFirst_outOfRange hr]
    exact ⟨by decide, h⟩

theorem writeDod_standsE (dod : W64) (h : e.Stands ph g) : (writeDod p dod e).StandsE ph g := by
  unfold writeDod
  split_ifs
  · exact writeBit_standsE false h
  · exact (writeBits_standsE _ _ h).bind fun _ _ => writeBits_standsE _ _
  · exact ⟨by decide, h⟩

theorem tsCompress_standsE (ts : W64) (h : e.Stands ph g) : (tsCompress p ts e).StandsE ph g :=
  (writeDod_standsE _ h).bind fun _ _ h1 => h1.withSes _

theorem valWriteFirst_standsE (v : W64) (h : e.Stands ph g) : (valWriteFirst p v e).StandsE ph g :=
  writeBits_standsE v 64 (h.withSes _)

theorem compressReuse_standsE (r : W64) (h : e.Stands ph g) : (compressReuse p r e).StandsE ph g :=
  (writeBit_standsE false h).bind fun _ _ => writeBits_standsE _ _

theorem compressNew_standsE (r : W64) (h : e.Stands ph g) : (compressNew p r e).StandsE ph g :=
  (writeBit_standsE true h).bind fun _ _ h1 =>
  (writeBits_standsE _ _ h1).bind fun _ _ h2 =>
  (writeBits_standsE _ _ h2).bind fun _ _ h3 =>
  (writeBits_standsE _ _ h3).bind fun _ _ h4 => h4.withSes _

theorem compressResidual_standsE (r : W64) (h : e.Stands ph g) : (compressResidual p r e).StandsE ph g := by
  unfold compressResidual
  split
  · exact writeBit_standsE false h
  · refine (writeBit_standsE true h).bind fun _ e1 h1 => ?_
    split
    · exact compressReuse_standsE r h1
    · exact compressNew_standsE r h1

theorem valCompress_standsE (v : W64) (h : e.Stands ph g) : (valCompress p v e).StandsE ph g :=
  compressResidual_standsE _ (h.withSes _)

theorem writeTerminator_standsE (h : e.Stands ph g) : (writeTerminator p e).StandsE ph g :=
  (writeBits_standsE _ _ h).bind fun _ _ h1 =>
  (writeBits_standsE _ _ h1).bind fun _ _ => writeBit_standsE false

/-! The commands (R222 to R224). -/

theorem cInit_stands (k : PredKind) (ts n : W64) :
    (cInit p k ts n e).Ends (EngineE.Stands .ready .none) fun f e1 => f ≠ .none ∧ e1.Stands .idle .none := by
  cases hacc : predAccepted p k n
  · rw [cInit_rejected hacc]
    exact ⟨by decide, rfl, rfl⟩
  · rw [cInit_accepted hacc]
    exact (writeBits_standsE ts 64 ⟨rfl, rfl⟩).bind fun _ _ h1 => h1.withPhase .ready

theorem addValue_stands (ts v : W64) (h : e.Stands ph g) :
    (addValue p ts v e).Ends (EngineE.Stands (if ph = .ready then .afterFirst else .streaming) g)
      fun f e1 => f ≠ .none ∧ e1.Stands ph g := by
  by_cases hp : e.phase = .ready
  · rw [addValue_first hp, if_pos (h.phase.symm.trans hp)]
    exact (tsWriteFirst_standsE ts h).bind fun _ _ h1 =>
      (valWriteFirst_standsE v h1).bind fun _ _ h2 => h2.withPhase .afterFirst
  · rw [addValue_later hp, if_neg fun h0 => hp (h.phase.trans h0)]
    exact (tsCompress_standsE ts h).bind fun _ _ h1 =>
      (valCompress_standsE v h1).bind fun _ _ h2 => h2.withPhase .streaming

theorem close_stands (h : e.Stands ph g) :
    (close p e).Ends (EngineE.Stands .closed g) fun f e1 => f ≠ .none ∧ e1.Stands ph g :=
  (writeTerminator_standsE h).bind fun _ _ h1 => (flush_standsE h1).bind fun _ _ h2 => h2.withPhase .closed

end EngineE

section EngineD
variable {p : Params} {d d1 : EngineD} {ph : PhaseD} {g : FaultCode}

/-- Engine D stands in phase `ph` with `g` in its fault register. -/
structure EngineD.Stands (ph : PhaseD) (g : FaultCode) (d : EngineD) : Prop where
  phase : d.phase = ph
  fault : d.fault = g

/-- However `r` ends, engine D stands in `ph` with `g`; a raise has a code other than 0 (R251). -/
abbrev Res.StandsD {α : Type} (r : Res EngineD α) (ph : PhaseD) (g : FaultCode) : Prop :=
  r.Keeps (EngineD.Stands ph g) (· ≠ .none)

theorem EngineD.Stands.withSes (h : d.Stands ph g) (x : Session) : EngineD.Stands ph g { d with ses := x } :=
  ⟨h.phase, h.fault⟩

theorem EngineD.Stands.withPhase (h : d.Stands ph g) (x : PhaseD) : EngineD.Stands x g { d with phase := x } :=
  ⟨rfl, h.fault⟩

theorem readBit_standsD (h : d.Stands ph g) : (readBit p d).StandsD ph g := by
  unfold readBit
  split
  · exact ⟨by decide, h⟩
  · exact ⟨h.phase, h.fault⟩

theorem readBits_standsD (n : Nat) (h : d.Stands ph g) : (readBits p n d).StandsD ph g := by
  unfold readBits
  split_ifs
  · exact ⟨by decide, h⟩
  · exact ⟨by decide, h⟩
  · exact ⟨h.phase, h.fault⟩

theorem readRunFrom_standsD (n count : Nat) (h : d.Stands ph g) : (readRunFrom p n count d).StandsD ph g := by
  induction n generalizing count d with
  | zero => exact h
  | succ n ih =>
    refine (readBit_standsD h).bind fun b d1 h1 => ?_
    split
    · exact ih _ h1
    · exact h1

/-! The codecs (44_timestamp_dod.md, 43_value_xor.md). -/

theorem takeFirstDelta_standsD (v : W64) (h : d.Stands ph g) : (takeFirstDelta v d).StandsD ph g := by
  unfold takeFirstDelta
  split
  · exact h
  · exact h.withSes _

theorem takePayload_standsD (r : Nat) (payload : W64) (h : d.Stands ph g) : (takePayload r payload d).StandsD ph g := by
  unfold takePayload
  split
  · exact h
  · exact h.withSes _

theorem tsReadFirst_standsD (h : d.Stands ph g) : (tsReadFirst p d).StandsD ph g :=
  (readBits_standsD _ h).bind fun v _ => takeFirstDelta_standsD v

theorem tsDecompress_standsD (h : d.Stands ph g) : (tsDecompress p d).StandsD ph g := by
  refine (readRunFrom_standsD _ _ h).bind fun r d1 h1 => ?_
  split
  · exact h1.withSes _
  · exact (readBits_standsD _ h1).bind fun payload _ => takePayload_standsD r payload

theorem valReadFirst_standsD (h : d.Stands ph g) : (valReadFirst p d).StandsD ph g :=
  (readBits_standsD 64 h).bind fun _ _ h1 => h1.withSes _

theorem decompressReuse_standsD (predicted : W64) (h : d.Stands ph g) :
    (decompressReuse p predicted d).StandsD ph g := by
  unfold decompressReuse
  split
  · exact ⟨by decide, h⟩
  · exact (readBits_standsD _ h).bind fun _ _ h1 => h1.withSes _

theorem decompressNew_standsD (predicted : W64) (h : d.Stands ph g) : (decompressNew p predicted d).StandsD ph g := by
  refine (readBits_standsD _ h).bind fun l d1 h1 => ?_
  refine (readBits_standsD _ h1).bind fun m d2 h2 => ?_
  dsimp only
  split
  · exact ⟨by decide, h2⟩
  · exact (readBits_standsD _ (h2.withSes _)).bind fun _ _ h3 => h3.withSes _

theorem valDecompress_standsD (h : d.Stands ph g) : (valDecompress p d).StandsD ph g := by
  refine (readBit_standsD h).bind fun b1 d1 h1 => ?_
  split
  · refine (readBit_standsD h1).bind fun b2 d2 h2 => ?_
    split
    · exact decompressNew_standsD _ h2
    · exact decompressReuse_standsD _ h2
  · exact h1.withSes _

/-! The commands (R225, R226). -/

theorem dInit_stands (k : PredKind) (len n : W64) :
    (dInit p k len n d).Ends (EngineD.Stands .ready .none) fun f d1 => f ≠ .none ∧ d1.Stands .idle .none := by
  cases hacc : predAccepted p k n
  · rw [dInit_rejected hacc]
    exact ⟨by decide, rfl, rfl⟩
  · rw [dInit_accepted hacc]
    exact (readBits_standsD 64 ⟨rfl, rfl⟩).bind fun _ _ h1 => ⟨rfl, h1.fault⟩

/-- The three ways READ_PAIR ends: a sample and phase `next`, the end of the stream, or a raise in the phase it began
in. -/
inductive EngineD.ReadEnds (ph next : PhaseD) (g : FaultCode) : Res EngineD (Option (W64 × W64)) → Prop where
  | pair {d : EngineD} (ts v : W64) (h : d.Stands next g) : ReadEnds ph next g (.ok (some (ts, v)) d)
  | absent {d : EngineD} (h : d.Stands .exhausted g) : ReadEnds ph next g (.ok none d)
  | raised {d : EngineD} {f : FaultCode} (hf : f ≠ .none) (h : d.Stands ph g) : ReadEnds ph next g (.raised f d)

theorem readSample_ends {r : Res EngineD (Bool × W64)} {val : EngineD → Res EngineD W64} (next : PhaseD)
    (hr : r.StandsD ph g) (hval : ∀ d1, d1.Stands ph g → (val d1).StandsD ph g) :
    EngineD.ReadEnds ph next g (readSample r val next) := by
  cases r with
  | raised f d1 => exact .raised hr.1 hr.2
  | ok x d1 =>
    obtain ⟨flag, ts⟩ := x
    cases flag with
    | true => exact .absent (hr.withPhase .exhausted)
    | false =>
      have hv := hval d1 hr
      cases hread : val d1 with
      | raised f d2 =>
        rw [hread] at hv
        rw [readSample_value_raised rfl hread]
        exact .raised hv.1 hv.2
      | ok v d2 =>
        rw [hread] at hv
        rw [readSample_pair rfl hread]
        exact .pair ts v (hv.withPhase next)

theorem readPair_readEnds (h : d.Stands ph g) (hl : ph.live = true) :
    EngineD.ReadEnds ph (if ph = .ready then .afterFirst else .streaming) g (readPair p d) := by
  obtain ⟨rfl, rfl⟩ := h
  rcases (phaseD_live_iff _).1 hl with hp | hp
  · rw [readPair_first hp, if_pos hp]
    exact readSample_ends _ (tsReadFirst_standsD ⟨rfl, rfl⟩) fun _ => valReadFirst_standsD
  · have hne : d.phase ≠ .ready := by rcases hp with hp | hp <;> rw [hp] <;> decide
    rw [readPair_later hp, if_neg hne]
    exact readSample_ends _ (tsDecompress_standsD ⟨rfl, rfl⟩) fun _ => valDecompress_standsD

end EngineD

/-! The frames. -/

section Frames
variable {s t : State}

/-- How a command of engine E that was accepted is answered, and the phase and the fault register it leaves. -/
theorem finishE_stands {r : Res EngineE Unit} {ph next : PhaseE} (ht : finishE r s = .next t)
    (hr : r.Ends (EngineE.Stands next .none) fun f e => f ≠ .none ∧ e.Stands ph .none) :
    (t.respE = some okResponse ∧ t.e.fault = .none ∧ t.e.phase = next) ∨
      (t.respE = some (plainResponse .fault t.e.fault) ∧ t.e.phase = ph ∧ t.e.fault ≠ .none) := by
  cases r with
  | ok _ e =>
    cases (finishE_ok rfl hr.fault).symm.trans ht
    exact .inl ⟨rfl, hr.fault, hr.phase⟩
  | raised f e =>
    cases ht
    exact .inr ⟨rfl, hr.2.phase, hr.1⟩

theorem finishD_stands {r : Res EngineD Unit} {ph next : PhaseD} (ht : finishD r s = .next t)
    (hr : r.Ends (EngineD.Stands next .none) fun f d => f ≠ .none ∧ d.Stands ph .none) :
    (t.respD = some okResponse ∧ t.d.phase = next ∧ t.d.fault = .none) ∨
      (t.respD = some (plainResponse .fault t.d.fault) ∧ t.d.phase = ph ∧ t.d.fault ≠ .none) := by
  cases r with
  | ok _ d =>
    cases (finishD_ok rfl hr.fault).symm.trans ht
    exact .inl ⟨rfl, hr.phase, hr.fault⟩
  | raised f d =>
    cases ht
    exact .inr ⟨rfl, hr.2.phase, hr.1⟩

theorem phaseE_not_live_iff (ph : PhaseE) : ph.live = false ↔ ph = .idle ∨ ph = .closed := by cases ph <;> decide

theorem acceptE_stands {body : EngineE → Res EngineE Unit} {next : PhaseE} (hf : s.e.fault = .none)
    (ht : acceptE body s = .next t)
    (hr : (body s.e).Ends (EngineE.Stands next .none) fun f e => f ≠ .none ∧ e.Stands s.e.phase .none) :
    if s.e.phase = .idle ∨ s.e.phase = .closed then t = s.refuse .E .refusedPhase
    else
      (t.respE = some okResponse ∧ t.e.fault = .none ∧ t.e.phase = next) ∨
      (t.respE = some (plainResponse .fault t.e.fault) ∧ t.e.phase = s.e.phase ∧ t.e.fault ≠ .none) := by
  rcases acceptE_cases ht with ⟨hne, -⟩ | ⟨-, hl, rfl⟩ | ⟨-, hl, hfin⟩
  · exact absurd hf hne
  · rw [if_pos ((phaseE_not_live_iff _).1 hl)]
  · rw [if_neg fun h => absurd hl (by rw [(phaseE_not_live_iff _).2 h]; decide)]
    exact finishE_stands hfin hr

theorem phaseD_readable_iff (ph : PhaseD) : ph.readable = true ↔ ph = .exhausted ∨ ph.live = true := by
  cases ph <;> decide

theorem phaseD_not_readable_iff (ph : PhaseD) : ph.readable = false ↔ ph = .idle := by cases ph <;> decide

/-- The row of READ_PAIR (R227). -/
theorem execReadPair_stands (hf : s.d.fault = .none) (ht : exec .readPair s = .next t) :
    if s.d.phase = .idle then t = s.refuse .D .refusedPhase
    else
      (∃ ts v, t.respD = some (pairOk ts v) ∧ t.d.fault = .none ∧ s.d.phase ≠ .exhausted ∧
        t.d.phase = if s.d.phase = .ready then .afterFirst else .streaming) ∨
      (t.respD = some absentResponse ∧ t.d.fault = .none ∧ t.d.phase = .exhausted) ∨
      (t.respD = some (plainResponse .fault t.d.fault) ∧ t.d.phase = s.d.phase ∧ t.d.fault ≠ .none) := by
  rcases acceptRead_cases ht with ⟨hne, -⟩ | ⟨-, hr, rfl⟩ | ⟨-, hr, hfin⟩
  · exact absurd hf hne
  · rw [if_pos ((phaseD_not_readable_iff _).1 hr)]
  · rw [if_neg fun hidle => absurd hr (by rw [hidle]; decide)]
    rcases (phaseD_readable_iff _).1 hr with hp | hl
    · cases (finishRead_absent (readPair_exhausted hp) hf).symm.trans hfin
      exact .inr (.inl ⟨rfl, hf, hp⟩)
    · have hends := readPair_readEnds (p := s.params) ⟨rfl, hf⟩ hl
      generalize readPair s.params s.d = r at hends hfin
      cases hends with
      | pair ts v h =>
        cases (finishRead_pair rfl h.fault).symm.trans hfin
        exact .inl ⟨ts, v, rfl, h.fault, fun h0 => absurd hl (by rw [h0]; decide), h.phase⟩
      | absent h =>
        cases (finishRead_absent rfl h.fault).symm.trans hfin
        exact .inr (.inl ⟨rfl, h.fault, h.phase⟩)
      | raised hne h =>
        cases hfin
        exact .inr (.inr ⟨rfl, h.phase, hne⟩)

end Frames

/-- Settles O55: what each command's pseudocode leaves of phase and fault register, through its frame. -/
theorem phaseTable : Obligations.PhaseTable := by
  refine fun s t => ⟨fun k a b ht => ?_, fun a b hf ht => ?_, fun hf ht => ?_, fun k a b ht => ?_, fun hf ht => ?_⟩
  · rcases finishE_stands ht (cInit_stands k a b) with ⟨hr, hfault, hphase⟩ | hraised
    · exact .inl ⟨hr, hphase, hfault⟩
    · exact .inr hraised
  · exact acceptE_stands hf ht (addValue_stands a b ⟨rfl, hf⟩)
  · exact acceptE_stands hf ht (close_stands ⟨rfl, hf⟩)
  · exact finishD_stands ht (dInit_stands k a b)
  · exact execReadPair_stands hf ht

end Machine
end Sys2Proof

/-! READ_PAIR as code words (20_memory.md R74, 30_encoding.md R107): decoding and running the one code word at the
cursor does what the codec's own operation does there, whole, cut off by the end of the source, or faulting. -/

namespace Sys2Proof
namespace Machine

section Upcoming
variable {p : Params} {d : EngineD} {bs cs : List Bool} {n : Nat}

/-- What the fetch looks at: `bs` stands next in the source, and where that is less than the longest code word, the
source ends behind it. -/
structure Upcoming (p : Params) (bs : List Bool) (d : EngineD) : Prop where
  ahead : Ahead p bs d
  ends : ∀ n, bs.length < n → n ≤ longestWord → ¬ d.available p n

theorem length_upcoming (p : Params) (d : EngineD) :
    (upcoming p d).length = min longestWord (d.srcLenBits p - d.rPos) := length_streamBits _ _

theorem upcoming_upcoming (h : d.rPos ≤ d.srcLenBits p) : Upcoming p (upcoming p d) d := by
  refine ⟨⟨?_, ?_⟩, fun n hlt hn havail => ?_⟩
  · rw [length_upcoming, EngineD.available]
    omega
  · rw [length_upcoming]
    rfl
  · rw [length_upcoming] at hlt
    have hend : d.rPos + n ≤ d.srcLenBits p := havail
    omega

@[simp] theorem EngineD.moved_available (k : Nat) (ses : Session) :
    (d.moved k ses).available p n ↔ d.available p (k + n) := by
  rw [EngineD.available, EngineD.available, EngineD.srcLenBits, EngineD.srcLenBits, EngineD.moved, Nat.add_assoc]

end Upcoming

/-! What the fetch makes of the upcoming bits. -/

section Fetch
variable {s : State} {sp : Space} {i : Instr} {n : Nat}

theorem runElement_ok (hsp : Space.read sp = true)
    (hd : decode (spaceNow sp s.d) (upcoming s.params s.d) = .ok (i, n)) :
    runRequest (.element sp) s = exec i s := by
  rw [runRequest, fetch, fetchElement, if_pos hsp, hd]

theorem runElement_cutTail (hsp : Space.read sp = true)
    (hd : decode (spaceNow sp s.d) (upcoming s.params s.d) = .error (.cutTail i)) :
    runRequest (.element sp) s = exec i s := by
  rw [runRequest, fetch, fetchElement, if_pos hsp, hd]

/-- A word cut off before it can be told consumes the bits that are there. -/
theorem runElement_exhausted {x : Res EngineD Returned} (hsp : Space.read sp = true)
    (hd : decode (spaceNow sp s.d) (upcoming s.params s.d) = .error (.exhausted n))
    (hx : x = .raised .sourceExhausted (s.d.moved n s.d.ses)) : runRequest (.element sp) s = aloneD x s := by
  rw [runRequest, fetch, fetchElement, if_pos hsp, hd, hx]
  rfl

end Fetch

/-! A field consumed by its length and a field read (log 22). -/

section Fields
variable {p : Params} {d : EngineD} {s : State} {sp : Space} {n : Nat} {v : W64}

theorem Res.bind_assoc {σ α β γ : Type} (r : Res σ α) (k : α → σ → Res σ β) (l : β → σ → Res σ γ) :
    (r.bind k).bind l = r.bind fun a t => (k a t).bind l := by
  cases r <;> rfl

/-- Where `v` is what the next `n` bits say, consuming them does what reading them does. -/
theorem consume_eq_readBits {α : Type} {k : W64 → EngineD → Res EngineD α} (hn : n ≤ 64)
    (hv : d.available p n → ofBits 64 (d.next p n) = v) :
    ((consume p n d).bind fun _ d1 => k v d1) = (readBits p n d).bind k := by
  rcases consume_cases (p := p) (d := d) n with ⟨hc, havail⟩ | ⟨hc, hend⟩
  · rw [hc, readBits_reads hn havail, hv havail, Res.bind_ok, Res.bind_ok]
  · rw [hc, readBits_exhausted hn hend, Res.bind_raised, Res.bind_raised]

/-- A number that fits its field is not changed by it. -/
theorem setWidth_setWidth_of_lt {n : Nat} (hv : v.toNat < 2 ^ n) (hn : n ≤ 64) : (v.setWidth n).setWidth 64 = v := by
  refine BitVec.eq_of_toNat_eq ?_
  rw [BitVec.toNat_setWidth_of_le hn, BitVec.toNat_setWidth, Nat.mod_eq_of_lt hv]

/-- A word that is one field is read, or is not there whole. -/
theorem runElement_raw {k : W64 → Instr} {body : W64 → EngineD → Res EngineD Returned} (hsp : Space.read sp = true)
    (hin : s.d.rPos ≤ s.d.srcLenBits s.params) (hn : n ≤ 64)
    (hd : ∀ bs, decode (spaceNow sp s.d) bs =
      if bs.length < n then .error (.exhausted 0) else .ok (k (ofBits 64 (bs.take n)), n))
    (hexec : ∀ v : W64, v.toNat < 2 ^ n →
      exec (k v) s = aloneD ((consume s.params n s.d).bind fun _ d1 => body v d1) s) :
    runRequest (.element sp) s = aloneD ((readBits s.params n s.d).bind body) s := by
  have hup := upcoming_upcoming hin
  have hdec := hd (upcoming s.params s.d)
  by_cases hlt : (upcoming s.params s.d).length < n
  · rw [if_pos hlt] at hdec
    have hend : ¬ s.d.available s.params n := hup.ends n hlt (Nat.le_trans hn (by decide))
    exact runElement_exhausted hsp hdec (by rw [readBits_exhausted hn hend]; rfl)
  · rw [if_neg hlt] at hdec
    have hlen : ((upcoming s.params s.d).take n).length = n := List.length_take_of_le (Nat.not_lt.1 hlt)
    have hfront := hup.ahead
    rw [← List.take_append_drop n (upcoming s.params s.d)] at hfront
    have hnext := hfront.front.bits
    rw [hlen] at hnext
    have hfits := toNat_ofBits_lt (w := 64) (bs := (upcoming s.params s.d).take n) (by omega)
    rw [hlen] at hfits
    rw [runElement_ok hsp hdec, hexec _ hfits, consume_eq_readBits hn fun _ => by rw [hnext]]

/-- A word that ends in a field of `n` bits runs with some `v` that fits it, and with what the field says where the
field is there whole. -/
theorem runElement_field {pre r : List Bool} {k : W64 → Instr} (hsp : Space.read sp = true)
    (hup : Upcoming s.params (pre ++ r) s.d) (hbits : upcoming s.params s.d = pre ++ r) (hn : n ≤ 64)
    (hmax : pre.length + n ≤ longestWord) (hd : decode (spaceNow sp s.d) (pre ++ r) = fieldAt n pre.length r k) :
    ∃ v : W64, v.toNat < 2 ^ n ∧ runRequest (.element sp) s = exec (k v) s ∧
      ∀ ses, (s.d.moved pre.length ses).available s.params n →
        ofBits 64 ((s.d.moved pre.length ses).next s.params n) = v := by
  rw [← hbits] at hd
  by_cases hlt : r.length < n
  · rw [fieldAt, if_pos hlt] at hd
    refine ⟨0#64, Nat.two_pow_pos n, runElement_cutTail hsp hd, fun ses havail => ?_⟩
    rw [EngineD.moved_available] at havail
    exact absurd havail (hup.ends _ (by rw [List.length_append]; omega) hmax)
  · rw [fieldAt_of_le k (Nat.not_lt.1 hlt)] at hd
    have hlen : (r.take n).length = n := List.length_take_of_le (Nat.not_lt.1 hlt)
    have hfits := toNat_ofBits_lt (w := 64) (bs := r.take n) (by omega)
    rw [hlen] at hfits
    refine ⟨_, hfits, runElement_ok hsp hd, fun ses _ => ?_⟩
    have hrest := hup.ahead.rest ses
    rw [← List.take_append_drop n r] at hrest
    have hnext := hrest.front.bits
    rw [hlen] at hnext
    rw [hnext]

end Fields

/-! The first sample (R98, R105). -/

section FirstSample
variable {s : State}

theorem exec_firstDeltaWord {v : W64} (hv : v.toNat < 2 ^ 27) :
    exec (firstDeltaWord v) s = aloneD (firstDeltaField s.params v s.d).asFlagged s := by
  unfold firstDeltaWord
  split
  · next hempty => rw [exec_emptyMarker, hempty]
  · rw [exec_firstDelta, setWidth_setWidth_of_lt hv (by decide)]

/-- The word at the first-delta position is TS_READ_FIRST, with the phase the end of the stream leaves (log 8). -/
theorem runElement_firstDelta (hin : s.d.rPos ≤ s.d.srcLenBits s.params) :
    runRequest (.element .firstDelta) s = aloneD ((tsReadFirst s.params s.d).bind markEnd).asFlagged s := by
  have hraw := runElement_raw (s := s) (sp := .firstDelta) (n := 27) (k := firstDeltaWord)
    (body := fun v d => ((takeFirstDelta v d).bind markEnd).asFlagged) rfl hin (by decide) (fun _ => rfl) fun v hv => ?_
  · rw [hraw, tsReadFirst, Res.bind_assoc, Res.asFlagged, Res.bind_assoc]
    rfl
  · rw [exec_firstDeltaWord hv, firstDeltaField, Res.bind_assoc, Res.asFlagged, Res.bind_assoc]
    rfl

/-- The end of a sample (R226): the phase after it. -/
def completeSample (ph : PhaseD) (v : W64) (d : EngineD) : Res EngineD W64 := .ok v { d with phase := ph }

/-- The word at the first-value position is VAL_READ_FIRST, with the phase the sample leaves (log 8). -/
theorem runElement_firstValue (hin : s.d.rPos ≤ s.d.srcLenBits s.params) :
    runRequest (.element .firstValue) s =
      aloneD ((valReadFirst s.params s.d).bind (completeSample .afterFirst)).asWord s := by
  have hraw := runElement_raw (s := s) (sp := .firstValue) (n := 64) (k := .firstValue)
    (body := fun v d => ((recordValue v d).bind (completeSample .afterFirst)).asWord) rfl hin (by decide)
    (fun _ => rfl) fun v hv => ?_
  · rw [hraw, valReadFirst, Res.bind_assoc, Res.asWord, Res.bind_assoc]
    rfl
  · rw [exec_firstValue, firstValueWord, Res.asWord, Res.bind_assoc]
    rfl

end FirstSample

/-! The timestamp code (R99, R105). -/

section Timestamp
variable {p : Params} {d : EngineD} {s : State} {r : Nat} {v : W64}

/-- The word of a class and a payload, the sentinel among the 32-bit ones. -/
def tsFieldWord (r : Nat) (v : W64) : Instr := if r = 4 then ts32Word v else classWord r v

theorem class_cases (hr0 : r ≠ 0) (hr : r ≤ 4) : r = 1 ∨ r = 2 ∨ r = 3 ∨ r = 4 := by omega

theorem exec_tsFieldWord (hr0 : r ≠ 0) (hr : r ≤ 4) (hv : v.toNat < 2 ^ tsWidth r) :
    exec (tsFieldWord r v) s = aloneD (timestampWord s.params r v s.d).asFlagged s := by
  rcases class_cases hr0 hr with rfl | rfl | rfl | rfl
  · exact (exec_ts7 s _).trans (by rw [setWidth_setWidth_of_lt (n := 7) hv (by decide)])
  · exact (exec_ts9 s _).trans (by rw [setWidth_setWidth_of_lt (n := 9) hv (by decide)])
  · exact (exec_ts12 s _).trans (by rw [setWidth_setWidth_of_lt (n := 12) hv (by decide)])
  · rw [tsFieldWord, if_pos rfl, ts32Word]
    split
    · next hsentinel => rw [exec_tsSentinel, hsentinel]
    · rw [exec_ts32, setWidth_setWidth_of_lt (n := 32) hv (by decide)]

theorem decode_tsPrefix (hr0 : r ≠ 0) (hr : r ≤ 4) (tail : List Bool) :
    decode .timestamp (tsPrefix r ++ tail) = fieldAt (tsWidth r) (tsPrefixWidth r) tail (tsFieldWord r) := by
  rcases class_cases hr0 hr with rfl | rfl | rfl | rfl <;> rfl

/-- Bits at a timestamp position tell the class, or end inside the run of ones. -/
theorem timestamp_shapes (bs : List Bool) :
    (∃ r tail, r ≤ 4 ∧ bs = tsPrefix r ++ tail) ∨ ∃ c, c < 4 ∧ bs = List.replicate c true := by
  match bs with
  | [] => exact .inr ⟨0, by decide, rfl⟩
  | false :: t => exact .inl ⟨0, t, by decide, rfl⟩
  | [true] => exact .inr ⟨1, by decide, rfl⟩
  | true :: false :: t => exact .inl ⟨1, t, by decide, rfl⟩
  | [true, true] => exact .inr ⟨2, by decide, rfl⟩
  | true :: true :: false :: t => exact .inl ⟨2, t, by decide, rfl⟩
  | [true, true, true] => exact .inr ⟨3, by decide, rfl⟩
  | true :: true :: true :: false :: t => exact .inl ⟨3, t, by decide, rfl⟩
  | true :: true :: true :: true :: t => exact .inl ⟨4, t, by decide, rfl⟩

theorem decode_ones {c : Nat} (hc : c < 4) : decode .timestamp (List.replicate c true) = .error (.exhausted c) := by
  match c, hc with
  | 0, _ => rfl
  | 1, _ => rfl
  | 2, _ => rfl
  | 3, _ => rfl

/-- Behind the run of ones, a word with the payload that stands there is what TS_DECOMPRESS does. -/
theorem timestampWord_eq_tsDecompress (hr0 : r ≠ 0) (hr : r ≤ 4) (h : Ahead p (tsPrefix r) d)
    (hv : (d.moved (tsPrefixWidth r) d.ses).available p (tsWidth r) →
      ofBits 64 ((d.moved (tsPrefixWidth r) d.ses).next p (tsWidth r)) = v) :
    timestampWord p r v d = (tsDecompress p d).bind markEnd := by
  have havail := h.available
  rw [length_tsPrefix hr] at havail
  have hrun := readRunOfOnes_tsPrefix (bs := []) hr (by rwa [List.append_nil])
  rw [tsDecompress, hrun, Res.bind_ok, if_neg hr0, ← consume_eq_readBits (k := takePayload r) (tsWidth_le r) hv,
    timestampWord, consumeEach_available havail, Res.bind_ok]
  rfl

theorem timestampZero_eq_tsDecompress (h : Ahead p (tsPrefix 0) d) :
    timestampZero p d = (tsDecompress p d).bind markEnd := by
  rw [timestampZero_advances h.available, tsDecompress_zero h]
  rfl

/-- The word at a timestamp position is TS_DECOMPRESS, with the phase the end of the stream leaves (log 8). -/
theorem runElement_timestamp (hin : s.d.rPos ≤ s.d.srcLenBits s.params) :
    runRequest (.element .timestamp) s = aloneD ((tsDecompress s.params s.d).bind markEnd).asFlagged s := by
  have hup := upcoming_upcoming hin
  rcases timestamp_shapes (upcoming s.params s.d) with ⟨r, tail, hr, hbits⟩ | ⟨c, hc, hbits⟩
  · rw [hbits] at hup
    have hprefix := hup.ahead.front
    by_cases hr0 : r = 0
    · subst hr0
      have hdec : decode .timestamp (upcoming s.params s.d) = .ok (.tsZero, 1) := by rw [hbits]; rfl
      rw [runElement_ok (sp := .timestamp) rfl hdec, exec_tsZero, timestampZero_eq_tsDecompress hprefix]
    · have hlen := length_tsPrefix hr
      have hmax : (tsPrefix r).length + tsWidth r ≤ longestWord := by
        rcases class_cases hr0 hr with rfl | rfl | rfl | rfl <;> decide
      obtain ⟨v, hlt, hexec, hv⟩ := runElement_field (sp := .timestamp) rfl hup hbits (tsWidth_le r) hmax
        ((decode_tsPrefix hr0 hr tail).trans (by rw [hlen]))
      rw [hlen] at hv
      rw [hexec, exec_tsFieldWord hr0 hr hlt, timestampWord_eq_tsDecompress hr0 hr hprefix (hv s.d.ses)]
  · rw [hbits] at hup
    have hones : Ahead s.params (List.replicate c true ++ []) s.d := by
      rw [List.append_nil]
      exact hup.ahead
    have hend : ¬ s.d.available s.params (c + 1) :=
      hup.ends _ (by rw [List.length_replicate]; omega) (Nat.le_trans hc (by decide))
    refine runElement_exhausted rfl ((congrArg _ hbits).trans (decode_ones hc)) ?_
    rw [tsDecompress, Config.tsPrefixMax, readRunOfOnes_cut hones.ones hc hend]
    rfl

end Timestamp

end Machine
end Sys2Proof

/-! The value code as code words (R101, R102, R105), and READ_PAIR as two of them (R226). -/

namespace Sys2Proof
namespace Machine

section Value
variable {p : Params} {d : EngineD} {s : State} {v : W64} {r : List Bool}

theorem sameWord_eq_valDecompress (h : Ahead p [false] d) :
    sameWord p d = (valDecompress p d).bind (completeSample .streaming) := by
  rw [sameWord_records h.available, valDecompress_same h]
  rfl

/-- Behind its control bits, a REUSE with the tail that stands there is what VAL_DECOMPRESS does. -/
theorem reuseWord_eq_valDecompress (h : Ahead p [true, false] d) (hlt : v.toNat < 2 ^ d.ses.windowWidth)
    (hv : (d.moved 2 d.ses).available p d.ses.windowWidth →
      ofBits 64 ((d.moved 2 d.ses).next p d.ses.windowWidth) = v) :
    reuseWord p v d = (valDecompress p d).bind (completeSample .streaming) := by
  have havail : d.available p 2 := h.available
  rw [(valDecompress_control h).1, if_neg Bool.false_ne_true, decompressReuse, EngineD.moved_ses]
  by_cases hwin : d.ses.storedLeadingZeros = Config.noWindow
  · rw [if_pos hwin, reuseWord_noWindow v hwin havail]
    rfl
  · rw [if_neg hwin, reuseWord, consumeEach_available havail, Res.bind_ok, if_neg hwin,
      lowBits_of_lt (windowWidth_le _) hlt, ← consume_eq_readBits (windowWidth_le _) hv, Res.bind_assoc]
    rfl

/-- Behind its counts, a NEW with the tail that stands there is what VAL_DECOMPRESS does. -/
theorem newWord_eq_valDecompress {leading lengthM1 : BitVec 6} (h : Ahead p (newPrefix leading lengthM1) d)
    (hv : leading.toNat + lengthM1.toNat + 1 ≤ 64 → v.toNat < 2 ^ (lengthM1.toNat + 1) ∧
      ∀ ses, (d.moved 14 ses).available p (lengthM1.toNat + 1) →
        ofBits 64 ((d.moved 14 ses).next p (lengthM1.toNat + 1)) = v) :
    newWord p leading.toNat lengthM1.toNat v d = (valDecompress p d).bind (completeSample .streaming) := by
  have hnum (x : BitVec 6) : (x.setWidth 64).toNat = x.toNat := BitVec.toNat_setWidth_of_le (by decide)
  obtain ⟨heq, h2⟩ := valDecompress_control h
  obtain ⟨hl, h8⟩ := readBits_count h2
  have h8' := h8 d.ses
  rw [← List.append_nil (bitsOf lengthM1 6)] at h8'
  obtain ⟨hm, -⟩ := readBits_count h8'
  have havail : d.available p 14 := length_newPrefix ▸ h.available
  rw [heq, if_pos rfl, decompressNew, Config.leadingFieldBits, hl, Res.bind_ok, Config.lengthFieldBits, hm, Res.bind_ok,
    newWord_available v havail]
  dsimp only
  rw [hnum, hnum]
  by_cases hfit : 64 < leading.toNat + (lengthM1.toNat + 1)
  · rw [if_pos hfit, if_pos hfit]
    rfl
  · obtain ⟨hlt, htail⟩ := hv (by omega)
    rw [if_neg hfit, if_neg hfit, lowBits_of_lt (by omega) hlt]
    change _ = ((readBits p _ (d.moved 14 (d.ses.withWindow _ _))).bind _).bind _
    rw [← consume_eq_readBits (by omega) (htail _), Res.bind_assoc]
    rfl

/-! Cut off before the word can be told. -/

theorem valDecompress_cut_one (h : Ahead p [true] d) (hend : ¬ d.available p 2) :
    valDecompress p d = .raised .sourceExhausted (d.moved 1 d.ses) := by
  have hb : readBit p d = .ok true (d.moved 1 d.ses) := (readBit_ahead (k := 0) (ses := d.ses) h).1
  have hshort : ¬ (d.moved 1 d.ses).available p 1 := by rwa [EngineD.moved_available]
  rw [valDecompress, hb, Res.bind_ok, if_pos rfl, readBit_exhausted hshort]
  rfl

theorem valDecompress_cut_leading (h : Ahead p (true :: true :: r) d) (hend : ¬ d.available p 8) :
    valDecompress p d = .raised .sourceExhausted (d.moved 2 d.ses) := by
  have hshort : ¬ (d.moved 2 d.ses).available p 6 := by rwa [EngineD.moved_available]
  rw [(valDecompress_control h).1, if_pos rfl, decompressNew, Config.leadingFieldBits,
    readBits_exhausted (by decide) hshort]
  rfl

theorem valDecompress_cut_length {leading : BitVec 6} (h : Ahead p (true :: true :: (bitsOf leading 6 ++ r)) d)
    (hend : ¬ d.available p 14) : valDecompress p d = .raised .sourceExhausted (d.moved 8 d.ses) := by
  obtain ⟨heq, h2⟩ := valDecompress_control h
  have hshort : ¬ (d.moved 8 d.ses).available p 6 := by rwa [EngineD.moved_available]
  rw [heq, if_pos rfl, decompressNew, Config.leadingFieldBits, (readBits_count h2).1, Res.bind_ok,
    Config.lengthFieldBits, readBits_exhausted (by decide) hshort]
  rfl

theorem exists_bitsOf_append {n : Nat} (h : n ≤ r.length) :
    ∃ (x : BitVec n) (tail : List Bool), r = bitsOf x n ++ tail := by
  have hlen : (r.take n).length = n := List.length_take_of_le h
  have hbits := bitsOf_ofBits (w := n) (bs := r.take n) hlen.le
  rw [hlen] at hbits
  exact ⟨ofBits n (r.take n), r.drop n, by rw [hbits, List.take_append_drop]⟩

/-- A NEW word whose counts are there. -/
theorem runElement_newPrefix {leading lengthM1 : BitVec 6} {tail : List Bool}
    (hup : Upcoming s.params (newPrefix leading lengthM1 ++ tail) s.d)
    (hbits : upcoming s.params s.d = newPrefix leading lengthM1 ++ tail) :
    runRequest (.element (.value 0)) s =
      aloneD ((valDecompress s.params s.d).bind (completeSample .streaming)).asWord s := by
  have hpre := length_newPrefix (leading := leading) (lengthM1 := lengthM1)
  have hdec : decode (.value s.d.ses.windowWidth) (upcoming s.params s.d) = _ :=
    (congrArg _ hbits).trans decode_newPrefix
  by_cases hfit : 64 < leading.toNat + lengthM1.toNat + 1
  · rw [if_pos hfit] at hdec
    rw [runElement_ok (sp := .value 0) rfl hdec, exec_valNew,
      newWord_eq_valDecompress hup.ahead.front fun h => absurd hfit (Nat.not_lt.2 h)]
  · rw [if_neg hfit, hbits, ← hpre] at hdec
    have hm := lengthM1.isLt
    obtain ⟨v, hlt, hexec, hv⟩ := runElement_field (sp := .value 0) rfl hup hbits (by omega)
      (by rw [hpre, longestWord]; omega) hdec
    rw [hpre] at hv
    rw [hexec, exec_valNew, newWord_eq_valDecompress hup.ahead.front fun _ => ⟨hlt, hv⟩]

/-- Bits that begin like a NEW word: cut off in the first count or in the second, or with both counts there. -/
theorem runElement_new (hup : Upcoming s.params (true :: true :: r) s.d)
    (hbits : upcoming s.params s.d = true :: true :: r) :
    runRequest (.element (.value 0)) s =
      aloneD ((valDecompress s.params s.d).bind (completeSample .streaming)).asWord s := by
  have hdec : decode (.value s.d.ses.windowWidth) (upcoming s.params s.d) = decodeNew r := by rw [hbits]; rfl
  by_cases h6 : r.length < 6
  · have hend : ¬ s.d.available s.params 8 := hup.ends 8 (by simp only [List.length_cons]; omega) (by decide)
    refine runElement_exhausted (n := 2) rfl (hdec.trans (if_pos h6)) ?_
    rw [valDecompress_cut_leading hup.ahead hend]
    rfl
  obtain ⟨leading, r1, rfl⟩ := exists_bitsOf_append (Nat.not_lt.1 h6)
  have hlen : (bitsOf leading 6 ++ r1).length = 6 + r1.length := by rw [List.length_append, length_bitsOf]
  by_cases h12 : r1.length < 6
  · have hend : ¬ s.d.available s.params 14 :=
      hup.ends 14 (by rw [List.length_cons, List.length_cons, hlen]; omega) (by decide)
    refine runElement_exhausted (n := 8) rfl (hdec.trans ((if_neg h6).trans (if_pos (by omega)))) ?_
    rw [valDecompress_cut_length hup.ahead hend]
    rfl
  obtain ⟨lengthM1, tail, rfl⟩ := exists_bitsOf_append (Nat.not_lt.1 h12)
  have hsplit :
      true :: true :: (bitsOf leading 6 ++ (bitsOf lengthM1 6 ++ tail)) = newPrefix leading lengthM1 ++ tail := by
    rw [newPrefix, List.cons_append, List.cons_append, List.append_assoc]
  rw [hsplit] at hup hbits
  exact runElement_newPrefix hup hbits

/-- The word at a value position is VAL_DECOMPRESS, with the phase the sample leaves (log 8). -/
theorem runElement_value (hin : s.d.rPos ≤ s.d.srcLenBits s.params) :
    runRequest (.element (.value 0)) s =
      aloneD ((valDecompress s.params s.d).bind (completeSample .streaming)).asWord s := by
  have hup := upcoming_upcoming hin
  match hbits : upcoming s.params s.d with
  | [] =>
    rw [hbits] at hup
    have hend : ¬ s.d.available s.params 1 := hup.ends 1 (by decide) (by decide)
    refine runElement_exhausted (n := 0) rfl (by rw [hbits]; rfl) ?_
    rw [valDecompress, readBit_exhausted hend]
    rfl
  | false :: t =>
    rw [hbits] at hup
    have hsame : Ahead s.params [false] s.d := Ahead.front (bs := [false]) (cs := t) hup.ahead
    rw [runElement_ok (sp := .value 0) (i := .valSame) (n := 1) rfl (by rw [hbits]; rfl), exec_valSame,
      sameWord_eq_valDecompress hsame]
  | [true] =>
    rw [hbits] at hup
    refine runElement_exhausted (n := 1) rfl (by rw [hbits]; rfl) ?_
    rw [valDecompress_cut_one hup.ahead (hup.ends 2 (by decide) (by decide))]
    rfl
  | true :: false :: t =>
    rw [hbits] at hup
    have hwidth := windowWidth_le s.d.ses
    have hreuse : Ahead s.params [true, false] s.d := Ahead.front (bs := [true, false]) (cs := t) hup.ahead
    obtain ⟨v, hlt, hexec, hv⟩ := runElement_field (sp := .value 0) (pre := [true, false]) (r := t)
      (k := .valReuse s.d.ses.windowWidth) rfl hup hbits hwidth
      (by rw [longestWord, List.length_cons, List.length_singleton]; omega) rfl
    rw [hexec, exec_valReuse, reuseWord_eq_valDecompress hreuse hlt (hv s.d.ses)]
  | true :: true :: t =>
    rw [hbits] at hup
    exact runElement_new hup hbits

end Value

/-! READ_PAIR: one word, and unless that is the end of the stream or a fault, another. -/

section Pair
variable {s : State} {r : Res EngineD (Bool × W64)} {val : EngineD → Res EngineD W64} {next : PhaseD} {sp1 sp2 : Space}

/-- What O54 says of READ_PAIR for the two positions `sp1` and `sp2`. -/
def RunsTheWords (sp1 sp2 : Space) (s : State) : Prop :=
  ∃ t1, runRequest (.element sp1) s = .next t1 ∧
    if t1.d.fault ≠ .none then
      exec .readPair s = .next (({ s with d := t1.d } : State).answer .D (plainResponse .fault t1.d.fault))
    else if t1.d.phase = .exhausted then
      exec .readPair s = .next (({ s with d := t1.d } : State).answer .D absentResponse)
    else
      ∃ t2, runRequest (.element sp2) t1 = .next t2 ∧
        if t2.d.fault ≠ .none then
          exec .readPair s = .next (({ s with d := t2.d } : State).answer .D (plainResponse .fault t2.d.fault))
        else
          ∃ ts v, t1.ret = .flagged false ts ∧ t2.ret = .word v ∧
            exec .readPair s = .next (({ s with d := t2.d } : State).answer .D (pairOk ts v))

variable {t1 t2 : State}

theorem runsTheWords_of_fault (h1 : runRequest (.element sp1) s = .next t1) (hf : t1.d.fault ≠ .none)
    (hexec : exec .readPair s = .next (({ s with d := t1.d } : State).answer .D (plainResponse .fault t1.d.fault))) :
    RunsTheWords sp1 sp2 s := ⟨t1, h1, by rwa [if_pos hf]⟩

theorem runsTheWords_of_end (h1 : runRequest (.element sp1) s = .next t1) (hf : t1.d.fault = .none)
    (hp : t1.d.phase = .exhausted)
    (hexec : exec .readPair s = .next (({ s with d := t1.d } : State).answer .D absentResponse)) :
    RunsTheWords sp1 sp2 s := ⟨t1, h1, by rwa [if_neg (not_not_intro hf), if_pos hp]⟩

theorem runsTheWords_of_value_fault (h1 : runRequest (.element sp1) s = .next t1) (hf : t1.d.fault = .none)
    (hp : t1.d.phase ≠ .exhausted) (h2 : runRequest (.element sp2) t1 = .next t2) (hf2 : t2.d.fault ≠ .none)
    (hexec : exec .readPair s = .next (({ s with d := t2.d } : State).answer .D (plainResponse .fault t2.d.fault))) :
    RunsTheWords sp1 sp2 s := by
  refine ⟨t1, h1, ?_⟩
  rw [if_neg (not_not_intro hf), if_neg hp]
  exact ⟨t2, h2, by rwa [if_pos hf2]⟩

theorem runsTheWords_of_pair {ts v : W64} (h1 : runRequest (.element sp1) s = .next t1) (hf : t1.d.fault = .none)
    (hp : t1.d.phase ≠ .exhausted) (h2 : runRequest (.element sp2) t1 = .next t2) (hf2 : t2.d.fault = .none)
    (hret1 : t1.ret = .flagged false ts) (hret2 : t2.ret = .word v)
    (hexec : exec .readPair s = .next (({ s with d := t2.d } : State).answer .D (pairOk ts v))) :
    RunsTheWords sp1 sp2 s := by
  refine ⟨t1, h1, ?_⟩
  rw [if_neg (not_not_intro hf), if_neg hp]
  refine ⟨t2, h2, ?_⟩
  rw [if_neg (not_not_intro hf2)]
  exact ⟨ts, v, hret1, hret2, hexec⟩

/-- Where the word at each position does what the operation `r` or `val` does, READ_PAIR is the two words. -/
theorem runsTheWords (hf : s.d.fault = .none) (hl : s.d.phase.live = true)
    (hread : readPair s.params s.d = readSample r val next)
    (hr : r.StandsD s.d.phase .none) (hon : r.ReadsOn s.params s.d)
    (hval : ∀ d, d.Stands s.d.phase .none → (val d).StandsD s.d.phase .none)
    (h1 : runRequest (.element sp1) s = aloneD (r.bind markEnd).asFlagged s)
    (h2 : ∀ t : State, t.params = s.params → t.d.rPos ≤ t.d.srcLenBits s.params →
      runRequest (.element sp2) t = aloneD ((val t.d).bind (completeSample next)).asWord t)
    (hin : s.d.rPos ≤ s.d.srcLenBits s.params) : RunsTheWords sp1 sp2 s := by
  have hexec := exec_readPair_readable hf ((phaseD_readable_iff _).2 (.inr hl))
  rw [hread] at hexec
  cases r with
  | raised f d1 => exact runsTheWords_of_fault h1 hr.1 hexec
  | ok x d1 =>
    obtain ⟨flag, ts⟩ := x
    cases flag with
    | true => exact runsTheWords_of_end h1 hr.fault rfl (hexec.trans (finishRead_absent rfl hr.fault))
    | false =>
      have hlive : d1.phase ≠ .exhausted := fun h0 => absurd hl (by rw [← hr.phase, h0]; decide)
      have hsecond := h2 { s with d := d1, ret := .flagged false ts } rfl (hon.rPos_le hin)
      have hv := hval d1 hr
      cases hvalue : val d1 with
      | raised f d2 =>
        rw [hvalue] at hv hsecond
        exact runsTheWords_of_value_fault h1 hr.fault hlive hsecond hv.1
          (hexec.trans (finishRead_raised (readSample_value_raised rfl hvalue)))
      | ok v d2 =>
        rw [hvalue] at hv hsecond
        exact runsTheWords_of_pair h1 hr.fault hlive hsecond hv.fault rfl rfl
          (hexec.trans (finishRead_pair (readSample_pair rfl hvalue) hv.fault))

end Pair

/-- Settles O54: at each position the word does what the codec's operation does (`runElement_firstDelta`,
`runElement_firstValue`, `runElement_timestamp`, `runElement_value`), and READ_PAIR is two of these operations. -/
theorem readPairRunsTheCodeWords : Obligations.ReadPairRunsTheCodeWords := by
  intro s hf hl hin first
  by_cases hp : s.d.phase = .ready
  · simp only [first, hp, if_true]
    exact runsTheWords hf hl (readPair_first hp) (tsReadFirst_standsD ⟨rfl, hf⟩) (tsReadFirst_readsOn .refl)
      (fun _ => valReadFirst_standsD) (runElement_firstDelta hin)
      (fun t ht hint => ht ▸ runElement_firstValue (ht ▸ hint)) hin
  · have hlater : s.d.phase = .afterFirst ∨ s.d.phase = .streaming :=
      ((phaseD_live_iff _).1 hl).resolve_left hp
    simp only [first, hp, if_false]
    exact runsTheWords hf hl (readPair_later hlater) (tsDecompress_standsD ⟨rfl, hf⟩) (tsDecompress_readsOn .refl)
      (fun _ => valDecompress_standsD) (runElement_timestamp hin)
      (fun t ht hint => ht ▸ runElement_value (ht ▸ hint)) hin

end Machine
end Sys2Proof

/-! What answers a command besides its own pseudocode (60_exceptions.md R259 to R261): the refusals, the range faults of
ADD_VALUE that come before any bit, and fault code and status of every answer. -/

namespace Sys2Proof
namespace Machine

section Refusals
variable {s : State}

/-- R221 line 3: the fault register is looked at first. -/
theorem acceptE_faulted {body : EngineE → Res EngineE Unit} (hf : s.e.fault ≠ .none) :
    acceptE body s = .next (s.refuse .E .refusedFaulted) := if_pos hf

/-- R221 line 4: the phase is looked at second. -/
theorem acceptE_wrongPhase {body : EngineE → Res EngineE Unit} (hf : s.e.fault = .none) (hl : s.e.phase.live = false) :
    acceptE body s = .next (s.refuse .E .refusedPhase) := by
  rw [acceptE, if_neg (not_not_intro hf), if_pos hl]

theorem acceptRead_faulted {body : EngineD → Res EngineD (Option (W64 × W64))} (hf : s.d.fault ≠ .none) :
    acceptRead body s = .next (s.refuse .D .refusedFaulted) := if_pos hf

theorem acceptRead_wrongPhase {body : EngineD → Res EngineD (Option (W64 × W64))} (hf : s.d.fault = .none)
    (hr : s.d.phase.readable = false) : acceptRead body s = .next (s.refuse .D .refusedPhase) := by
  rw [acceptRead, if_neg (not_not_intro hf), if_pos hr]

/-- A refusal with no fault in the register answers code 0. -/
theorem refuse_E_of_no_fault (hf : s.e.fault = .none) (st : Status) :
    s.refuse .E st = s.answer .E (plainResponse st .none) := by
  rw [State.refuse, State.faultOf_E, hf]

theorem refuse_D_of_no_fault (hf : s.d.fault = .none) (st : Status) :
    s.refuse .D st = s.answer .D (plainResponse st .none) := by
  rw [State.refuse, State.faultOf_D, hf]

/-- The commands of engine E that need a session run in one frame. -/
theorem exec_eq_acceptE {i : Instr} (h : i = .close ∨ ∃ ts v, i = .addValue ts v) (s : State) :
    ∃ body, exec i s = acceptE body s := by
  rcases h with rfl | ⟨ts, v, rfl⟩
  · exact ⟨_, rfl⟩
  · exact ⟨_, rfl⟩

theorem exec_readPair (s : State) : exec .readPair s = acceptRead (readPair s.params) s := rfl

end Refusals

/-- Settles O56: the frame tests the fault register, then the phase, and a refusal is an answer only. -/
theorem refusalsChangeNothing : Obligations.RefusalsChangeNothing := by
  refine fun s => ⟨fun i hi => ?_, fun hf => acceptRead_faulted hf, fun hf hp => ?_⟩
  · obtain ⟨body, hrun⟩ := exec_eq_acceptE hi s
    rw [hrun]
    refine ⟨fun hf => acceptE_faulted hf, fun hf hp => ?_⟩
    rw [acceptE_wrongPhase hf ((phaseE_not_live_iff _).2 hp), refuse_E_of_no_fault hf]
    rfl
  · rw [exec_readPair, acceptRead_wrongPhase hf ((phaseD_not_readable_iff _).2 hp), refuse_D_of_no_fault hf]
    rfl

/-- A timestamp half that raises is all of ADD_VALUE (R223). -/
theorem addValue_first_raised {p : Params} {e e1 : EngineE} {f : FaultCode} {ts v : W64} (hp : e.phase = .ready)
    (h : tsWriteFirst p ts e = .raised f e1) : addValue p ts v e = .raised f e1 := by
  rw [addValue_first hp, h, Res.bind_raised]

theorem addValue_later_raised {p : Params} {e e1 : EngineE} {f : FaultCode} {ts v : W64} (hp : e.phase ≠ .ready)
    (h : tsCompress p ts e = .raised f e1) : addValue p ts v e = .raised f e1 := by
  rw [addValue_later hp, h, Res.bind_raised]

/-- Settles O48: the range is tested before any bit is written (`tsWriteFirst_outOfRange`, `tsCompress_outOfRange`). -/
theorem rangeFaultsWriteNothing : Obligations.RangeFaultsWriteNothing := by
  refine fun s ts v hf => ⟨fun hp hr => ?_, fun hp hr => ?_⟩
  · have hraise := tsWriteFirst_outOfRange (p := s.params) (mt firstDeltaInRange_iff.1 hr)
    rw [exec_addValue_live hf (by rw [hp]; rfl)]
    exact finishE_raised (addValue_first_raised hp hraise)
  · obtain ⟨hl, hne⟩ := phaseE_live_of_later hp
    have hraise := tsCompress_outOfRange (p := s.params) (mt dodInRange_iff.1 hr)
    rw [exec_addValue_live hf hl]
    exact finishE_raised (addValue_later_raised hne hraise)

/-! Fault code and status (R94, R261). -/

section Answers
variable {s t : State} {i : Instr} {r : Option Response} {f : FaultCode} {st : Status}

/-- What R261 says of a status and the fault register it is answered with. -/
structure StatusFits (st : Status) (f : FaultCode) : Prop where
  faulted : st = .fault → f ≠ .none
  clean : st = .ok ∨ st = .absent → f = .none

/-- The port holds an answer without a pair, with the fault register `f` and a status that fits it. -/
def AnsweredPlain (r : Option Response) (f : FaultCode) : Prop := ∃ st, r = some (plainResponse st f) ∧ StatusFits st f

theorem AnsweredPlain.of_ok (hr : r = some okResponse) (hf : f = .none) : AnsweredPlain r f :=
  ⟨.ok, by rw [hr, hf]; rfl, nofun, fun _ => hf⟩

theorem AnsweredPlain.of_absent (hr : r = some absentResponse) (hf : f = .none) : AnsweredPlain r f :=
  ⟨.absent, by rw [hr, hf]; rfl, nofun, fun _ => hf⟩

theorem AnsweredPlain.of_fault (hr : r = some (plainResponse .fault f)) (hf : f ≠ .none) : AnsweredPlain r f :=
  ⟨.fault, hr, fun _ => hf, by simp⟩

theorem answeredPlain_refusedFaulted (f : FaultCode) : AnsweredPlain (some (plainResponse .refusedFaulted f)) f :=
  ⟨_, rfl, nofun, by simp⟩

theorem answeredPlain_refusedPhase (f : FaultCode) : AnsweredPlain (some (plainResponse .refusedPhase f)) f :=
  ⟨_, rfl, nofun, by simp⟩

/-- However ADD_VALUE and CLOSE end, no pair is answered (R94, R227). -/
theorem acceptE_answers {body : EngineE → Res EngineE Unit} {next : PhaseE} (ht : acceptE body s = .next t)
    (hr : s.e.fault = .none →
      (body s.e).Ends (EngineE.Stands next .none) fun f e => f ≠ .none ∧ e.Stands s.e.phase .none) :
    AnsweredPlain t.respE t.e.fault := by
  rcases acceptE_cases ht with ⟨-, rfl⟩ | ⟨-, -, rfl⟩ | ⟨hf, -, hfin⟩
  · exact answeredPlain_refusedFaulted _
  · exact answeredPlain_refusedPhase _
  · rcases finishE_stands hfin (hr hf) with ⟨hok, hnone, -⟩ | ⟨hfault, -, hne⟩
    · exact .of_ok hok hnone
    · exact .of_fault hfault hne

theorem exec_port_E_answers (hi : i.port = some .E) (ht : exec i s = .next t) : AnsweredPlain t.respE t.e.fault := by
  rcases port_E_cases hi with ⟨k, b, n, rfl⟩ | ⟨ts, v, rfl⟩ | rfl
  · rcases finishE_stands ht (cInit_stands k b n) with ⟨hok, hnone, -⟩ | ⟨hfault, -, hne⟩
    · exact .of_ok hok hnone
    · exact .of_fault hfault hne
  · exact acceptE_answers ht fun hf => addValue_stands ts v ⟨rfl, hf⟩
  · exact acceptE_answers ht fun hf => close_stands ⟨rfl, hf⟩

/-- Only READ_PAIR answers a pair, and only where it ends `OK`. -/
theorem exec_port_D_answers (hi : i.port = some .D) (ht : exec i s = .next t) :
    AnsweredPlain t.respD t.d.fault ∨ ∃ ts v, t.respD = some (pairOk ts v) ∧ t.d.fault = .none := by
  rcases port_D_cases hi with ⟨k, len, n, rfl⟩ | rfl
  · rcases finishD_stands ht (dInit_stands k len n) with ⟨hok, -, hnone⟩ | ⟨hfault, -, hne⟩
    · exact .inl (.of_ok hok hnone)
    · exact .inl (.of_fault hfault hne)
  · by_cases hf : s.d.fault = .none
    · have hends := execReadPair_stands hf ht
      split at hends
      · subst hends
        exact .inl (answeredPlain_refusedPhase _)
      · rcases hends with ⟨ts, v, hpair, hnone, -, -⟩ | ⟨habsent, hnone, -⟩ | ⟨hfault, -, hne⟩
        · exact .inr ⟨ts, v, hpair, hnone⟩
        · exact .inl (.of_absent habsent hnone)
        · exact .inl (.of_fault hfault hne)
    · cases (acceptRead_faulted hf).symm.trans ht
      exact .inl (answeredPlain_refusedFaulted _)

end Answers

/-- Settles O57: the answer carries the fault register with the status that fits it (`exec_port_E_answers`,
`exec_port_D_answers`), and a command is a function of its own engine (`exec_port_E_frame`, `exec_port_D_frame`). -/
theorem faultEntryAndAnswer : Obligations.FaultEntryAndAnswer := by
  intro s t i x hi ht
  cases x with
  | E =>
    obtain ⟨st, hr, hfits⟩ := exec_port_E_answers hi ht
    obtain ⟨_, hframe⟩ := exec_port_E_frame hi ht
    have hrest : t.params = s.params ∧ t.ret = s.ret ∧ t.input = s.input ∧ t.d = s.d ∧ t.respD = s.respD := by
      rw [hframe]
      exact ⟨rfl, rfl, rfl, rfl, rfl⟩
    exact ⟨_, hr, rfl, hfits.faulted, hfits.clean, fun _ => ⟨rfl, rfl⟩, hrest⟩
  | D =>
    obtain ⟨_, hframe⟩ := exec_port_D_frame hi ht
    have hrest : t.params = s.params ∧ t.ret = s.ret ∧ t.input = s.input ∧ t.e = s.e ∧ t.respE = s.respE := by
      rw [hframe]
      exact ⟨rfl, rfl, rfl, rfl, rfl⟩
    rcases exec_port_D_answers hi ht with ⟨st, hr, hfits⟩ | ⟨ts, v, hr, hf⟩
    · exact ⟨_, hr, rfl, hfits.faulted, hfits.clean, fun _ => ⟨rfl, rfl⟩, hrest⟩
    · exact ⟨_, hr, hf.symm, nofun, fun _ => rfl, by simp [pairOk], hrest⟩

end Machine
end Sys2Proof

/-! Every frame answers a next state (60_exceptions.md R261): a raise is entered as a fault, never a stop of the model. -/

namespace Sys2Proof
namespace Machine

section Total
variable (s : State)

/-- The outcome is a next state. -/
def AnswersNext (r : Result) : Prop := ∃ t, r = .next t

theorem answersNext_finishE (r : Res EngineE Unit) : AnswersNext (finishE r s) := by
  cases r <;> exact ⟨_, rfl⟩

theorem answersNext_finishD (r : Res EngineD Unit) : AnswersNext (finishD r s) := by
  cases r <;> exact ⟨_, rfl⟩

theorem answersNext_finishRead (r : Res EngineD (Option (W64 × W64))) : AnswersNext (finishRead r s) := by
  cases r <;> exact ⟨_, rfl⟩

theorem answersNext_aloneE (r : Res EngineE Returned) : AnswersNext (aloneE r s) := by
  cases r <;> exact ⟨_, rfl⟩

theorem answersNext_aloneD (r : Res EngineD Returned) : AnswersNext (aloneD r s) := by
  cases r <;> exact ⟨_, rfl⟩

theorem answersNext_alonePred (x : Engine) (op : Pred → Res Pred Returned) : AnswersNext (alonePred x op s) := by
  cases x
  · exact answersNext_aloneE s _
  · exact answersNext_aloneD s _

theorem answersNext_acceptE (body : EngineE → Res EngineE Unit) : AnswersNext (acceptE body s) := by
  unfold acceptE
  split_ifs
  · exact ⟨_, rfl⟩
  · exact ⟨_, rfl⟩
  · exact answersNext_finishE s _

theorem answersNext_acceptRead (body : EngineD → Res EngineD (Option (W64 × W64))) : AnswersNext (acceptRead body s) := by
  unfold acceptRead
  split_ifs
  · exact ⟨_, rfl⟩
  · exact ⟨_, rfl⟩
  · exact answersNext_finishRead s _

end Total

/-- Settles O9: every instruction runs in one of the frames, and FLUSH is the only one that tests something before
(`exec_flush`). -/
theorem everyInstructionAnswersNext : Obligations.EveryInstructionAnswersNext := by
  intro i s hs
  cases i with
  | cInit k b n => exact answersNext_finishE s _
  | addValue ts v => exact answersNext_acceptE s _
  | close => exact answersNext_acceptE s _
  | dInit k len n => exact answersNext_finishD s _
  | readPair => exact answersNext_acceptRead s _
  | predInit x k n => exact answersNext_alonePred s x fun q => (predInit s.params k n q).silent
  | predUpdate x v => exact answersNext_alonePred s x fun q => .ok .nothing (predUpdate v q)
  | predPredict x => exact answersNext_alonePred s x fun q => .ok (.word (predPredict q)) q
  | flush =>
    rw [exec_flush s (hs rfl)]
    exact answersNext_aloneE s _
  -- engine E's other micro-operations, and the words it writes alone
  | writeBit b => exact answersNext_aloneE s _
  | skipBit => exact answersNext_aloneE s _
  | writeBits v n => exact answersNext_aloneE s _
  | valWriteFirst v => exact answersNext_aloneE s _
  | valCompress v => exact answersNext_aloneE s _
  | tsWriteFirst ts => exact answersNext_aloneE s _
  | tsCompress ts => exact answersNext_aloneE s _
  | terminator => exact answersNext_aloneE s _
  | padding k => exact answersNext_aloneE s _
  -- engine D's micro-operations and code words
  | _ => exact answersNext_aloneD s _

end Machine
end Sys2Proof

/-! Out of room (60_exceptions.md R252, 20_memory.md R66): a code word is a sequence of fields, each written whole or not
at all, so an encoder that runs out of room leaves exactly the fields before the first one that does not fit. -/

namespace Sys2Proof
namespace Machine

section Fields
variable {p : Params} {e e1 e2 : EngineE} {ws : List Nat} {f bs : List Bool} {n : Nat} {v : W64} {α : Type}

/-- Engine E can take a bit string: its accumulator is not full, and its stream fits the sink. -/
structure SinkReady (p : Params) (e : EngineE) : Prop where
  accOpen : e.accOpen p
  room : e.room p 0

theorem Appended.room_iff (h : Appended p f e e1) : e1.room p n ↔ e.room p (f.length + n) := by
  rw [EngineE.room, h.wPos, Nat.add_assoc]

theorem Appended.sinkReady (h : Appended p f e e1) (hr : e.room p f.length) : SinkReady p e1 :=
  ⟨h.accOpen, h.room_iff.2 hr⟩

/-- `KeptFields` for fields of the widths `ws` with the bits `bs`. -/
def KeptOf (p : Params) (ws : List Nat) (bs : List Bool) (e e1 : EngineE) : Prop :=
  ∃ j, CutAfter (fun n => e.room p n) ws j ∧ Appended p (bs.take (ws.take j).sum) e e1

theorem keptFields_iff {w : Instr} :
    KeptFields p w e e1 ↔ KeptOf p (writeWidths w) (encodeStream w) e e1 := Iff.rfl

/-- The first field does not fit. -/
theorem KeptOf.first (h : SinkReady p e) (hn : ¬ e.room p n) : KeptOf p (n :: ws) bs e e :=
  ⟨0, ⟨Nat.succ_pos _, h.room, by simpa using hn⟩, Appended.refl h.accOpen⟩

/-- The first field fits and is written. -/
theorem KeptOf.cons (ho : e.accOpen p) (ha : Appended p f e e1) (h : KeptOf p ws bs e1 e2) :
    KeptOf p (f.length :: ws) (f ++ bs) e e2 := by
  obtain ⟨j, ⟨hj, hfits, hfull⟩, ha2⟩ := h
  refine ⟨j + 1, ⟨Nat.succ_lt_succ hj, ?_, ?_⟩, ?_⟩
  · exact ha.room_iff.1 hfits
  · exact mt ha.room_iff.2 hfull
  · rw [List.take_succ_cons, List.sum_cons, List.take_length_add_append]
    exact ha.trans ho ha2

/-- `r` writes the field `f` whole, or raises for want of room for it and writes none of it (R66). -/
def WritesWhole (p : Params) (f : List Bool) (e : EngineE) (r : Res EngineE Unit) : Prop :=
  (∃ e1, r = .ok () e1 ∧ Appended p f e e1 ∧ e.room p f.length) ∨ (r = .raised .capacity e ∧ ¬ e.room p f.length)

theorem writeBit_writesWhole (b : Bool) (ho : e.accOpen p) : WritesWhole p [b] e (writeBit p b e) := by
  by_cases hr : e.room p 1
  · obtain ⟨e1, hw, ha⟩ := writeBit_appends b ho hr
    exact .inl ⟨e1, hw, ha, hr⟩
  · exact .inr ⟨writeBit_full b hr, hr⟩

theorem writeBits_writesWhole (v : W64) (hn : n ≤ 64) (ho : e.accOpen p) :
    WritesWhole p (bitsOf v n) e (writeBits p v n e) := by
  rw [WritesWhole, length_bitsOf]
  rcases writeBits_cases v n ho with ⟨e1, hw, ha, -, hr⟩ | ⟨hw, -, hr⟩ | ⟨-, hwide⟩
  · exact .inl ⟨e1, hw, ha, hr⟩
  · exact .inr ⟨hw, hr⟩
  · omega

/-- `r` ends normally only where the fields of the widths `ws` all fit; else it raises `CAPACITY` and leaves those
written that do, of the bits `bs`. -/
abbrev Res.WritesFields (r : Res EngineE α) (p : Params) (ws : List Nat) (bs : List Bool) (e : EngineE) : Prop :=
  r.Ends (fun _ => e.room p ws.sum) fun f e1 => f = .capacity ∧ KeptOf p ws bs e e1

/-- One field, then the rest of the word. -/
theorem WritesWhole.bind {r : Res EngineE Unit} {k : Unit → EngineE → Res EngineE α} (h : WritesWhole p f e r)
    (hs : SinkReady p e)
    (hk : ∀ e1, SinkReady p e1 → e1.ses = e.ses → (k () e1).WritesFields p ws bs e1) :
    (r.bind k).WritesFields p (f.length :: ws) (f ++ bs) e := by
  rcases h with ⟨e1, rfl, ha, hr⟩ | ⟨rfl, hr⟩
  · exact (hk e1 (ha.sinkReady hr) ha.ses).mono (fun _ hfits => ha.room_iff.1 hfits)
      fun _ _ hraised => ⟨hraised.1, hraised.2.cons hs.accOpen ha⟩
  · exact ⟨rfl, .first hs hr⟩

/-- The last field of a word. -/
theorem WritesWhole.last {r : Res EngineE Unit} (h : WritesWhole p f e r) (hs : SinkReady p e) :
    r.WritesFields p [f.length] f e := by
  rcases h with ⟨e1, rfl, -, hr⟩ | ⟨rfl, hr⟩
  · exact hr
  · exact ⟨rfl, .first hs hr⟩

theorem writeBit_bind_fields {k : Unit → EngineE → Res EngineE α} (b : Bool) (hs : SinkReady p e)
    (hk : ∀ e1, SinkReady p e1 → e1.ses = e.ses → (k () e1).WritesFields p ws bs e1) :
    ((writeBit p b e).bind k).WritesFields p (1 :: ws) (b :: bs) e :=
  (writeBit_writesWhole b hs.accOpen).bind hs hk

theorem writeBits_bind_fields {k : Unit → EngineE → Res EngineE α} (v : W64) (hn : n ≤ 64) (hs : SinkReady p e)
    (hk : ∀ e1, SinkReady p e1 → e1.ses = e.ses → (k () e1).WritesFields p ws bs e1) :
    ((writeBits p v n e).bind k).WritesFields p (n :: ws) (bitsOf v n ++ bs) e := by
  have h := (writeBits_writesWhole v hn hs.accOpen).bind hs hk
  rwa [length_bitsOf] at h

theorem writeBit_fields (b : Bool) (hs : SinkReady p e) : (writeBit p b e).WritesFields p [1] [b] e :=
  (writeBit_writesWhole b hs.accOpen).last hs

theorem writeBits_fields (v : W64) (hn : n ≤ 64) (hs : SinkReady p e) :
    (writeBits p v n e).WritesFields p [n] (bitsOf v n) e := by
  have h := (writeBits_writesWhole v hn hs.accOpen).last hs
  rwa [length_bitsOf] at h

/-- What follows a word and writes nothing does not change how it ends. -/
theorem Res.WritesFields.bind_ok {r : Res EngineE Unit} (h : r.WritesFields p ws bs e) (put : EngineE → EngineE) :
    (r.bind fun _ e1 => .ok () (put e1)).WritesFields p ws bs e := h.bind fun _ _ hfits => hfits

/-- Where the fields do not all fit, `CAPACITY` is raised. -/
theorem Res.WritesFields.full {r : Res EngineE α} (h : r.WritesFields p ws bs e) (hn : ¬ e.room p ws.sum) :
    ∃ e1, r = .raised .capacity e1 ∧ KeptOf p ws bs e e1 := by
  cases r with
  | ok _ e1 => exact absurd h hn
  | raised g e1 =>
    obtain ⟨rfl, hkept⟩ := h
    exact ⟨e1, rfl, hkept⟩

end Fields

/-! The encoders, field by field (R182, R202, R224). -/

section Encoders
variable {p : Params} {e : EngineE} {r : W64}

/-- `r` writes the code word `w` field by field. -/
abbrev Res.WritesWord (x : Res EngineE Unit) (p : Params) (w : Instr) (e : EngineE) : Prop :=
  x.WritesFields p (writeWidths w) (encodeStream w) e

theorem writeWidths_classWord (n : Nat) (payload : W64) :
    writeWidths (classWord (tsClass n) payload) = [tsPrefixWidth (tsClass n), tsWidth (tsClass n)] := by
  unfold tsClass
  split_ifs <;> rfl

theorem writeDod_writesWord {dod : W64} (h : dodInRange dod = true) (hs : SinkReady p e) :
    (writeDod p dod e).WritesWord p (dodWord dod.toInt) e := by
  by_cases h0 : dod = 0#64
  · subst h0
    rw [writeDod, if_pos rfl]
    exact writeBit_fields false hs
  · rw [writeDod, if_neg h0, if_pos h, Res.WritesWord, dodWord_eq_classWord h0, encodeStream_classWord,
      writeWidths_classWord]
    exact writeBits_bind_fields _ (tsPrefixWidth_le _) hs fun _ hs1 _ => writeBits_fields _ (tsWidth_le _) hs1

theorem tsCompress_writesWord {ts : W64} (h : dodInRange (ts - e.ses.storedTimestamp - e.ses.storedDelta) = true)
    (hs : SinkReady p e) :
    (tsCompress p ts e).WritesWord p (dodWord (ts - e.ses.storedTimestamp - e.ses.storedDelta).toInt) e :=
  (writeDod_writesWord h hs).bind_ok _

theorem compressReuse_fields (hs : SinkReady p e) :
    (compressReuse p r e).WritesFields p [1, e.ses.windowWidth]
      (false :: bitsOf (r >>> e.ses.storedTrailingZeros.toNat) e.ses.windowWidth) e :=
  writeBit_bind_fields false hs fun _ hs1 _ => writeBits_fields _ (windowWidth_le _) hs1

theorem compressNew_fields (hs : SinkReady p e) :
    (compressNew p r e).WritesFields p [1, 6, 6, 64 - clz64 r - ctz64 r]
      (true :: (bitsOf (BitVec.ofNat 64 (clz64 r)) 6 ++ (bitsOf (BitVec.ofNat 64 (64 - clz64 r - ctz64 r - 1)) 6 ++
        bitsOf (r >>> ctz64 r) (64 - clz64 r - ctz64 r)))) e :=
  writeBit_bind_fields true hs fun _ hs1 _ =>
  writeBits_bind_fields _ (by decide) hs1 fun _ hs2 _ =>
  writeBits_bind_fields _ (by decide) hs2 fun _ hs3 _ => (writeBits_fields _ (by omega) hs3).bind_ok _

/-- A residual's word is written field by field, whichever of the three it is (R186). -/
theorem compressResidual_writesWord (r : W64) (hs : SinkReady p e) :
    (compressResidual p r e).WritesWord p (residualWord e.ses r) e := by
  rcases residual_cases e.ses r with rfl | ⟨h0, hf⟩ | ⟨h0, hf⟩
  · rw [residualWord_zero, compressResidual, if_pos rfl]
    exact writeBit_fields false hs
  · rw [residualWord_reuse h0 hf, compressResidual, if_neg h0]
    refine writeBit_bind_fields true hs fun e1 hs1 hses => ?_
    rw [← hses] at hf ⊢
    rw [if_pos hf]
    exact compressReuse_fields hs1
  · rw [residualWord_new h0 hf, Res.WritesWord, encodeStream_valNew_residual h0, writeWidths, (toNat_newFields h0).2,
      compressResidual, if_neg h0]
    refine writeBit_bind_fields true hs fun e1 hs1 hses => ?_
    rw [← hses] at hf
    rw [if_neg hf]
    exact compressNew_fields hs1

theorem writeTerminator_writesWord (hs : SinkReady p e) : (writeTerminator p e).WritesWord p .terminator e := by
  rw [Res.WritesWord, encodeStream, terminatorBits_eq]
  exact writeBits_bind_fields _ (by decide) hs fun _ hs1 _ =>
    writeBits_bind_fields _ (by decide) hs1 fun _ hs2 _ => writeBit_fields false hs2

theorem padZeros_writesWord (k : Nat) (hs : SinkReady p e) : (padZeros p k e).WritesWord p (.padding k) e := by
  induction k generalizing e with
  | zero => exact hs.room
  | succ k ih => exact writeBit_bind_fields false hs fun _ hs1 _ => ih hs1

/-- A code word that does not fit is cut, and `CAPACITY` raised. -/
theorem Res.WritesWord.full {x : Res EngineE Unit} {w : Instr} (h : x.WritesWord p w e)
    (hw : (writeWidths w).sum = (encodeStream w).length) (hn : ¬ e.room p (encodeStream w).length) :
    ∃ e1, x = .raised .capacity e1 ∧ KeptFields p w e e1 := by
  obtain ⟨e1, hraise, hkept⟩ := Res.WritesFields.full h (hw ▸ hn)
  exact ⟨e1, hraise, keptFields_iff.2 hkept⟩

theorem writeWidths_sum_dodWord (dod : Int) : (writeWidths (dodWord dod)).sum = (encodeStream (dodWord dod)).length :=
  writeWidths_sum _ fun l m bits heq => absurd (isTimestampCode_dodWord dod) (by rw [heq]; exact Bool.false_ne_true)

theorem writeWidths_sum_residualWord (ses : Session) (r : W64) :
    (writeWidths (residualWord ses r)).sum = (encodeStream (residualWord ses r)).length :=
  writeWidths_sum _ fun l m bits heq => by
    have hlegal := wordLegal_residualWord ses r
    rw [heq] at hlegal
    exact of_decide_eq_true hlegal

end Encoders

/-! ADD_VALUE and CLOSE (45_framing.md R223, R224): the halves that are through stay. -/

section Commands
variable {p : Params} {e : EngineE} {ts v : W64}

theorem tsWriteFirst_full (hr : firstDeltaInRange (ts - e.ses.blockTimestamp) = true) (hn : ¬ e.room p 27) :
    tsWriteFirst p ts e = .raised .capacity e := by
  rw [tsWriteFirst_inRange hr, writeBits_full _ (by decide) hn, Res.bind_raised]

/-- The delta of a first sample fits and its value does not. -/
theorem addValue_first_cut (hp : e.phase = .ready) (hs : SinkReady p e)
    (hr : firstDeltaInRange (ts - e.ses.blockTimestamp) = true) (hroom : e.room p 27) (hn : ¬ e.room p 91) :
    ∃ e1, addValue p ts v e = .raised .capacity e1 ∧
      Appended p (bitsOf (ts - e.ses.blockTimestamp) 27)
        { e with ses := { e.ses.withTime (ts - e.ses.blockTimestamp) ts with pred := predUpdate v e.ses.pred } } e1 := by
  obtain ⟨e1, ht⟩ := ok_of_room (tsWriteFirst_fills hr hs.accOpen) hroom
  obtain ⟨htime, hses⟩ := tsWriteFirst_wrote hs.accOpen ht
  have hfull : ¬ (e1.update v).room p 64 := fun h => hn (by
    have h91 := (Appended.room_iff htime).1 h
    rwa [length_bitsOf] at h91)
  refine ⟨e1.update v, ?_, ?_⟩
  · rw [addValue_first hp, ht, Res.bind_ok, valWriteFirst, writeBits_full v (by decide) hfull, Res.bind_raised]
  · have hwrote := htime.withSes (e1.update v).ses
    rw [EngineE.update_ses, hses] at hwrote
    rw [EngineE.update, EngineE.withPred, hses]
    exact hwrote

/-- The timestamp word of a later sample fits and its value word does not. -/
theorem addValue_later_cut (hp : e.phase ≠ .ready) (hs : SinkReady p e)
    (hr : dodInRange (ts - e.ses.storedTimestamp - e.ses.storedDelta) = true) {wt wv : Instr}
    (hwt : dodWord (ts - e.ses.storedTimestamp - e.ses.storedDelta).toInt = wt)
    (hwv : residualWord e.ses (predPredict e.ses.pred ^^^ v) = wv)
    (hroom : e.room p (encodeStream wt).length) (hn : ¬ e.room p (sampleBits (wt, wv)).length) :
    ∃ e1 e2, addValue p ts v e = .raised .capacity e2 ∧
      Appended p (encodeStream wt) { e with ses := e.ses.withTime (ts - e.ses.storedTimestamp) ts } e1 ∧
      KeptFields p wv (e1.update v) e2 := by
  subst hwt
  obtain ⟨e1, ht⟩ := ok_of_room (tsCompress_fills hr hs.accOpen) hroom
  obtain ⟨htime, hses⟩ := tsCompress_wrote hs.accOpen ht
  have hpred : e1.ses.pred = e.ses.pred := by rw [hses, Session.withTime_pred]
  have hword : residualWord (e1.update v).ses (predPredict e1.ses.pred ^^^ v) = wv := by
    rw [← hwv, hpred, EngineE.update_ses, hses]
    exact residualWord_congr _ ⟨rfl, rfl⟩
  have hready : SinkReady p (e1.update v) := ⟨htime.accOpen, (Appended.room_iff htime).2 hroom⟩
  have hfull : ¬ (e1.update v).room p (encodeStream wv).length := fun h => hn (by
    rw [sampleBits, List.length_append]
    exact (Appended.room_iff htime).1 h)
  have hwrites := compressResidual_writesWord (predPredict e1.ses.pred ^^^ v) hready
  rw [hword] at hwrites
  obtain ⟨e2, hraise, hkept⟩ := hwrites.full (hwv ▸ writeWidths_sum_residualWord _ _) hfull
  refine ⟨e1, e2, ?_, ?_, hkept⟩
  · rw [addValue_later hp, ht, Res.bind_ok, valCompress, hraise, Res.bind_raised]
  · rw [Wrote, hses] at htime
    exact htime

theorem close_raised {e1 : EngineE} {f : FaultCode} (h : writeTerminator p e = .raised f e1) :
    close p e = .raised f e1 := by
  rw [close, h, Res.bind_raised]

end Commands

/-- An operation of engine E run alone that raises `CAPACITY`. -/
theorem aloneE_full {s : State} {e1 : EngineE} {r : Res EngineE Unit} (h : r = .raised .capacity e1) :
    aloneE r.silent s = .next { s with e := { e1 with fault := .capacity }, ret := .nothing } := by
  rw [h]
  rfl

theorem finishE_full {s : State} {e1 : EngineE} {r : Res EngineE Unit} (h : r = .raised .capacity e1) :
    finishE r s = .next (s.fullAt e1) := finishE_raised h

/-- Settles O18: each encoder writes its word field by field (`compressResidual_writesWord`, `tsCompress_writesWord`,
`writeTerminator_writesWord`, `padZeros_writesWord`), so that what fits of it stays (`Res.WritesWord.full`), and a
command keeps its halves (`addValue_first_cut`, `addValue_later_cut`). -/
theorem capacityKeepsWhatFitted : Obligations.CapacityKeepsWhatFitted := by
  intro s ho h0 alone
  have hs : SinkReady s.params s.e := ⟨ho, h0⟩
  refine ⟨fun v hn => ?_, ?_, fun t hr hn => ?_, ?_, fun hn => ?_, fun n hn => ?_, fun hf => ⟨fun hp ts v => ?_,
    fun hp ts v => ?_, fun hl hn => ?_⟩⟩
  · exact aloneE_full (writeBits_full (e := s.e.update v) v (by decide) hn)
  · intro v w hn
    have hwrites : Res.WritesWord _ s.params w (s.e.update v) :=
      compressResidual_writesWord (e := s.e.update v) (predPredict s.e.ses.pred ^^^ v) ⟨ho, h0⟩
    obtain ⟨e1, hraise, hkept⟩ := hwrites.full (writeWidths_sum_residualWord _ _) hn
    exact ⟨e1, hkept, aloneE_full hraise⟩
  · exact aloneE_full (tsWriteFirst_full hr hn)
  · intro t dod w hr hn
    obtain ⟨e1, hraise, hkept⟩ := (tsCompress_writesWord hr hs).full (writeWidths_sum_dodWord _) hn
    exact ⟨e1, hkept, aloneE_full hraise⟩
  · obtain ⟨e1, hraise, hkept⟩ := (writeTerminator_writesWord hs).full (by decide) hn
    exact ⟨e1, hkept, aloneE_full hraise⟩
  · obtain ⟨e1, hraise, hkept⟩ := (padZeros_writesWord n hs).full (writeWidths_sum _ nofun)
      (by rwa [encodeStream, List.length_replicate])
    exact ⟨e1, hkept, aloneE_full hraise⟩
  · intro delta0 hr
    rw [exec_addValue_live hf (by rw [hp]; rfl)]
    refine ⟨fun hn => finishE_full (addValue_first_raised hp (tsWriteFirst_full hr hn)), fun hroom hn => ?_⟩
    obtain ⟨e1, hraise, happended⟩ := addValue_first_cut hp hs hr hroom hn
    refine ⟨e1, ?_, finishE_full hraise⟩
    rwa [encodeStream, bitsOf_setWidth _ (Nat.le_refl 27)]
  · intro newDelta dod wt wv hr
    obtain ⟨hl, hne⟩ := phaseE_live_of_later hp
    rw [exec_addValue_live hf hl]
    refine ⟨fun hn => ?_, fun hroom hn => ?_⟩
    · obtain ⟨e1, hraise, hkept⟩ := (tsCompress_writesWord hr hs).full (writeWidths_sum_dodWord _) hn
      exact ⟨e1, hkept, finishE_full (addValue_later_raised hne hraise)⟩
    · obtain ⟨e1, e2, hraise, happended, hkept⟩ := addValue_later_cut hne hs hr rfl rfl hroom hn
      exact ⟨e1, e2, happended, hkept, finishE_full hraise⟩
  · obtain ⟨e1, hraise, hkept⟩ := (writeTerminator_writesWord hs).full (by decide) hn
    rw [exec_close_live hf hl]
    exact ⟨e1, hkept, finishE_full (close_raised hraise)⟩

end Machine
end Sys2Proof

/-! MALFORMED (60_exceptions.md R257): VAL_DECOMPRESS where the longest code word's bits are in the source, branch by
branch of its two control bits and two counts (43_value_xor.md R184). -/

namespace Sys2Proof
namespace Machine

section Branches
variable {p : Params} {d : EngineD} {ses : Session} {k n : Nat}

theorem ahead_of_available (h : d.available p n) : Ahead p (d.next p n) d := by
  have hlen : (d.next p n).length = n := length_streamBits _ _
  exact ⟨by rwa [hlen], by rw [hlen]⟩

/-- A field some bits behind the cursor. -/
theorem readBits_moved (hn : n ≤ 64) (h : d.available p (k + n)) :
    readBits p n (d.moved k ses) = .ok (ofBits 64 (streamBits p d (d.rPos + k) n)) (d.moved (k + n) ses) := by
  have hnext : (d.moved k ses).next p n = streamBits p d (d.rPos + k) n :=
    streamBits_congr (d := d) (d1 := d.moved k ses) rfl _ _
  rw [readBits_reads hn ((d.moved_available k ses).2 h), hnext]
  exact congrArg _ (d.moved_moved k n ses ses)

theorem valDecompress_of_zero (h : d.available p 1) (hb : streamBit p d d.rPos = false) :
    ∃ v d1, valDecompress p d = .ok v d1 := by
  have hahead := ahead_of_available h
  rw [EngineD.next, streamBits, streamBits, hb] at hahead
  exact ⟨_, _, valDecompress_same hahead⟩

/-- The first control bit is a 1: the second one tells REUSE from NEW. -/
theorem valDecompress_of_one (h : d.available p 2) (hb : streamBit p d d.rPos = true) :
    valDecompress p d =
      if streamBit p d (d.rPos + 1) then decompressNew p (predPredict d.ses.pred) (d.moved 2 d.ses)
      else decompressReuse p (predPredict d.ses.pred) (d.moved 2 d.ses) := by
  have hahead := ahead_of_available h
  rw [EngineD.next, streamBits, streamBits, streamBits, hb] at hahead
  exact (valDecompress_control hahead).1

/-- REUSE is malformed exactly where there is no window. -/
theorem decompressReuse_noWindow (predicted : W64) (hwin : d.ses.storedLeadingZeros = Config.noWindow) :
    decompressReuse p predicted d = .raised .malformed d := if_pos hwin

theorem decompressReuse_window (predicted : W64) (hwin : d.ses.storedLeadingZeros ≠ Config.noWindow)
    (h : d.available p d.ses.windowWidth) : ∃ v d1, decompressReuse p predicted d = .ok v d1 := by
  rw [decompressReuse, if_neg hwin, readBits_reads (windowWidth_le _) h]
  exact ⟨_, _, rfl⟩

/-- NEW once its two counts `l` and `m` are read. -/
theorem decompressNew_counts (predicted : W64) {l m : Nat} (h : d.available p 14)
    (hl : (ofBits 64 (streamBits p d (d.rPos + 2) 6)).toNat = l)
    (hm : (ofBits 64 (streamBits p d (d.rPos + 8) 6)).toNat = m) :
    decompressNew p predicted (d.moved 2 d.ses) =
      if 64 < l + (m + 1) then .raised .malformed (d.moved 14 d.ses)
      else (readBits p (m + 1) (d.moved 14 (d.ses.withWindow l (64 - (m + 1) - l)))).bind fun v d3 =>
        recordValue ((v <<< (64 - (m + 1) - l)) ^^^ predicted) d3 := by
  subst hl hm
  rw [decompressNew, Config.leadingFieldBits, readBits_moved (by decide) (available_mono (by decide) h), Res.bind_ok,
    Config.lengthFieldBits, readBits_moved (by decide) h, Res.bind_ok]
  rfl

theorem decompressNew_legal (predicted : W64) {l m : Nat} (h : d.available p 78)
    (hl : (ofBits 64 (streamBits p d (d.rPos + 2) 6)).toNat = l)
    (hm : (ofBits 64 (streamBits p d (d.rPos + 8) 6)).toNat = m) (hfit : ¬ 64 < l + (m + 1)) :
    ∃ v d1, decompressNew p predicted (d.moved 2 d.ses) = .ok v d1 := by
  rw [decompressNew_counts predicted (available_mono (by decide) h) hl hm, if_neg hfit,
    readBits_moved (by omega) (available_mono (by omega) h)]
  exact ⟨_, _, rfl⟩

end Branches

/-- A value decoded leaves the fault register. -/
theorem valDecompress_ok_fault {p : Params} {d d1 : EngineD} {v : W64} (h : valDecompress p d = .ok v d1) :
    d1.fault = d.fault := by
  have hstands := valDecompress_standsD (p := p) (d := d) ⟨rfl, rfl⟩
  rw [h] at hstands
  exact hstands.fault

/-- Settles O40: the two raises are the branches `decompressReuse_noWindow` and `decompressNew_counts`; every other
branch has its bits in the source and ends normally. -/
theorem malformedCodesExactly : Obligations.MalformedCodesExactly := by
  intro s hf h b leading significantBits reuseNoWindow badNew
  have h2 : s.d.available s.params 2 := available_mono (by decide) h
  have h14 : s.d.available s.params 14 := available_mono (by decide) h
  refine ⟨fun ⟨hb0, hb1, hwin⟩ => ?_, fun ⟨hb0, hb1, hbad⟩ => ?_, fun hreuse hnew => ?_⟩
  · rw [exec_valDecompress, valDecompress_of_one h2 hb0, if_neg (Bool.eq_false_iff.1 hb1),
      decompressReuse_noWindow (d := s.d.moved 2 s.d.ses) _ hwin]
    rfl
  · rw [exec_valDecompress, valDecompress_of_one h2 hb0, if_pos hb1, decompressNew_counts _ h14 rfl rfl, if_pos hbad]
    rfl
  · have hok : ∃ v d1, valDecompress s.params s.d = .ok v d1 := by
      cases hb0 : streamBit s.params s.d s.d.rPos with
      | false => exact valDecompress_of_zero (available_mono (by decide) h) hb0
      | true =>
        rw [valDecompress_of_one h2 hb0]
        cases hb1 : streamBit s.params s.d (s.d.rPos + 1) with
        | false =>
          have hwidth := windowWidth_le s.d.ses
          refine decompressReuse_window _ (fun hwin => hreuse ⟨hb0, hb1, hwin⟩) ?_
          rw [EngineD.moved_available, EngineD.moved_ses]
          exact available_mono (by omega) h
        | true => exact decompressNew_legal _ h rfl rfl fun hbad => hnew ⟨hb0, hb1, hbad⟩
    obtain ⟨v, d1, hok⟩ := hok
    refine ⟨{ s with d := d1, ret := .word v }, ?_, (valDecompress_ok_fault hok).trans hf⟩
    rw [exec_valDecompress, hok]
    rfl

end Machine
end Sys2Proof

/-! The end of the source inside a code word (60_exceptions.md R253, 41_bitsource.md R141 to R143): a code word is a
sequence of reads, each done whole or not at all, so a decoder that runs out of bits has consumed exactly the reads
before the first one that is not all there. -/

namespace Sys2Proof
namespace Machine

section Cut
variable {p : Params} {d : EngineD} {us ws : List Nat} {ses ses1 : Session} {m n c : Nat} {α β : Type}

/-- `r` raises `SOURCE_EXHAUSTED` inside reads of the widths `ws` that begin at the cursor of `d`: the reads that are
all there are consumed, and the session registers are `ses1`. -/
def Res.CutBy (r : Res EngineD α) (p : Params) (ws : List Nat) (d : EngineD) (ses1 : Session) : Prop :=
  ∃ j, CutAfter (fun n => d.available p n) ws j ∧ r = .raised .sourceExhausted (d.moved (ws.take j).sum ses1)

/-- Reads already done, with any session registers then, come before. -/
theorem Res.CutBy.behind {r : Res EngineD α} (h : r.CutBy p ws (d.moved us.sum ses) ses1) :
    r.CutBy p (us ++ ws) d ses1 := by
  obtain ⟨j, ⟨hj, hfits, hcut⟩, rfl⟩ := h
  have hfits' := (d.moved_available _ ses).1 hfits
  have hcut' := mt (d.moved_available _ ses).2 hcut
  refine ⟨us.length + j, ⟨?_, ?_, ?_⟩, ?_⟩
  · rw [List.length_append]
    omega
  · rwa [List.take_length_add_append, List.sum_append]
  · rwa [Nat.add_assoc, List.take_length_add_append, List.sum_append]
  · rw [List.take_length_add_append, List.sum_append, EngineD.moved_moved]

/-- The first read is not all there. -/
theorem cutBy_first (h0 : d.available p 0) (hn : ¬ d.available p n) :
    (Res.raised .sourceExhausted d : Res EngineD α).CutBy p (n :: ws) d d.ses :=
  ⟨0, ⟨Nat.succ_pos _, h0, by simpa using hn⟩, rfl⟩

/-- The read behind `us` is not all there. -/
theorem cutBy_behind (hus : d.available p us.sum) (hn : ¬ d.available p (us.sum + n)) :
    (Res.raised .sourceExhausted (d.moved us.sum ses) : Res EngineD α).CutBy p (us ++ n :: ws) d ses :=
  (cutBy_first ((d.moved_available _ ses).2 hus) (mt (d.moved_available _ ses).1 hn)).behind

theorem sum_controls (n : Nat) : (List.replicate n 1).sum = n := by
  rw [List.sum_replicate, smul_eq_mul, mul_one]

/-- Bits read one by one: `c` of them are there and no more. -/
theorem cutBy_controls (hc : c < m) (hin : d.available p c) (hend : ¬ d.available p (c + 1)) :
    (Res.raised .sourceExhausted (d.moved c d.ses) : Res EngineD α).CutBy p (List.replicate m 1 ++ ws) d d.ses := by
  have hsplit : List.replicate m 1 ++ ws = List.replicate c 1 ++ 1 :: (List.replicate (m - c - 1) 1 ++ ws) := by
    rw [← List.cons_append, ← List.replicate_succ, ← List.append_assoc, ← List.replicate_add,
      show c + (m - c - 1 + 1) = m by omega]
  have h := cutBy_behind (p := p) (d := d) (us := List.replicate c 1) (ws := List.replicate (m - c - 1) 1 ++ ws)
    (n := 1) (ses := d.ses) (α := α) (by rwa [sum_controls]) (by rwa [sum_controls])
  rwa [sum_controls, ← hsplit] at h

theorem Res.CutBy.bind {r : Res EngineD α} (h : r.CutBy p ws d ses1) (k : α → EngineD → Res EngineD β) :
    (r.bind k).CutBy p ws d ses1 := by
  obtain ⟨j, hj, rfl⟩ := h
  exact ⟨j, hj, rfl⟩

/-- The raise is not in lines that raise nothing. -/
theorem Res.CutBy.of_bind_ok {r : Res EngineD α} {k : α → EngineD → β × EngineD}
    (h : (r.bind fun a d1 => .ok (k a d1).1 (k a d1).2).CutBy p ws d ses1) : r.CutBy p ws d ses1 := by
  obtain ⟨j, hj, hr⟩ := h
  rcases Res.bind_eq_raised.1 hr with hr | ⟨a, d1, -, hok⟩
  · exact ⟨j, hj, hr⟩
  · cases hok

/-! Reads by their length (log 22). -/

theorem consume_cut (h0 : d.available p 0) (hn : ¬ d.available p n) : (consume p n d).CutBy p (n :: ws) d d.ses := by
  rw [consume, if_pos (Nat.not_le.1 hn)]
  exact cutBy_first h0 hn

/-- A field, then the rest of the word. -/
theorem consume_bind_cut {k : Unit → EngineD → Res EngineD α} (h0 : d.available p 0)
    (hk : d.available p n → (k () (d.moved n d.ses)).CutBy p ws (d.moved n d.ses) d.ses) :
    ((consume p n d).bind k).CutBy p (n :: ws) d d.ses := by
  by_cases h : d.available p n
  · rw [consume_available h]
    exact Res.CutBy.behind (us := [n]) (hk h)
  · exact (consume_cut h0 h).bind k

theorem consumeEach_cut (h0 : d.available p 0) (hn : ¬ d.available p n) :
    (consumeEach p n d).CutBy p (List.replicate n 1 ++ ws) d d.ses := by
  have hlo : d.rPos ≤ d.srcLenBits p := h0
  have hhi : ¬ d.rPos + n ≤ d.srcLenBits p := hn
  have hcursor : { d with rPos := max d.rPos (d.srcLenBits p) } = d.moved (d.srcLenBits p - d.rPos) d.ses := by
    rw [EngineD.moved, Nat.max_eq_right hlo, Nat.add_sub_cancel' hlo]
  rw [consumeEach, if_pos (Nat.not_le.1 hn), hcursor]
  refine cutBy_controls (by omega) ?_ ?_
  · rw [EngineD.available]
    omega
  · rw [EngineD.available]
    omega

/-- Control bits, then the rest of the word. -/
theorem consumeEach_bind_cut {k : Unit → EngineD → Res EngineD α} (h0 : d.available p 0)
    (hk : d.available p n → (k () (d.moved n d.ses)).CutBy p ws (d.moved n d.ses) d.ses) :
    ((consumeEach p n d).bind k).CutBy p (List.replicate n 1 ++ ws) d d.ses := by
  by_cases h : d.available p n
  · rw [consumeEach_available h]
    refine Res.CutBy.behind (us := List.replicate n 1) (ses := d.ses) ?_
    rw [sum_controls]
    exact hk h
  · exact (consumeEach_cut h0 h).bind k

end Cut

/-! The code words run alone (30_encoding.md R97 to R105). -/

section Words
variable {p : Params} {d : EngineD} {w : Instr} {α : Type}

/-- `r` raises `SOURCE_EXHAUSTED` inside the code word `w`; a VAL_NEW has written its window once its counts are
read. -/
abbrev Res.CutsWord (r : Res EngineD α) (p : Params) (w : Instr) (d : EngineD) : Prop :=
  r.CutBy p (readWidths w) d (if d.available p 14 then wordWindow d.ses w else d.ses)

/-- A word that leaves the window leaves it where it is cut. -/
theorem Res.CutBy.cutsWord {r : Res EngineD α} (h : r.CutBy p (readWidths w) d d.ses)
    (hw : wordWindow d.ses w = d.ses) : r.CutsWord p w d := by
  rwa [Res.CutsWord, hw, ite_self]

theorem timestampWord_cut {r : Nat} (payload : W64) (h0 : d.available p 0) (hn : ¬ d.available p (tsCodeWidth r)) :
    (timestampWord p r payload d).CutBy p (List.replicate (tsPrefixWidth r) 1 ++ [tsWidth r]) d d.ses :=
  (consumeEach_bind_cut h0 fun h =>
    (consume_cut ((d.moved_available _ _).2 h) (mt (d.moved_available _ _).1 hn)).bind _).bind _

/-- Before any window a REUSE has no tail (R107). -/
theorem windowWidth_noWindow {ses : Session} (h : ses.storedLeadingZeros = Config.noWindow) : ses.windowWidth = 0 := by
  have hno : Config.noWindow.toNat = 4294967295 := rfl
  rw [Session.windowWidth, h, hno]
  omega

theorem reuseWord_cut (bits : W64) (h0 : d.available p 0) (hn : ¬ d.available p (2 + d.ses.windowWidth)) :
    (reuseWord p bits d).CutBy p [1, 1, d.ses.windowWidth] d d.ses := by
  refine consumeEach_bind_cut (n := 2) h0 fun h => ?_
  have hwin : d.ses.storedLeadingZeros ≠ Config.noWindow := fun hno => hn (by
    rwa [windowWidth_noWindow hno])
  rw [EngineD.moved_ses, if_neg hwin]
  exact (consume_cut ((d.moved_available _ _).2 h) (mt (d.moved_available _ _).1 hn)).bind _

/-- A VAL_NEW cut in its control bits or its counts. -/
theorem newWord_cut_counts {ws : List Nat} (leading lengthM1 : Nat) (bits : W64) (h0 : d.available p 0)
    (hn : ¬ d.available p 14) : (newWord p leading lengthM1 bits d).CutBy p ([1, 1, 6, 6] ++ ws) d d.ses := by
  refine consumeEach_bind_cut (n := 2) h0 fun h2 => ?_
  refine consume_bind_cut ((d.moved_available _ _).2 h2) fun h8 => ?_
  refine (consume_cut ((EngineD.moved_available _ _).2 h8) ?_).bind _
  rwa [EngineD.moved_moved, EngineD.moved_available]

/-- A VAL_NEW cut in its tail. -/
theorem newWord_cut_tail {leading lengthM1 : Nat} (bits : W64) (hfit : leading + lengthM1 + 1 ≤ 64)
    (h14 : d.available p 14) (hn : ¬ d.available p (14 + (lengthM1 + 1))) :
    (newWord p leading lengthM1 bits d).CutBy p ([1, 1, 6, 6] ++ [lengthM1 + 1]) d
      (d.ses.withWindow leading (64 - (lengthM1 + 1) - leading)) := by
  rw [newWord_available bits h14, if_neg (by omega)]
  refine (Res.CutBy.behind (us := [1, 1, 6, 6])
    (ses := d.ses.withWindow leading (64 - (lengthM1 + 1) - leading)) ?_).bind _
  exact consume_cut ((d.moved_available _ _).2 h14) (mt (d.moved_available _ _).1 hn)

/-- A VAL_NEW has no tail where R105 calls it impossible, and then it is cut only before. -/
theorem newWord_cutsWord {leading lengthM1 : BitVec 6} {bits : W64} (v : W64) (h0 : d.available p 0)
    (hn : ¬ d.available p (encodeStream (.valNew leading lengthM1 bits)).length) :
    (newWord p leading.toNat lengthM1.toNat v d).CutsWord p (.valNew leading lengthM1 bits) d := by
  have hlen : (encodeStream (.valNew leading lengthM1 bits)).length = _ :=
    Laws.CodeLength.valNew leading lengthM1 bits
  rw [hlen, Laws.rowWidth] at hn
  by_cases h14 : d.available p 14
  · by_cases hfit : leading.toNat + lengthM1.toNat + 1 ≤ 64
    · rw [if_pos hfit] at hn
      rw [Res.CutsWord, if_pos h14, readWidths, if_pos hfit]
      exact newWord_cut_tail v hfit h14 hn
    · rw [if_neg hfit] at hn
      exact absurd h14 hn
  · rw [Res.CutsWord, if_neg h14]
    exact newWord_cut_counts _ _ _ h0 h14

/-- A code word at the cursor whose bits are not all in the source, whatever it is. -/
theorem exec_cutsWord {s : State} {w : Instr} (hsp : Space.read w.space = true) (htail : tailFits s.d.ses w)
    (h0 : s.d.available s.params 0) (hn : ¬ s.d.available s.params (encodeStream w).length) :
    ∃ r : Res EngineD Returned, exec w s = aloneD r s ∧ r.CutsWord s.params w s.d := by
  have hsum : ¬ s.d.available s.params (readWidths w).sum := by
    rwa [readWidths_sum fun htrailer => absurd hsp (by rw [htrailer]; decide)]
  cases w
  case header t => exact ⟨_, exec_header s t, (((consume_cut h0 hsum).bind _).bind _).cutsWord rfl⟩
  case firstDelta x => exact ⟨_, exec_firstDelta s x, ((((consume_cut h0 hsum).bind _).bind _).bind _).cutsWord rfl⟩
  case emptyMarker => exact ⟨_, exec_emptyMarker s, ((((consume_cut h0 hsum).bind _).bind _).bind _).cutsWord rfl⟩
  case firstValue v => exact ⟨_, exec_firstValue s v, (((consume_cut h0 hsum).bind _).bind _).cutsWord rfl⟩
  case tsZero =>
    exact ⟨_, exec_tsZero s, (((consumeEach_cut (n := 1) h0 hsum).bind _).bind _).cutsWord rfl⟩
  case ts7 x => exact ⟨_, exec_ts7 s x, ((timestampWord_cut (r := 1) _ h0 hsum).bind _).cutsWord rfl⟩
  case ts9 x => exact ⟨_, exec_ts9 s x, ((timestampWord_cut (r := 2) _ h0 hsum).bind _).cutsWord rfl⟩
  case ts12 x => exact ⟨_, exec_ts12 s x, ((timestampWord_cut (r := 3) _ h0 hsum).bind _).cutsWord rfl⟩
  case ts32 x => exact ⟨_, exec_ts32 s x, ((timestampWord_cut (r := 4) _ h0 hsum).bind _).cutsWord rfl⟩
  case tsSentinel => exact ⟨_, exec_tsSentinel s, ((timestampWord_cut (r := 4) _ h0 hsum).bind _).cutsWord rfl⟩
  case valSame => exact ⟨_, exec_valSame s, (((consumeEach_cut (n := 1) h0 hsum).bind _).bind _).cutsWord rfl⟩
  case valReuse n bits =>
    obtain rfl := htail n bits rfl
    rw [encodeStream, List.length_cons, List.length_cons, length_bitsOf, Nat.add_assoc, Nat.add_comm] at hn
    exact ⟨_, exec_valReuse s _ bits, ((reuseWord_cut bits h0 hn).bind _).cutsWord rfl⟩
  case valNew leading lengthM1 bits =>
    exact ⟨_, exec_valNew s leading lengthM1 bits, (newWord_cutsWord bits h0 hn).bind _⟩
  all_goals cases hsp

end Words

/-! TS_DECOMPRESS and VAL_DECOMPRESS on a source that ends inside a code word (R184, R205). -/

section Decoders
variable {p : Params} {d : EngineD} {bs pre rest : List Bool} {L r : Nat}

/-- The source ends after the first `L` bits of `bs`, which are ahead. -/
structure EndsAfter (p : Params) (bs : List Bool) (L : Nat) (d : EngineD) : Prop where
  short : L < bs.length
  ahead : Ahead p (bs.take L) d
  ends : ¬ d.available p (L + 1)

theorem EngineD.endsIn.endsAfter {w : Instr} (hin : d.rPos ≤ d.srcLenBits p) (h : d.endsIn p w) :
    ∃ L, EndsAfter p (encodeStream w) L d := by
  obtain ⟨hn, hbits⟩ := h
  have hshort : ¬ d.rPos + (encodeStream w).length ≤ d.srcLenBits p := hn
  have hlen : ((encodeStream w).take (d.srcLenBits p - d.rPos)).length = d.srcLenBits p - d.rPos :=
    List.length_take_of_le (by omega)
  refine ⟨d.srcLenBits p - d.rPos, by omega, ⟨?_, by rwa [hlen]⟩, fun h => ?_⟩
  · rw [hlen, EngineD.available]
    omega
  · have hle : d.rPos + (d.srcLenBits p - d.rPos + 1) ≤ d.srcLenBits p := h
    omega

/-- A front that is all there. -/
theorem EndsAfter.front (h : EndsAfter p (pre ++ rest) L d) (hL : pre.length ≤ L) :
    Ahead p (pre ++ rest.take (L - pre.length)) d := by
  have hahead := h.ahead
  rwa [List.take_append, List.take_of_length_le hL] at hahead

theorem EndsAfter.not_available {n : Nat} (h : EndsAfter p bs L d) (hn : L < n) : ¬ d.available p n :=
  mt (available_mono hn) h.ends

theorem EndsAfter.available {n : Nat} (h : EndsAfter p bs L d) (hn : n ≤ L) : d.available p n := by
  have havail := h.ahead.available
  rw [List.length_take_of_le h.short.le] at havail
  exact available_mono hn havail

/-- A source that ends in the bits that tell the class: TS_DECOMPRESS stops in its run of ones. -/
theorem tsDecompress_cut_prefix {ws : List Nat} (hr : r ≤ 4) (hL : L < tsPrefixWidth r)
    (h : EndsAfter p (tsPrefix r ++ rest) L d) :
    (tsDecompress p d).CutBy p (List.replicate (tsPrefixWidth r) 1 ++ ws) d d.ses := by
  have hle : L ≤ r ∧ L < 4 := by
    rw [tsPrefixWidth] at hL
    split at hL <;> omega
  have hones := h.ahead
  rw [tsPrefix, List.append_assoc, List.take_append_of_le_length (by rw [List.length_replicate]; exact hle.1),
    List.take_replicate, Nat.min_eq_left hle.1, ← List.append_nil (List.replicate L true)] at hones
  have hrun : readRunOfOnes p Config.tsPrefixMax d = .raised .sourceExhausted (d.moved L d.ses) :=
    readRunOfOnes_cut hones.ones hle.2 h.ends
  rw [tsDecompress, hrun]
  exact cutBy_controls hL hones.ones.available h.ends

/-- A source that ends in a code of class `r` other than 0. -/
theorem tsDecompress_cut (hr0 : r ≠ 0) (hr : r ≤ 4) (hrest : rest.length = tsWidth r)
    (h : EndsAfter p (tsPrefix r ++ rest) L d) :
    (tsDecompress p d).CutBy p (List.replicate (tsPrefixWidth r) 1 ++ [tsWidth r]) d d.ses := by
  have hlen := length_tsPrefix hr
  by_cases hL : L < tsPrefixWidth r
  · exact tsDecompress_cut_prefix hr hL h
  · have hfront := h.front (hlen ▸ Nat.not_lt.1 hL)
    have hshort := h.short
    rw [List.length_append, hlen, hrest] at hshort
    have hend : ¬ (d.moved (tsPrefixWidth r) d.ses).available p (tsWidth r) :=
      mt (d.moved_available _ _).1 (h.not_available hshort)
    rw [tsDecompress, readRunOfOnes_tsPrefix hr hfront, Res.bind_ok, if_neg hr0, readBits_exhausted (tsWidth_le r) hend,
      Res.bind_raised]
    have hcut := cutBy_behind (α := Bool × W64) (p := p) (d := d) (us := List.replicate (tsPrefixWidth r) 1)
      (ws := []) (n := tsWidth r) (ses := d.ses)
    rw [sum_controls] at hcut
    exact hcut (hlen ▸ hfront.front.available) (h.not_available hshort)

/-- A source that ends in a timestamp code word, the sentinel among them (R99, R105). -/
theorem tsDecompress_cutsWord {w : Instr} (hsp : w.space = .timestamp) (hin : d.rPos ≤ d.srcLenBits p)
    (h : d.endsIn p w) : (tsDecompress p d).CutsWord p w d := by
  obtain ⟨L, hL⟩ := h.endsAfter hin
  cases w
  case tsZero =>
    exact (tsDecompress_cut_prefix (r := 0) (rest := []) (ws := []) (by decide) hL.short hL).cutsWord rfl
  case ts7 x => exact (tsDecompress_cut (r := 1) (by decide) (by decide) (length_bitsOf x 7) hL).cutsWord rfl
  case ts9 x => exact (tsDecompress_cut (r := 2) (by decide) (by decide) (length_bitsOf x 9) hL).cutsWord rfl
  case ts12 x => exact (tsDecompress_cut (r := 3) (by decide) (by decide) (length_bitsOf x 12) hL).cutsWord rfl
  case ts32 x => exact (tsDecompress_cut (r := 4) (by decide) (by decide) (length_bitsOf x 32) hL).cutsWord rfl
  case tsSentinel =>
    exact (tsDecompress_cut (r := 4) (rest := List.replicate 32 true) (by decide) (by decide) rfl hL).cutsWord rfl
  all_goals cases hsp

/-- A source that ends in the two control bits of a REUSE or a NEW. -/
theorem valDecompress_cut_control {ws : List Nat} (hL : L < 2) (h : EndsAfter p (true :: rest) L d) :
    (valDecompress p d).CutBy p (1 :: 1 :: ws) d d.ses := by
  match L, hL with
  | 0, _ =>
    rw [valDecompress, readBit_exhausted h.ends]
    exact cutBy_first (h.available (Nat.le_refl 0)) h.ends
  | 1, _ =>
    rw [valDecompress_cut_one h.ahead h.ends]
    exact cutBy_behind (us := [1]) (h.available (Nat.le_refl 1)) h.ends

/-- A source that ends in a REUSE. -/
theorem valDecompress_cut_reuse {bits : W64} (h : EndsAfter p (true :: false :: bitsOf bits d.ses.windowWidth) L d) :
    (valDecompress p d).CutBy p [1, 1, d.ses.windowWidth] d d.ses := by
  by_cases hL : L < 2
  · exact valDecompress_cut_control hL h
  · have hfront : Ahead p (true :: false :: _) d := h.front (pre := [true, false]) (Nat.not_lt.1 hL)
    have hshort := h.short
    rw [List.length_cons, List.length_cons, length_bitsOf, Nat.add_assoc, Nat.add_comm] at hshort
    have hend := h.not_available hshort
    have hwin : d.ses.storedLeadingZeros ≠ Config.noWindow := fun hno => by
      rw [windowWidth_noWindow hno] at hshort
      exact hL hshort
    rw [(valDecompress_control hfront).1, if_neg Bool.false_ne_true, decompressReuse, EngineD.moved_ses, if_neg hwin,
      readBits_exhausted (windowWidth_le _) (mt (d.moved_available _ _).1 hend)]
    exact cutBy_behind (us := [1, 1]) (h.available (Nat.not_lt.1 hL)) hend

/-- A source that ends in the counts of a NEW. -/
theorem valDecompress_cut_counts {ws : List Nat} {leading lengthM1 : BitVec 6} (hL : L < 14)
    (h : EndsAfter p (newPrefix leading lengthM1 ++ rest) L d) :
    (valDecompress p d).CutBy p ([1, 1, 6, 6] ++ ws) d d.ses := by
  by_cases h2 : L < 2
  · exact valDecompress_cut_control h2 h
  by_cases h8 : L < 8
  · have hfront : Ahead p (true :: true :: _) d := h.front (pre := [true, true]) (Nat.not_lt.1 h2)
    rw [valDecompress_cut_leading hfront (h.not_available h8)]
    exact cutBy_behind (us := [1, 1]) (h.available (Nat.not_lt.1 h2)) (h.not_available h8)
  · rw [newPrefix, List.cons_append, List.cons_append, List.append_assoc] at h
    have hfront : Ahead p (true :: true :: (bitsOf leading 6 ++ _)) d :=
      h.front (pre := true :: true :: bitsOf leading 6) (by simpa using Nat.not_lt.1 h8)
    rw [valDecompress_cut_length hfront (h.not_available hL)]
    exact cutBy_behind (us := [1, 1, 6]) (h.available (Nat.not_lt.1 h8)) (h.not_available hL)

theorem encodeStream_valNew (leading lengthM1 : BitVec 6) (bits : W64) :
    encodeStream (.valNew leading lengthM1 bits) = newPrefix leading lengthM1 ++
      if leading.toNat + lengthM1.toNat + 1 ≤ 64 then bitsOf bits (lengthM1.toNat + 1) else [] := by
  rw [encodeStream, newPrefix, List.cons_append, List.cons_append, List.append_assoc]

/-- A source that ends in a NEW: behind its counts VAL_DECOMPRESS does what the word does (`newWord_eq_valDecompress`),
whatever its tail says. -/
theorem valDecompress_cut_new {leading lengthM1 : BitVec 6} {bits : W64}
    (h : EndsAfter p (encodeStream (.valNew leading lengthM1 bits)) L d) :
    (valDecompress p d).CutsWord p (.valNew leading lengthM1 bits) d := by
  have hn := h.not_available h.short
  rw [encodeStream_valNew] at h
  by_cases hL : L < 14
  · rw [Res.CutsWord, if_neg (h.not_available hL)]
    exact valDecompress_cut_counts hL h
  · have hprefix : Ahead p (newPrefix leading lengthM1) d :=
      (h.front (pre := newPrefix leading lengthM1) (length_newPrefix ▸ Nat.not_lt.1 hL)).front
    have hword := newWord_cutsWord (leading := leading) (lengthM1 := lengthM1) (bits := bits) 0#64
      (h.available (Nat.zero_le L)) hn
    rw [newWord_eq_valDecompress hprefix fun hfit => ⟨Nat.two_pow_pos _, fun ses havail => ?_⟩] at hword
    · exact Res.CutBy.of_bind_ok (k := fun v d1 => (v, { d1 with phase := .streaming })) hword
    · have hlen : (encodeStream (.valNew leading lengthM1 bits)).length = _ :=
        Laws.CodeLength.valNew leading lengthM1 bits
      rw [hlen, Laws.rowWidth, if_pos hfit] at hn
      exact absurd ((d.moved_available 14 ses).1 havail) hn

/-- A source that ends in a value code word (R101, R105). -/
theorem valDecompress_cutsWord {w : Instr} (hcode : w.isValueCode = true) (htail : tailFits d.ses w)
    (hin : d.rPos ≤ d.srcLenBits p) (h : d.endsIn p w) : (valDecompress p d).CutsWord p w d := by
  obtain ⟨L, hL⟩ := h.endsAfter hin
  cases w
  case valSame =>
    have hend : ¬ d.available p 1 := hL.not_available hL.short
    refine Res.CutBy.cutsWord ?_ rfl
    rw [valDecompress, readBit_exhausted hend]
    exact cutBy_first hin hend
  case valReuse n bits =>
    obtain rfl := htail n bits rfl
    exact (valDecompress_cut_reuse hL).cutsWord rfl
  case valNew leading lengthM1 bits => exact valDecompress_cut_new hL
  all_goals cases hcode

end Decoders

/-! Through the frames. -/

section Frames
variable {s : State} {d : EngineD} {w : Instr}

/-- The registers a cut word leaves, with the fault entered. -/
theorem Res.CutsWord.exists_cutRead {α : Type} {p : Params} {r : Res EngineD α} (h : r.CutsWord p w d) :
    ∃ d1, r = .raised .sourceExhausted d1 ∧ CutRead p w d { d1 with fault := .sourceExhausted } := by
  obtain ⟨j, hj, hr⟩ := h
  exact ⟨_, hr, j, hj, rfl⟩

theorem aloneD_cutRead {r : Res EngineD Returned} (h : r.CutsWord s.params w d) :
    ∃ d1, CutRead s.params w d d1 ∧ aloneD r s = .next { s with d := d1, ret := .nothing } := by
  obtain ⟨d1, rfl, hcut⟩ := h.exists_cutRead
  exact ⟨_, hcut, rfl⟩

theorem finishRead_cut {r : Res EngineD (Option (W64 × W64))} (h : r = .raised .sourceExhausted d) :
    finishRead r s = .next (s.cutAt d) := finishRead_raised h

theorem finishRead_cutRead {r : Res EngineD (Option (W64 × W64))} (h : r.CutsWord s.params w d) :
    ∃ d1, CutRead s.params w d d1 ∧ finishRead r s = .next (s.cutAt d1) := by
  obtain ⟨d1, rfl, hcut⟩ := h.exists_cutRead
  exact ⟨_, hcut, rfl⟩

end Frames

section ReadPair
variable {p : Params} {d : EngineD} {ph : PhaseD}

/-- A timestamp half that raises is all of READ_PAIR (R226). -/
theorem readSample_timestamp_raised {f : FaultCode} {r : Res EngineD (Bool × W64)} {val : EngineD → Res EngineD W64}
    (h : r = .raised f d) : readSample r val ph = .raised f d := by
  rw [h]
  rfl

/-- A value half cut inside its word, behind a timestamp half that is through. -/
theorem readSample_value_cutsWord {w : Instr} {d1 : EngineD} {ts : W64} {r : Res EngineD (Bool × W64)}
    {val : EngineD → Res EngineD W64} (h : r = .ok (false, ts) d1) (hval : (val d1).CutsWord p w d1) :
    (readSample r val ph).CutsWord p w d1 := by
  subst h
  exact Res.CutBy.bind hval _

/-- A first sample whose delta is there and whose value is not. -/
theorem readPair_first_cut {delta : W64} (hp : d.phase = .ready) (h27 : d.available p 27) (h91 : ¬ d.available p 91)
    (hdelta : ofBits 64 (d.next p 27) = delta) (hne : delta ≠ Config.firstDeltaEmpty) :
    readPair p d = .raised .sourceExhausted
      (d.moved 27 (d.ses.withTime delta (d.ses.blockTimestamp + delta))) := by
  have htime : tsReadFirst p d = .ok (false, d.ses.blockTimestamp + delta)
      (d.moved 27 (d.ses.withTime delta (d.ses.blockTimestamp + delta))) := by
    rw [tsReadFirst_available h27, hdelta]
    exact takeFirstDelta_delta hne
  rw [readPair_first hp]
  exact readSample_value_raised htime (valReadFirst_exhausted (mt (d.moved_available _ _).1 h91))

end ReadPair

/-- Settles O42: a word run alone is cut read by read (`exec_cutsWord`), the decoders stop at the same read
(`tsDecompress_cutsWord`, `valDecompress_cutsWord`), and READ_PAIR stops with them. -/
theorem cutWordsRaiseSourceExhausted : Obligations.CutWordsRaiseSourceExhausted := by
  intro s hin
  refine ⟨fun w hsp _ htail hn => ?_, fun w hsp _ hend => ?_, fun w hcode _ htail hend => ?_,
    fun hf hp => ⟨fun hn => ?_, ?_⟩, fun hf hp => ⟨fun w hsp _ hend => ?_, ?_⟩⟩
  · obtain ⟨r, hexec, hcut⟩ := exec_cutsWord hsp htail hin hn
    rw [hexec]
    exact aloneD_cutRead hcut
  · exact aloneD_cutRead ((tsDecompress_cutsWord hsp hin hend).bind _)
  · exact aloneD_cutRead ((valDecompress_cutsWord hcode htail hin hend).bind _)
  · rw [exec_readPair_readable hf (by rw [hp]; rfl), readPair_first hp]
    exact finishRead_cut (readSample_timestamp_raised (tsReadFirst_exhausted hn))
  · intro h27 h91 delta hne
    rw [exec_readPair_readable hf (by rw [hp]; rfl)]
    exact finishRead_cut (readPair_first_cut hp h27 h91 rfl hne)
  · rw [exec_readPair_readable hf (phaseD_readable_of_later hp), readPair_later hp]
    exact finishRead_cutRead ((tsDecompress_cutsWord hsp hin hend).bind _)
  · intro wt wv htcode htwf havail hbits d2 hvcode _ htail hend
    have htime := tsDecompress_word htcode htwf ⟨havail, hbits⟩
    have hin2 : d2.rPos ≤ d2.srcLenBits s.params := havail
    have hvalue : (valDecompress s.params d2).CutsWord s.params wv d2 :=
      valDecompress_cutsWord hvcode htail hin2 hend
    rw [exec_readPair_readable hf (phaseD_readable_of_later hp), readPair_later hp]
    exact finishRead_cutRead (readSample_value_cutsWord htime hvalue)

end Machine
end Sys2Proof

/-! The state after reset (70_reset_and_hazards.md R280, 10_state.md R35): the step itself, and the refusal of every
command that needs a session (45_framing.md R227). -/

namespace Sys2Proof
namespace Machine

section AfterReset
variable {s : State} {rest : List Request} {i : Instr}

theorem step_reset (hin : s.input = .reset :: rest) : step s = .next (hardwareReset { s with input := rest }) :=
  step_of_settled hin rfl

/-- With no fault and no session on engine E, a command that needs a session is refused by its phase. -/
theorem exec_refused_of_not_live (hi : i = .close ∨ ∃ ts v, i = .addValue ts v) (hf : s.e.fault = .none)
    (hl : s.e.phase.live = false) : exec i s = .next (s.refuse .E .refusedPhase) := by
  obtain ⟨body, hrun⟩ := exec_eq_acceptE hi s
  rw [hrun]
  exact acceptE_wrongPhase hf hl

/-- With no fault and no session on engine D, READ_PAIR is refused by its phase. -/
theorem exec_readPair_refused_of_not_readable (hf : s.d.fault = .none) (hr : s.d.phase.readable = false) :
    exec .readPair s = .next (s.refuse .D .refusedPhase) :=
  acceptRead_wrongPhase hf hr

end AfterReset

/-- Settles O10: the step leaves `hardwareReset`, whose registers are R35's rows as the model lists them
(`EngineE.reset`, `EngineD.reset`, each with `Session.reset` and `Pred.reset`), and both engines are then `IDLE` with no
fault, where the frames of R221 refuse by phase. -/
theorem resetGivesEveryRegister : Obligations.ResetGivesEveryRegister := by
  intro s rest hin
  refine ⟨hardwareReset { s with input := rest }, step_reset hin,
    hardwareReset_params _, hardwareReset_input _,
    /- answers -/ rfl, rfl,
    /- phase, fault -/ rfl, rfl, rfl, rfl,
    /- timestamps, delta -/ rfl, rfl, rfl, rfl, rfl, rfl,
    /- window -/ rfl, rfl, rfl, rfl,
    /- predictor -/ rfl, rfl, rfl, rfl, rfl, rfl, rfl, rfl,
    /- cursors, accumulator -/ rfl, rfl, rfl, rfl, rfl,
    fun ts v => ?_, ?_, ?_⟩
  · exact exec_refused_of_not_live (.inr ⟨ts, v, rfl⟩) rfl rfl
  · exact exec_refused_of_not_live (.inl rfl) rfl rfl
  · exact exec_readPair_refused_of_not_readable rfl rfl

end Machine
end Sys2Proof
